-- ==== Sys2Proof/Word.lean ====
section
/-! DEFINITION. The word and byte types of the block's host interface (20 R50, R55). -/

namespace Sys2Proof

/-- A 32-bit register value or command word; bit 0 is the least significant (00 R13). -/
abbrev Word := BitVec 32

/-- One byte of the `IN_BYTE` and `OUT_BYTE` ports (10 R33). -/
abbrev Byte := BitVec 8

end Sys2Proof
end

