-- ==== Sys2Proof/Config.lean ====
section
/-! DEFINITION. What a build of the block fixes: the parameters of 00 R9, the fixed widths, and the identification constant. -/

namespace Sys2Proof

/-- The parameters a model takes as arguments (00 R9; `base` is `BASE`, 20 R48, left OPEN by the spec). The model carries
them in `State.par`, which no step changes (log entry 1). -/
structure Params where
  /-- `P`, the arithmetic coder's precision in bits -/
  p : Nat
  /-- `KMAX`, the largest alphabet size -/
  kmax : Nat
  /-- `OUT_CAP`, the capacity of `OUTBITS` in bits -/
  outCap : Nat
  /-- `IN_CAP`, the capacity of `INBITS` in bits -/
  inCap : Nat
  /-- `BYTE_CAP`, the capacity of each byte FIFO in bytes -/
  byteCap : Nat
  /-- `PAD_LIMIT`, how many zero bits the arithmetic decoder may read past the end of its input -/
  padLimit : Nat
  /-- `BASE`, the address of the register window -/
  base : Nat
  deriving DecidableEq, Repr

/-- The defaults of 00 R9. `BASE` is OPEN: 0 here is the model's choice. DESIGN CHOICE (log entry 2), safe: no rule
of the block reads `BASE`. -/
def Params.default : Params :=
  { p := 32, kmax := 256, outCap := 2 ^ 24, inCap := 2 ^ 24, byteCap := 2 ^ 21, padLimit := 32, base := 0 }

namespace Config

/-- `CW`, the width of counts, the count total, tree weights, `ROOTW` and `STRADDLE` (00 R9). -/
def countWidth : Nat := 32

/-- `2^CW − 1`, the largest value a CW-bit register holds (00 R12). -/
def countMax : Nat := 2 ^ countWidth - 1

/-- `ALPHA_FRAC`, the fraction bits of the decay multiplier (00 R9). -/
def alphaFrac : Nat := 16

/-- The value that stands for alpha = 1: `2^ALPHA_FRAC` (10 R36). -/
def alphaOne : Nat := 2 ^ alphaFrac

/-- `2^32 − 1`, the largest value of a 32-bit register (10 R35). -/
def wordMax : Nat := 2 ^ 32 - 1

/-- The identification register's constant, ASCII "CZAC" (00 R3, 10 R42). -/
def idValue : Word := 0x435A4143#32

end Config
end Sys2Proof
end

