-- ==== Sys2Proof/Syntax.lean ====
section
/-! DEFINITION. The commands of the block: one constructor per row of spec/opcode_table.json (30 R69). -/

namespace Sys2Proof

/-- A command. Operands of forms U24 and S24 are unsigned numbers (30 R68) whose bound is `WellFormed`'s; the operand of
form B is a bit. -/
inductive Instr where
  | nop
  | abort
  | dbgRead (sel : Nat)
  | bsClearOut
  | bsClearIn
  | bsPutBit (b : Bool)
  | bsGetBit
  | bsGammaPut (n : Nat)
  | bsGammaGet
  | bsPack
  | bsUnpack
  | bsInBit (b : Bool)
  | bsLoopback
  | bsPeekOut (i : Nat)
  | modelInit
  | modelUpdate (a : Nat)
  | modelDecay
  | modelCount (a : Nat)
  | modelCum (a : Nat)
  | modelTotal
  | acEncStart
  | acEncSym (a : Nat)
  | acEncFinish
  | acDecStart
  | acDecSym
  | ahEncStart
  | ahEncSym (a : Nat)
  | ahDecStart
  | ahDecSym
  | ahUpdate (a : Nat)
  | ahDecay
  | ahReadW (q : Nat)
  | ahReadC (q : Nat)
  | ahReadParent (k : Nat)
  | ahReadLoc (a : Nat)
  deriving DecidableEq, Repr

end Sys2Proof
end

