-- ==== Sys2Proof/WellFormed.lean ====
section
/-! DEFINITION. Which commands a command word can stand for: the operand of forms U24 and S24 is a 24-bit number (30 R67, R68). -/

namespace Sys2Proof

/-- An operand fits `imm[23:0]`. -/
abbrev OperandFits (n : Nat) : Prop := n < 2 ^ 24

/-- A command whose operand its encoding can hold. Forms Z and B have nothing to check. -/
abbrev WellFormed (i : Instr) : Prop :=
  match i with
  | .nop => True
  | .abort => True
  | .dbgRead sel => OperandFits sel
  | .bsClearOut => True
  | .bsClearIn => True
  | .bsPutBit _ => True
  | .bsGetBit => True
  | .bsGammaPut n => OperandFits n
  | .bsGammaGet => True
  | .bsPack => True
  | .bsUnpack => True
  | .bsInBit _ => True
  | .bsLoopback => True
  | .bsPeekOut i => OperandFits i
  | .modelInit => True
  | .modelUpdate a => OperandFits a
  | .modelDecay => True
  | .modelCount a => OperandFits a
  | .modelCum a => OperandFits a
  | .modelTotal => True
  | .acEncStart => True
  | .acEncSym a => OperandFits a
  | .acEncFinish => True
  | .acDecStart => True
  | .acDecSym => True
  | .ahEncStart => True
  | .ahEncSym a => OperandFits a
  | .ahDecStart => True
  | .ahDecSym => True
  | .ahUpdate a => OperandFits a
  | .ahDecay => True
  | .ahReadW q => OperandFits q
  | .ahReadC q => OperandFits q
  | .ahReadParent k => OperandFits k
  | .ahReadLoc a => OperandFits a

end Sys2Proof
end

