-- ==== Sys2Proof/Decode.lean ====
section
/-! DEFINITION. Command words: the decoder of format F24, total on any word and rejecting by name (30 R67 to R72), then the encoder,
written from the same opcode map. -/

namespace Sys2Proof

/-- Why a command word is no command (30 R70). -/
inductive DecodeError where
  /-- the opcode is not in the map of 30 R69 -/
  | illegalOpcode (op : Nat)
  /-- the opcode is legal and a reserved operand bit is not 0 (30 R68) -/
  | reservedBits (op : Nat)
  deriving DecidableEq, Repr

/-- `c[31:24]`. -/
def opcodeOf (c : Word) : Nat := c.toNat / 2 ^ 24

/-- `c[23:0]`. -/
def immOf (c : Word) : Nat := c.toNat % 2 ^ 24

/-- Form Z: the operand field is reserved and must be 0. -/
def formZ (op imm : Nat) (i : Instr) : Except DecodeError Instr :=
  if imm = 0 then .ok i else .error (.reservedBits op)

/-- Form B: `b = imm[0]`; `imm[23:1]` is reserved and must be 0. -/
def formB (op imm : Nat) (mk : Bool → Instr) : Except DecodeError Instr :=
  if imm / 2 = 0 then .ok (mk (imm % 2 == 1)) else .error (.reservedBits op)

/-- Forms U24 and S24: the operand is `zext_32(imm)`; nothing is reserved. -/
def formN (imm : Nat) (mk : Nat → Instr) : Except DecodeError Instr := .ok (mk imm)

/-- The opcode map of 30 R69, applied to the two fields of a command word. -/
def decodeFields (op imm : Nat) : Except DecodeError Instr :=
  match op with
  | 0x00 => formZ op imm .nop
  | 0x01 => formZ op imm .abort
  | 0x02 => formN imm .dbgRead
  | 0x10 => formZ op imm .bsClearOut
  | 0x11 => formZ op imm .bsClearIn
  | 0x12 => formB op imm .bsPutBit
  | 0x13 => formZ op imm .bsGetBit
  | 0x14 => formN imm .bsGammaPut
  | 0x15 => formZ op imm .bsGammaGet
  | 0x16 => formZ op imm .bsPack
  | 0x17 => formZ op imm .bsUnpack
  | 0x18 => formB op imm .bsInBit
  | 0x19 => formZ op imm .bsLoopback
  | 0x1A => formN imm .bsPeekOut
  | 0x20 => formZ op imm .modelInit
  | 0x21 => formN imm .modelUpdate
  | 0x22 => formZ op imm .modelDecay
  | 0x23 => formN imm .modelCount
  | 0x24 => formN imm .modelCum
  | 0x25 => formZ op imm .modelTotal
  | 0x30 => formZ op imm .acEncStart
  | 0x31 => formN imm .acEncSym
  | 0x32 => formZ op imm .acEncFinish
  | 0x33 => formZ op imm .acDecStart
  | 0x34 => formZ op imm .acDecSym
  | 0x40 => formZ op imm .ahEncStart
  | 0x41 => formN imm .ahEncSym
  | 0x42 => formZ op imm .ahDecStart
  | 0x43 => formZ op imm .ahDecSym
  | 0x44 => formN imm .ahUpdate
  | 0x45 => formZ op imm .ahDecay
  | 0x48 => formN imm .ahReadW
  | 0x49 => formN imm .ahReadC
  | 0x4A => formN imm .ahReadParent
  | 0x4B => formN imm .ahReadLoc
  | _ => .error (.illegalOpcode op)

/-- Decode one command word. -/
def decode (c : Word) : Except DecodeError Instr := decodeFields (opcodeOf c) (immOf c)

/-- The opcode of a command (30 R69). -/
def Instr.opcode : Instr → Nat
  | .nop => 0x00
  | .abort => 0x01
  | .dbgRead _ => 0x02
  | .bsClearOut => 0x10
  | .bsClearIn => 0x11
  | .bsPutBit _ => 0x12
  | .bsGetBit => 0x13
  | .bsGammaPut _ => 0x14
  | .bsGammaGet => 0x15
  | .bsPack => 0x16
  | .bsUnpack => 0x17
  | .bsInBit _ => 0x18
  | .bsLoopback => 0x19
  | .bsPeekOut _ => 0x1A
  | .modelInit => 0x20
  | .modelUpdate _ => 0x21
  | .modelDecay => 0x22
  | .modelCount _ => 0x23
  | .modelCum _ => 0x24
  | .modelTotal => 0x25
  | .acEncStart => 0x30
  | .acEncSym _ => 0x31
  | .acEncFinish => 0x32
  | .acDecStart => 0x33
  | .acDecSym => 0x34
  | .ahEncStart => 0x40
  | .ahEncSym _ => 0x41
  | .ahDecStart => 0x42
  | .ahDecSym => 0x43
  | .ahUpdate _ => 0x44
  | .ahDecay => 0x45
  | .ahReadW _ => 0x48
  | .ahReadC _ => 0x49
  | .ahReadParent _ => 0x4A
  | .ahReadLoc _ => 0x4B

/-- The operand field of a command: 0 for form Z, the bit for form B, the number for forms U24 and S24 (30 R68). -/
def Instr.operand : Instr → Nat
  | .nop => 0
  | .abort => 0
  | .dbgRead sel => sel
  | .bsClearOut => 0
  | .bsClearIn => 0
  | .bsPutBit b => b.toNat
  | .bsGetBit => 0
  | .bsGammaPut n => n
  | .bsGammaGet => 0
  | .bsPack => 0
  | .bsUnpack => 0
  | .bsInBit b => b.toNat
  | .bsLoopback => 0
  | .bsPeekOut i => i
  | .modelInit => 0
  | .modelUpdate a => a
  | .modelDecay => 0
  | .modelCount a => a
  | .modelCum a => a
  | .modelTotal => 0
  | .acEncStart => 0
  | .acEncSym a => a
  | .acEncFinish => 0
  | .acDecStart => 0
  | .acDecSym => 0
  | .ahEncStart => 0
  | .ahEncSym a => a
  | .ahDecStart => 0
  | .ahDecSym => 0
  | .ahUpdate a => a
  | .ahDecay => 0
  | .ahReadW q => q
  | .ahReadC q => q
  | .ahReadParent k => k
  | .ahReadLoc a => a

/-- The command word of a command: the opcode in `[31:24]`, the operand in `[23:0]` (30 R67). -/
def encode (i : Instr) : Word := BitVec.ofNat 32 (i.opcode * 2 ^ 24 + i.operand)

/-- The decoder, asked about a word given by its bits. A command word has 32 bits and no second word; the bits above `nbits` are 0. -/
def decodeTableWord (nbits w : Nat) : Option Instr :=
  match decode (BitVec.ofNat 32 (w % 2 ^ nbits)) with
  | .ok i => some i
  | .error _ => none

end Sys2Proof
end

