-- ==== Sys2Proof/Machine/State.lean ====
section
/-! DEFINITION. The state of the block, grouped as 10 R19 groups it, its reset value (70 R164), and the reasons a step can stop. -/

namespace Sys2Proof.Machine

/-- `MODE` (10 R34). Values 5 to 7 never occur. -/
inductive Mode where
  | idle | acEnc | acDec | ahEnc | ahDec
  deriving DecidableEq, Repr

/-- `FAULT_CODE` (60 R147). Codes 11 to 15 are never written. -/
inductive FaultCode where
  | none | illegalCommand | sequenceError | configInvalid | zeroInterval | symbolNotInAlphabet | invariantViolation
  | truncatedStream | capacityExceeded | streamInconsistent | operandRange
  deriving DecidableEq, Repr

/-- A child value: the contents of a slot, or the tree's root (10 R27). -/
inductive Child where
  | leaf (a : Nat)
  | nyt
  | node (k : Nat)
  deriving DecidableEq, Repr

/-- A leaf key: a symbol, or the NYT key (10 R31). -/
inductive Key where
  | sym (a : Nat)
  | nyt
  deriving DecidableEq, Repr

/-- A location (10 R31). Slot `b` of a pair is `false` for slot 0 and `true` for slot 1. -/
inductive Loc where
  | absent
  | atRoot
  | atSlot (k : Nat) (b : Bool)
  deriving DecidableEq, Repr

/-- A sibling pair (10 R28): the weights and child values of slots 0 and 1, and the parent reference. -/
structure Pair where
  w0 : Nat
  w1 : Nat
  c0 : Child
  c1 : Child
  parent : Option (Nat × Bool)
  deriving DecidableEq, Repr

/-- The contents of a table entry at reset (70 R164). -/
def Pair.reset : Pair := { w0 := 0, w1 := 0, c0 := .nyt, c1 := .nyt, parent := none }

/-- Group 1: the arithmetic-coder working registers (10 R23), as numbers whose widths are an invariant (00 R12, log entry 4). -/
structure Coder where
  lo : Nat
  hi : Nat
  value : Nat
  straddle : Nat
  padUsed : Nat
  deriving DecidableEq, Repr

/-- Group 2: the symbol model (10 R25, R26). `count` holds `COUNT[0..KMAX−1]`. -/
structure Model where
  count : List Nat
  valid : Bool
  deriving DecidableEq, Repr

/-- Group 3: the tree arena (10 R28 to R32). `pairs` holds `PAIR[0..KMAX−1]`, `locSym` the symbols' entries of `LOC`, `locNyt` the NYT's. -/
structure Tree where
  pairs : List Pair
  m : Nat
  root : Child
  rootW : Nat
  locSym : List Loc
  locNyt : Loc
  valid : Bool
  deriving DecidableEq, Repr

/-- Group 4: the bit and byte buffers (10 R33), oldest element first. -/
structure Buffers where
  outBits : List Bool
  inBits : List Bool
  inPos : Nat
  outBytes : List Byte
  inBytes : List Byte
  deriving DecidableEq, Repr

/-- The fields of `CFG` and of `ACFG` (10 R36, R37). -/
structure Conf where
  k : BitVec 16
  n : BitVec 32
  alpha : BitVec 17
  decayEn : Bool
  growth : Bool
  remove : Bool
  deriving DecidableEq, Repr

/-- Group 5: the control state (10 R34 to R41). -/
structure Control where
  mode : Mode
  symCount : Nat
  acfg : Conf
  cfg : Conf
  irqEn : Bool
  faultCode : FaultCode
  faultInfo : Word
  faultCmd : Word
  dropped : Bool
  result : Word
  resultValid : Bool
  deriving DecidableEq, Repr

/-- The width of a host access (20 R51). -/
inductive Width where
  | byte | half | word
  deriving DecidableEq, Repr

/-- One host access at an offset of the 64-byte window (20 R48, R50). DESIGN CHOICE (log entry 15), safe. -/
inductive HostAccess where
  | read (off : BitVec 6) (w : Width)
  | write (off : BitVec 6) (w : Width) (v : Word)
  deriving DecidableEq, Repr

/-- The model's own fields, not the block's state: the host's run (70 R173). DESIGN CHOICE (log entry 3), safe. -/
structure HostPort where
  /-- the host accesses not yet applied, oldest first -/
  pending : List HostAccess
  /-- the values the block has returned to host reads, oldest first -/
  observed : List Word
  deriving DecidableEq, Repr

/-- The whole state. `par` is the build's parameters (00 R9, log entry 1). -/
structure State where
  par : Params
  coder : Coder
  model : Model
  tree : Tree
  buf : Buffers
  ctl : Control
  host : HostPort
  deriving DecidableEq, Repr

/-- The reset `CFG`: K = KMAX, N = 0, alpha = 1, decay off, growth on, no eviction (10 R36, 70 R164). -/
def Conf.reset (kmax : Nat) : Conf :=
  { k := BitVec.ofNat 16 kmax, n := 0#32, alpha := 0x10000#17, decayEn := false, growth := true, remove := false }

/-- The coder registers at reset (70 R164). -/
def Coder.reset : Coder := { lo := 0, hi := 0, value := 0, straddle := 0, padUsed := 0 }

/-- The symbol model at reset (70 R164). -/
def Model.reset (kmax : Nat) : Model := { count := List.replicate kmax 0, valid := false }

/-- The tree arena at reset (70 R164). -/
def Tree.reset (kmax : Nat) : Tree :=
  { pairs := List.replicate kmax Pair.reset, m := 0, root := .nyt, rootW := 0,
    locSym := List.replicate kmax .absent, locNyt := .absent, valid := false }

/-- The buffers at reset (70 R164). -/
def Buffers.reset : Buffers := { outBits := [], inBits := [], inPos := 0, outBytes := [], inBytes := [] }

/-- The control state at reset (70 R164). -/
def Control.reset (kmax : Nat) : Control :=
  { mode := .idle, symCount := 0, acfg := Conf.reset kmax, cfg := Conf.reset kmax, irqEn := false,
    faultCode := .none, faultInfo := 0#32, faultCmd := 0#32, dropped := false, result := 0#32, resultValid := false }

/-- The reset state of a build with parameters `par` (70 R164), with no host access pending. -/
def State.resetWith (par : Params) : State :=
  { par := par, coder := Coder.reset, model := Model.reset par.kmax, tree := Tree.reset par.kmax, buf := Buffers.reset,
    ctl := Control.reset par.kmax, host := { pending := [], observed := [] } }

/-- The machine right after reset, at the default parameters (00 R9, 70 R164). -/
def State.reset : State := State.resetWith Params.default

/-- Reasons the machine stops. The spec has none: every fault of the block is a recorded fault, a next state (60 R150).
These stand only for what the spec's loops do in states that break its invariants (41 R95, 42 R102), where they would not end,
or would leave the natural numbers, or would read a location that is not there. Each is safe: the model stops where nothing
is described. Log entry 6. -/
inductive Fault where
  /-- `renorm` (41 R90) made more passes than 41 R91 allows; raised by `AC_ENC_SYM` and `AC_DEC_SYM`; safe -/
  | renormDiverged
  /-- `VALUE` would go below 0 in a renormalization pass (41 R90); raised by `AC_DEC_SYM`; safe -/
  | valueBelowZero
  /-- a chain of parent references longer than `M` (42 R103, R104, R108); raised by `AH_ENC_SYM`, `AH_DEC_SYM`, `AH_UPDATE`; safe -/
  | parentChainDiverged
  /-- the slide of 42 R108 made more swaps than there are positions; raised by `AH_ENC_SYM`, `AH_DEC_SYM`, `AH_UPDATE`; safe -/
  | slideDiverged
  /-- no position is a candidate for the weight-class leader (42 R107); raised by `AH_ENC_SYM`, `AH_DEC_SYM`, `AH_UPDATE`; safe -/
  | noLeader
  /-- a tree procedure was called for a leaf key that has no location (42 R108, R109); raised by `AH_ENC_SYM`, `AH_DEC_SYM`,
  `AH_UPDATE`; safe -/
  | leafNotPlaced
  /-- `treeRebuild` was given no leaf (42 R111); raised by `AH_ENC_SYM`, `AH_DEC_SYM`, `AH_DECAY`; safe -/
  | emptyRebuild
  deriving DecidableEq, Repr

/-- Reasons a step has no meaning. -/
inductive Refusal where
  /-- the command has no meaning in the model yet; raised by `exec`'s arm of that command, named as spec/opcode_table.json names it;
  safe. No arm raises it: every command is modelled. -/
  | notModelled (mnemonic : String)
  deriving DecidableEq, Repr

/-- How a procedure of the spec ends early: it raises a fault of the block (00 R15), or it reaches one of `Fault`'s states. -/
inductive Stop where
  | raised (f : FaultCode) (info : Word)
  | stuck (f : Fault)
  deriving DecidableEq, Repr

end Sys2Proof.Machine
end

