-- ==== Sys2Proof/Machine/Operands.lean ====
section
/-! DEFINITION. Number, bit-field and bit-order helpers, and the encodings of values the host reads: every form in which the commands take or
return a value. -/

namespace Sys2Proof.Machine

/-- `ceil_div(a, b)` (00 R12). -/
def ceilDiv (a b : Nat) : Nat := (a + b - 1) / b

/-- `ONE = 2^P − 1` (00 R10). -/
def one (p : Nat) : Nat := 2 ^ p - 1

/-- `QUARTER = ceil(ONE/4)` (00 R10). -/
def quarter (p : Nat) : Nat := ceilDiv (one p) 4

/-- `HALF = 2·QUARTER` (00 R10). -/
def half (p : Nat) : Nat := 2 * quarter p

/-- `TQ = 3·QUARTER` (00 R10). -/
def threeQuarters (p : Nat) : Nat := 3 * quarter p

/-- `RB(K) = ceil(log2 K)` (00 R11). -/
def rawWidth (k : Nat) : Nat := if k ≤ 1 then 0 else Nat.log2 (k - 1) + 1

/-- `bitsMSB(v, n)`: the `n` low bits of `v`, bit `n−1` first (00 R14). -/
def bitsMSB (v : Nat) : Nat → List Bool
  | 0 => []
  | n + 1 => v.testBit n :: bitsMSB v n

/-- The Elias-gamma code of a count `n` (44 R125): `k` zeros, then the `k + 1` digits of `m = n + 1`. -/
def gammaCode (n : Nat) : List Bool :=
  List.replicate (Nat.log2 (n + 1)) false ++ bitsMSB (n + 1) (Nat.log2 (n + 1) + 1)

/-- Eight bits as a byte, the first as bit 7 (20 R53, 44 R132). -/
def byteOfBits (b7 b6 b5 b4 b3 b2 b1 b0 : Bool) : Byte :=
  BitVec.ofNat 8 (128 * b7.toNat + 64 * b6.toNat + 32 * b5.toNat + 16 * b4.toNat + 8 * b3.toNat + 4 * b2.toNat + 2 * b1.toNat
    + b0.toNat)

/-- Bits grouped into bytes, eight at a time (44 R132); the callers give a whole number of bytes. -/
def packBytes : List Bool → List Byte
  | b7 :: b6 :: b5 :: b4 :: b3 :: b2 :: b1 :: b0 :: rest => byteOfBits b7 b6 b5 b4 b3 b2 b1 b0 :: packBytes rest
  | _ => []

/-- Bytes as bits, in FIFO order, bit 7 of each first (44 R133). -/
def unpackBytes (bytes : List Byte) : List Bool := bytes.flatMap fun v => bitsMSB v.toNat 8

/-- The padding count of `BS_PACK` for `len` bits (44 R132). -/
def padCount (len : Nat) : Nat := (8 - (3 + len) % 8) % 8

/-- The position `q = 2k + b` of slot `b` of pair `k` (10 R29). -/
def slotPos (k : Nat) (b : Bool) : Nat := 2 * k + b.toNat

/-- The slot `q mod 2` of a position. -/
def slotOf (q : Nat) : Bool := q % 2 == 1

/-- The 32-bit child code of a child value (10 R27, 45 R142). -/
def childCode : Child → Word
  | .leaf a => 0x40000000#32 ||| BitVec.ofNat 32 a
  | .nyt => 0x80000000#32
  | .node k => 0xC0000000#32 ||| BitVec.ofNat 32 k

/-- The 32-bit location code of a location (10 R31, 45 R144). -/
def locCode : Loc → Word
  | .absent => 0#32
  | .atRoot => 0x40000000#32
  | .atSlot k b => 0x80000000#32 ||| BitVec.ofNat 32 (slotPos k b)

/-- What `AH_READ_PARENT` returns for a parent reference (45 R143). -/
def parentCode : Option (Nat × Bool) → Word
  | none => 0#32
  | some (j, b) => 0x80000000#32 ||| BitVec.ofNat 32 (slotPos j b)

/-- The operand of `AH_READ_LOC` that names the NYT key (45 R144). -/
def nytOperand : Nat := 0xFFFFFF

/-- `scale(w)`, the decay rounding of one count or leaf weight, under the latched configuration (40 R78). -/
def scale (acfg : Conf) (w : Nat) : Nat :=
  if acfg.remove then w * acfg.alpha.toNat / Config.alphaOne else ceilDiv (w * acfg.alpha.toNat) Config.alphaOne

/-- Decay is active (10 R38). -/
def Conf.decayActive (acfg : Conf) : Bool := acfg.decayEn && decide (acfg.alpha.toNat < Config.alphaOne)

/-- The flags of a configuration as `CFG_FLAGS` and `DBG_READ 17` show them: `REMOVE·4 + GROWTH·2 + DECAY_EN` (20 R49, 45 R140). -/
def Conf.flags (c : Conf) : Word := BitVec.ofNat 32 (4 * c.remove.toNat + 2 * c.growth.toNat + c.decayEn.toNat)

end Sys2Proof.Machine
end

