-- ==== Sys2Proof/Machine/Flags.lean ====
section
/-! DEFINITION. The status fields: fault and mode numbers, the `STATUS`, `CTRL` and `PARAM` words, and the interrupt level. -/

namespace Sys2Proof.Machine

/-- The number of a fault code (60 R147). -/
def FaultCode.code : FaultCode → BitVec 4
  | .none => 0#4
  | .illegalCommand => 1#4
  | .sequenceError => 2#4
  | .configInvalid => 3#4
  | .zeroInterval => 4#4
  | .symbolNotInAlphabet => 5#4
  | .invariantViolation => 6#4
  | .truncatedStream => 7#4
  | .capacityExceeded => 8#4
  | .streamInconsistent => 9#4
  | .operandRange => 10#4

/-- The number of a mode (10 R34). -/
def Mode.code : Mode → BitVec 3
  | .idle => 0#3
  | .acEnc => 1#3
  | .acDec => 2#3
  | .ahEnc => 3#3
  | .ahDec => 4#3

/-- `FAULT`: a fault is recorded (10 R39). -/
def State.faulted (s : State) : Bool := s.ctl.faultCode != .none

/-- The interrupt output: the level `FAULT ∧ IRQ_EN` (60 R157). Where it goes is left out: DESIGN CHOICE (log entry 13), safe. -/
def State.irq (s : State) : Bool := s.faulted && s.ctl.irqEn

/-- `STATUS` (10 R44); `BUSY` is always 0 (70 R172; log entry 12). -/
def State.statusWord (s : State) : Word :=
  0#12 ++ s.ctl.faultCode.code ++ 0#6 ++ BitVec.ofBool s.irq ++ BitVec.ofBool s.tree.valid ++ BitVec.ofBool s.model.valid
    ++ s.ctl.mode.code ++ BitVec.ofBool s.ctl.dropped ++ BitVec.ofBool s.ctl.resultValid ++ BitVec.ofBool s.faulted ++ 0#1

/-- `CTRL` as read: `IRQ_EN` in bit 0 (10 R43). -/
def State.ctrlWord (s : State) : Word := 0#31 ++ BitVec.ofBool s.ctl.irqEn

/-- `PARAM`: KMAX in `[31:16]`, P in `[5:0]` (10 R45). -/
def State.paramWord (s : State) : Word := BitVec.ofNat 16 s.par.kmax ++ 0#10 ++ BitVec.ofNat 6 s.par.p

end Sys2Proof.Machine
end

