-- ==== Sys2Proof/Machine/Ops.lean ====
section
/-! DEFINITION. The named operations over the state: group updates, fault entry and clearing, carrying out a command, the bit sink and source,
the configuration latch. -/

namespace Sys2Proof.Machine

/-! ### Group updates -/

/-- Replace the coder registers. -/
def State.withCoder (s : State) (c : Coder) : State := { s with coder := c }

/-- Replace the symbol model. -/
def State.withModel (s : State) (m : Model) : State := { s with model := m }

/-- Replace the tree. -/
def State.withTree (s : State) (t : Tree) : State := { s with tree := t }

/-- Replace the buffers. -/
def State.withBuf (s : State) (b : Buffers) : State := { s with buf := b }

/-- Replace the control state. -/
def State.withCtl (s : State) (c : Control) : State := { s with ctl := c }

/-- Replace the host's part. -/
def State.withHost (s : State) (h : HostPort) : State := { s with host := h }

/-- `MODE ← m`. -/
def State.withMode (s : State) (m : Mode) : State := s.withCtl { s.ctl with mode := m }

/-- `MODEL_VALID ← v`. -/
def State.withModelValid (s : State) (v : Bool) : State := s.withModel { s.model with valid := v }

/-- `TREE_VALID ← v`. -/
def State.withTreeValid (s : State) (v : Bool) : State := s.withTree { s.tree with valid := v }

/-! ### Faults -/

/-- Fault entry (60 R150), applied to the state before the command, which is how the command's writes are rolled back
(60 R149): the fault record is written, `RESULT_VALID` cleared, nothing else changes. -/
def State.enterFault (s : State) (f : FaultCode) (info : Word) (c : Word) : State :=
  s.withCtl { s.ctl with faultCode := f, faultInfo := info, faultCmd := c, resultValid := false }

/-- A dropped command (60 R152). -/
def State.dropCommand (s : State) : State := s.withCtl { s.ctl with dropped := true, resultValid := false }

/-- `clearFault()` (60 R153). -/
def State.clearFault (s : State) : State :=
  s.withCtl { s.ctl with faultCode := .none, faultInfo := 0#32, faultCmd := 0#32, dropped := false }

/-- The end of a command that completes (10 R40): it returns a value, or nothing. -/
def State.complete (s : State) : Option Word → State
  | some v => s.withCtl { s.ctl with result := v, resultValid := true }
  | none => s.withCtl { s.ctl with resultValid := false }

/-- The opcodes carried out while `FAULT = 1` (60 R152). -/
def allowedInFault (op : Nat) : Bool :=
  [0x00, 0x01, 0x02, 0x10, 0x11, 0x23, 0x24, 0x25, 0x30, 0x33, 0x40, 0x42, 0x48, 0x49, 0x4A, 0x4B].contains op

/-- What a command's own rule gives: the value returned, if any, and the state with the command's writes; or why it ends early. -/
abbrev Result := Except Stop (Option Word × State)

/-- `raise F(info)` (00 R15). -/
def raise {α : Type} (f : FaultCode) (info : Nat) : Except Stop α := .error (.raised f (BitVec.ofNat 32 info))

/-- The spec's loop is at a point its invariants exclude (log entry 6). -/
def stuck {α : Type} (f : Fault) : Except Stop α := .error (.stuck f)

/-- Carry out one command as one atomic step (60 R149, R150, R152). `body` is the command's own rule.
`FAULT_CMD` gets the delivered word, which is `encode i`: DEDUCED (log entry 14), safe. -/
def runCommand (i : Instr) (body : State → Result) (s : State) : Host.Outcome State Fault Refusal :=
  if !allowedInFault i.opcode && s.faulted then .next s.dropCommand
  else
    match body s with
    | .ok (v, t) => .next (t.complete v)
    | .error (.raised f info) => .next (s.enterFault f info (encode i))
    | .error (.stuck f) => .fault f

/-- The end of a command's rule that returns nothing. -/
def returnNothing (s : State) : Result := .ok (none, s)

/-- The end of a command's rule that returns the number `n`, zero-extended to 32 bits. -/
def returnNat (n : Nat) (s : State) : Result := .ok (some (BitVec.ofNat 32 n), s)

/-- The end of a command's rule that returns the word `v`. -/
def returnWord (v : Word) (s : State) : Result := .ok (some v, s)

/-! ### The bit sink and the bit source -/

/-- `emit(b)` (44 R122). -/
def emit (b : Bool) (s : State) : Except Stop State :=
  if s.par.outCap ≤ s.buf.outBits.length then raise .capacityExceeded 3
  else .ok (s.withBuf { s.buf with outBits := s.buf.outBits ++ [b] })

/-- `emit` for each bit of a sequence, in order. -/
def emitBits : List Bool → State → Except Stop State
  | [], s => .ok s
  | b :: bs, s => do emitBits bs (← emit b s)

/-- `nextBit()` (44 R123). -/
def nextBit (s : State) : Except Stop (Bool × State) :=
  match s.buf.inBits[s.buf.inPos]? with
  | some b => .ok (b, s.withBuf { s.buf with inPos := s.buf.inPos + 1 })
  | none => raise .truncatedStream 0

/-- `nextBitPadded()` (44 R124). -/
def nextBitPadded (s : State) : Except Stop (Bool × State) :=
  match s.buf.inBits[s.buf.inPos]? with
  | some b => .ok (b, s.withBuf { s.buf with inPos := s.buf.inPos + 1 })
  | none =>
    if s.coder.padUsed < s.par.padLimit then
      .ok (false, s.withCoder { s.coder with padUsed := s.coder.padUsed + 1 })
    else raise .truncatedStream 0

/-- `repeat n times: v ← 2·v + nextBit()`. -/
def gatherBits : Nat → Nat → State → Except Stop (Nat × State)
  | 0, v, s => .ok (v, s)
  | n + 1, v, s => do
    let (b, s) ← nextBit s
    gatherBits n (2 * v + b.toNat) s

/-- `repeat n times: v ← 2·v + nextBitPadded()`. -/
def gatherBitsPadded : Nat → Nat → State → Except Stop (Nat × State)
  | 0, v, s => .ok (v, s)
  | n + 1, v, s => do
    let (b, s) ← nextBitPadded s
    gatherBitsPadded n (2 * v + b.toNat) s

/-! ### The configuration latch and the symbol counter -/

/-- Which engine latches the configuration (45 R137). -/
inductive LatchKind where
  | model | tree
  deriving DecidableEq, Repr

/-- The info value of the first check of `latch(kind)` that fails, in the order 45 R137 runs them. -/
def latchError (kind : LatchKind) (kmax : Nat) (c : Conf) : Option Nat :=
  if c.k.toNat < 1 ∨ kmax < c.k.toNat then some 1
  else if c.alpha.toNat < 1 ∨ Config.alphaOne < c.alpha.toNat then some 3
  else if c.decayEn = true ∧ c.alpha.toNat < Config.alphaOne ∧ c.n.toNat = 0 then some 2
  else if kind = .tree ∧ c.remove = true ∧ c.growth = false then some 4
  else none

/-- `latch(kind)` (45 R137): validate `CFG` and copy it to `ACFG`. -/
def latch (kind : LatchKind) (s : State) : Except Stop State :=
  match latchError kind s.par.kmax s.ctl.cfg with
  | some info => raise .configInvalid info
  | none => .ok (s.withCtl { s.ctl with acfg := s.ctl.cfg })

/-- `SYMCOUNT ← SYMCOUNT + 1`, or `CapacityExceeded(7)` past `2^32 − 1` (40 R80). -/
def countSymbol (s : State) : Except Stop State :=
  if Config.wordMax < s.ctl.symCount + 1 then raise .capacityExceeded 7
  else .ok (s.withCtl { s.ctl with symCount := s.ctl.symCount + 1 })

/-- The decay trigger's condition, read after the increment (40 R80). With N = 0 it is false: DESIGN CHOICE (log entry 9), safe. -/
def decayDue (s : State) : Bool := s.ctl.acfg.decayActive && s.ctl.symCount % s.ctl.acfg.n.toNat == 0

end Sys2Proof.Machine
end

