-- ==== Sys2Proof/Machine/SymbolModel.lean ====
section
/-! DEFINITION. The symbol frequency model: its procedures (40 R75 to R80) and the `MODEL_*` commands (40 R81 to R86). -/

namespace Sys2Proof.Machine

/-- `ACFG_K` as a number. -/
def State.alphabet (s : State) : Nat := s.ctl.acfg.k.toNat

/-- `COUNT[a]`. -/
def State.countOf (s : State) (a : Nat) : Nat := s.model.count[a]?.getD 0

/-- The cumulative count of the symbols below `a`: `C(a)` (40 R75). -/
def State.cumulative (s : State) (a : Nat) : Nat := (s.model.count.take a).sum

/-- The total `T` (40 R75). -/
def State.total (s : State) : Nat := (s.model.count.take s.alphabet).sum

/-- `modelInit()` (40 R76). -/
def modelInit (s : State) : State :=
  s.withModel { count := List.replicate s.alphabet 1 ++ s.model.count.drop s.alphabet, valid := true }

/-- `modelUpdate(a)` (40 R77). -/
def modelUpdate (a : Nat) (s : State) : Except Stop State :=
  if Config.countMax < s.total + 1 then raise .capacityExceeded 1
  else .ok (s.withModel { s.model with count := s.model.count.set a (s.countOf a + 1) })

/-- `modelDecay()` (40 R79). -/
def modelDecay (s : State) : State :=
  s.withModel
    { s.model with count := (s.model.count.take s.alphabet).map (scale s.ctl.acfg) ++ s.model.count.drop s.alphabet }

/-- The end of a coded symbol of the arithmetic coder: `SYMCOUNT`, then the decay check (40 R80). -/
def countAndDecayModel (s : State) : Except Stop State := do
  let s ← countSymbol s
  return if decayDue s then modelDecay s else s

/-- The checks that open `MODEL_UPDATE` and `MODEL_DECAY` (40 R82, R83). -/
def requireIdleModel (s : State) : Except Stop Unit :=
  if s.ctl.mode ≠ .idle then raise .sequenceError 0
  else if s.model.valid = false then raise .sequenceError 0
  else .ok ()

/-- The check that opens the model reads (40 R84 to R86). -/
def requireModel (s : State) : Except Stop Unit := if s.model.valid = false then raise .sequenceError 0 else .ok ()

/-- `if s >= ACFG_K then raise SymbolNotInAlphabet(s)`. -/
def requireSymbol (a : Nat) (s : State) : Except Stop Unit :=
  if s.alphabet ≤ a then raise .symbolNotInAlphabet a else .ok ()

/-- 40 R81: the rule. -/
def ruleModelInit (s : State) : Result :=
  if s.ctl.mode ≠ .idle then raise .sequenceError 0
  else do
    let s ← latch .model s
    returnNothing ((modelInit s).withTreeValid false)

/-- 40 R81. -/
def execModelInit (s : State) : Host.Outcome State Fault Refusal := runCommand .modelInit ruleModelInit s

/-- 40 R82: the rule. -/
def ruleModelUpdate (a : Nat) (s : State) : Result := do
  requireIdleModel s
  requireSymbol a s
  returnNothing (← modelUpdate a s)

/-- 40 R82. -/
def execModelUpdate (a : Nat) (s : State) : Host.Outcome State Fault Refusal := runCommand (.modelUpdate a) (ruleModelUpdate a) s

/-- 40 R83: the rule. -/
def ruleModelDecay (s : State) : Result := do
  requireIdleModel s
  returnNothing (modelDecay s)

/-- 40 R83. -/
def execModelDecay (s : State) : Host.Outcome State Fault Refusal := runCommand .modelDecay ruleModelDecay s

/-- 40 R84: the rule. -/
def ruleModelCount (a : Nat) (s : State) : Result := do
  requireModel s
  requireSymbol a s
  returnNat (s.countOf a) s

/-- 40 R84. -/
def execModelCount (a : Nat) (s : State) : Host.Outcome State Fault Refusal := runCommand (.modelCount a) (ruleModelCount a) s

/-- 40 R85: the rule. -/
def ruleModelCum (a : Nat) (s : State) : Result := do
  requireModel s
  requireSymbol a s
  returnNat (s.cumulative a) s

/-- 40 R85. -/
def execModelCum (a : Nat) (s : State) : Host.Outcome State Fault Refusal := runCommand (.modelCum a) (ruleModelCum a) s

/-- 40 R86: the rule. -/
def ruleModelTotal (s : State) : Result := do
  requireModel s
  returnNat s.total s

/-- 40 R86. -/
def execModelTotal (s : State) : Host.Outcome State Fault Refusal := runCommand .modelTotal ruleModelTotal s

end Sys2Proof.Machine
end

