-- ==== Sys2Proof/Machine/Arith.lean ====
section
/-! DEFINITION. The arithmetic coder: its procedures (41 R87 to R94) and the `AC_*` commands (41 R97 to R101). -/

namespace Sys2Proof.Machine

/-- `r = HI − LO + 1` (41 R88), 0 where `LO > HI`: DEDUCED (log entry 8), safe. -/
def State.range (s : State) : Nat := s.coder.hi + 1 - s.coder.lo

/-- The least integer of region(a) (41 R88). -/
def State.regionLo (s : State) (a : Nat) : Nat := s.coder.lo + ceilDiv (s.cumulative a * s.range) s.total

/-- One past the greatest integer of region(a) (41 R88). -/
def State.regionEnd (s : State) (a : Nat) : Nat :=
  s.coder.lo + ceilDiv ((s.cumulative a + s.countOf a) * s.range) s.total

/-- `narrow(a)` (41 R89). With `hi' = regionEnd − 1`, the test `hi' ≤ lo'` is `regionEnd ≤ lo' + 1`. -/
def narrow (a : Nat) (s : State) : Except Stop State :=
  if s.total = 0 then raise .zeroInterval 0
  else if s.regionEnd a ≤ s.regionLo a + 1 then raise .zeroInterval 0
  else .ok (s.withCoder { s.coder with lo := s.regionLo a, hi := s.regionEnd a - 1 })

/-- The encoder's output of a decided bit: `b`, then `STRADDLE` opposite bits, and `STRADDLE ← 0` (41 R90). -/
def drainStraddle (b : Bool) (s : State) : Except Stop State := do
  let s ← emit b s
  let s ← emitBits (List.replicate s.coder.straddle (!b)) s
  return s.withCoder { s.coder with straddle := 0 }

/-- `STRADDLE ← STRADDLE + 1`, or `CapacityExceeded(2)` when it is full (41 R90, R92). -/
def pendStraddle (s : State) : Except Stop State :=
  if s.coder.straddle = Config.countMax then raise .capacityExceeded 2
  else .ok (s.withCoder { s.coder with straddle := s.coder.straddle + 1 })

/-- Subtract `d` from both ends of the interval and, in the decoder, from `VALUE` (41 R90). -/
def subtractOffset (dec : Bool) (d : Nat) (s : State) : Except Stop State :=
  if dec then
    if s.coder.value < d then stuck .valueBelowZero
    else .ok (s.withCoder { s.coder with lo := s.coder.lo - d, hi := s.coder.hi - d, value := s.coder.value - d })
  else .ok (s.withCoder { s.coder with lo := s.coder.lo - d, hi := s.coder.hi - d })

/-- `LO ← 2·LO; HI ← 2·HI + 1` and, in the decoder, the next bit shifted into `VALUE` (41 R90). -/
def doubleInterval (dec : Bool) (s : State) : Except Stop State :=
  let s := s.withCoder { s.coder with lo := 2 * s.coder.lo, hi := 2 * s.coder.hi + 1 }
  if dec then do
    let (b, s) ← nextBitPadded s
    return s.withCoder { s.coder with value := 2 * s.coder.value + b.toNat }
  else .ok s

/-- One pass of the renormalization loop: the first of the three cases that applies, then the doubling; `none` where the loop
exits (41 R90). -/
def renormPass (dec : Bool) (s : State) : Except Stop (Option State) :=
  let p := s.par.p
  if s.coder.hi < half p then do
    let s ← if dec then .ok s else drainStraddle false s
    return some (← doubleInterval dec s)
  else if half p ≤ s.coder.lo then do
    let s ← if dec then .ok s else drainStraddle true s
    let s ← subtractOffset dec (half p) s
    return some (← doubleInterval dec s)
  else if quarter p ≤ s.coder.lo ∧ s.coder.hi < threeQuarters p then do
    let s ← if dec then .ok s else pendStraddle s
    let s ← subtractOffset dec (quarter p) s
    return some (← doubleInterval dec s)
  else .ok none

/-- The renormalization loop, at most `fuel` tests of its exit (41 R90). -/
def renormLoop (dec : Bool) : Nat → State → Except Stop State
  | 0, _ => stuck .renormDiverged
  | fuel + 1, s => do
    match ← renormPass dec s with
    | none => return s
    | some s => renormLoop dec fuel s

/-- `renorm(dec)` (41 R90). At most `P − 1` passes, so `P` tests of the exit, suffice (41 R91). -/
def renorm (dec : Bool) (s : State) : Except Stop State := renormLoop dec s.par.p s

/-- `flush()` (41 R92). -/
def flush (s : State) : Except Stop State := do
  let s ← pendStraddle s
  drainStraddle (decide (quarter s.par.p ≤ s.coder.lo)) s

/-- `VALUE` lies in region(a), by the decoder's exact test (41 R88, R93). -/
def State.valueIn (s : State) (a : Nat) : Bool :=
  decide (s.coder.lo ≤ s.coder.value) && decide (0 < s.countOf a)
    && decide (s.cumulative a * s.range ≤ (s.coder.value - s.coder.lo) * s.total)
    && decide ((s.coder.value - s.coder.lo) * s.total < (s.cumulative a + s.countOf a) * s.range)

/-- `search()` (41 R93). -/
def search (s : State) : Except Stop Nat :=
  if s.total = 0 then raise .zeroInterval 0
  else
    match (List.range s.alphabet).find? s.valueIn with
    | some a => .ok a
    | none => raise .invariantViolation 4

/-- The stream state both arithmetic starts set up before the mode: latch, model, interval, counters (41 R97, R100). -/
def acStart (s : State) : Except Stop State := do
  let s ← latch .model s
  let s := modelInit s
  let s := s.withCoder { lo := 0, hi := one s.par.p, value := 0, straddle := 0, padUsed := 0 }
  return (s.withCtl { s.ctl with symCount := 0 }).withTreeValid false

/-- 41 R97: the rule. -/
def ruleAcEncStart (s : State) : Result := do
  let s ← acStart s
  returnNothing (s.withMode .acEnc).clearFault

/-- 41 R97. -/
def execAcEncStart (s : State) : Host.Outcome State Fault Refusal := runCommand .acEncStart ruleAcEncStart s

/-- The check that opens a command of one stream mode. -/
def requireMode (m : Mode) (s : State) : Except Stop Unit :=
  if s.ctl.mode ≠ m then raise .sequenceError 0 else .ok ()

/-- One symbol step of the arithmetic coder: narrowing, renormalization, model update, count and decay (41 R94). -/
def acSymbol (dec : Bool) (a : Nat) (s : State) : Except Stop State := do
  let s ← narrow a s
  let s ← renorm dec s
  let s ← modelUpdate a s
  countAndDecayModel s

/-- 41 R98: the rule. -/
def ruleAcEncSym (a : Nat) (s : State) : Result := do
  requireMode .acEnc s
  requireSymbol a s
  returnNothing (← acSymbol false a s)

/-- 41 R98. -/
def execAcEncSym (a : Nat) (s : State) : Host.Outcome State Fault Refusal := runCommand (.acEncSym a) (ruleAcEncSym a) s

/-- 41 R99: the rule. -/
def ruleAcEncFinish (s : State) : Result := do
  requireMode .acEnc s
  let s ← flush s
  returnNothing (s.withMode .idle)

/-- 41 R99. -/
def execAcEncFinish (s : State) : Host.Outcome State Fault Refusal := runCommand .acEncFinish ruleAcEncFinish s

/-- 41 R100: the rule. The window is the first `P` bits, padded. -/
def ruleAcDecStart (s : State) : Result := do
  let s ← acStart s
  let (v, s) ← gatherBitsPadded s.par.p 0 s
  let s := s.withCoder { s.coder with value := v }
  returnNothing (s.withMode .acDec).clearFault

/-- 41 R100. -/
def execAcDecStart (s : State) : Host.Outcome State Fault Refusal := runCommand .acDecStart ruleAcDecStart s

/-- 41 R101: the rule. -/
def ruleAcDecSym (s : State) : Result := do
  requireMode .acDec s
  let a ← search s
  let s ← acSymbol true a s
  returnNat a s

/-- 41 R101. -/
def execAcDecSym (s : State) : Host.Outcome State Fault Refusal := runCommand .acDecSym ruleAcDecSym s

end Sys2Proof.Machine
end

