-- ==== Sys2Proof/Machine/Control.lean ====
section
/-! DEFINITION. NOP, ABORT and DBG_READ (45 R138 to R140). -/

namespace Sys2Proof.Machine

/-- 45 R138: the rule. -/
def ruleNop (s : State) : Result := returnNothing s

/-- 45 R138. -/
def execNop (s : State) : Host.Outcome State Fault Refusal := runCommand .nop ruleNop s

/-- 45 R139: the rule. -/
def ruleAbort (s : State) : Result :=
  returnNothing (s.withMode .idle).clearFault

/-- 45 R139. -/
def execAbort (s : State) : Host.Outcome State Fault Refusal := runCommand .abort ruleAbort s

/-- A value only a valid tree has (45 R140, selectors 11 to 13). -/
def treeValue (v : Word) (s : State) : Except Stop Word := if s.tree.valid then .ok v else raise .sequenceError 0

/-- `V(sel)` (45 R140). -/
def debugValue (sel : Nat) (s : State) : Except Stop Word :=
  match sel with
  | 0 => .ok (BitVec.ofNat 32 s.coder.lo)
  | 1 => .ok (BitVec.ofNat 32 s.coder.hi)
  | 2 => .ok (BitVec.ofNat 32 s.coder.value)
  | 3 => .ok (BitVec.ofNat 32 s.coder.straddle)
  | 4 => .ok (BitVec.ofNat 32 s.ctl.symCount)
  | 5 => .ok (BitVec.ofNat 32 s.buf.inBits.length)
  | 6 => .ok (BitVec.ofNat 32 s.buf.inPos)
  | 7 => .ok (BitVec.ofNat 32 s.buf.outBits.length)
  | 8 => .ok (BitVec.ofNat 32 s.coder.padUsed)
  | 9 => .ok (BitVec.ofNat 32 s.buf.outBytes.length)
  | 10 => .ok (BitVec.ofNat 32 s.buf.inBytes.length)
  | 11 => treeValue (BitVec.ofNat 32 s.tree.m) s
  | 12 => treeValue (BitVec.ofNat 32 s.tree.rootW) s
  | 13 => treeValue (childCode s.tree.root) s
  | 14 => .ok (s.ctl.acfg.k.setWidth 32)
  | 15 => .ok s.ctl.acfg.n
  | 16 => .ok (s.ctl.acfg.alpha.setWidth 32)
  | 17 => .ok s.ctl.acfg.flags
  | _ => raise .operandRange sel

/-- 45 R140: the rule. -/
def ruleDbgRead (sel : Nat) (s : State) : Result := do
  returnWord (← debugValue sel s) s

/-- 45 R140. -/
def execDbgRead (sel : Nat) (s : State) : Host.Outcome State Fault Refusal := runCommand (.dbgRead sel) (ruleDbgRead sel) s

end Sys2Proof.Machine
end

