-- ==== Sys2Proof/Machine/Tree.lean ====
section
/-! DEFINITION. The adaptive Huffman tree engine's procedures (42 R102 to R113), on the tree arena alone. Reading a table entry that
is not listed gives its reset value, and writing one does nothing (log entry 5); neither happens in a tree that satisfies
42 R102. -/

namespace Sys2Proof.Machine

/-! ### Reading and writing the arena -/

/-- `PAIR[k]`. -/
def Tree.pairAt (t : Tree) (k : Nat) : Pair := t.pairs[k]?.getD Pair.reset

/-- `PAIR[k].w[b]` of a pair. -/
def Pair.weight (p : Pair) (b : Bool) : Nat := if b then p.w1 else p.w0

/-- `PAIR[k].c[b]` of a pair. -/
def Pair.child (p : Pair) (b : Bool) : Child := if b then p.c1 else p.c0

/-- `wt(q)` (10 R29). -/
def Tree.wt (t : Tree) (q : Nat) : Nat := (t.pairAt (q / 2)).weight (slotOf q)

/-- `ch(q)` (10 R29). -/
def Tree.ch (t : Tree) (q : Nat) : Child := (t.pairAt (q / 2)).child (slotOf q)

/-- `PAIR[k] ← p`. -/
def Tree.setPair (t : Tree) (k : Nat) (p : Pair) : Tree := { t with pairs := t.pairs.set k p }

/-- The pair with the weight of slot `b` replaced. -/
def Pair.withWeight (p : Pair) (b : Bool) (w : Nat) : Pair := if b then { p with w1 := w } else { p with w0 := w }

/-- The pair with the child of slot `b` replaced. -/
def Pair.withChild (p : Pair) (b : Bool) (x : Child) : Pair := if b then { p with c1 := x } else { p with c0 := x }

/-- `PAIR[q div 2].w[q mod 2] ← w`. -/
def Tree.setWeight (t : Tree) (q w : Nat) : Tree := t.setPair (q / 2) ((t.pairAt (q / 2)).withWeight (slotOf q) w)

/-- `PAIR[k].parent ← r`. -/
def Tree.setParent (t : Tree) (k : Nat) (r : Option (Nat × Bool)) : Tree := t.setPair k { t.pairAt k with parent := r }

/-- `LOC[x]` (10 R31). -/
def Tree.locOf (t : Tree) : Key → Loc
  | .sym a => t.locSym[a]?.getD .absent
  | .nyt => t.locNyt

/-- `LOC[x] ← l`. -/
def Tree.setLoc (t : Tree) (x : Key) (l : Loc) : Tree :=
  match x with
  | .sym a => { t with locSym := t.locSym.set a l }
  | .nyt => { t with locNyt := l }

/-- `LOC[every key] ← Absent` (42 R111). Every entry is cleared, those of no key of this alphabet too (log entry 7). -/
def Tree.clearLocs (t : Tree) : Tree := { t with locSym := List.replicate t.locSym.length .absent, locNyt := .absent }

/-- The key of a leaf; `none` for an internal node (42 R106). -/
def Child.key? : Child → Option Key
  | .leaf a => some (.sym a)
  | .nyt => some .nyt
  | .node _ => none

/-! ### Walking up -/

/-- `parentLoc(k)` (42 R103). -/
def Tree.parentLoc (t : Tree) (k : Nat) : Loc :=
  match (t.pairAt k).parent with
  | none => .atRoot
  | some (j, b) => .atSlot j b

/-- The positions of the slots from `loc` up to the root, the lowest first; at most `fuel` tests of the walk's end. -/
def Tree.chain (t : Tree) : Nat → Loc → Except Stop (List Nat)
  | 0, _ => stuck .parentChainDiverged
  | fuel + 1, .atSlot k b => do return slotPos k b :: (← t.chain fuel (t.parentLoc k))
  | _ + 1, .atRoot => .ok []
  | _ + 1, .absent => .ok []

/-- How many tests a walk up may make: a chain visits each pair at most once (42 R103). -/
def Tree.walkFuel (t : Tree) : Nat := t.m + 1

/-- `ancestors(q)` (42 R103). -/
def Tree.ancestors (t : Tree) (q : Nat) : Except Stop (List Nat) := t.chain t.walkFuel (t.parentLoc (q / 2))

/-- `pathBits(x)`: the slots on the way up, reversed (42 R104). -/
def Tree.pathBits (t : Tree) (x : Key) : Except Stop (List Bool) := do
  return ((← t.chain t.walkFuel (t.locOf x)).map slotOf).reverse

/-! ### The node restructurer -/

/-- `setChild(q, x)` (42 R106). -/
def Tree.setChild (t : Tree) (q : Nat) (x : Child) : Tree :=
  let t := t.setPair (q / 2) ((t.pairAt (q / 2)).withChild (slotOf q) x)
  match x with
  | .node i => t.setParent i (some (q / 2, slotOf q))
  | .leaf a => t.setLoc (.sym a) (.atSlot (q / 2) (slotOf q))
  | .nyt => t.setLoc .nyt (.atSlot (q / 2) (slotOf q))

/-- `swapSlots(q, L)` (42 R106). -/
def Tree.swapSlots (t : Tree) (q l : Nat) : Tree := (t.setChild q (t.ch l)).setChild l (t.ch q)

/-- `leader(q)` (42 R107): the highest position of the same weight that is not an ancestor of `q`. -/
def Tree.leader (t : Tree) (q : Nat) : Except Stop Nat := do
  let above ← t.ancestors q
  match ((List.range (2 * t.m)).filter fun p => t.wt p == t.wt q && !above.contains p).getLast? with
  | some p => return p
  | none => stuck .noLeader

/-- The slide of 42 R108, at most `fuel` leaders: where the node ends up, and the tree. -/
def Tree.slide : Nat → Nat → Tree → Except Stop (Nat × Tree)
  | 0, _, _ => stuck .slideDiverged
  | fuel + 1, q, t => do
    let l ← t.leader q
    if l = q then return (q, t) else Tree.slide fuel l (t.swapSlots q l)

/-- The walk of 42 R108 from `loc` to the root, at most `fuel` levels. -/
def Tree.climb : Nat → Loc → Tree → Except Stop Tree
  | 0, _, _ => stuck .parentChainDiverged
  | fuel + 1, loc, t =>
    match loc with
    | .absent => stuck .leafNotPlaced
    | .atRoot => .ok { t with rootW := t.rootW + 1 }
    | .atSlot k b => do
      let w := t.wt (slotPos k b)
      let (q, t) ← Tree.slide (2 * t.m + 1) (slotPos k b) t
      let t := t.setWeight q (w + 1)
      Tree.climb fuel (t.parentLoc (q / 2)) t

/-- `treeUpdate(x)` (42 R108). -/
def treeUpdate (x : Key) (t : Tree) : Except Stop Tree :=
  if t.rootW = Config.countMax then raise .capacityExceeded 1 else Tree.climb t.walkFuel (t.locOf x) t

/-! ### Growth -/

/-- `Node(i)` becomes `Node(i + 1)` (42 R109). -/
def Child.renumber : Child → Child
  | .leaf a => .leaf a
  | .nyt => .nyt
  | .node i => .node (i + 1)

/-- A location whose pair index moves up by 1 (42 R109). -/
def Loc.renumber : Loc → Loc
  | .absent => .absent
  | .atRoot => .atRoot
  | .atSlot k b => .atSlot (k + 1) b

/-- A pair whose references move up by 1 (42 R109). -/
def Pair.renumber (p : Pair) : Pair :=
  { p with c0 := p.c0.renumber, c1 := p.c1.renumber, parent := p.parent.map fun r => (r.1 + 1, r.2) }

/-- The new pair of a split (42 R109). -/
def splitPair (a : Nat) (parent : Option (Nat × Bool)) : Pair :=
  { w0 := 0, w1 := 0, c0 := .nyt, c1 := .leaf a, parent := parent }

/-- Every pair index moves up by 1 and pair 0 becomes free (42 R109). -/
def Tree.shiftPairs (t : Tree) : Tree :=
  { t with
    pairs := (Pair.reset :: (t.pairs.take t.m).map Pair.renumber ++ t.pairs.drop (t.m + 1)).take t.pairs.length
    m := t.m + 1
    root := t.root.renumber
    locSym := t.locSym.map Loc.renumber
    locNyt := t.locNyt.renumber }

/-- `treeSplit(a)` (42 R109). -/
def treeSplit (a : Nat) (t : Tree) : Except Stop Tree :=
  match t.locNyt with
  | .absent => stuck .leafNotPlaced
  | .atRoot =>
    let t := { t.setPair 0 (splitPair a none) with m := 1, root := .node 0 }
    .ok ((t.setLoc .nyt (.atSlot 0 false)).setLoc (.sym a) (.atSlot 0 true))
  | .atSlot j b =>
    let t := t.shiftPairs.setPair 0 (splitPair a (some (j + 1, b)))
    let t := t.setPair (j + 1) ((t.pairAt (j + 1)).withChild b (.node 0))
    .ok ((t.setLoc .nyt (.atSlot 0 false)).setLoc (.sym a) (.atSlot 0 true))

/-! ### Validation -/

/-- TI1 (42 R102): slot weights are non-decreasing. -/
def Tree.weightsOrdered (t : Tree) : Bool := (List.range (2 * t.m - 1)).all fun q => decide (t.wt q ≤ t.wt (q + 1))

/-- TI2 at the root pair: `ROOT = Node(M−1)` and that pair has no parent (42 R110). -/
def Tree.rootPairOk (t : Tree) : Bool := t.root == .node (t.m - 1) && (t.pairAt (t.m - 1)).parent == none

/-- TI2 at pair `k`: its parent is a later pair whose slot holds `Node(k)` (42 R110). -/
def Tree.parentOk (t : Tree) (k : Nat) : Bool :=
  match (t.pairAt k).parent with
  | none => false
  | some (j, b) => decide (k < j) && (t.pairAt j).child b == .node k

/-- The sum of a pair's two weights. -/
def Pair.sum (p : Pair) : Nat := p.w0 + p.w1

/-- TI3 at pair `k`: its parent's slot has its summed weight (42 R110). -/
def Tree.sumOk (t : Tree) (k : Nat) : Bool :=
  match (t.pairAt k).parent with
  | none => false
  | some (j, b) => t.wt (slotPos j b) == (t.pairAt k).sum

/-- `treeValidate()` (42 R110). -/
def treeValidate (t : Tree) : Except Stop Unit :=
  if t.weightsOrdered = false then raise .invariantViolation 1
  else if t.m = 0 then .ok ()
  else if t.rootPairOk = false then raise .invariantViolation 2
  else if (List.range (t.m - 1)).all t.parentOk = false then raise .invariantViolation 2
  else if (List.range (t.m - 1)).all t.sumOk = false then raise .invariantViolation 3
  else if t.rootW ≠ (t.pairAt (t.m - 1)).sum then raise .invariantViolation 3
  else .ok ()

/-! ### Rebuild, decay, initialization -/

/-- An element of the rebuild's pool: weight, kind, key#, child value (42 R111). -/
structure PoolItem where
  weight : Nat
  kind : Nat
  keyNo : Nat
  child : Child
  deriving DecidableEq, Repr

/-- The lexicographic order (weight, kind, key#), not strict (42 R111). -/
def PoolItem.le (a b : PoolItem) : Bool :=
  decide (a.weight < b.weight)
    || (a.weight == b.weight && (decide (a.kind < b.kind) || (a.kind == b.kind && decide (a.keyNo ≤ b.keyNo))))

/-- The least of an element and a list (42 R111). -/
def PoolItem.least (a : PoolItem) : List PoolItem → PoolItem
  | [] => a
  | b :: rest => PoolItem.least (if b.le a then b else a) rest

/-- The pool element of a leaf `(x, w)`: kind 0, `key#(Nyt) = 0`, `key#(Leaf(s)) = s + 1` (42 R111). -/
def leafItem (x : Key) (w : Nat) : PoolItem :=
  match x with
  | .nyt => { weight := w, kind := 0, keyNo := 0, child := .nyt }
  | .sym a => { weight := w, kind := 0, keyNo := a + 1, child := .leaf a }

/-- If the child is `Node(k)`, its parent reference becomes `r` (42 R111). -/
def Tree.adopt (t : Tree) (x : Child) (r : Nat × Bool) : Tree :=
  match x with
  | .node k => t.setParent k (some r)
  | .leaf _ => t
  | .nyt => t

/-- One pass of the rebuild's loop: `i0` and `i1` become pair `M` (42 R111). -/
def Tree.joinItems (t : Tree) (i0 i1 : PoolItem) : Tree :=
  let t1 := t.setPair t.m { w0 := i0.weight, w1 := i1.weight, c0 := i0.child, c1 := i1.child, parent := none }
  { (t1.adopt i0.child (t.m, false)).adopt i1.child (t.m, true) with m := t.m + 1 }

/-- The pool element that stands for the pair `i0` and `i1` have become (42 R111). -/
def joinedItem (m : Nat) (i0 i1 : PoolItem) : PoolItem :=
  { weight := i0.weight + i1.weight, kind := 1, keyNo := m, child := .node m }

/-- The rebuild's loop (42 R111): each pass takes the two least elements; `fuel` counts the passes left.
The pool is a list whose order decides nothing: DEDUCED (log entry 10), safe. -/
def buildLoop : Nat → List PoolItem → Tree → Except Stop (PoolItem × Tree)
  | fuel, pool, t =>
    match pool with
    | [] => stuck .emptyRebuild
    | [i] => .ok (i, t)
    | i :: j :: rest =>
      match fuel with
      | 0 => stuck .emptyRebuild
      | fuel + 1 =>
        let i0 := PoolItem.least i (j :: rest)
        match (i :: j :: rest).erase i0 with
        | [] => stuck .emptyRebuild
        | x :: xs =>
          let i1 := PoolItem.least x xs
          buildLoop fuel (((x :: xs).erase i1) ++ [joinedItem t.m i0 i1]) (t.joinItems i0 i1)

/-- `LOC[y] ← AtSlot(q div 2, q mod 2)` if position `q` holds a leaf (42 R111). -/
def Tree.placeLeaf (t : Tree) (q : Nat) : Tree :=
  match (t.ch q).key? with
  | some y => t.setLoc y (.atSlot (q / 2) (slotOf q))
  | none => t

/-- Re-populate the location index (42 R111). -/
def Tree.placeLeaves (t : Tree) : Tree :=
  let t := (List.range (2 * t.m)).foldl Tree.placeLeaf t.clearLocs
  match t.root.key? with
  | some y => t.setLoc y .atRoot
  | none => t

/-- `treeRebuild(items)` (42 R111). -/
def treeRebuild (items : List (Key × Nat)) (t : Tree) : Except Stop Tree := do
  let (i, t) ← buildLoop items.length (items.map fun e => leafItem e.1 e.2) { t with m := 0 }
  return { t with rootW := i.weight, root := i.child }.placeLeaves

/-- The leaves of the tree with their weights: every slot that holds one, or the root (42 R112). -/
def Tree.leaves (t : Tree) : List (Key × Nat) :=
  let slots := (List.range (2 * t.m)).filterMap fun q => (t.ch q).key?.map fun y => (y, t.wt q)
  match t.root.key? with
  | some y => slots ++ [(y, t.rootW)]
  | none => slots

/-- The decayed leaf: the NYT keeps weight 0; a symbol is scaled, and evicted if it reaches 0 under `REMOVE` (42 R112). -/
def decayLeaf (acfg : Conf) : Key × Nat → Option (Key × Nat)
  | (.nyt, _) => some (.nyt, 0)
  | (.sym a, w) => if scale acfg w = 0 ∧ acfg.remove = true then none else some (.sym a, scale acfg w)

/-- `treeDecay()` (42 R112). -/
def treeDecay (acfg : Conf) (t : Tree) : Except Stop Tree := treeRebuild (t.leaves.filterMap (decayLeaf acfg)) t

/-- `treeInit()` (42 R113). -/
def treeInit (acfg : Conf) (t : Tree) : Except Stop Tree :=
  if acfg.growth then
    .ok { ({ t with m := 0, root := .nyt, rootW := 0 }.clearLocs.setLoc .nyt .atRoot) with valid := true }
  else do
    let t ← treeRebuild ((List.range acfg.k.toNat).map fun a => (.sym a, 1)) t
    return { t with valid := true }

/-! ### Walking down -/

/-- The traversal from a child value to a leaf along a bit sequence (42 R114): the leaf, and how many bits were read;
`none` where the bits run out first. -/
def Tree.descend (t : Tree) : Child → List Bool → Nat → Option (Key × Nat)
  | .leaf a, _, n => some (.sym a, n)
  | .nyt, _, n => some (.nyt, n)
  | .node _, [], _ => none
  | .node k, b :: bs, n => t.descend ((t.pairAt k).child b) bs (n + 1)

end Sys2Proof.Machine
end

