-- ==== Sys2Proof/Machine/Huffman.lean ====
section
/-! DEFINITION. The adaptive Huffman commands (42 R114, 43 R115 to R121) and the tree reads (45 R141 to R144). -/

namespace Sys2Proof.Machine

/-- `treeUpdate(a)` and `treeValidate()` on the state's tree. -/
def updateTree (a : Nat) (s : State) : Except Stop State := do
  let t ← treeUpdate (.sym a) s.tree
  treeValidate t
  return s.withTree t

/-- `treeDecay()` and `treeValidate()` on the state's tree. -/
def decayTree (s : State) : Except Stop State := do
  let t ← treeDecay s.ctl.acfg s.tree
  treeValidate t
  return s.withTree t

/-- `ahAfterSymbol(a)` (43 R115). -/
def ahAfterSymbol (a : Nat) (s : State) : Except Stop State := do
  let s ← updateTree a s
  let s ← countSymbol s
  if decayDue s then decayTree s else return s

/-- What the two Huffman starts share (43 R116, R118). -/
def ahStart (m : Mode) (s : State) : Except Stop State := do
  let s ← latch .tree s
  let t ← treeInit s.ctl.acfg s.tree
  let s := (s.withTree t).withModelValid false
  let s := s.withCoder { lo := 0, hi := 0, value := 0, straddle := 0, padUsed := 0 }
  return ((s.withCtl { s.ctl with symCount := 0 }).withMode m).clearFault

/-- 43 R116: the rule. -/
def ruleAhEncStart (s : State) : Result := do
  returnNothing (← ahStart .ahEnc s)

/-- 43 R116. -/
def execAhEncStart (s : State) : Host.Outcome State Fault Refusal := runCommand .ahEncStart ruleAhEncStart s

/-- `rawBits(a)` (42 R105). -/
def State.rawBits (s : State) (a : Nat) : List Bool := bitsMSB a (rawWidth s.alphabet)

/-- The codeword of a symbol, and the growth of a new one (43 R117). -/
def ahEmitSymbol (a : Nat) (s : State) : Except Stop State :=
  if s.tree.locOf (.sym a) ≠ .absent then do
    emitBits (← s.tree.pathBits (.sym a)) s
  else if s.tree.locNyt = .absent then raise .invariantViolation 2
  else do
    let path ← s.tree.pathBits .nyt
    let s ← emitBits (path ++ s.rawBits a) s
    return s.withTree (← treeSplit a s.tree)

/-- 43 R117: the rule. -/
def ruleAhEncSym (a : Nat) (s : State) : Result := do
  requireMode .ahEnc s
  requireSymbol a s
  let s ← ahEmitSymbol a s
  returnNothing (← ahAfterSymbol a s)

/-- 43 R117. -/
def execAhEncSym (a : Nat) (s : State) : Host.Outcome State Fault Refusal := runCommand (.ahEncSym a) (ruleAhEncSym a) s

/-- 43 R118: the rule. -/
def ruleAhDecStart (s : State) : Result := do
  returnNothing (← ahStart .ahDec s)

/-- 43 R118. -/
def execAhDecStart (s : State) : Host.Outcome State Fault Refusal := runCommand .ahDecStart ruleAhDecStart s

/-- `treeWalk()` (42 R114): down to a leaf, and from the NYT through the raw code to a new symbol, which grows the tree. -/
def treeWalk (s : State) : Except Stop (Nat × State) :=
  match s.tree.descend s.tree.root (s.buf.inBits.drop s.buf.inPos) 0 with
  | none => raise .truncatedStream 0
  | some (.sym a, n) => .ok (a, s.withBuf { s.buf with inPos := s.buf.inPos + n })
  | some (.nyt, n) => do
    let (a, s) ← gatherBits (rawWidth s.alphabet) 0 (s.withBuf { s.buf with inPos := s.buf.inPos + n })
    requireSymbol a s
    if s.tree.locOf (.sym a) ≠ .absent then raise .streamInconsistent a
    else return (a, s.withTree (← treeSplit a s.tree))

/-- 43 R119: the rule. -/
def ruleAhDecSym (s : State) : Result := do
  requireMode .ahDec s
  let (a, s) ← treeWalk s
  returnNat a (← ahAfterSymbol a s)

/-- 43 R119. -/
def execAhDecSym (s : State) : Host.Outcome State Fault Refusal := runCommand .ahDecSym ruleAhDecSym s

/-- The check that opens `AH_UPDATE` and `AH_DECAY` (43 R120, R121). -/
def requireIdleTree (s : State) : Except Stop Unit :=
  if s.ctl.mode ≠ .idle ∨ s.tree.valid = false then raise .sequenceError 0 else .ok ()

/-- 43 R120: the rule. -/
def ruleAhUpdate (a : Nat) (s : State) : Result := do
  requireIdleTree s
  requireSymbol a s
  if s.tree.locOf (.sym a) = .absent then raise .streamInconsistent a
  else returnNothing (← updateTree a s)

/-- 43 R120. -/
def execAhUpdate (a : Nat) (s : State) : Host.Outcome State Fault Refusal := runCommand (.ahUpdate a) (ruleAhUpdate a) s

/-- 43 R121: the rule. -/
def ruleAhDecay (s : State) : Result := do
  requireIdleTree s
  returnNothing (← decayTree s)

/-- 43 R121. -/
def execAhDecay (s : State) : Host.Outcome State Fault Refusal := runCommand .ahDecay ruleAhDecay s

/-- The check that opens the tree reads (45 R141 to R144). -/
def requireTree (s : State) : Except Stop Unit := if s.tree.valid = false then raise .sequenceError 0 else .ok ()

/-- 45 R141: the rule. -/
def ruleAhReadW (q : Nat) (s : State) : Result := do
  requireTree s
  if 2 * s.tree.m ≤ q then raise .operandRange q else returnNat (s.tree.wt q) s

/-- 45 R141. -/
def execAhReadW (q : Nat) (s : State) : Host.Outcome State Fault Refusal := runCommand (.ahReadW q) (ruleAhReadW q) s

/-- 45 R142: the rule. -/
def ruleAhReadC (q : Nat) (s : State) : Result := do
  requireTree s
  if 2 * s.tree.m ≤ q then raise .operandRange q else returnWord (childCode (s.tree.ch q)) s

/-- 45 R142. -/
def execAhReadC (q : Nat) (s : State) : Host.Outcome State Fault Refusal := runCommand (.ahReadC q) (ruleAhReadC q) s

/-- 45 R143: the rule. -/
def ruleAhReadParent (k : Nat) (s : State) : Result := do
  requireTree s
  if s.tree.m ≤ k then raise .operandRange k else returnWord (parentCode (s.tree.pairAt k).parent) s

/-- 45 R143. -/
def execAhReadParent (k : Nat) (s : State) : Host.Outcome State Fault Refusal := runCommand (.ahReadParent k) (ruleAhReadParent k) s

/-- 45 R144: the rule. -/
def ruleAhReadLoc (a : Nat) (s : State) : Result := do
  requireTree s
  if a = nytOperand then returnWord (locCode s.tree.locNyt) s
  else do
    requireSymbol a s
    returnWord (locCode (s.tree.locOf (.sym a))) s

/-- 45 R144. -/
def execAhReadLoc (a : Nat) (s : State) : Host.Outcome State Fault Refusal := runCommand (.ahReadLoc a) (ruleAhReadLoc a) s

end Sys2Proof.Machine
end

