-- ==== Sys2Proof/Machine/Serializer.lean ====
section
/-! DEFINITION. The bit-serializer's commands (44 R126 to R136). All are allowed in every mode. -/

namespace Sys2Proof.Machine

/-- 44 R126: the rule. -/
def ruleBsClearOut (s : State) : Result :=
  returnNothing (s.withBuf { s.buf with outBits := [], outBytes := [] })

/-- 44 R126. -/
def execBsClearOut (s : State) : Host.Outcome State Fault Refusal := runCommand .bsClearOut ruleBsClearOut s

/-- 44 R127: the rule. -/
def ruleBsClearIn (s : State) : Result :=
  returnNothing
    ((s.withBuf { s.buf with inBits := [], inPos := 0, inBytes := [] }).withCoder { s.coder with padUsed := 0 })

/-- 44 R127. -/
def execBsClearIn (s : State) : Host.Outcome State Fault Refusal := runCommand .bsClearIn ruleBsClearIn s

/-- 44 R128: the rule. -/
def ruleBsPutBit (b : Bool) (s : State) : Result := do
  returnNothing (← emit b s)

/-- 44 R128. -/
def execBsPutBit (b : Bool) (s : State) : Host.Outcome State Fault Refusal := runCommand (.bsPutBit b) (ruleBsPutBit b) s

/-- 44 R129: the rule. -/
def ruleBsGetBit (s : State) : Result := do
  let (b, s) ← nextBit s
  returnNat b.toNat s

/-- 44 R129. -/
def execBsGetBit (s : State) : Host.Outcome State Fault Refusal := runCommand .bsGetBit ruleBsGetBit s

/-- 44 R130: the rule. -/
def ruleBsGammaPut (n : Nat) (s : State) : Result := do
  returnNothing (← emitBits (gammaCode n) s)

/-- 44 R130. -/
def execBsGammaPut (n : Nat) (s : State) : Host.Outcome State Fault Refusal := runCommand (.bsGammaPut n) (ruleBsGammaPut n) s

/-- The leading zeros of a gamma code: `left` more may follow before `CapacityExceeded(6)`; `k` have been read (44 R131). -/
def gammaZeros : Nat → Nat → State → Except Stop (Nat × State)
  | left, k, s =>
    match nextBit s with
    | .error e => .error e
    | .ok (true, s) => .ok (k, s)
    | .ok (false, s) =>
      match left with
      | 0 => raise .capacityExceeded 6
      | left + 1 => gammaZeros left (k + 1) s

/-- 44 R131: the rule. Up to 31 leading zeros, then as many digits after the leading 1. -/
def ruleBsGammaGet (s : State) : Result := do
  let (k, s) ← gammaZeros 31 0 s
  let (m, s) ← gatherBits k 1 s
  returnNat (m - 1) s

/-- 44 R131. -/
def execBsGammaGet (s : State) : Host.Outcome State Fault Refusal := runCommand .bsGammaGet ruleBsGammaGet s

/-- The bits that `BS_PACK` groups into bytes: the 3-bit padding count, `OUTBITS`, the padding (44 R132). -/
def packedBits (bits : List Bool) : List Bool :=
  bitsMSB (padCount bits.length) 3 ++ bits ++ List.replicate (padCount bits.length) false

/-- The rule of `BS_PACK` (44 R132). -/
def ruleBsPack (s : State) : Result :=
  let bits := packedBits s.buf.outBits
  if s.par.byteCap < s.buf.outBytes.length + bits.length / 8 then raise .capacityExceeded 5
  else returnNothing (s.withBuf { s.buf with outBits := [], outBytes := s.buf.outBytes ++ packBytes bits })

/-- 44 R132. -/
def execBsPack (s : State) : Host.Outcome State Fault Refusal := runCommand .bsPack ruleBsPack s

/-- The 3-bit padding count in front of unpacked bits (44 R133). -/
def padPrefix (bits : List Bool) : Nat :=
  4 * (bits[0]?.getD false).toNat + 2 * (bits[1]?.getD false).toNat + (bits[2]?.getD false).toNat

/-- The payload of unpacked bits, less the padding count and the padding (44 R133). -/
def payloadBits (bits : List Bool) : List Bool := (bits.drop 3).take (bits.length - padPrefix bits - 3)

/-- The rule of `BS_UNPACK` (44 R133). -/
def ruleBsUnpack (s : State) : Result :=
  let bits := unpackBytes s.buf.inBytes
  if s.buf.inBytes.length = 0 then raise .truncatedStream 1
  else if 8 * s.buf.inBytes.length < 3 + padPrefix bits then raise .truncatedStream 2
  else if s.par.inCap < (payloadBits bits).length then raise .capacityExceeded 4
  else returnNothing
    ((s.withBuf { s.buf with inBits := payloadBits bits, inPos := 0, inBytes := [] }).withCoder { s.coder with padUsed := 0 })

/-- 44 R133. -/
def execBsUnpack (s : State) : Host.Outcome State Fault Refusal := runCommand .bsUnpack ruleBsUnpack s

/-- 44 R134: the rule. -/
def ruleBsInBit (b : Bool) (s : State) : Result :=
  if s.par.inCap ≤ s.buf.inBits.length then raise .capacityExceeded 4
  else returnNothing (s.withBuf { s.buf with inBits := s.buf.inBits ++ [b] })

/-- 44 R134. -/
def execBsInBit (b : Bool) (s : State) : Host.Outcome State Fault Refusal := runCommand (.bsInBit b) (ruleBsInBit b) s

/-- 44 R135: the rule. The capacity check is that of a build with `IN_CAP < OUT_CAP`. -/
def ruleBsLoopback (s : State) : Result :=
  if s.par.inCap < s.buf.outBits.length then raise .capacityExceeded 4
  else returnNothing
    ((s.withBuf { s.buf with inBits := s.buf.outBits, inPos := 0 }).withCoder { s.coder with padUsed := 0 })

/-- 44 R135. -/
def execBsLoopback (s : State) : Host.Outcome State Fault Refusal := runCommand .bsLoopback ruleBsLoopback s

/-- 44 R136: the rule. -/
def ruleBsPeekOut (i : Nat) (s : State) : Result :=
  match s.buf.outBits[i]? with
  | some b => returnNat b.toNat s
  | none => raise .operandRange i

/-- 44 R136. -/
def execBsPeekOut (i : Nat) (s : State) : Host.Outcome State Fault Refusal := runCommand (.bsPeekOut i) (ruleBsPeekOut i) s

end Sys2Proof.Machine
end

