-- ==== Sys2Proof/Machine/Dispatch.lean ====
section
/-! DEFINITION. One arm per command. -/

namespace Sys2Proof.Machine

def exec (i : Instr) (s : State) : Host.Outcome State Fault Refusal :=
  match i with
  | .nop => Sys2Proof.Machine.execNop s
  | .abort => Sys2Proof.Machine.execAbort s
  | .dbgRead sel => Sys2Proof.Machine.execDbgRead sel s
  | .bsClearOut => Sys2Proof.Machine.execBsClearOut s
  | .bsClearIn => Sys2Proof.Machine.execBsClearIn s
  | .bsPutBit b => Sys2Proof.Machine.execBsPutBit b s
  | .bsGetBit => Sys2Proof.Machine.execBsGetBit s
  | .bsGammaPut n => Sys2Proof.Machine.execBsGammaPut n s
  | .bsGammaGet => Sys2Proof.Machine.execBsGammaGet s
  | .bsPack => Sys2Proof.Machine.execBsPack s
  | .bsUnpack => Sys2Proof.Machine.execBsUnpack s
  | .bsInBit b => Sys2Proof.Machine.execBsInBit b s
  | .bsLoopback => Sys2Proof.Machine.execBsLoopback s
  | .bsPeekOut k => Sys2Proof.Machine.execBsPeekOut k s
  | .modelInit => Sys2Proof.Machine.execModelInit s
  | .modelUpdate a => Sys2Proof.Machine.execModelUpdate a s
  | .modelDecay => Sys2Proof.Machine.execModelDecay s
  | .modelCount a => Sys2Proof.Machine.execModelCount a s
  | .modelCum a => Sys2Proof.Machine.execModelCum a s
  | .modelTotal => Sys2Proof.Machine.execModelTotal s
  | .acEncStart => Sys2Proof.Machine.execAcEncStart s
  | .acEncSym a => Sys2Proof.Machine.execAcEncSym a s
  | .acEncFinish => Sys2Proof.Machine.execAcEncFinish s
  | .acDecStart => Sys2Proof.Machine.execAcDecStart s
  | .acDecSym => Sys2Proof.Machine.execAcDecSym s
  | .ahEncStart => Sys2Proof.Machine.execAhEncStart s
  | .ahEncSym a => Sys2Proof.Machine.execAhEncSym a s
  | .ahDecStart => Sys2Proof.Machine.execAhDecStart s
  | .ahDecSym => Sys2Proof.Machine.execAhDecSym s
  | .ahUpdate a => Sys2Proof.Machine.execAhUpdate a s
  | .ahDecay => Sys2Proof.Machine.execAhDecay s
  | .ahReadW q => Sys2Proof.Machine.execAhReadW q s
  | .ahReadC q => Sys2Proof.Machine.execAhReadC q s
  | .ahReadParent k => Sys2Proof.Machine.execAhReadParent k s
  | .ahReadLoc a => Sys2Proof.Machine.execAhReadLoc a s

end Sys2Proof.Machine
end

