-- ==== Sys2Proof/Machine/Window.lean ====
section
/-! DEFINITION. The host's register window (20 R48 to R57), all but what a `CMD` write does. -/

namespace Sys2Proof.Machine

/-- The registers of the window, by the names of 20 R49. -/
inductive Register where
  | id | ctrl | status | cmd | result | faultInfo | faultCmd | cfgK | cfgN | cfgAlpha | cfgFlags | inByte | outByte | param
  deriving DecidableEq, Repr

/-- `off(REG)` (20 R49). -/
def Register.offset : Register → BitVec 6
  | .id => 0x00#6
  | .ctrl => 0x04#6
  | .status => 0x08#6
  | .cmd => 0x0C#6
  | .result => 0x10#6
  | .faultInfo => 0x14#6
  | .faultCmd => 0x18#6
  | .cfgK => 0x1C#6
  | .cfgN => 0x20#6
  | .cfgAlpha => 0x24#6
  | .cfgFlags => 0x28#6
  | .inByte => 0x2C#6
  | .outByte => 0x30#6
  | .param => 0x34#6

/-- The register at an aligned offset; `none` for the reserved offsets 0x38 and 0x3C (20 R49, R58) and for an offset that is not aligned. -/
def registerAt (off : BitVec 6) : Option Register :=
  match off.toNat with
  | 0x00 => some .id
  | 0x04 => some .ctrl
  | 0x08 => some .status
  | 0x0C => some .cmd
  | 0x10 => some .result
  | 0x14 => some .faultInfo
  | 0x18 => some .faultCmd
  | 0x1C => some .cfgK
  | 0x20 => some .cfgN
  | 0x24 => some .cfgAlpha
  | 0x28 => some .cfgFlags
  | 0x2C => some .inByte
  | 0x30 => some .outByte
  | 0x34 => some .param
  | _ => none

/-- The register a host access reaches: only a 32-bit access at an aligned offset reaches one (20 R51). -/
def registerOf (off : BitVec 6) (w : Width) : Option Register := if w = .word then registerAt off else none

/-- The offset within the window of an address `BASE + off` (20 R48, R50); `none` outside it, where the access is not the block's. -/
def windowOffset (par : Params) (addr : Nat) : Option (BitVec 6) :=
  if par.base ≤ addr ∧ addr < par.base + 64 then some (BitVec.ofNat 6 (addr - par.base)) else none

/-- `MemRead(addr, w)` as an access to the block (20 R50). -/
def memRead (par : Params) (addr : Nat) (w : Width) : Option HostAccess := (windowOffset par addr).map fun off => .read off w

/-- `MemWrite(addr, w, v)` as an access to the block (20 R50). -/
def memWrite (par : Params) (addr : Nat) (w : Width) (v : Word) : Option HostAccess :=
  (windowOffset par addr).map fun off => .write off w v

/-- A read of `OUT_BYTE` pops the FIFO (20 R56). -/
def popOutByte (s : State) : Word × State :=
  match s.buf.outBytes with
  | b :: rest => (0x100#32 ||| b.setWidth 32, s.withBuf { s.buf with outBytes := rest })
  | [] => (0#32, s)

/-- What a read of a register returns, and the state after it (20 R49). -/
def readRegister (r : Register) (s : State) : Word × State :=
  match r with
  | .id => (Config.idValue, s)
  | .ctrl => (s.ctrlWord, s)
  | .status => (s.statusWord, s)
  | .cmd => (0#32, s)
  | .result => (s.ctl.result, s)
  | .faultInfo => (s.ctl.faultInfo, s)
  | .faultCmd => (s.ctl.faultCmd, s)
  | .cfgK => (s.ctl.cfg.k.setWidth 32, s)
  | .cfgN => (s.ctl.cfg.n, s)
  | .cfgAlpha => (s.ctl.cfg.alpha.setWidth 32, s)
  | .cfgFlags => (s.ctl.cfg.flags, s)
  | .inByte => (0#32, s)
  | .outByte => popOutByte s
  | .param => (s.paramWord, s)

/-- A host read: an access that reaches no register returns 0 and does nothing (20 R51, R58). -/
def hostRead (off : BitVec 6) (w : Width) (s : State) : Word × State :=
  match registerOf off w with
  | some r => readRegister r s
  | none => (0#32, s)

/-- Reset of the whole block (70 R164, R165); the build's parameters and the host's part are not the block's to reset. -/
def softReset (s : State) : State := (State.resetWith s.par).withHost s.host

/-- A write of `CTRL`: `IRQ_EN ← v[0]`, then, if `v[31] = 1`, the soft reset (10 R43, 70 R165). -/
def writeCtrl (v : Word) (s : State) : State :=
  let s := s.withCtl { s.ctl with irqEn := v.getLsbD 0 }
  if v.getLsbD 31 then softReset s else s

/-- A write of `IN_BYTE` (20 R55). -/
def pushInByte (v : Word) (s : State) : State :=
  if s.buf.inBytes.length < s.par.byteCap then s.withBuf { s.buf with inBytes := s.buf.inBytes ++ [v.setWidth 8] }
  else s.withCtl { s.ctl with dropped := true }

/-- Replace `CFG`. -/
def State.withCfg (s : State) (c : Conf) : State := s.withCtl { s.ctl with cfg := c }

/-- A write of a register that is not `CMD` (20 R49): the read-only ones ignore it. -/
def writeRegister (r : Register) (v : Word) (s : State) : State :=
  match r with
  | .id => s
  | .ctrl => writeCtrl v s
  | .status => s
  | .cmd => s
  | .result => s
  | .faultInfo => s
  | .faultCmd => s
  | .cfgK => s.withCfg { s.ctl.cfg with k := v.setWidth 16 }
  | .cfgN => s.withCfg { s.ctl.cfg with n := v }
  | .cfgAlpha => s.withCfg { s.ctl.cfg with alpha := v.setWidth 17 }
  | .cfgFlags => s.withCfg { s.ctl.cfg with decayEn := v.getLsbD 0, growth := v.getLsbD 1, remove := v.getLsbD 2 }
  | .inByte => pushInByte v s
  | .outByte => s
  | .param => s

end Sys2Proof.Machine
end

