-- ==== Sys2Proof/Machine/Deliver.lean ====
section
/-! DEFINITION. The delivery of a command word to the core (20 R54, 30 R70, R72), and one host access. -/

namespace Sys2Proof.Machine

/-- The info value of `IllegalCommand` (30 R70). -/
def illegalInfo : DecodeError → Word
  | .illegalOpcode op => BitVec.ofNat 32 op
  | .reservedBits op => BitVec.ofNat 32 (0x100 + op)

/-- A command word that is no command: dropped in the fault state unless its opcode is allowed there, else `IllegalCommand`
(30 R70, R72, 60 R152). -/
def rejectCommand (e : DecodeError) (c : Word) (s : State) : State :=
  if !allowedInFault (opcodeOf c) && s.faulted then s.dropCommand
  else s.enterFault .illegalCommand (illegalInfo e) c

/-- Deliver command word `c` to the core (20 R54). The fault-state check of a legal command is `exec`'s own. -/
def deliverCommand (c : Word) (s : State) : Host.Outcome State Fault Refusal :=
  match decode c with
  | .ok i => exec i s
  | .error e => .next (rejectCommand e c s)

/-- Give the host the value of a read (70 R173). -/
def State.observe (s : State) (v : Word) : State := s.withHost { s.host with observed := s.host.observed ++ [v] }

/-- One host access, carried out completely (20 R50, R61). -/
def applyAccess (a : HostAccess) (s : State) : Host.Outcome State Fault Refusal :=
  match a with
  | .read off w => .next ((hostRead off w s).2.observe (hostRead off w s).1)
  | .write off w v =>
    match registerOf off w with
    | none => .next s
    | some .cmd => deliverCommand v s
    | some r => .next (writeRegister r v s)

/-- The first pending access applied, the others left pending; with none pending the block holds its state (60 R163). -/
def nextAccess (s : State) : Host.Outcome State Fault Refusal :=
  match s.host.pending with
  | [] => .next s
  | a :: rest => applyAccess a (s.withHost { s.host with pending := rest })

/-- A `CMD` write of word `c`, made the host's next access. -/
def pendCommand (c : Word) (s : State) : State :=
  s.withHost { s.host with pending := .write Register.cmd.offset .word c :: s.host.pending }

end Sys2Proof.Machine
end

