-- ==== Sys2Proof/Machine/Step.lean ====
section
/-! DEFINITION. One step: the block applies the host's next access (20 R61). The block has no program counter and fetches nothing (10 R22);
a command comes as a `CMD` write. -/

namespace Sys2Proof.Machine

/-- One step. -/
def step (s : State) : Host.Outcome State Fault Refusal := nextAccess s

/-- `s` with the command word `w`, given by its low `nbits` bits, as the host's next access (log entry 3). -/
def State.withFetchWord (s : State) (nbits w : Nat) : State := pendCommand (BitVec.ofNat 32 (w % 2 ^ nbits)) s

end Sys2Proof.Machine
end

