-- ==== Sys2Proof/Machine/HostProgram.lean ====
section
/-! DEFINITION. Host programs: the lines of 30 R73 and the pseudo-instructions of 30 R74, as host accesses. -/

namespace Sys2Proof.Machine

/-- One line of a host program (30 R73): a command, `WR REG, value`, or `RD REG`. The text of a line is not parsed: DESIGN CHOICE (log entry 16), safe. -/
inductive HostLine where
  | command (i : Instr)
  | wr (r : Register) (v : Word)
  | rd (r : Register)
  deriving DecidableEq, Repr

/-- The host access a line makes. -/
def HostLine.access : HostLine → HostAccess
  | .command i => .write Register.cmd.offset .word (encode i)
  | .wr r v => .write r.offset .word v
  | .rd r => .read r.offset .word

/-- `s` with a host program to run after what is pending (70 R173). -/
def State.withProgram (s : State) (lines : List HostLine) : State :=
  s.withHost { s.host with pending := s.host.pending ++ lines.map HostLine.access }

/-- `CFG K, N, ALPHA, FLAGS` (30 R74). -/
def cfgLines (k n alpha flags : Word) : List HostLine := [.wr .cfgK k, .wr .cfgN n, .wr .cfgAlpha alpha, .wr .cfgFlags flags]

/-- `BS_PUT_BITS v, n` (30 R74). -/
def putBitsLines (v n : Nat) : List HostLine := (bitsMSB v n).map fun b => .command (.bsPutBit b)

/-- `BS_IN_BITS` (30 R74). -/
def inBitsLines (bits : List Bool) : List HostLine := bits.map fun b => .command (.bsInBit b)

/-- `IN_BYTES` (30 R74). -/
def inBytesLines (bytes : List Byte) : List HostLine := bytes.map fun b => .wr .inByte (b.setWidth 32)

/-- `AC_ENCODE` (30 R74). -/
def acEncodeLines (symbols : List Nat) : List HostLine :=
  [.command (.bsGammaPut symbols.length), .command .acEncStart] ++ symbols.map (fun a => .command (.acEncSym a))
    ++ [.command .acEncFinish]

/-- `n` times a decoder command and the read of its result (30 R74: a host loop). -/
def decodeLoop (i : Instr) : Nat → List HostLine
  | 0 => []
  | n + 1 => .command i :: .rd .result :: decodeLoop i n

/-- `AC_DECODE`, for a host that has read `n` from `RESULT` (30 R74). -/
def acDecodeLines (n : Nat) : List HostLine :=
  [.command .bsGammaGet, .rd .result, .command .acDecStart] ++ decodeLoop .acDecSym n

/-- `AH_ENCODE` (30 R74). -/
def ahEncodeLines (symbols : List Nat) : List HostLine := .command .ahEncStart :: symbols.map fun a => .command (.ahEncSym a)

/-- `AH_DECODE n` (30 R74). -/
def ahDecodeLines (n : Nat) : List HostLine := .command .ahDecStart :: decodeLoop .ahDecSym n

/-- `CLEAR` (30 R74). -/
def clearLines : List HostLine := [.command .bsClearOut, .command .bsClearIn]

end Sys2Proof.Machine
end

