-- ==== Sys2Proof/Safety.lean ====
section
/-! DEFINITION. What counts as a legal build and a legal state, and the vocabulary the statements use: the spec's invariants (00 R9, R12,
41 R95, 42 R102) as predicates. -/

namespace Sys2Proof.Machine

/-! ### Builds and configurations -/

/-- A legal build: 00 R9's ranges and 20 R48's alignment of `BASE`. That the capacities and `PAD_LIMIT` fit 32 bits is
DEDUCED from 10 R23 and 45 R140, which read them through 32-bit registers (log entry 11). -/
structure LegalBuild (par : Params) : Prop where
  p_min : 4 ≤ par.p
  p_max : par.p ≤ 32
  kmax_min : 1 ≤ par.kmax
  kmax_max : par.kmax ≤ 65535
  outCap_max : par.outCap ≤ Config.wordMax
  inCap_max : par.inCap ≤ Config.wordMax
  byteCap_max : par.byteCap ≤ Config.wordMax
  padLimit_max : par.padLimit ≤ Config.wordMax
  base_aligned : par.base % 64 = 0

/-- A configuration that the model's latch accepts (45 R137). -/
structure LegalConf (kmax : Nat) (c : Conf) : Prop where
  k_min : 1 ≤ c.k.toNat
  k_max : c.k.toNat ≤ kmax
  alpha_min : 1 ≤ c.alpha.toNat
  alpha_max : c.alpha.toNat ≤ Config.alphaOne
  decay : c.decayEn = true → c.alpha.toNat < Config.alphaOne → c.n.toNat ≠ 0

/-! ### The arithmetic coder -/

/-- 41 R95, condition 1: the interval between commands of an open arithmetic stream. -/
structure IntervalOk (p : Nat) (c : Coder) : Prop where
  lo_low : c.lo < half p
  hi_high : half p ≤ c.hi
  hi_max : c.hi ≤ one p
  wide : c.lo < quarter p ∨ threeQuarters p ≤ c.hi

/-- 41 R95, condition 2: the value window of the decoder. -/
def ValueOk (c : Coder) : Prop := c.lo ≤ c.value ∧ c.value ≤ c.hi

/-! ### The tree -/

/-- 42 R102, TI1 to TI5, for a tree over the alphabet `{0, …, k−1}`, with the derived facts the rules state beside them: a
present symbol has weight at least 1 (42 R112), `M ≤ K` (10 R28) and every weight fits CW bits (60 R148). -/
structure TreeOk (k : Nat) (growth : Bool) (t : Tree) : Prop where
  /-- TI1 -/
  ordered : ∀ q, q + 1 < 2 * t.m → t.wt q ≤ t.wt (q + 1)
  /-- TI2 at the root -/
  root_node : 0 < t.m → t.root = .node (t.m - 1) ∧ (t.pairAt (t.m - 1)).parent = none
  /-- with no pair, the root is a leaf (10 R30) -/
  root_leaf : t.m = 0 → t.root.key? ≠ none
  /-- TI2: every other pair's parent is a later pair, whose slot holds it -/
  parent_later : ∀ i, i + 1 < t.m →
    ∃ j b, (t.pairAt i).parent = some (j, b) ∧ i < j ∧ j < t.m ∧ (t.pairAt j).child b = .node i
  /-- TI2: a slot that holds `Node(i)` is the slot that pair `i` names, so `Node(i)` stands in one slot only -/
  child_once : ∀ q i, q < 2 * t.m → t.ch q = .node i → i + 1 < t.m ∧ (t.pairAt i).parent = some (q / 2, slotOf q)
  /-- TI3 at a slot -/
  slot_sum : ∀ q i, q < 2 * t.m → t.ch q = .node i → t.wt q = (t.pairAt i).sum
  /-- TI3 at the root -/
  root_sum : 0 < t.m → t.rootW = (t.pairAt (t.m - 1)).sum
  /-- TI4 at a slot -/
  loc_slot : ∀ x j b, t.locOf x = .atSlot j b ↔ j < t.m ∧ ((t.pairAt j).child b).key? = some x
  /-- TI4 at the root -/
  loc_root : ∀ x, t.locOf x = .atRoot ↔ t.root.key? = some x
  /-- the leaves are symbols of the alphabet, or the NYT (10 R27) -/
  in_alphabet : ∀ a, t.locOf (.sym a) ≠ .absent → a < k
  /-- TI5 with growth -/
  nyt_present : growth = true → t.locNyt ≠ .absent
  /-- TI5: the NYT has weight 0 -/
  nyt_weight : ∀ q, q < 2 * t.m → t.ch q = .nyt → t.wt q = 0
  /-- the NYT alone weighs 0 (42 R113) -/
  nyt_root_weight : t.root = .nyt → t.rootW = 0
  /-- TI5 without growth -/
  all_present : growth = false → t.locNyt = .absent ∧ ∀ a, a < k → t.locOf (.sym a) ≠ .absent
  /-- a symbol in the tree weighs at least 1 (42 R112) -/
  leaf_weight : ∀ q a, q < 2 * t.m → t.ch q = .leaf a → 1 ≤ t.wt q
  /-- a symbol at the root weighs at least 1 (42 R113) -/
  leaf_root_weight : ∀ a, t.root = .leaf a → 1 ≤ t.rootW
  /-- `M ≤ K` (10 R28) -/
  size : t.m ≤ k
  /-- the root's weight, so every weight, fits CW bits (60 R148) -/
  weight_max : t.rootW ≤ Config.countMax

/-! ### The whole block -/

/-- The lengths of the tables (10 R25, R28, R31): one entry for each index below KMAX. -/
structure TablesOk (s : State) : Prop where
  count_length : s.model.count.length = s.par.kmax
  pairs_length : s.tree.pairs.length = s.par.kmax
  loc_length : s.tree.locSym.length = s.par.kmax

/-- Every register and buffer holds a value of its width (00 R12, 10 R23, R25, R33, R35). -/
structure WidthsOk (s : State) : Prop where
  lo_max : s.coder.lo ≤ one s.par.p
  hi_max : s.coder.hi ≤ one s.par.p
  value_max : s.coder.value ≤ one s.par.p
  straddle_max : s.coder.straddle ≤ Config.countMax
  pad_max : s.coder.padUsed ≤ s.par.padLimit
  symCount_max : s.ctl.symCount ≤ Config.wordMax
  total_max : s.model.valid = true → s.total ≤ Config.countMax
  outBits_max : s.buf.outBits.length ≤ s.par.outCap
  inBits_max : s.buf.inBits.length ≤ s.par.inCap
  inPos_max : s.buf.inPos ≤ s.buf.inBits.length
  outBytes_max : s.buf.outBytes.length ≤ s.par.byteCap
  inBytes_max : s.buf.inBytes.length ≤ s.par.byteCap

/-- What holds of the block between host accesses, the inside of the tree apart: a legal build, tables and registers of their widths, a
latched configuration that passed the latch (with a valid tree, the latch of the tree, 45 R137), the coder's invariants (41 R95), and at
most one of model and tree valid, the one the open stream uses (10 R26, R32). -/
structure BlockInv (s : State) : Prop where
  build : LegalBuild s.par
  tables : TablesOk s
  widths : WidthsOk s
  acfg : LegalConf s.par.kmax s.ctl.acfg
  interval : s.ctl.mode = .acEnc ∨ s.ctl.mode = .acDec → IntervalOk s.par.p s.coder
  window : s.ctl.mode = .acDec → ValueOk s.coder
  one_valid : ¬ (s.model.valid = true ∧ s.tree.valid = true)
  model_open : s.ctl.mode = .acEnc ∨ s.ctl.mode = .acDec → s.model.valid = true
  tree_open : s.ctl.mode = .ahEnc ∨ s.ctl.mode = .ahDec → s.tree.valid = true
  tree_conf : s.tree.valid = true → s.ctl.acfg.remove = true → s.ctl.acfg.growth = true

/-- The tree invariants, where the block says it holds a tree (10 R32). -/
def TreeInv (s : State) : Prop := s.tree.valid = true → TreeOk s.alphabet s.ctl.acfg.growth s.tree

/-! ### Renormalization, pass by pass -/

/-- The case that a pass of the renormalization loop takes (41 R90): `HI < HALF`, `LO ≥ HALF`, or `LO ≥ QUARTER` with `HI < TQ`. -/
inductive Pass where
  | low | high | middle
  deriving DecidableEq, Repr

/-- What a pass subtracts from the interval (41 R90). -/
def Pass.offset (p : Nat) : Pass → Nat
  | .low => 0
  | .high => half p
  | .middle => quarter p

/-- The passes that renormalization makes from the interval `[lo, hi]`, at most `fuel` (41 R90). -/
def passes (p : Nat) : Nat → Nat → Nat → List Pass
  | 0, _, _ => []
  | fuel + 1, lo, hi =>
    if hi < half p then .low :: passes p fuel (2 * lo) (2 * hi + 1)
    else if half p ≤ lo then .high :: passes p fuel (2 * (lo - half p)) (2 * (hi - half p) + 1)
    else if quarter p ≤ lo ∧ hi < threeQuarters p then .middle :: passes p fuel (2 * (lo - quarter p)) (2 * (hi - quarter p) + 1)
    else []

/-- What `n` passes have subtracted from `2^n` times the interval: each subtraction is doubled by its own pass and by every later one. -/
def passOffset (p : Nat) : List Pass → Nat
  | [] => 0
  | d :: z => 2 ^ (z.length + 1) * d.offset p + passOffset p z

/-- The bits that passes emit when `k` straddle bits are pending: a decided bit, then the pending ones, opposite to it (41 R90). -/
def passBits : Nat → List Pass → List Bool
  | _, [] => []
  | k, .low :: z => false :: List.replicate k true ++ passBits 0 z
  | k, .high :: z => true :: List.replicate k false ++ passBits 0 z
  | k, .middle :: z => passBits (k + 1) z

/-- The straddle bits that passes leave pending (41 R90). -/
def passStraddle : Nat → List Pass → Nat
  | k, [] => k
  | _, .low :: z => passStraddle 0 z
  | _, .high :: z => passStraddle 0 z
  | k, .middle :: z => passStraddle (k + 1) z

/-- How many passes leave a bit pending before the first that emits one. -/
def firstStraddles : List Pass → Nat
  | .middle :: z => firstStraddles z + 1
  | _ => 0

/-- The passes that coding symbol `a` makes: at most `P` tests of the loop, from the symbol's region (41 R89, R91). -/
def State.symbolPasses (s : State) (a : Nat) : List Pass := passes s.par.p s.par.p (s.regionLo a) (s.regionEnd a - 1)

/-! ### The tree's procedures, as relations -/

/-- `Above t q p`: position `p` is an ancestor of position `q` (42 R103). -/
inductive Above (t : Tree) : Nat → Nat → Prop
  | parent {q p : Nat} : (t.pairAt (q / 2)).parent = some (p / 2, slotOf p) → Above t q p
  | up {q r p : Nat} : (t.pairAt (q / 2)).parent = some (r / 2, slotOf r) → Above t r p → Above t q p

/-- `l` is the weight-class leader of `q`: the highest position of `q`'s weight that is no ancestor of `q` (42 R107). -/
def IsLeader (t : Tree) (q l : Nat) : Prop :=
  l < 2 * t.m ∧ t.wt l = t.wt q ∧ ¬ Above t q l ∧ ∀ p, p < 2 * t.m → t.wt p = t.wt q → ¬ Above t q p → p ≤ l

/-- `u` is `t` with the children of positions `q` and `l` exchanged, the weights in place and the moved children's references repointed
(42 R106). -/
structure Swapped (t : Tree) (q l : Nat) (u : Tree) : Prop where
  m : u.m = t.m
  root : u.root = t.root
  rootW : u.rootW = t.rootW
  weight : ∀ p, u.wt p = t.wt p
  child : ∀ p, u.ch p = if p = l then t.ch q else if p = q then t.ch l else t.ch p
  parent : ∀ i, i < t.m → (u.pairAt i).parent =
    if t.ch q = .node i then some (l / 2, slotOf l) else if t.ch l = .node i then some (q / 2, slotOf q) else (t.pairAt i).parent
  loc : ∀ x, u.locOf x =
    if (t.ch q).key? = some x then .atSlot (l / 2) (slotOf l)
    else if (t.ch l).key? = some x then .atSlot (q / 2) (slotOf q) else t.locOf x

/-- The slide of 42 R108: the node at `q` of `t` moves from leader to leader until it is its own, at `r` of `u`. -/
inductive Slid : Tree → Nat → Tree → Nat → Prop
  | stay {t : Tree} {q : Nat} : IsLeader t q q → Slid t q t q
  | move {t u v : Tree} {q l r : Nat} : IsLeader t q l → l ≠ q → Swapped t q l u → Slid u l v r → Slid t q v r

/-- The walk of 42 R108 from a location to the root: each node slides, then its slot weighs one more than the node did. -/
inductive Climbed : Tree → Loc → Tree → Prop
  | root {t : Tree} : Climbed t .atRoot { t with rootW := t.rootW + 1 }
  | slot {t u v : Tree} {q r : Nat} : Slid t q u r → Climbed (u.setWeight r (t.wt q + 1)) (u.parentLoc (r / 2)) v →
    Climbed t (.atSlot (q / 2) (slotOf q)) v

/-- `u` is `t` grown by the new symbol `a`: a new pair 0 with the NYT and the symbol, both of weight 0, and every other pair one index up, where
the NYT's old slot holds the new pair (42 R109). -/
structure NewLeaf (t : Tree) (a : Nat) (u : Tree) : Prop where
  m : u.m = t.m + 1
  root : u.root = .node t.m
  rootW : u.rootW = t.rootW
  pair0 : u.ch 0 = .nyt ∧ u.ch 1 = .leaf a ∧ u.wt 0 = 0 ∧ u.wt 1 = 0
  weight : ∀ p, p < 2 * t.m → u.wt (p + 2) = t.wt p
  child : ∀ p, p < 2 * t.m → u.ch (p + 2) = match t.ch p with
    | .nyt => .node 0
    | .leaf b => .leaf b
    | .node i => .node (i + 1)
  parent : ∀ q i, q < 2 * u.m → u.ch q = .node i → (u.pairAt i).parent = some (q / 2, slotOf q)
  rootParent : (u.pairAt t.m).parent = none
  loc : ∀ x q, u.locOf x = .atSlot (q / 2) (slotOf q) ↔ q < 2 * u.m ∧ (u.ch q).key? = some x
  locRoot : ∀ x, u.locOf x ≠ .atRoot

/-- `u` is `t` with symbol `a` counted: grown by `a` where `a` is new, then updated for it (43 R117, R119). -/
def Counted (t : Tree) (a : Nat) (u : Tree) : Prop :=
  ∃ p, ((t.locOf (.sym a) ≠ .absent ∧ p = t) ∨ (t.locOf (.sym a) = .absent ∧ NewLeaf t a p)) ∧ Climbed p (p.locOf (.sym a)) u

/-- Kind and key# of a child value (42 R111). -/
def Child.rank : Child → Nat × Nat
  | .nyt => (0, 0)
  | .leaf a => (0, a + 1)
  | .node k => (1, k)

/-- A node of weight `w` and child value `x` comes before one of weight `w'` and child value `y` in the order (weight, kind, key#)
(42 R111). -/
def Before (w : Nat) (x : Child) (w' : Nat) (y : Child) : Prop :=
  w < w' ∨ (w = w' ∧ (x.rank.1 < y.rank.1 ∨ (x.rank.1 = y.rank.1 ∧ x.rank.2 < y.rank.2)))

/-- The positions of the tree stand in the order in which 42 R111 takes the nodes: by weight, then kind, then key#. With TI2 and TI3 this fixes
the tree that a rebuild makes of given leaves. -/
def RebuildOrder (t : Tree) : Prop := ∀ p q, p < q → q < 2 * t.m → Before (t.wt p) (t.ch p) (t.wt q) (t.ch q)

/-! ### Words for statements about commands -/

/-- The state after fault entry: the fault record is written, `RESULT_VALID` cleared, and nothing else changes (60 R150). -/
def faultRecorded (s : State) (f : FaultCode) (info c : Word) : State :=
  { s with ctl := { s.ctl with faultCode := f, faultInfo := info, faultCmd := c, resultValid := false } }

/-- The state after a dropped command: `DROPPED` set, `RESULT_VALID` cleared, and nothing else changed (60 R152). -/
def dropRecorded (s : State) : State := { s with ctl := { s.ctl with dropped := true, resultValid := false } }

/-- The control state of a command that completed and returns nothing (10 R40). -/
def Control.silent (c : Control) : Control := { c with resultValid := false }

/-- The control state of a command that completed and returned `v` (10 R40). -/
def Control.returned (c : Control) (v : Word) : Control := { c with result := v, resultValid := true }

/-- The control state with the fault record cleared (60 R153). -/
def Control.cleared (c : Control) : Control :=
  { c with faultCode := .none, faultInfo := 0#32, faultCmd := 0#32, dropped := false }

/-- The command completes, returns `v`, and changes nothing but `RESULT` and `RESULT_VALID` (10 R40). -/
def Returns (i : Instr) (s : State) (v : Word) : Prop := exec i s = .next { s with ctl := s.ctl.returned v }

/-- The command faults with this code and info value, and its writes are rolled back (60 R149, R150). -/
def FaultsWith (i : Instr) (s : State) (f : FaultCode) (info : Nat) : Prop :=
  exec i s = .next (faultRecorded s f (BitVec.ofNat 32 info) (encode i))

/-- The opcodes of 30 R69. -/
def legalOpcodes : List Nat :=
  [0x00, 0x01, 0x02, 0x10, 0x11, 0x12, 0x13, 0x14, 0x15, 0x16, 0x17, 0x18, 0x19, 0x1A, 0x20, 0x21, 0x22, 0x23, 0x24, 0x25,
   0x30, 0x31, 0x32, 0x33, 0x34, 0x40, 0x41, 0x42, 0x43, 0x44, 0x45, 0x48, 0x49, 0x4A, 0x4B]

/-- The opcodes of form Z (30 R69). -/
def formZOpcodes : List Nat :=
  [0x00, 0x01, 0x10, 0x11, 0x13, 0x15, 0x16, 0x17, 0x19, 0x20, 0x22, 0x25, 0x30, 0x32, 0x33, 0x34, 0x40, 0x42, 0x43, 0x45]

/-- The opcodes of form B (30 R69). -/
def formBOpcodes : List Nat := [0x12, 0x18]

/-- The opcodes carried out in the fault state (60 R152). -/
def faultStateOpcodes : List Nat :=
  [0x00, 0x01, 0x02, 0x10, 0x11, 0x23, 0x24, 0x25, 0x30, 0x33, 0x40, 0x42, 0x48, 0x49, 0x4A, 0x4B]

/-- The word has a reserved operand bit set (30 R68). -/
def ReservedBitSet (c : Word) : Prop :=
  (opcodeOf c ∈ formZOpcodes ∧ immOf c ≠ 0) ∨ (opcodeOf c ∈ formBOpcodes ∧ immOf c / 2 ≠ 0)

/-- The commands that return a value, by the rules of their families. -/
def returnsValue : Instr → Bool
  | .dbgRead _ => true
  | .bsGetBit => true
  | .bsGammaGet => true
  | .bsPeekOut _ => true
  | .modelCount _ => true
  | .modelCum _ => true
  | .modelTotal => true
  | .acDecSym => true
  | .ahDecSym => true
  | .ahReadW _ => true
  | .ahReadC _ => true
  | .ahReadParent _ => true
  | .ahReadLoc _ => true
  | _ => false

/-- The commands that open a stream, and the mode each opens (10 R34). -/
def opensMode : Instr → Option Mode
  | .acEncStart => some .acEnc
  | .acDecStart => some .acDec
  | .ahEncStart => some .ahEnc
  | .ahDecStart => some .ahDec
  | _ => none

/-- The number a bit sequence stands for, most significant bit first. -/
def bitsValue (bits : List Bool) : Nat := bits.foldl (fun v b => 2 * v + b.toNat) 0

/-- The counts after one decay pass over the first `k` of them, when it is due (40 R78, R79). -/
def decayedCounts (k : Nat) (acfg : Conf) (count : List Nat) : List Nat :=
  (count.take k).map
      (fun w => if acfg.remove then w * acfg.alpha.toNat / 65536 else (w * acfg.alpha.toNat + 65535) / 65536)
    ++ count.drop k

/-- The counts after the model step of a coded symbol `a` in state `s`: one more `a`, then decay if the symbol's index is a multiple of N
(40 R77, R80). -/
def countsAfter (s : State) (a : Nat) : List Nat :=
  let bumped := s.model.count.set a (s.countOf a + 1)
  if s.ctl.acfg.decayEn = true ∧ s.ctl.acfg.alpha.toNat < 65536 ∧ (s.ctl.symCount + 1) % s.ctl.acfg.n.toNat = 0 then
    decayedCounts s.alphabet s.ctl.acfg bumped
  else bumped

/-- The interval has at least two integers of the symbol's region, so coding it does not raise `ZeroInterval` (41 R89). -/
def CodesInterval (s : State) (a : Nat) : Prop := 0 < s.total ∧ s.regionLo a + 2 ≤ s.regionEnd a

/-- `VALUE` lies in the symbol's region (41 R88). -/
def InRegion (s : State) (a : Nat) : Prop := s.regionLo a ≤ s.coder.value ∧ s.coder.value < s.regionEnd a

/-- The bits that code symbol `a` in the state's tree (43 R117): its path, or the NYT's path and the raw code. -/
def Codeword (s : State) (a : Nat) (code : List Bool) : Prop :=
  (s.tree.locOf (.sym a) ≠ .absent ∧ s.tree.pathBits (.sym a) = .ok code) ∨
  (s.tree.locOf (.sym a) = .absent ∧ ∃ path, s.tree.pathBits .nyt = .ok path ∧ code = path ++ bitsMSB a (rawWidth s.alphabet))

/-- The weight of a leaf of the tree: that of its slot, or the root's; `none` if the tree has no such leaf (10 R31). -/
def leafWeight (t : Tree) (x : Key) : Option Nat :=
  match t.locOf x with
  | .absent => none
  | .atRoot => some t.rootW
  | .atSlot k b => some ((t.pairAt k).weight b)

/-- The weight of a leaf after symbol `a` has been counted (42 R108, R109). -/
def countedLeaf (t : Tree) (a : Nat) (x : Key) : Option Nat :=
  if x = .sym a then some ((leafWeight t x).getD 0 + 1) else leafWeight t x

/-- What a decay makes of a leaf's weight: the NYT's is 0; a symbol's is scaled, and the symbol is evicted where it reaches 0 under REMOVE
(40 R78, 42 R112). -/
def decayedLeaf (c : Conf) : Key → Nat → Option Nat
  | .nyt, _ => some 0
  | .sym _, w =>
    if c.remove = true then
      if w * c.alpha.toNat / 65536 = 0 then none else some (w * c.alpha.toNat / 65536)
    else some ((w * c.alpha.toNat + 65535) / 65536)

/-- A decay follows the next coded symbol (40 R80). -/
def DecayFollows (s : State) : Prop :=
  s.ctl.acfg.decayEn = true ∧ s.ctl.acfg.alpha.toNat < 65536 ∧ (s.ctl.symCount + 1) % s.ctl.acfg.n.toNat = 0

/-- The tree after symbol `a` has been coded in state `s` (43 R115): `a` is counted, and where a decay follows the tree is rebuilt from the
decayed weights. -/
structure CodedTree (s : State) (a : Nat) (tree : Tree) : Prop where
  valid : tree.valid = true
  ok : TreeOk s.alphabet s.ctl.acfg.growth tree
  counted : ¬ DecayFollows s → Counted s.tree a tree ∧ tree.rootW = s.tree.rootW + 1 ∧ ∀ x, leafWeight tree x = countedLeaf s.tree a x
  decayed : DecayFollows s → RebuildOrder tree ∧
    ∀ x, leafWeight tree x = (countedLeaf s.tree a x).bind (decayedLeaf s.ctl.acfg x)

/-- The commands of the bit-serializer. -/
def isSerializer : Instr → Bool
  | .bsClearOut => true
  | .bsClearIn => true
  | .bsPutBit _ => true
  | .bsGetBit => true
  | .bsGammaPut _ => true
  | .bsGammaGet => true
  | .bsPack => true
  | .bsUnpack => true
  | .bsInBit _ => true
  | .bsLoopback => true
  | .bsPeekOut _ => true
  | _ => false

end Sys2Proof.Machine
end

