-- ==== Sys2Proof/Certificates/Slice0/Obligations.lean ====
section
/-! DEFINITION. The statements for the provers, from the numbered rules of spec/. The block has no memory and no program counter (20 R48, 10 R22), so
no statement has a clause about either: a statement that gives the whole next state, or a frame, covers all there is. -/

open Sys2Proof Sys2Proof.Machine

/-! ### Encoding and delivery -/

/-- 30 R67 to R69. -/
def Obligations.DecodeOfEncodeIsIdentity : Prop := ∀ i : Instr, WellFormed i → decode (encode i) = .ok i

/-- 30 R67 to R69: a word has one meaning, and a decoded command's word is the word it came from (log entry 14). -/
def Obligations.EncodeOfDecodeIsIdentity : Prop :=
  ∀ (c : Word) (i : Instr), decode c = .ok i → encode i = c ∧ WellFormed i

/-- 30 R70. -/
def Obligations.IllegalAndReservedWordsFault : Prop :=
  (List.range 256).countP (fun op => !legalOpcodes.contains op) = 221 ∧
  ∀ (c : Word) (s : State),
    (opcodeOf c ∉ legalOpcodes → s.ctl.faultCode = .none →
      deliverCommand c s = .next (faultRecorded s .illegalCommand (BitVec.ofNat 32 (opcodeOf c)) c)) ∧
    (opcodeOf c ∉ legalOpcodes → s.ctl.faultCode ≠ .none → deliverCommand c s = .next (dropRecorded s)) ∧
    (ReservedBitSet c → s.ctl.faultCode = .none ∨ opcodeOf c ∈ faultStateOpcodes →
      deliverCommand c s = .next (faultRecorded s .illegalCommand (BitVec.ofNat 32 (0x100 + opcodeOf c)) c)) ∧
    (ReservedBitSet c → s.ctl.faultCode ≠ .none → opcodeOf c ∉ faultStateOpcodes → deliverCommand c s = .next (dropRecorded s))

/-- 30 R69, R73: words written out from the map and the examples. -/
def Obligations.SpecWordsDecode : Prop :=
  decode 0x31000057#32 = .ok (.acEncSym 87) ∧ decode 0x12000001#32 = .ok (.bsPutBit true) ∧
  decode 0x00000000#32 = .ok .nop ∧ decode 0x24000003#32 = .ok (.modelCum 3) ∧ decode 0x44000003#32 = .ok (.ahUpdate 3) ∧
  decode 0x4BFFFFFF#32 = .ok (.ahReadLoc 0xFFFFFF)

/-- 20 R50, R54, R61, 30 R70, 60 R163, 70 R173: the step applies the host's next access and takes it off the list. A `CMD` write is the delivery of its
word: a command's execution, or the rejection of a word that is none. A read gives its value to the host's observations, in order. With no
access pending the block holds its state. -/
def Obligations.StepRunsDecodedCommand : Prop :=
  ∀ (s : State) (rest : List HostAccess),
    let after : State := { s with host := { s.host with pending := rest } }
    (s.host.pending = [] → step s = .next s) ∧
    (∀ a, s.host.pending = a :: rest → step s = applyAccess a after) ∧
    (∀ c, s.host.pending = .write 0x0C#6 .word c :: rest →
      step s = deliverCommand c after ∧
      (∀ i, decode c = .ok i → step s = exec i after) ∧
      (∀ e, decode c = .error e → step s = .next (rejectCommand e c after))) ∧
    (∀ off w, s.host.pending = .read off w :: rest →
      step s = .next { (hostRead off w after).2 with
        host := { s.host with pending := rest, observed := s.host.observed ++ [(hostRead off w after).1] } })

/-! ### The register window -/

/-- 20 R51, and R58 for the reserved offsets: such an access reads 0, or changes nothing. R57: every read but that of `OUT_BYTE` returns the
same value again and changes no state, and only the writes of `CMD`, `IN_BYTE`, `CTRL` and `CFG_*` change any. -/
def Obligations.OnlyNamedAccessesHaveEffects : Prop :=
  ∀ (s : State) (off : BitVec 6) (w : Width) (v : Word),
    ((w ≠ .word ∨ off.toNat % 4 ≠ 0 ∨ off = 0x38#6 ∨ off = 0x3C#6) →
      applyAccess (.read off w) s = .next { s with host := { s.host with observed := s.host.observed ++ [0#32] } } ∧
      applyAccess (.write off w v) s = .next s) ∧
    (off ≠ 0x30#6 → (hostRead off w s).2 = s) ∧
    (off ∉ [0x04#6, 0x0C#6, 0x1C#6, 0x20#6, 0x24#6, 0x28#6, 0x2C#6] → applyAccess (.write off w v) s = .next s)

/-- 20 R49, the column "read returns", with 10 R42, R43, R45; `STATUS` and `OUT_BYTE` have statements of their own. -/
def Obligations.RegistersReadTheirState : Prop :=
  ∀ s : State,
    hostRead 0x00#6 .word s = (0x435A4143#32, s) ∧
    hostRead 0x04#6 .word s = (BitVec.ofNat 32 s.ctl.irqEn.toNat, s) ∧
    hostRead 0x0C#6 .word s = (0#32, s) ∧
    hostRead 0x10#6 .word s = (s.ctl.result, s) ∧
    hostRead 0x14#6 .word s = (s.ctl.faultInfo, s) ∧
    hostRead 0x18#6 .word s = (s.ctl.faultCmd, s) ∧
    hostRead 0x1C#6 .word s = (BitVec.ofNat 32 s.ctl.cfg.k.toNat, s) ∧
    hostRead 0x20#6 .word s = (s.ctl.cfg.n, s) ∧
    hostRead 0x24#6 .word s = (BitVec.ofNat 32 s.ctl.cfg.alpha.toNat, s) ∧
    hostRead 0x28#6 .word s =
      (BitVec.ofNat 32 (s.ctl.cfg.remove.toNat * 4 + s.ctl.cfg.growth.toNat * 2 + s.ctl.cfg.decayEn.toNat), s) ∧
    hostRead 0x2C#6 .word s = (0#32, s) ∧
    (LegalBuild s.par → hostRead 0x34#6 .word s = (BitVec.ofNat 32 (s.par.kmax * 2 ^ 16 + s.par.p), s))

/-- 10 R44, with the interrupt level of 60 R157 at bit 9. -/
def Obligations.StatusShowsItsFields : Prop :=
  ∀ s : State,
    hostRead 0x08#6 .word s = (s.statusWord, s) ∧ (∀ v, applyAccess (.write 0x08#6 .word v) s = .next s) ∧
    s.statusWord.extractLsb' 0 1 = 0#1 ∧
    s.statusWord.getLsbD 1 = decide (s.ctl.faultCode ≠ .none) ∧
    s.statusWord.getLsbD 2 = s.ctl.resultValid ∧
    s.statusWord.getLsbD 3 = s.ctl.dropped ∧
    s.statusWord.extractLsb' 4 3 = s.ctl.mode.code ∧
    s.statusWord.getLsbD 7 = s.model.valid ∧
    s.statusWord.getLsbD 8 = s.tree.valid ∧
    s.statusWord.getLsbD 9 = (decide (s.ctl.faultCode ≠ .none) && s.ctl.irqEn) ∧ s.irq = s.statusWord.getLsbD 9 ∧
    s.statusWord.extractLsb' 10 6 = 0#6 ∧
    s.statusWord.extractLsb' 16 4 = s.ctl.faultCode.code ∧
    s.statusWord.extractLsb' 20 12 = 0#12

/-- 20 R55 and R56: a push at the back or `DROPPED`, a pop from the front or 0. -/
def Obligations.BytePortsPushAndPop : Prop :=
  ∀ (s : State) (v : Word),
    applyAccess (.write 0x2C#6 .word v) s =
      (if s.buf.inBytes.length < s.par.byteCap then
        .next { s with buf := { s.buf with inBytes := s.buf.inBytes ++ [v.setWidth 8] } }
      else .next { s with ctl := { s.ctl with dropped := true } }) ∧
    (∀ b rest, s.buf.outBytes = b :: rest →
      hostRead 0x30#6 .word s = (BitVec.ofNat 32 (0x100 + b.toNat), { s with buf := { s.buf with outBytes := rest } })) ∧
    (s.buf.outBytes = [] → hostRead 0x30#6 .word s = (0#32, s))

/-- 10 R36: a `CFG_*` write stores the field bits as written, whatever their value, and changes nothing else. -/
def Obligations.ConfigWritesStoreFields : Prop :=
  ∀ (s : State) (v : Word),
    applyAccess (.write 0x1C#6 .word v) s = .next { s with ctl := { s.ctl with cfg := { s.ctl.cfg with k := v.extractLsb' 0 16 } } } ∧
    applyAccess (.write 0x20#6 .word v) s = .next { s with ctl := { s.ctl with cfg := { s.ctl.cfg with n := v } } } ∧
    applyAccess (.write 0x24#6 .word v) s =
      .next { s with ctl := { s.ctl with cfg := { s.ctl.cfg with alpha := v.extractLsb' 0 17 } } } ∧
    applyAccess (.write 0x28#6 .word v) s =
      .next { s with ctl := { s.ctl with cfg :=
        { s.ctl.cfg with decayEn := v.getLsbD 0, growth := v.getLsbD 1, remove := v.getLsbD 2 } } }

/-- 10 R43, 70 R165: bit 0 is `IRQ_EN`; bit 31 resets the whole block, `IRQ_EN` included. The parameters and the host's own list are
not the block's to reset (log entries 1, 3). -/
def Obligations.CtrlWriteEnablesOrResets : Prop :=
  ∀ (s : State) (v : Word),
    (v.getLsbD 31 = false → applyAccess (.write 0x04#6 .word v) s = .next { s with ctl := { s.ctl with irqEn := v.getLsbD 0 } }) ∧
    (v.getLsbD 31 = true → applyAccess (.write 0x04#6 .word v) s = .next { State.resetWith s.par with host := s.host })

/-! ### Reset -/

/-- 70 R164, for every build. -/
def Obligations.ResetLeavesTheTable : Prop :=
  ∀ par : Params,
    let s := State.resetWith par
    s.coder = { lo := 0, hi := 0, value := 0, straddle := 0, padUsed := 0 } ∧
    s.model = { count := List.replicate par.kmax 0, valid := false } ∧
    s.tree.m = 0 ∧ s.tree.root = .nyt ∧ s.tree.rootW = 0 ∧ s.tree.valid = false ∧
    s.tree.pairs = List.replicate par.kmax { w0 := 0, w1 := 0, c0 := .nyt, c1 := .nyt, parent := none } ∧
    (∀ x, s.tree.locOf x = .absent) ∧
    s.buf = { outBits := [], inBits := [], inPos := 0, outBytes := [], inBytes := [] } ∧
    s.ctl.mode = .idle ∧ s.ctl.symCount = 0 ∧
    (LegalBuild par → s.ctl.cfg.k.toNat = par.kmax) ∧ s.ctl.cfg.n = 0#32 ∧ s.ctl.cfg.alpha.toNat = 65536 ∧
    s.ctl.cfg.decayEn = false ∧ s.ctl.cfg.growth = true ∧ s.ctl.cfg.remove = false ∧ s.ctl.acfg = s.ctl.cfg ∧
    s.ctl.faultCode = .none ∧ s.ctl.faultInfo = 0#32 ∧ s.ctl.faultCmd = 0#32 ∧ s.ctl.dropped = false ∧
    s.ctl.result = 0#32 ∧ s.ctl.resultValid = false ∧ s.ctl.irqEn = false ∧
    s.irq = false ∧ s.statusWord = 0#32 ∧
    hostRead 0x00#6 .word s = (0x435A4143#32, s) ∧
    (LegalBuild par → hostRead 0x34#6 .word s = (BitVec.ofNat 32 (par.kmax * 2 ^ 16 + par.p), s))

/-- The invariants hold at reset of every legal build, the default one among them. -/
def Obligations.ResetMeetsTheInvariants : Prop :=
  LegalBuild State.reset.par ∧ ∀ par : Params, LegalBuild par → BlockInv (State.resetWith par) ∧ TreeInv (State.resetWith par)

/-! ### Invariants of every step -/

/-- 00 R12, 41 R95, 10 R23 to R37: widths, table sizes, the coder's interval and window, the latched configuration, and at most one of model
and tree valid, are kept by every step from every state. -/
def Obligations.StepKeepsBlockInvariant : Prop := ∀ s t : State, BlockInv s → step s = .next t → BlockInv t

/-- 42 R102: TI1 to TI5 are kept by every step from every state. -/
def Obligations.StepKeepsTreeInvariant : Prop :=
  ∀ s t : State, BlockInv s → TreeInv s → step s = .next t → TreeInv t

/-- 70 R172, R173, 41 R91, 42 R108: no command runs forever, so from every state that meets the invariants the step ends in a next state. -/
def Obligations.StepAlwaysEnds : Prop := ∀ s : State, BlockInv s → TreeInv s → ∃ t, step s = .next t

/-- 42 R110, 41 R93: the defect checks never fail. -/
def Obligations.InvariantViolationIsUnreachable : Prop :=
  ∀ (i : Instr) (s t : State), BlockInv s → TreeInv s → s.ctl.faultCode ≠ .invariantViolation → exec i s = .next t →
    t.ctl.faultCode ≠ .invariantViolation

/-! ### Rules of the whole block -/

/-- 60 R149, R150: a command is dropped, or faults with everything it did rolled back, or completes and then the fault record is what it was,
or cleared. -/
def Obligations.FaultsRollBackTheCommand : Prop :=
  ∀ (i : Instr) (s t : State), exec i s = .next t →
    t = dropRecorded s ∨
    (∃ f info, f ≠ .none ∧ t = faultRecorded s f info (encode i)) ∨
    ((t.ctl.faultCode = s.ctl.faultCode ∧ t.ctl.faultInfo = s.ctl.faultInfo ∧ t.ctl.faultCmd = s.ctl.faultCmd
        ∧ t.ctl.dropped = s.ctl.dropped) ∨
      (t.ctl.faultCode = .none ∧ t.ctl.faultInfo = 0#32 ∧ t.ctl.faultCmd = 0#32 ∧ t.ctl.dropped = false))

/-- 60 R152. -/
def Obligations.FaultStateDropsCommands : Prop :=
  ∀ (c : Word) (s : State), s.ctl.faultCode ≠ .none →
    (opcodeOf c ∉ faultStateOpcodes → deliverCommand c s = .next (dropRecorded s)) ∧
    (opcodeOf c ∈ faultStateOpcodes → ∀ t, deliverCommand c s = .next t →
      t.ctl.dropped = s.ctl.dropped ∨ (t.ctl.dropped = false ∧ t.ctl.faultCode = .none))

/-- 60 R153: only `ABORT` and the four starts clear the record, and they do so when they complete. -/
def Obligations.OnlyAbortAndStartsClearTheFault : Prop :=
  ∀ (i : Instr) (s t : State), exec i s = .next t →
    (s.ctl.faultCode ≠ .none → t.ctl.faultCode = .none → i = .abort ∨ opensMode i ≠ none) ∧
    (i = .abort ∨ opensMode i ≠ none →
      (∃ f info, f ≠ .none ∧ t = faultRecorded s f info (encode i)) ∨
      (t.ctl.faultCode = .none ∧ t.ctl.faultInfo = 0#32 ∧ t.ctl.faultCmd = 0#32 ∧ t.ctl.dropped = false))

/-- 10 R34: which command enters and leaves which mode. -/
def Obligations.ModeChangesOnlyByStartAbortFinish : Prop :=
  ∀ (i : Instr) (s t : State), exec i s = .next t →
    t.ctl.mode = s.ctl.mode ∨ opensMode i = some t.ctl.mode ∨ (i = .abort ∧ t.ctl.mode = .idle) ∨
    (i = .acEncFinish ∧ s.ctl.mode = .acEnc ∧ t.ctl.mode = .idle)

/-- 10 R36, R37, R41: no command writes `CFG`, `IRQ_EN`, or what is not the block's; `ACFG` changes only when a command latches it, and
then it is `CFG`, which passed the latch. -/
def Obligations.CommandsKeepTheConfiguration : Prop :=
  ∀ (i : Instr) (s t : State), exec i s = .next t →
    t.ctl.cfg = s.ctl.cfg ∧ t.ctl.irqEn = s.ctl.irqEn ∧ t.par = s.par ∧ t.host = s.host ∧
    (t.ctl.acfg = s.ctl.acfg ∨
      ((i = .modelInit ∨ opensMode i ≠ none) ∧ t.ctl.acfg = s.ctl.cfg ∧ LegalConf s.par.kmax s.ctl.cfg))

/-- 10 R40. -/
def Obligations.ResultValidMarksReturnedValues : Prop :=
  ∀ (i : Instr) (s t : State), exec i s = .next t →
    ((t.ctl.resultValid = false ∧ t.ctl.result = s.ctl.result) ∨ (t.ctl.resultValid = true ∧ returnsValue i = true)) ∧
    (returnsValue i = true → t.ctl.resultValid = true ∨ t = dropRecorded s ∨ ∃ f info, t = faultRecorded s f info (encode i))

/-! ### The checks that open the commands -/

/-- 45 R137, in the order its checks run. -/
def Obligations.LatchChecksInOrder : Prop :=
  ∀ (i : Instr) (s : State),
    (i = .modelInit ∧ s.ctl.mode = .idle ∧ s.ctl.faultCode = .none) ∨ opensMode i ≠ none →
    let badK := s.ctl.cfg.k.toNat < 1 ∨ s.par.kmax < s.ctl.cfg.k.toNat
    let badAlpha := s.ctl.cfg.alpha.toNat < 1 ∨ 65536 < s.ctl.cfg.alpha.toNat
    let badN := s.ctl.cfg.decayEn = true ∧ s.ctl.cfg.alpha.toNat < 65536 ∧ s.ctl.cfg.n.toNat = 0
    (badK → FaultsWith i s .configInvalid 1) ∧
    (¬ badK → badAlpha → FaultsWith i s .configInvalid 3) ∧
    (¬ badK → ¬ badAlpha → badN → FaultsWith i s .configInvalid 2) ∧
    (¬ badK → ¬ badAlpha → ¬ badN → i = .ahEncStart ∨ i = .ahDecStart → s.ctl.cfg.remove = true → s.ctl.cfg.growth = false →
      FaultsWith i s .configInvalid 4)

/-- 60 R147, the row of `SequenceError`: wrong mode, or no valid model or tree. -/
def Obligations.WrongModeIsSequenceError : Prop :=
  ∀ (s : State) (n : Nat),
    (s.ctl.faultCode = .none →
      (s.ctl.mode ≠ .idle → FaultsWith .modelInit s .sequenceError 0) ∧
      (s.ctl.mode ≠ .idle ∨ s.model.valid = false →
        FaultsWith (.modelUpdate n) s .sequenceError 0 ∧ FaultsWith .modelDecay s .sequenceError 0) ∧
      (s.ctl.mode ≠ .acEnc → FaultsWith (.acEncSym n) s .sequenceError 0 ∧ FaultsWith .acEncFinish s .sequenceError 0) ∧
      (s.ctl.mode ≠ .acDec → FaultsWith .acDecSym s .sequenceError 0) ∧
      (s.ctl.mode ≠ .ahEnc → FaultsWith (.ahEncSym n) s .sequenceError 0) ∧
      (s.ctl.mode ≠ .ahDec → FaultsWith .ahDecSym s .sequenceError 0) ∧
      (s.ctl.mode ≠ .idle ∨ s.tree.valid = false →
        FaultsWith (.ahUpdate n) s .sequenceError 0 ∧ FaultsWith .ahDecay s .sequenceError 0)) ∧
    (s.model.valid = false →
      FaultsWith (.modelCount n) s .sequenceError 0 ∧ FaultsWith (.modelCum n) s .sequenceError 0 ∧
      FaultsWith .modelTotal s .sequenceError 0) ∧
    (s.tree.valid = false →
      FaultsWith (.dbgRead 11) s .sequenceError 0 ∧ FaultsWith (.dbgRead 12) s .sequenceError 0 ∧
      FaultsWith (.dbgRead 13) s .sequenceError 0 ∧ FaultsWith (.ahReadW n) s .sequenceError 0 ∧
      FaultsWith (.ahReadC n) s .sequenceError 0 ∧ FaultsWith (.ahReadParent n) s .sequenceError 0 ∧
      FaultsWith (.ahReadLoc n) s .sequenceError 0)

/-- 60 R147, the row of `SymbolNotInAlphabet`, for a symbol operand: it is checked after mode and validity (30 R72). -/
def Obligations.SymbolOutsideAlphabetFaults : Prop :=
  ∀ (s : State) (a : Nat), s.alphabet ≤ a →
    (s.ctl.faultCode = .none →
      (s.ctl.mode = .idle → s.model.valid = true → FaultsWith (.modelUpdate a) s .symbolNotInAlphabet a) ∧
      (s.ctl.mode = .acEnc → FaultsWith (.acEncSym a) s .symbolNotInAlphabet a) ∧
      (s.ctl.mode = .ahEnc → FaultsWith (.ahEncSym a) s .symbolNotInAlphabet a) ∧
      (s.ctl.mode = .idle → s.tree.valid = true → FaultsWith (.ahUpdate a) s .symbolNotInAlphabet a)) ∧
    (s.model.valid = true →
      FaultsWith (.modelCount a) s .symbolNotInAlphabet a ∧ FaultsWith (.modelCum a) s .symbolNotInAlphabet a) ∧
    (s.tree.valid = true → a ≠ 0xFFFFFF → FaultsWith (.ahReadLoc a) s .symbolNotInAlphabet a)

/-! ### Control and debug commands -/

/-- 45 R138, with its `IllegalCommand(0x100)`. -/
def Obligations.NopOnlyClearsResultValid : Prop :=
  ∀ s : State, exec .nop s = .next { s with ctl := { s.ctl with resultValid := false } } ∧
    ∀ c : Word, opcodeOf c = 0x00 → immOf c ≠ 0 → deliverCommand c s = .next (faultRecorded s .illegalCommand 0x100#32 c)

/-- 45 R139, with its `IllegalCommand(0x101)`. -/
def Obligations.AbortClosesStreamAndClearsFault : Prop :=
  ∀ s : State,
    exec .abort s = .next { s with ctl :=
      { s.ctl with mode := .idle, faultCode := .none, faultInfo := 0#32, faultCmd := 0#32, dropped := false, resultValid := false } } ∧
    ∀ c : Word, opcodeOf c = 0x01 → immOf c ≠ 0 → deliverCommand c s = .next (faultRecorded s .illegalCommand 0x101#32 c)

/-- 45 R140: every selector, in every mode and fault state. -/
def Obligations.DebugReadReturnsSelectedState : Prop :=
  ∀ s : State,
    Returns (.dbgRead 0) s (BitVec.ofNat 32 s.coder.lo) ∧
    Returns (.dbgRead 1) s (BitVec.ofNat 32 s.coder.hi) ∧
    Returns (.dbgRead 2) s (BitVec.ofNat 32 s.coder.value) ∧
    Returns (.dbgRead 3) s (BitVec.ofNat 32 s.coder.straddle) ∧
    Returns (.dbgRead 4) s (BitVec.ofNat 32 s.ctl.symCount) ∧
    Returns (.dbgRead 5) s (BitVec.ofNat 32 s.buf.inBits.length) ∧
    Returns (.dbgRead 6) s (BitVec.ofNat 32 s.buf.inPos) ∧
    Returns (.dbgRead 7) s (BitVec.ofNat 32 s.buf.outBits.length) ∧
    Returns (.dbgRead 8) s (BitVec.ofNat 32 s.coder.padUsed) ∧
    Returns (.dbgRead 9) s (BitVec.ofNat 32 s.buf.outBytes.length) ∧
    Returns (.dbgRead 10) s (BitVec.ofNat 32 s.buf.inBytes.length) ∧
    (s.tree.valid = true →
      Returns (.dbgRead 11) s (BitVec.ofNat 32 s.tree.m) ∧ Returns (.dbgRead 12) s (BitVec.ofNat 32 s.tree.rootW) ∧
      Returns (.dbgRead 13) s (childCode s.tree.root)) ∧
    (s.tree.valid = false →
      FaultsWith (.dbgRead 11) s .sequenceError 0 ∧ FaultsWith (.dbgRead 12) s .sequenceError 0 ∧
      FaultsWith (.dbgRead 13) s .sequenceError 0) ∧
    Returns (.dbgRead 14) s (BitVec.ofNat 32 s.ctl.acfg.k.toNat) ∧
    Returns (.dbgRead 15) s s.ctl.acfg.n ∧
    Returns (.dbgRead 16) s (BitVec.ofNat 32 s.ctl.acfg.alpha.toNat) ∧
    Returns (.dbgRead 17) s
      (BitVec.ofNat 32 (s.ctl.acfg.remove.toNat * 4 + s.ctl.acfg.growth.toNat * 2 + s.ctl.acfg.decayEn.toNat)) ∧
    ∀ sel, 18 ≤ sel → FaultsWith (.dbgRead sel) s .operandRange sel

/-- 45 R141 to R144, with the codes of 10 R27 and R31 written out, and every exception. -/
def Obligations.TreeReadsReturnTheTree : Prop :=
  ∀ s : State,
    (s.tree.valid = false → ∀ n, FaultsWith (.ahReadW n) s .sequenceError 0 ∧ FaultsWith (.ahReadC n) s .sequenceError 0 ∧
      FaultsWith (.ahReadParent n) s .sequenceError 0 ∧ FaultsWith (.ahReadLoc n) s .sequenceError 0) ∧
    (s.tree.valid = true → ∀ a, a ≠ 0xFFFFFF → s.alphabet ≤ a → FaultsWith (.ahReadLoc a) s .symbolNotInAlphabet a) ∧
    (s.tree.valid = true →
    (∀ q, q < 2 * s.tree.m →
      Returns (.ahReadW q) s (BitVec.ofNat 32 (s.tree.wt q)) ∧
      (∀ a, s.tree.ch q = .leaf a → Returns (.ahReadC q) s (0x40000000#32 ||| BitVec.ofNat 32 a)) ∧
      (s.tree.ch q = .nyt → Returns (.ahReadC q) s 0x80000000#32) ∧
      (∀ k, s.tree.ch q = .node k → Returns (.ahReadC q) s (0xC0000000#32 ||| BitVec.ofNat 32 k))) ∧
    (∀ k, k < s.tree.m →
      ((s.tree.pairAt k).parent = none → Returns (.ahReadParent k) s 0#32) ∧
      (∀ j b, (s.tree.pairAt k).parent = some (j, b) →
        Returns (.ahReadParent k) s (0x80000000#32 ||| BitVec.ofNat 32 (2 * j + b.toNat)))) ∧
    (∀ q, 2 * s.tree.m ≤ q → FaultsWith (.ahReadW q) s .operandRange q ∧ FaultsWith (.ahReadC q) s .operandRange q) ∧
    (∀ k, s.tree.m ≤ k → FaultsWith (.ahReadParent k) s .operandRange k) ∧
    (∀ a x, (a = 0xFFFFFF ∧ x = Key.nyt) ∨ (a ≠ 0xFFFFFF ∧ a < s.alphabet ∧ x = Key.sym a) →
      (s.tree.locOf x = .absent → Returns (.ahReadLoc a) s 0#32) ∧
      (s.tree.locOf x = .atRoot → Returns (.ahReadLoc a) s 0x40000000#32) ∧
      (∀ k b, s.tree.locOf x = .atSlot k b → Returns (.ahReadLoc a) s (0x80000000#32 ||| BitVec.ofNat 32 (2 * k + b.toNat)))))

/-! ### The bit-serializer -/

/-- 44 R126, R127, in every mode and fault state, and R135, with their `IllegalCommand`. -/
def Obligations.ClearAndLoopbackSetTheBuffers : Prop :=
  ∀ s : State,
    exec .bsClearOut s = .next { s with buf := { s.buf with outBits := [], outBytes := [] }, ctl := s.ctl.silent } ∧
    exec .bsClearIn s = .next
      { s with
        buf := { s.buf with inBits := [], inPos := 0, inBytes := [] }, coder := { s.coder with padUsed := 0 }, ctl := s.ctl.silent } ∧
    (s.ctl.faultCode = .none → s.buf.outBits.length ≤ s.par.inCap →
      exec .bsLoopback s = .next
        { s with
          buf := { s.buf with inBits := s.buf.outBits, inPos := 0 }, coder := { s.coder with padUsed := 0 }, ctl := s.ctl.silent }) ∧
    (s.ctl.faultCode = .none → s.par.inCap < s.buf.outBits.length → FaultsWith .bsLoopback s .capacityExceeded 4) ∧
    ∀ c : Word, immOf c ≠ 0 →
      (opcodeOf c = 0x10 → deliverCommand c s = .next (faultRecorded s .illegalCommand 0x110#32 c)) ∧
      (opcodeOf c = 0x11 → deliverCommand c s = .next (faultRecorded s .illegalCommand 0x111#32 c)) ∧
      (opcodeOf c = 0x19 → s.ctl.faultCode = .none → deliverCommand c s = .next (faultRecorded s .illegalCommand 0x119#32 c))

/-- 44 R122, R128, R134: a bit is appended at the end, or the buffer is full, or a reserved bit is set. -/
def Obligations.BitAppendsOrCapacityFault : Prop :=
  ∀ (s : State) (b : Bool), s.ctl.faultCode = .none →
    (s.buf.outBits.length < s.par.outCap →
      exec (.bsPutBit b) s = .next { s with buf := { s.buf with outBits := s.buf.outBits ++ [b] }, ctl := s.ctl.silent }) ∧
    (s.par.outCap ≤ s.buf.outBits.length → FaultsWith (.bsPutBit b) s .capacityExceeded 3) ∧
    (s.buf.inBits.length < s.par.inCap →
      exec (.bsInBit b) s = .next { s with buf := { s.buf with inBits := s.buf.inBits ++ [b] }, ctl := s.ctl.silent }) ∧
    (s.par.inCap ≤ s.buf.inBits.length → FaultsWith (.bsInBit b) s .capacityExceeded 4) ∧
    ∀ c : Word, immOf c / 2 ≠ 0 →
      (opcodeOf c = 0x12 → deliverCommand c s = .next (faultRecorded s .illegalCommand 0x112#32 c)) ∧
      (opcodeOf c = 0x18 → deliverCommand c s = .next (faultRecorded s .illegalCommand 0x118#32 c))

/-- 44 R123, R129, R136: one bit of the source is read and consumed, one bit of the sink is read and kept. -/
def Obligations.BitReadsOrRangeFault : Prop :=
  ∀ s : State, s.ctl.faultCode = .none →
    (∀ h : s.buf.inPos < s.buf.inBits.length,
      exec .bsGetBit s = .next
        { s with
          buf := { s.buf with inPos := s.buf.inPos + 1 }
          ctl := s.ctl.returned (BitVec.ofNat 32 (s.buf.inBits[s.buf.inPos]).toNat) }) ∧
    (s.buf.inBits.length ≤ s.buf.inPos → FaultsWith .bsGetBit s .truncatedStream 0) ∧
    (∀ (i : Nat) (h : i < s.buf.outBits.length), Returns (.bsPeekOut i) s (BitVec.ofNat 32 (s.buf.outBits[i]).toNat)) ∧
    (∀ i, s.buf.outBits.length ≤ i → FaultsWith (.bsPeekOut i) s .operandRange i)

/-- 44 R125, R130: the code is `k` zeros and the `k + 1` digits of `n + 1`, where `k = floor(log2 (n + 1))`. -/
def Obligations.GammaPutAppendsTheCode : Prop :=
  ∀ (s : State) (n k : Nat), s.ctl.faultCode = .none → 2 ^ k ≤ n + 1 → n + 1 < 2 ^ (k + 1) →
    (s.buf.outBits.length + (2 * k + 1) ≤ s.par.outCap →
      ∃ digits : List Bool, digits.length = k + 1 ∧ bitsValue digits = n + 1 ∧
        exec (.bsGammaPut n) s = .next
          { s with buf := { s.buf with outBits := s.buf.outBits ++ List.replicate k false ++ digits }, ctl := s.ctl.silent }) ∧
    (s.par.outCap < s.buf.outBits.length + (2 * k + 1) → FaultsWith (.bsGammaPut n) s .capacityExceeded 3)

/-- 44 R131: a code of up to 31 leading zeros is read back as its count; more zeros, or an end inside the code, fault. -/
def Obligations.GammaGetReadsTheCode : Prop :=
  ∀ (s : State) (k : Nat) (digits rest : List Bool), s.ctl.faultCode = .none →
    (k ≤ 31 → digits.length = k → s.buf.inBits.drop s.buf.inPos = List.replicate k false ++ true :: digits ++ rest →
      exec .bsGammaGet s = .next
        { s with
          buf := { s.buf with inPos := s.buf.inPos + (2 * k + 1) }
          ctl := s.ctl.returned (BitVec.ofNat 32 (bitsValue (true :: digits) - 1)) }) ∧
    (k ≤ 31 → digits.length < k → s.buf.inBits.drop s.buf.inPos = List.replicate k false ++ true :: digits →
      FaultsWith .bsGammaGet s .truncatedStream 0) ∧
    (k ≤ 31 → s.buf.inBits.drop s.buf.inPos = List.replicate k false → FaultsWith .bsGammaGet s .truncatedStream 0) ∧
    (s.buf.inBits.drop s.buf.inPos = List.replicate 32 false ++ rest → FaultsWith .bsGammaGet s .capacityExceeded 6)

/-- 44 R132: the least padding that fills whole bytes, its 3-bit count in front, the first bit of eight as bit 7. -/
def Obligations.PackGroupsBitsIntoBytes : Prop :=
  ∀ s : State, s.ctl.faultCode = .none →
    ∃ (pad : Nat) (bytes : List Byte), pad < 8 ∧ 8 * bytes.length = 3 + s.buf.outBits.length + pad ∧
      bytes.flatMap (fun v => [v.getLsbD 7, v.getLsbD 6, v.getLsbD 5, v.getLsbD 4, v.getLsbD 3, v.getLsbD 2, v.getLsbD 1, v.getLsbD 0])
        = [pad.testBit 2, pad.testBit 1, pad.testBit 0] ++ s.buf.outBits ++ List.replicate pad false ∧
      (s.buf.outBytes.length + bytes.length ≤ s.par.byteCap →
        exec .bsPack s = .next
          { s with buf := { s.buf with outBits := [], outBytes := s.buf.outBytes ++ bytes }, ctl := s.ctl.silent }) ∧
      (s.par.byteCap < s.buf.outBytes.length + bytes.length → FaultsWith .bsPack s .capacityExceeded 5)

/-- 44 R133: the bytes' bits are a 3-bit count, the payload, and that many padding bits of any value. -/
def Obligations.UnpackStripsCountAndPadding : Prop :=
  ∀ (s : State) (pad : Nat) (payload padding : List Bool), s.ctl.faultCode = .none → pad < 8 →
    (s.buf.inBytes = [] → FaultsWith .bsUnpack s .truncatedStream 1) ∧
    (s.buf.inBytes.flatMap
        (fun v => [v.getLsbD 7, v.getLsbD 6, v.getLsbD 5, v.getLsbD 4, v.getLsbD 3, v.getLsbD 2, v.getLsbD 1, v.getLsbD 0])
        = [pad.testBit 2, pad.testBit 1, pad.testBit 0] ++ payload ++ padding →
      (padding.length = pad → payload.length ≤ s.par.inCap →
        exec .bsUnpack s = .next
          { s with
            buf := { s.buf with inBits := payload, inPos := 0, inBytes := [] }, coder := { s.coder with padUsed := 0 }
            ctl := s.ctl.silent }) ∧
      (padding.length = pad → s.par.inCap < payload.length → FaultsWith .bsUnpack s .capacityExceeded 4) ∧
      (payload = [] → padding.length < pad → FaultsWith .bsUnpack s .truncatedStream 2))

/-- 44 R133: what `BS_PACK` has packed, `BS_UNPACK` gives back exactly. -/
def Obligations.UnpackInvertsPack : Prop :=
  ∀ s t : State, s.ctl.faultCode = .none → s.buf.outBytes = [] → s.buf.outBits.length ≤ s.par.inCap →
    exec .bsPack s = .next t → t.ctl.faultCode = .none →
      ∃ u, exec .bsUnpack { t with buf := { t.buf with inBytes := t.buf.outBytes } } = .next u ∧ u.ctl.faultCode = .none ∧
        u.buf.inBits = s.buf.outBits ∧ u.buf.inPos = 0

/-! ### The symbol model -/

/-- 40 R76, R81. -/
def Obligations.ModelInitSeedsCountsOfOne : Prop :=
  ∀ s : State, s.ctl.faultCode = .none → s.ctl.mode = .idle → LegalConf s.par.kmax s.ctl.cfg →
    exec .modelInit s = .next
      { s with
        model := { count := List.replicate s.ctl.cfg.k.toNat 1 ++ s.model.count.drop s.ctl.cfg.k.toNat, valid := true }
        tree := { s.tree with valid := false }
        ctl := { s.ctl with acfg := s.ctl.cfg, resultValid := false } }

/-- 40 R77, R82. -/
def Obligations.ModelUpdateCountsTheSymbol : Prop :=
  ∀ (s : State) (a : Nat), s.ctl.faultCode = .none → s.ctl.mode = .idle → s.model.valid = true → a < s.alphabet →
    (s.total + 1 ≤ 2 ^ 32 - 1 →
      exec (.modelUpdate a) s = .next
        { s with model := { s.model with count := s.model.count.set a (s.countOf a + 1) }, ctl := s.ctl.silent }) ∧
    (2 ^ 32 - 1 < s.total + 1 → FaultsWith (.modelUpdate a) s .capacityExceeded 1)

/-- 40 R78, R79, R83: each count of the alphabet is scaled by ALPHA/65536, rounded down under REMOVE and up without it; the rest is kept. -/
def Obligations.ModelDecayScalesTheCounts : Prop :=
  ∀ s : State, s.ctl.faultCode = .none → s.ctl.mode = .idle → s.model.valid = true →
    exec .modelDecay s = .next
      { s with model := { s.model with count := decayedCounts s.alphabet s.ctl.acfg s.model.count }, ctl := s.ctl.silent }

/-- 40 R75, R84 to R86, in every mode and fault state. -/
def Obligations.ModelReadsReturnCounts : Prop :=
  ∀ s : State, s.model.valid = true →
    (∀ a, a < s.alphabet →
      Returns (.modelCount a) s (BitVec.ofNat 32 (s.model.count[a]?.getD 0)) ∧
      Returns (.modelCum a) s (BitVec.ofNat 32 (s.model.count.take a).sum)) ∧
    Returns .modelTotal s (BitVec.ofNat 32 (s.model.count.take s.alphabet).sum)

/-! ### The arithmetic coder -/

/-- 41 R97: `AC_ENC_START` in every mode and fault state. -/
def Obligations.AcEncStartOpensTheStream : Prop :=
  ∀ s : State, LegalConf s.par.kmax s.ctl.cfg →
    exec .acEncStart s = .next
      { s with
        model := { count := List.replicate s.ctl.cfg.k.toNat 1 ++ s.model.count.drop s.ctl.cfg.k.toNat, valid := true }
        coder := { lo := 0, hi := 2 ^ s.par.p - 1, value := 0, straddle := 0, padUsed := 0 }
        tree := { s.tree with valid := false }
        ctl := { s.ctl.cleared with acfg := s.ctl.cfg, mode := .acEnc, symCount := 0, resultValid := false } }

/-- 41 R100, 44 R124: the window is the first `P` bits of the input, padded with zeros up to `PAD_LIMIT`. -/
def Obligations.AcDecStartLoadsTheWindow : Prop :=
  ∀ s : State, LegalConf s.par.kmax s.ctl.cfg →
    let taken := (s.buf.inBits.drop s.buf.inPos).take s.par.p
    let zeros := s.par.p - taken.length
    (zeros ≤ s.par.padLimit →
      exec .acDecStart s = .next
        { s with
          model := { count := List.replicate s.ctl.cfg.k.toNat 1 ++ s.model.count.drop s.ctl.cfg.k.toNat, valid := true }
          coder :=
            { lo := 0, hi := 2 ^ s.par.p - 1, value := bitsValue (taken ++ List.replicate zeros false), straddle := 0, padUsed := zeros }
          tree := { s.tree with valid := false }
          buf := { s.buf with inPos := s.buf.inPos + taken.length }
          ctl := { s.ctl.cleared with acfg := s.ctl.cfg, mode := .acDec, symCount := 0, resultValid := false } }) ∧
    (s.par.padLimit < zeros → FaultsWith .acDecStart s .truncatedStream 0)

/-- 41 R88, R93: `VALUE` lies in the region of exactly one symbol of the alphabet, and the search returns that one. -/
def Obligations.SearchFindsTheOneSymbol : Prop :=
  ∀ s : State, BlockInv s → s.ctl.mode = .acDec → 0 < s.total →
    ∃ a, a < s.alphabet ∧ 0 < s.countOf a ∧ InRegion s a ∧ search s = .ok a ∧ ∀ b, b < s.alphabet → InRegion s b → b = a

/-- 41 R89, R90, R94, R95, R96, R98: `AC_ENC_SYM` narrows to the symbol's region, makes the passes `z` of R90 from it, and counts the symbol. The
`n` passes subtract `off` from `2^n` times the interval and emit `bits`; `off` is what the emitted bits and the pending ones say, in units of
`HALF`, over what the bits pending before said. A region of at most one integer, or a total of 0, faults with `ZeroInterval(0)`; a full straddle
counter, sink, total or symbol counter with `CapacityExceeded`, in this order. -/
def Obligations.AcEncSymCodesTheSymbol : Prop :=
  (∀ (s : State) (a : Nat), s.ctl.faultCode = .none → s.ctl.mode = .acEnc → a < s.alphabet → ¬ CodesInterval s a →
    FaultsWith (.acEncSym a) s .zeroInterval 0) ∧
  ∀ (s : State) (a : Nat), BlockInv s → s.ctl.faultCode = .none → s.ctl.mode = .acEnc → a < s.alphabet → CodesInterval s a →
    let z := s.symbolPasses a
    let n := z.length
    let off := passOffset s.par.p z
    let bits := passBits s.coder.straddle z
    let pend := passStraddle s.coder.straddle z
    let coder : Coder :=
      { s.coder with lo := 2 ^ n * s.regionLo a - off, hi := 2 ^ n * s.regionEnd a - off - 1, straddle := pend }
    let peak := s.coder.straddle + firstStraddles z
    let filled := s.buf.outBits.length + bits.length
    (2 ^ 32 - 1 < peak → FaultsWith (.acEncSym a) s .capacityExceeded 2) ∧
    (peak ≤ 2 ^ 32 - 1 → s.par.outCap < filled → FaultsWith (.acEncSym a) s .capacityExceeded 3) ∧
    (peak ≤ 2 ^ 32 - 1 → filled ≤ s.par.outCap → s.total = 2 ^ 32 - 1 → FaultsWith (.acEncSym a) s .capacityExceeded 1) ∧
    (peak ≤ 2 ^ 32 - 1 → filled ≤ s.par.outCap → s.total < 2 ^ 32 - 1 → s.ctl.symCount = 2 ^ 32 - 1 →
      FaultsWith (.acEncSym a) s .capacityExceeded 7) ∧
    (peak ≤ 2 ^ 32 - 1 → filled ≤ s.par.outCap → s.total < 2 ^ 32 - 1 → s.ctl.symCount < 2 ^ 32 - 1 →
      exec (.acEncSym a) s = .next
        { s with
          coder := coder
          model := { s.model with count := countsAfter s a }
          buf := { s.buf with outBits := s.buf.outBits ++ bits }
          ctl := { s.ctl with symCount := s.ctl.symCount + 1, resultValid := false } }) ∧
    n + 1 ≤ s.par.p ∧ off ≤ 2 ^ n * s.regionLo a ∧ IntervalOk s.par.p coder ∧ bits.length + pend = s.coder.straddle + n ∧
    (bitsValue bits * 2 ^ (pend + 1) + (2 ^ pend - 1)) * half s.par.p =
      off + 2 ^ n * ((2 ^ s.coder.straddle - 1) * half s.par.p)

/-- 41 R92, R99. -/
def Obligations.AcEncFinishFlushesAndCloses : Prop :=
  ∀ s : State, s.ctl.faultCode = .none → s.ctl.mode = .acEnc →
    (s.coder.straddle ≠ 2 ^ 32 - 1 → s.buf.outBits.length + (s.coder.straddle + 2) ≤ s.par.outCap →
      exec .acEncFinish s = .next
        { s with
          coder := { s.coder with straddle := 0 }
          buf := { s.buf with outBits := s.buf.outBits ++
            if s.coder.lo < quarter s.par.p then false :: List.replicate (s.coder.straddle + 1) true
            else true :: List.replicate (s.coder.straddle + 1) false }
          ctl := { s.ctl with mode := .idle, resultValid := false } }) ∧
    (s.coder.straddle = 2 ^ 32 - 1 → FaultsWith .acEncFinish s .capacityExceeded 2) ∧
    (s.coder.straddle ≠ 2 ^ 32 - 1 → s.par.outCap < s.buf.outBits.length + (s.coder.straddle + 2) →
      FaultsWith .acEncFinish s .capacityExceeded 3)

/-- 41 R89, R90, R93, R94, R95, R101, 44 R124: `AC_DEC_SYM` returns the symbol whose region holds `VALUE`; it narrows to that region, makes the
passes `z` of R90 from it, shifts the next bits of `INBITS`, zeros behind them, into `VALUE`, and counts the symbol. A total of 0 or a region of
one integer faults with `ZeroInterval(0)`, padding that runs out with `TruncatedStream(0)`, a full total or symbol counter with
`CapacityExceeded`, in this order. -/
def Obligations.AcDecSymReturnsTheSymbol : Prop :=
  (∀ s : State, s.ctl.faultCode = .none → s.ctl.mode = .acDec → s.total = 0 → FaultsWith .acDecSym s .zeroInterval 0) ∧
  (∀ (s : State) (a : Nat), BlockInv s → s.ctl.faultCode = .none → s.ctl.mode = .acDec → a < s.alphabet → InRegion s a →
    ¬ CodesInterval s a → FaultsWith .acDecSym s .zeroInterval 0) ∧
  ∀ (s : State) (a : Nat), BlockInv s → s.ctl.faultCode = .none → s.ctl.mode = .acDec → a < s.alphabet → InRegion s a → CodesInterval s a →
    let z := s.symbolPasses a
    let n := z.length
    let off := passOffset s.par.p z
    let taken := (s.buf.inBits.drop s.buf.inPos).take n
    let zeros := n - taken.length
    let coder : Coder :=
      { lo := 2 ^ n * s.regionLo a - off
        hi := 2 ^ n * s.regionEnd a - off - 1
        value := 2 ^ n * s.coder.value + bitsValue (taken ++ List.replicate zeros false) - off
        straddle := s.coder.straddle
        padUsed := s.coder.padUsed + zeros }
    (s.par.padLimit < s.coder.padUsed + zeros → FaultsWith .acDecSym s .truncatedStream 0) ∧
    (s.coder.padUsed + zeros ≤ s.par.padLimit → s.total = 2 ^ 32 - 1 → FaultsWith .acDecSym s .capacityExceeded 1) ∧
    (s.coder.padUsed + zeros ≤ s.par.padLimit → s.total < 2 ^ 32 - 1 → s.ctl.symCount = 2 ^ 32 - 1 →
      FaultsWith .acDecSym s .capacityExceeded 7) ∧
    (s.coder.padUsed + zeros ≤ s.par.padLimit → s.total < 2 ^ 32 - 1 → s.ctl.symCount < 2 ^ 32 - 1 →
      exec .acDecSym s = .next
        { s with
          coder := coder
          model := { s.model with count := countsAfter s a }
          buf := { s.buf with inPos := s.buf.inPos + taken.length }
          ctl := { s.ctl with symCount := s.ctl.symCount + 1, result := BitVec.ofNat 32 a, resultValid := true } } ∧
      IntervalOk s.par.p coder ∧ ValueOk coder) ∧
    n + 1 ≤ s.par.p ∧ off ≤ 2 ^ n * s.regionLo a

/-- 41 R101, "narrow lo/hi identically to encode" and "renormalize identically": an encoder and a decoder in the same coder and model state
that code and decode the same symbol end in the same coder and model state. -/
def Obligations.ArithmeticCodersStayInLockstep : Prop :=
  ∀ (e d te td : State) (a : Nat), e.par = d.par → e.coder.lo = d.coder.lo → e.coder.hi = d.coder.hi → e.model = d.model →
    e.ctl.acfg = d.ctl.acfg → e.ctl.symCount = d.ctl.symCount → e.ctl.faultCode = .none → d.ctl.faultCode = .none →
    a < 2 ^ 32 →
    exec (.acEncSym a) e = .next te → te.ctl.faultCode = .none →
    exec .acDecSym d = .next td → td.ctl.faultCode = .none → td.ctl.result = BitVec.ofNat 32 a →
      te.coder.lo = td.coder.lo ∧ te.coder.hi = td.coder.hi ∧ te.model = td.model ∧ te.ctl.symCount = td.ctl.symCount

/-! ### The adaptive Huffman tree -/

/-- 42 R111, R113, 43 R116, R118: the growth tree is the NYT alone; the static tree has every symbol at weight 1 and the order of the rebuild, so
the host knows each symbol's code. -/
def Obligations.AhStartsBuildTheInitialTree : Prop :=
  ∀ (s : State) (i : Instr) (m : Mode), (i = .ahEncStart ∧ m = .ahEnc) ∨ (i = .ahDecStart ∧ m = .ahDec) →
    LegalBuild s.par → TablesOk s → LegalConf s.par.kmax s.ctl.cfg → (s.ctl.cfg.remove = true → s.ctl.cfg.growth = true) →
    ∃ tree : Tree,
      exec i s = .next
        { s with
          tree := tree
          model := { s.model with valid := false }
          coder := { lo := 0, hi := 0, value := 0, straddle := 0, padUsed := 0 }
          ctl := { s.ctl.cleared with acfg := s.ctl.cfg, mode := m, symCount := 0, resultValid := false } } ∧
      tree.valid = true ∧ TreeOk s.ctl.cfg.k.toNat s.ctl.cfg.growth tree ∧ RebuildOrder tree ∧
      (s.ctl.cfg.growth = true →
        tree.m = 0 ∧ tree.root = .nyt ∧ tree.rootW = 0 ∧ tree.locNyt = .atRoot ∧ ∀ a, tree.locOf (.sym a) = .absent) ∧
      (s.ctl.cfg.growth = false → tree.m = s.ctl.cfg.k.toNat - 1 ∧ tree.rootW = s.ctl.cfg.k.toNat ∧
        ∀ a, a < s.ctl.cfg.k.toNat → leafWeight tree (.sym a) = some 1)

/-- 42 R104, R107 to R109, R111, R112, 43 R115, R117: in a valid tree `AH_ENC_SYM` emits the codeword of the symbol and counts it, by the leader rule;
the symbol's weight grows by 1 and every other leaf's is kept, or, where a decay follows, all are then decayed and the tree rebuilt in order.
A full sink faults with `CapacityExceeded(3)`, a full root weight with (1), a full symbol counter with (7). -/
def Obligations.AhEncSymCodesTheSymbol : Prop :=
  ∀ (s : State) (a : Nat), BlockInv s → TreeInv s → s.ctl.faultCode = .none → s.ctl.mode = .ahEnc → a < s.alphabet →
    ∃ code : List Bool, Codeword s a code ∧
      let filled := s.buf.outBits.length + code.length
      (s.par.outCap < filled → FaultsWith (.ahEncSym a) s .capacityExceeded 3) ∧
      (filled ≤ s.par.outCap → s.tree.rootW = 2 ^ 32 - 1 → FaultsWith (.ahEncSym a) s .capacityExceeded 1) ∧
      (filled ≤ s.par.outCap → s.tree.rootW < 2 ^ 32 - 1 → s.ctl.symCount = 2 ^ 32 - 1 →
        FaultsWith (.ahEncSym a) s .capacityExceeded 7) ∧
      (filled ≤ s.par.outCap → s.tree.rootW < 2 ^ 32 - 1 → s.ctl.symCount < 2 ^ 32 - 1 →
        ∃ tree : Tree,
          exec (.ahEncSym a) s = .next
            { s with
              tree := tree
              buf := { s.buf with outBits := s.buf.outBits ++ code }
              ctl := { s.ctl with symCount := s.ctl.symCount + 1, resultValid := false } } ∧
          CodedTree s a tree)

/-- 42 R107 to R109, R111, R112, R114, 43 R115, R119: in a valid tree, `AH_DEC_SYM` on an input that goes on with the codeword of a symbol returns that
symbol and counts it as `AH_ENC_SYM` does; a full root weight faults with `CapacityExceeded(1)`, a full symbol counter with (7). An input that ends
inside a path, or in the raw code behind the NYT's path, faults with `TruncatedStream(0)`; a raw code of no symbol of the alphabet with
`SymbolNotInAlphabet`, one of a symbol of the tree with `StreamInconsistent`. -/
def Obligations.AhDecSymReturnsTheSymbol : Prop :=
  ∀ s : State, BlockInv s → TreeInv s → s.ctl.faultCode = .none → s.ctl.mode = .ahDec →
    let input := s.buf.inBits.drop s.buf.inPos
    (∀ (a : Nat) (code rest : List Bool), a < s.alphabet → Codeword s a code → input = code ++ rest →
      (s.tree.rootW = 2 ^ 32 - 1 → FaultsWith .ahDecSym s .capacityExceeded 1) ∧
      (s.tree.rootW < 2 ^ 32 - 1 → s.ctl.symCount = 2 ^ 32 - 1 → FaultsWith .ahDecSym s .capacityExceeded 7) ∧
      (s.tree.rootW < 2 ^ 32 - 1 → s.ctl.symCount < 2 ^ 32 - 1 →
        ∃ tree : Tree,
          exec .ahDecSym s = .next
            { s with
              tree := tree
              buf := { s.buf with inPos := s.buf.inPos + code.length }
              ctl := { s.ctl with symCount := s.ctl.symCount + 1, result := BitVec.ofNat 32 a, resultValid := true } } ∧
          CodedTree s a tree)) ∧
    (∀ (x : Key) (path tail : List Bool), s.tree.locOf x ≠ .absent → s.tree.pathBits x = .ok path → path = input ++ tail → tail ≠ [] →
      FaultsWith .ahDecSym s .truncatedStream 0) ∧
    (∀ path raw more : List Bool, s.tree.locNyt ≠ .absent → s.tree.pathBits .nyt = .ok path →
      (input = path ++ raw → raw.length < rawWidth s.alphabet → FaultsWith .ahDecSym s .truncatedStream 0) ∧
      (input = path ++ raw ++ more → raw.length = rawWidth s.alphabet →
        (s.alphabet ≤ bitsValue raw → FaultsWith .ahDecSym s .symbolNotInAlphabet (bitsValue raw)) ∧
        (bitsValue raw < s.alphabet → s.tree.locOf (.sym (bitsValue raw)) ≠ .absent →
          FaultsWith .ahDecSym s .streamInconsistent (bitsValue raw))))

/-- 43 R115, R117, R119, 20 R65: a decoder that holds the encoder's tree and reads the bits the encoder emitted returns the encoder's symbol and
ends with the encoder's tree. -/
def Obligations.HuffmanCodersStayInLockstep : Prop :=
  ∀ (e d te : State) (a : Nat) (bits rest : List Bool), BlockInv e → TreeInv e → e.par = d.par → e.tree = d.tree →
    e.ctl.acfg = d.ctl.acfg → e.ctl.symCount = d.ctl.symCount → e.ctl.faultCode = .none → d.ctl.faultCode = .none →
    d.ctl.mode = .ahDec → exec (.ahEncSym a) e = .next te → te.ctl.faultCode = .none →
    te.buf.outBits = e.buf.outBits ++ bits → d.buf.inBits.drop d.buf.inPos = bits ++ rest →
    ∃ td, exec .ahDecSym d = .next td ∧ td.ctl.faultCode = .none ∧ td.ctl.resultValid = true ∧ td.ctl.result = BitVec.ofNat 32 a ∧
      td.tree = te.tree ∧ td.ctl.symCount = te.ctl.symCount ∧ td.buf.inPos = d.buf.inPos + bits.length

/-- 42 R106 to R108, 43 R120: `AH_UPDATE` of a symbol of the tree walks from its leaf to the root by the leader rule; it adds 1 to the symbol's weight
and to the root's, and keeps the other leaves' weights and the tree valid. -/
def Obligations.AhUpdateCountsTheLeaf : Prop :=
  ∀ (s : State) (a : Nat), BlockInv s → TreeInv s → s.ctl.faultCode = .none → s.ctl.mode = .idle → s.tree.valid = true →
    a < s.alphabet →
    (s.tree.locOf (.sym a) = .absent → FaultsWith (.ahUpdate a) s .streamInconsistent a) ∧
    (s.tree.locOf (.sym a) ≠ .absent → s.tree.rootW = 2 ^ 32 - 1 → FaultsWith (.ahUpdate a) s .capacityExceeded 1) ∧
    (∀ w, leafWeight s.tree (.sym a) = some w → s.tree.rootW < 2 ^ 32 - 1 →
      ∃ tree : Tree,
        exec (.ahUpdate a) s = .next { s with tree := tree, ctl := s.ctl.silent } ∧
        tree.valid = true ∧ TreeOk s.alphabet s.ctl.acfg.growth tree ∧ Climbed s.tree (s.tree.locOf (.sym a)) tree ∧
        tree.m = s.tree.m ∧ tree.rootW = s.tree.rootW + 1 ∧
        leafWeight tree (.sym a) = some (w + 1) ∧ ∀ x, x ≠ .sym a → leafWeight tree x = leafWeight s.tree x)

/-- 42 R111, R112, 43 R121: `AH_DECAY` scales every symbol's weight, evicts what reaches 0 under REMOVE, keeps the NYT at 0, and leaves a valid tree
whose nodes stand in the order of the rebuild. -/
def Obligations.AhDecayScalesTheLeaves : Prop :=
  ∀ s : State, BlockInv s → TreeInv s → s.ctl.faultCode = .none → s.ctl.mode = .idle → s.tree.valid = true →
    ∃ tree : Tree,
      exec .ahDecay s = .next { s with tree := tree, ctl := s.ctl.silent } ∧
      tree.valid = true ∧ TreeOk s.alphabet s.ctl.acfg.growth tree ∧ RebuildOrder tree ∧
      leafWeight tree .nyt = leafWeight s.tree .nyt ∧
      ∀ a, leafWeight tree (.sym a) =
        match leafWeight s.tree (.sym a) with
        | none => none
        | some w =>
          if s.ctl.acfg.remove = true then
            if w * s.ctl.acfg.alpha.toNat / 65536 = 0 then none else some (w * s.ctl.acfg.alpha.toNat / 65536)
          else some ((w * s.ctl.acfg.alpha.toNat + 65535) / 65536)

/-! ### Frames -/

/-- What the bit-serializer's commands leave unchanged, whether they complete, fault or are dropped (44 R126 to R136). -/
def Obligations.SerializerFrame : Prop :=
  ∀ (i : Instr) (s t : State), isSerializer i = true → exec i s = .next t →
    t.model = s.model ∧ t.tree = s.tree ∧ t.ctl.mode = s.ctl.mode ∧ t.ctl.symCount = s.ctl.symCount ∧ t.ctl.acfg = s.ctl.acfg ∧
    { t.coder with padUsed := 0 } = { s.coder with padUsed := 0 } ∧
    (t.coder.padUsed ≠ s.coder.padUsed → i = .bsClearIn ∨ i = .bsUnpack ∨ i = .bsLoopback) ∧
    ((∃ b, i = .bsPutBit b) ∨ (∃ n, i = .bsGammaPut n) ∨ i = .bsClearOut ∨ i = .bsPack →
      t.buf.inBits = s.buf.inBits ∧ t.buf.inPos = s.buf.inPos ∧ t.buf.inBytes = s.buf.inBytes) ∧
    ((∃ b, i = .bsPutBit b) ∨ (∃ n, i = .bsGammaPut n) → t.buf.outBytes = s.buf.outBytes) ∧
    (i = .bsGetBit ∨ i = .bsGammaGet ∨ (∃ b, i = .bsInBit b) ∨ i = .bsUnpack ∨ i = .bsLoopback ∨ i = .bsClearIn →
      t.buf.outBits = s.buf.outBits ∧ t.buf.outBytes = s.buf.outBytes) ∧
    (i = .bsGetBit ∨ i = .bsGammaGet → t.buf.inBits = s.buf.inBits ∧ t.buf.inBytes = s.buf.inBytes) ∧
    ((∃ b, i = .bsInBit b) → t.buf.inPos = s.buf.inPos ∧ t.buf.inBytes = s.buf.inBytes) ∧
    (i = .bsLoopback → t.buf.inBytes = s.buf.inBytes) ∧
    ((∃ k, i = .bsPeekOut k) → t.buf = s.buf)

/-- What the model's and the arithmetic coder's commands leave unchanged (40 R81 to R86, 41 R97 to R101). -/
def Obligations.ModelAndCoderFrame : Prop :=
  ∀ (i : Instr) (s t : State), exec i s = .next t →
    (i = .modelInit ∨ (∃ a, i = .modelUpdate a) ∨ i = .modelDecay →
      t.coder = s.coder ∧ t.buf = s.buf ∧ t.ctl.mode = s.ctl.mode ∧ t.ctl.symCount = s.ctl.symCount ∧
      { t.tree with valid := false } = { s.tree with valid := false } ∧
      (i ≠ .modelInit → t.tree = s.tree ∧ t.ctl.acfg = s.ctl.acfg)) ∧
    ((∃ a, i = .acEncSym a) ∨ i = .acEncFinish ∨ i = .acEncStart ∨ i = .acDecStart ∨ i = .acDecSym →
      { t.tree with valid := false } = { s.tree with valid := false } ∧
      t.buf.inBits = s.buf.inBits ∧ t.buf.inBytes = s.buf.inBytes ∧ t.buf.outBytes = s.buf.outBytes) ∧
    ((∃ a, i = .acEncSym a) ∨ i = .acEncFinish →
      t.tree = s.tree ∧ t.buf.inPos = s.buf.inPos ∧ t.coder.value = s.coder.value ∧ t.coder.padUsed = s.coder.padUsed ∧
      t.ctl.acfg = s.ctl.acfg ∧ s.buf.outBits <+: t.buf.outBits) ∧
    (i = .acEncFinish → t.model = s.model ∧ t.ctl.symCount = s.ctl.symCount ∧ t.coder.lo = s.coder.lo ∧ t.coder.hi = s.coder.hi) ∧
    (i = .acEncStart → t.buf = s.buf) ∧
    (i = .acDecStart ∨ i = .acDecSym → t.buf.outBits = s.buf.outBits) ∧
    (i = .acDecSym → t.tree = s.tree ∧ t.coder.straddle = s.coder.straddle ∧ t.ctl.acfg = s.ctl.acfg)

/-- What the Huffman commands leave unchanged (43 R116 to R121). -/
def Obligations.HuffmanFrame : Prop :=
  ∀ (i : Instr) (s t : State), exec i s = .next t →
    (i = .ahEncStart ∨ i = .ahDecStart →
      t.buf = s.buf ∧ t.model.count = s.model.count) ∧
    ((∃ a, i = .ahEncSym a) ∨ i = .ahDecSym ∨ (∃ a, i = .ahUpdate a) ∨ i = .ahDecay →
      t.model = s.model ∧ t.coder = s.coder ∧ t.ctl.mode = s.ctl.mode ∧ t.ctl.acfg = s.ctl.acfg ∧ t.tree.valid = s.tree.valid ∧
      t.buf.inBits = s.buf.inBits ∧ t.buf.inBytes = s.buf.inBytes ∧ t.buf.outBytes = s.buf.outBytes) ∧
    ((∃ a, i = .ahEncSym a) → t.buf.inPos = s.buf.inPos ∧ s.buf.outBits <+: t.buf.outBits) ∧
    (i = .ahDecSym → t.buf.outBits = s.buf.outBits ∧ s.buf.inPos ≤ t.buf.inPos) ∧
    ((∃ a, i = .ahUpdate a) ∨ i = .ahDecay → t.buf = s.buf ∧ t.ctl.symCount = s.ctl.symCount)

/-- The reads and `NOP` change nothing but the result and, where they fault, the fault record (45 R138, R140 to R144, 40 R84 to R86). -/
def Obligations.ReadsChangeOnlyTheResult : Prop :=
  ∀ (i : Instr) (s t : State),
    (i = .nop ∨ (∃ n, i = .dbgRead n) ∨ (∃ n, i = .bsPeekOut n) ∨ (∃ a, i = .modelCount a) ∨ (∃ a, i = .modelCum a) ∨ i = .modelTotal ∨
      (∃ q, i = .ahReadW q) ∨ (∃ q, i = .ahReadC q) ∨ (∃ k, i = .ahReadParent k) ∨ (∃ a, i = .ahReadLoc a)) →
    exec i s = .next t →
      t.par = s.par ∧ t.coder = s.coder ∧ t.model = s.model ∧ t.tree = s.tree ∧ t.buf = s.buf ∧ t.host = s.host ∧
      t.ctl.mode = s.ctl.mode ∧ t.ctl.symCount = s.ctl.symCount ∧ t.ctl.acfg = s.ctl.acfg ∧ t.ctl.cfg = s.ctl.cfg ∧
      t.ctl.irqEn = s.ctl.irqEn
end

