-- ==== Sys2Proof/Laws/State.lean ====
section
/-! SUPPORT. One lemma per field per update of the state (see Machine/Ops.lean), so that no proof unfolds a record update. -/

namespace Sys2Proof.Machine

@[simp] theorem State.withCoder_par (s : State) (x : Coder) : (s.withCoder x).par = s.par := rfl
@[simp] theorem State.withCoder_coder (s : State) (x : Coder) : (s.withCoder x).coder = x := rfl
@[simp] theorem State.withCoder_model (s : State) (x : Coder) : (s.withCoder x).model = s.model := rfl
@[simp] theorem State.withCoder_tree (s : State) (x : Coder) : (s.withCoder x).tree = s.tree := rfl
@[simp] theorem State.withCoder_buf (s : State) (x : Coder) : (s.withCoder x).buf = s.buf := rfl
@[simp] theorem State.withCoder_ctl (s : State) (x : Coder) : (s.withCoder x).ctl = s.ctl := rfl
@[simp] theorem State.withCoder_host (s : State) (x : Coder) : (s.withCoder x).host = s.host := rfl

@[simp] theorem State.withModel_par (s : State) (x : Model) : (s.withModel x).par = s.par := rfl
@[simp] theorem State.withModel_coder (s : State) (x : Model) : (s.withModel x).coder = s.coder := rfl
@[simp] theorem State.withModel_model (s : State) (x : Model) : (s.withModel x).model = x := rfl
@[simp] theorem State.withModel_tree (s : State) (x : Model) : (s.withModel x).tree = s.tree := rfl
@[simp] theorem State.withModel_buf (s : State) (x : Model) : (s.withModel x).buf = s.buf := rfl
@[simp] theorem State.withModel_ctl (s : State) (x : Model) : (s.withModel x).ctl = s.ctl := rfl
@[simp] theorem State.withModel_host (s : State) (x : Model) : (s.withModel x).host = s.host := rfl

@[simp] theorem State.withTree_par (s : State) (x : Tree) : (s.withTree x).par = s.par := rfl
@[simp] theorem State.withTree_coder (s : State) (x : Tree) : (s.withTree x).coder = s.coder := rfl
@[simp] theorem State.withTree_model (s : State) (x : Tree) : (s.withTree x).model = s.model := rfl
@[simp] theorem State.withTree_tree (s : State) (x : Tree) : (s.withTree x).tree = x := rfl
@[simp] theorem State.withTree_buf (s : State) (x : Tree) : (s.withTree x).buf = s.buf := rfl
@[simp] theorem State.withTree_ctl (s : State) (x : Tree) : (s.withTree x).ctl = s.ctl := rfl
@[simp] theorem State.withTree_host (s : State) (x : Tree) : (s.withTree x).host = s.host := rfl

@[simp] theorem State.withBuf_par (s : State) (x : Buffers) : (s.withBuf x).par = s.par := rfl
@[simp] theorem State.withBuf_coder (s : State) (x : Buffers) : (s.withBuf x).coder = s.coder := rfl
@[simp] theorem State.withBuf_model (s : State) (x : Buffers) : (s.withBuf x).model = s.model := rfl
@[simp] theorem State.withBuf_tree (s : State) (x : Buffers) : (s.withBuf x).tree = s.tree := rfl
@[simp] theorem State.withBuf_buf (s : State) (x : Buffers) : (s.withBuf x).buf = x := rfl
@[simp] theorem State.withBuf_ctl (s : State) (x : Buffers) : (s.withBuf x).ctl = s.ctl := rfl
@[simp] theorem State.withBuf_host (s : State) (x : Buffers) : (s.withBuf x).host = s.host := rfl

@[simp] theorem State.withCtl_par (s : State) (x : Control) : (s.withCtl x).par = s.par := rfl
@[simp] theorem State.withCtl_coder (s : State) (x : Control) : (s.withCtl x).coder = s.coder := rfl
@[simp] theorem State.withCtl_model (s : State) (x : Control) : (s.withCtl x).model = s.model := rfl
@[simp] theorem State.withCtl_tree (s : State) (x : Control) : (s.withCtl x).tree = s.tree := rfl
@[simp] theorem State.withCtl_buf (s : State) (x : Control) : (s.withCtl x).buf = s.buf := rfl
@[simp] theorem State.withCtl_ctl (s : State) (x : Control) : (s.withCtl x).ctl = x := rfl
@[simp] theorem State.withCtl_host (s : State) (x : Control) : (s.withCtl x).host = s.host := rfl

@[simp] theorem State.withHost_par (s : State) (x : HostPort) : (s.withHost x).par = s.par := rfl
@[simp] theorem State.withHost_coder (s : State) (x : HostPort) : (s.withHost x).coder = s.coder := rfl
@[simp] theorem State.withHost_model (s : State) (x : HostPort) : (s.withHost x).model = s.model := rfl
@[simp] theorem State.withHost_tree (s : State) (x : HostPort) : (s.withHost x).tree = s.tree := rfl
@[simp] theorem State.withHost_buf (s : State) (x : HostPort) : (s.withHost x).buf = s.buf := rfl
@[simp] theorem State.withHost_ctl (s : State) (x : HostPort) : (s.withHost x).ctl = s.ctl := rfl
@[simp] theorem State.withHost_host (s : State) (x : HostPort) : (s.withHost x).host = x := rfl

@[simp] theorem State.withMode_par (s : State) (m : Mode) : (s.withMode m).par = s.par := rfl
@[simp] theorem State.withMode_coder (s : State) (m : Mode) : (s.withMode m).coder = s.coder := rfl
@[simp] theorem State.withMode_model (s : State) (m : Mode) : (s.withMode m).model = s.model := rfl
@[simp] theorem State.withMode_tree (s : State) (m : Mode) : (s.withMode m).tree = s.tree := rfl
@[simp] theorem State.withMode_buf (s : State) (m : Mode) : (s.withMode m).buf = s.buf := rfl
@[simp] theorem State.withMode_host (s : State) (m : Mode) : (s.withMode m).host = s.host := rfl
@[simp] theorem State.withMode_ctl (s : State) (m : Mode) : (s.withMode m).ctl = { s.ctl with mode := m } := rfl

@[simp] theorem State.withModelValid_par (s : State) (v : Bool) : (s.withModelValid v).par = s.par := rfl
@[simp] theorem State.withModelValid_coder (s : State) (v : Bool) : (s.withModelValid v).coder = s.coder := rfl
@[simp] theorem State.withModelValid_tree (s : State) (v : Bool) : (s.withModelValid v).tree = s.tree := rfl
@[simp] theorem State.withModelValid_buf (s : State) (v : Bool) : (s.withModelValid v).buf = s.buf := rfl
@[simp] theorem State.withModelValid_ctl (s : State) (v : Bool) : (s.withModelValid v).ctl = s.ctl := rfl
@[simp] theorem State.withModelValid_host (s : State) (v : Bool) : (s.withModelValid v).host = s.host := rfl
@[simp] theorem State.withModelValid_model (s : State) (v : Bool) : (s.withModelValid v).model = { s.model with valid := v } := rfl

@[simp] theorem State.withTreeValid_par (s : State) (v : Bool) : (s.withTreeValid v).par = s.par := rfl
@[simp] theorem State.withTreeValid_coder (s : State) (v : Bool) : (s.withTreeValid v).coder = s.coder := rfl
@[simp] theorem State.withTreeValid_model (s : State) (v : Bool) : (s.withTreeValid v).model = s.model := rfl
@[simp] theorem State.withTreeValid_buf (s : State) (v : Bool) : (s.withTreeValid v).buf = s.buf := rfl
@[simp] theorem State.withTreeValid_ctl (s : State) (v : Bool) : (s.withTreeValid v).ctl = s.ctl := rfl
@[simp] theorem State.withTreeValid_host (s : State) (v : Bool) : (s.withTreeValid v).host = s.host := rfl
@[simp] theorem State.withTreeValid_tree (s : State) (v : Bool) : (s.withTreeValid v).tree = { s.tree with valid := v } := rfl

@[simp] theorem State.enterFault_par (s : State) (c : FaultCode) (i w : Word) : (s.enterFault c i w).par = s.par := rfl
@[simp] theorem State.enterFault_coder (s : State) (c : FaultCode) (i w : Word) : (s.enterFault c i w).coder = s.coder := rfl
@[simp] theorem State.enterFault_model (s : State) (c : FaultCode) (i w : Word) : (s.enterFault c i w).model = s.model := rfl
@[simp] theorem State.enterFault_tree (s : State) (c : FaultCode) (i w : Word) : (s.enterFault c i w).tree = s.tree := rfl
@[simp] theorem State.enterFault_buf (s : State) (c : FaultCode) (i w : Word) : (s.enterFault c i w).buf = s.buf := rfl
@[simp] theorem State.enterFault_host (s : State) (c : FaultCode) (i w : Word) : (s.enterFault c i w).host = s.host := rfl
@[simp] theorem State.enterFault_ctl (s : State) (c : FaultCode) (i w : Word) :
    (s.enterFault c i w).ctl = { s.ctl with faultCode := c, faultInfo := i, faultCmd := w, resultValid := false } := rfl

@[simp] theorem State.dropCommand_par (s : State) : s.dropCommand.par = s.par := rfl
@[simp] theorem State.dropCommand_coder (s : State) : s.dropCommand.coder = s.coder := rfl
@[simp] theorem State.dropCommand_model (s : State) : s.dropCommand.model = s.model := rfl
@[simp] theorem State.dropCommand_tree (s : State) : s.dropCommand.tree = s.tree := rfl
@[simp] theorem State.dropCommand_buf (s : State) : s.dropCommand.buf = s.buf := rfl
@[simp] theorem State.dropCommand_host (s : State) : s.dropCommand.host = s.host := rfl
@[simp] theorem State.dropCommand_ctl (s : State) : s.dropCommand.ctl = { s.ctl with dropped := true, resultValid := false } := rfl

@[simp] theorem State.clearFault_par (s : State) : s.clearFault.par = s.par := rfl
@[simp] theorem State.clearFault_coder (s : State) : s.clearFault.coder = s.coder := rfl
@[simp] theorem State.clearFault_model (s : State) : s.clearFault.model = s.model := rfl
@[simp] theorem State.clearFault_tree (s : State) : s.clearFault.tree = s.tree := rfl
@[simp] theorem State.clearFault_buf (s : State) : s.clearFault.buf = s.buf := rfl
@[simp] theorem State.clearFault_host (s : State) : s.clearFault.host = s.host := rfl
@[simp] theorem State.clearFault_ctl (s : State) :
    s.clearFault.ctl = { s.ctl with faultCode := .none, faultInfo := 0#32, faultCmd := 0#32, dropped := false } := rfl

@[simp] theorem State.complete_par (s : State) (v : Option Word) : (s.complete v).par = s.par := by cases v <;> rfl
@[simp] theorem State.complete_coder (s : State) (v : Option Word) : (s.complete v).coder = s.coder := by cases v <;> rfl
@[simp] theorem State.complete_model (s : State) (v : Option Word) : (s.complete v).model = s.model := by cases v <;> rfl
@[simp] theorem State.complete_tree (s : State) (v : Option Word) : (s.complete v).tree = s.tree := by cases v <;> rfl
@[simp] theorem State.complete_buf (s : State) (v : Option Word) : (s.complete v).buf = s.buf := by cases v <;> rfl
@[simp] theorem State.complete_host (s : State) (v : Option Word) : (s.complete v).host = s.host := by cases v <;> rfl
@[simp] theorem State.complete_none_ctl (s : State) : (s.complete none).ctl = { s.ctl with resultValid := false } := rfl
@[simp] theorem State.complete_some_ctl (s : State) (v : Word) :
    (s.complete (some v)).ctl = { s.ctl with result := v, resultValid := true } := rfl

end Sys2Proof.Machine
end

