-- ==== Sys2Proof/Laws/Ops.lean ====
section
/-! SUPPORT. What each shared operation can do, said once (see Machine/Ops.lean). -/

namespace Sys2Proof.Machine

/-! ### Sequencing -/

/-- A sequence that ends well went through its first part. -/
theorem bind_eq_ok {α β : Type} {x : Except Stop α} {f : α → Except Stop β} {b : β} (h : (x >>= f) = .ok b) :
    ∃ a, x = .ok a ∧ f a = .ok b := by
  cases x with
  | error e => cases h
  | ok a => exact ⟨a, rfl, h⟩

/-- A sequence that stops, stops in its first or in its second part. -/
theorem bind_eq_error {α β : Type} {x : Except Stop α} {f : α → Except Stop β} {e : Stop} (h : (x >>= f) = .error e) :
    x = .error e ∨ ∃ a, x = .ok a ∧ f a = .error e := by
  cases x with
  | error e' =>
    cases h
    exact .inl rfl
  | ok a => exact .inr ⟨a, rfl, h⟩

@[simp] theorem ok_bind {α β : Type} (a : α) (f : α → Except Stop β) : ((Except.ok a : Except Stop α) >>= f) = f a := rfl

@[simp] theorem error_bind {α β : Type} (e : Stop) (f : α → Except Stop β) : ((Except.error e : Except Stop α) >>= f) = .error e := rfl

@[simp] theorem pure_eq_ok {α : Type} (a : α) : (pure a : Except Stop α) = .ok a := rfl

@[simp] theorem raise_bind {α β : Type} (f : FaultCode) (n : Nat) (g : α → Except Stop β) : ((raise f n : Except Stop α) >>= g) = raise f n := rfl

@[simp] theorem raise_ne_ok {α : Type} (f : FaultCode) (n : Nat) (a : α) : (raise f n : Except Stop α) ≠ .ok a := nofun

@[simp] theorem stuck_ne_ok {α : Type} (f : Fault) (a : α) : (stuck f : Except Stop α) ≠ .ok a := nofun

@[simp] theorem raise_eq_raised {α : Type} (f g : FaultCode) (n : Nat) (w : Word) :
    (raise f n : Except Stop α) = .error (.raised g w) ↔ f = g ∧ BitVec.ofNat 32 n = w := by
  simp [raise]

@[simp] theorem stuck_ne_raised {α : Type} (f : Fault) (g : FaultCode) (w : Word) : (stuck f : Except Stop α) ≠ .error (.raised g w) := nofun

/-! ### Constants -/

@[simp] theorem countMax_eq : Config.countMax = 4294967295 := rfl

@[simp] theorem wordMax_eq : Config.wordMax = 4294967295 := rfl

@[simp] theorem alphaOne_eq : Config.alphaOne = 65536 := rfl

/-! ### Carrying out a command -/

/-- Whether a command is carried out, not dropped (60 R152). -/
def CarriedOut (i : Instr) (s : State) : Prop := allowedInFault i.opcode = true ∨ s.faulted = false

/-- All that carrying out a command can do when it ends in a next state. -/
theorem runCommand_next {i : Instr} {body : State → Result} {s t : State} (h : runCommand i body s = .next t) :
    (allowedInFault i.opcode = false ∧ s.faulted = true ∧ t = s.dropCommand) ∨
    (CarriedOut i s ∧ ∃ v u, body s = .ok (v, u) ∧ t = u.complete v) ∨
    (CarriedOut i s ∧ ∃ f info, body s = .error (.raised f info) ∧ t = s.enterFault f info (encode i)) := by
  unfold runCommand at h
  split at h
  · rename_i hd
    simp only [Bool.and_eq_true, Bool.not_eq_true'] at hd
    exact .inl ⟨hd.1, hd.2, by cases h; rfl⟩
  · rename_i hd
    have hc : CarriedOut i s := by
      unfold CarriedOut
      cases ha : allowedInFault i.opcode <;> cases hf : s.faulted <;> simp_all
    split at h
    · rename_i v u hb
      exact .inr (.inl ⟨hc, v, u, hb, by cases h; rfl⟩)
    · rename_i f info hb
      exact .inr (.inr ⟨hc, f, info, hb, by cases h; rfl⟩)
    · cases h

theorem runCommand_ok {i : Instr} {body : State → Result} {s u : State} {v : Option Word} (hc : CarriedOut i s)
    (hb : body s = .ok (v, u)) : runCommand i body s = .next (u.complete v) := by
  have : (!allowedInFault i.opcode && s.faulted) = false := by rcases hc with h | h <;> simp [h]
  simp [runCommand, this, hb]

theorem runCommand_raised {i : Instr} {body : State → Result} {s : State} {f : FaultCode} {info : Word} (hc : CarriedOut i s)
    (hb : body s = .error (.raised f info)) : runCommand i body s = .next (s.enterFault f info (encode i)) := by
  have : (!allowedInFault i.opcode && s.faulted) = false := by rcases hc with h | h <;> simp [h]
  simp [runCommand, this, hb]

theorem runCommand_dropped {i : Instr} {body : State → Result} {s : State} (ha : allowedInFault i.opcode = false)
    (hf : s.faulted = true) : runCommand i body s = .next s.dropCommand := by
  simp [runCommand, ha, hf]

/-- A command stops the machine only where its rule is stuck. -/
theorem runCommand_fault {i : Instr} {body : State → Result} {s : State} {f : Fault} (h : runCommand i body s = .fault f) :
    body s = .error (.stuck f) := by
  unfold runCommand at h
  split at h
  · cases h
  · split at h
    · cases h
    · cases h
    · rename_i f' hb
      cases h
      exact hb

/-- No command is refused. -/
theorem runCommand_refused {i : Instr} {body : State → Result} {s : State} {r : Refusal} : runCommand i body s ≠ .refused r := by
  unfold runCommand
  split
  · nofun
  · split <;> nofun

theorem faulted_eq_false {s : State} (h : s.ctl.faultCode = .none) : s.faulted = false := by simp [State.faulted, h]

theorem carriedOut_of_no_fault {i : Instr} {s : State} (h : s.ctl.faultCode = .none) : CarriedOut i s := .inr (faulted_eq_false h)

/-! ### The bit sink -/

/-- `emit` appends one bit, or the sink is full. -/
theorem emit_ok {b : Bool} {s t : State} (h : emit b s = .ok t) :
    s.buf.outBits.length < s.par.outCap ∧ t = s.withBuf { s.buf with outBits := s.buf.outBits ++ [b] } := by
  unfold emit at h
  split at h
  · cases h
  · exact ⟨by omega, by cases h; rfl⟩

/-- A sequence that fits is appended whole. -/
theorem emitBits_fits {bs : List Bool} {s : State} (h : s.buf.outBits.length + bs.length ≤ s.par.outCap) :
    emitBits bs s = .ok (s.withBuf { s.buf with outBits := s.buf.outBits ++ bs }) := by
  induction bs generalizing s with
  | nil => simp [emitBits, State.withBuf]
  | cons b bs ih =>
    simp only [List.length_cons] at h
    have hc : ¬ s.par.outCap ≤ s.buf.outBits.length := by omega
    simp only [emitBits, emit, hc, if_false, ok_bind]
    rw [ih (by simp; omega)]
    simp [State.withBuf]

/-- A sequence that was appended fitted, if it has a bit at all. -/
theorem emitBits_ok {bs : List Bool} {s t : State} (h : emitBits bs s = .ok t) :
    (bs = [] ∨ s.buf.outBits.length + bs.length ≤ s.par.outCap) ∧ t = s.withBuf { s.buf with outBits := s.buf.outBits ++ bs } := by
  induction bs generalizing s with
  | nil => cases h; simp [State.withBuf]
  | cons b bs ih =>
    obtain ⟨u, hu, h⟩ := bind_eq_ok h
    obtain ⟨hl, rfl⟩ := emit_ok hu
    obtain ⟨hc, rfl⟩ := ih h
    refine ⟨.inr ?_, by simp [State.withBuf]⟩
    rcases hc with rfl | hc
    · simpa using hl
    · simp at hc ⊢; omega

/-- A non-empty sequence that does not fit raises `CapacityExceeded(3)`. -/
theorem emitBits_full {bs : List Bool} {s : State} (hb : bs ≠ []) (h : s.par.outCap < s.buf.outBits.length + bs.length) :
    emitBits bs s = raise .capacityExceeded 3 := by
  induction bs generalizing s with
  | nil => exact absurd rfl hb
  | cons b bs ih =>
    simp only [emitBits, emit]
    split
    · rfl
    · rename_i hc
      simp only [ok_bind]
      simp only [List.length_cons] at h
      apply ih
      · rintro rfl
        simp at h
        omega
      · simp; omega

/-! ### The bit source -/

theorem nextBit_ok {s t : State} {b : Bool} (h : nextBit s = .ok (b, t)) :
    s.buf.inBits[s.buf.inPos]? = some b ∧ t = s.withBuf { s.buf with inPos := s.buf.inPos + 1 } := by
  unfold nextBit at h
  split at h
  · rename_i b' hb
    cases h
    exact ⟨hb, rfl⟩
  · cases h

theorem nextBit_some {s : State} {b : Bool} (h : s.buf.inBits[s.buf.inPos]? = some b) :
    nextBit s = .ok (b, s.withBuf { s.buf with inPos := s.buf.inPos + 1 }) := by simp [nextBit, h]

theorem nextBit_none {s : State} (h : s.buf.inBits[s.buf.inPos]? = none) : nextBit s = raise .truncatedStream 0 := by simp [nextBit, h]

/-- A padded read takes a bit of the input, or counts a padding zero. -/
theorem nextBitPadded_ok {s t : State} {b : Bool} (h : nextBitPadded s = .ok (b, t)) :
    (s.buf.inBits[s.buf.inPos]? = some b ∧ t = s.withBuf { s.buf with inPos := s.buf.inPos + 1 }) ∨
    (s.buf.inBits[s.buf.inPos]? = none ∧ b = false ∧ s.coder.padUsed < s.par.padLimit ∧
      t = s.withCoder { s.coder with padUsed := s.coder.padUsed + 1 }) := by
  unfold nextBitPadded at h
  split at h
  · rename_i b' hb
    cases h
    exact .inl ⟨hb, rfl⟩
  · rename_i hb
    split at h
    · rename_i hp
      cases h
      exact .inr ⟨hb, rfl, hp, rfl⟩
    · cases h

/-! ### The latch and the symbol counter -/

theorem latch_ok {kind : LatchKind} {s t : State} (h : latch kind s = .ok t) :
    latchError kind s.par.kmax s.ctl.cfg = none ∧ t = s.withCtl { s.ctl with acfg := s.ctl.cfg } := by
  unfold latch at h
  split at h
  · cases h
  · rename_i hl
    exact ⟨hl, by cases h; rfl⟩

/-- A legal configuration passes the latch. -/
theorem latchError_legal {kmax : Nat} {c : Conf} (h : 1 ≤ c.k.toNat ∧ c.k.toNat ≤ kmax ∧ 1 ≤ c.alpha.toNat ∧ c.alpha.toNat ≤ 65536)
    (hn : c.decayEn = true → c.alpha.toNat < 65536 → c.n.toNat ≠ 0) (kind : LatchKind)
    (ht : kind = .tree → c.remove = true → c.growth = true) : latchError kind kmax c = none := by
  unfold latchError
  rw [if_neg (by omega), if_neg (by simp; omega), if_neg (fun h => hn h.1 h.2.1 h.2.2), if_neg]
  rintro ⟨a, b, c⟩
  simp [ht a b] at c

/-- What the latch accepts. -/
theorem legal_of_latchError {kmax : Nat} {c : Conf} {kind : LatchKind} (h : latchError kind kmax c = none) :
    (1 ≤ c.k.toNat ∧ c.k.toNat ≤ kmax ∧ 1 ≤ c.alpha.toNat ∧ c.alpha.toNat ≤ 65536) ∧
    (c.decayEn = true → c.alpha.toNat < 65536 → c.n.toNat ≠ 0) ∧ (kind = .tree → c.remove = true → c.growth = true) := by
  unfold latchError at h
  split at h
  · cases h
  split at h
  · cases h
  split at h
  · cases h
  split at h
  · cases h
  simp only [alphaOne_eq] at *
  refine ⟨by omega, fun a b c => by simp_all, fun a b => ?_⟩
  cases hg : c.growth <;> simp_all

theorem countSymbol_ok {s t : State} (h : countSymbol s = .ok t) :
    s.ctl.symCount < Config.wordMax ∧ t = s.withCtl { s.ctl with symCount := s.ctl.symCount + 1 } := by
  unfold countSymbol at h
  split at h
  · cases h
  · exact ⟨by omega, by cases h; rfl⟩

end Sys2Proof.Machine
end

