-- ==== Sys2Proof/Laws/Bits.lean ====
section
/-! SUPPORT. Bit sequences: the numbers they stand for, and what reading a number of bits does (see Machine/Ops.lean and Machine/Operands.lean). -/

namespace Sys2Proof.Machine

/-- The number that bits stand for behind the bits of `v`. -/
def bitsFrom (v : Nat) (bits : List Bool) : Nat := bits.foldl (fun v b => 2 * v + b.toNat) v

theorem bitsValue_eq (bits : List Bool) : bitsValue bits = bitsFrom 0 bits := rfl

@[simp] theorem bitsFrom_nil (v : Nat) : bitsFrom v [] = v := rfl

@[simp] theorem bitsFrom_cons (v : Nat) (b : Bool) (bits : List Bool) : bitsFrom v (b :: bits) = bitsFrom (2 * v + b.toNat) bits := rfl

theorem bitsFrom_append (v : Nat) (a b : List Bool) : bitsFrom v (a ++ b) = bitsFrom (bitsFrom v a) b := by simp [bitsFrom]

theorem bitsFrom_eq (v : Nat) (bits : List Bool) : bitsFrom v bits = v * 2 ^ bits.length + bitsFrom 0 bits := by
  induction bits generalizing v with
  | nil => simp
  | cons b bs ih =>
    rw [bitsFrom_cons, ih, bitsFrom_cons, ih (2 * 0 + b.toNat)]
    simp only [List.length_cons, Nat.pow_succ]
    ring

theorem bitsFrom_lt (bits : List Bool) : bitsFrom 0 bits < 2 ^ bits.length := by
  induction bits with
  | nil => simp
  | cons b bs ih =>
    rw [bitsFrom_cons, bitsFrom_eq]
    simp only [List.length_cons, Nat.pow_succ]
    cases b <;> simp <;> omega

@[simp] theorem bitsMSB_length (v n : Nat) : (bitsMSB v n).length = n := by induction n <;> simp_all [bitsMSB]

/-- The `n` digits of a number are the number modulo `2^n`. -/
theorem bitsFrom_bitsMSB (v n : Nat) : bitsFrom 0 (bitsMSB v n) = v % 2 ^ n := by
  induction n with
  | zero => simp [bitsMSB, Nat.mod_one]
  | succ n ih =>
    rw [bitsMSB, bitsFrom_cons, bitsFrom_eq, ih, bitsMSB_length, Nat.mod_pow_succ, Nat.toNat_testBit]
    ring

theorem packBytes_length (bits : List Bool) : (packBytes bits).length = bits.length / 8 := by
  fun_induction packBytes bits with
  | case1 b7 b6 b5 b4 b3 b2 b1 b0 rest ih => simp [ih]; omega
  | case2 bits h =>
    match bits, h with
    | [], _ => rfl
    | [_], _ => simp
    | [_, _], _ => simp
    | [_, _, _], _ => simp
    | [_, _, _, _], _ => simp
    | [_, _, _, _, _], _ => simp
    | [_, _, _, _, _, _], _ => simp
    | [_, _, _, _, _, _, _], _ => simp
    | b7 :: b6 :: b5 :: b4 :: b3 :: b2 :: b1 :: b0 :: rest, h => exact absurd rfl (h _ _ _ _ _ _ _ _ _)

/-- Reading `n` bits that are there. -/
theorem gatherBits_ok {bits rest : List Bool} {v : Nat} {s : State} (h : s.buf.inBits.drop s.buf.inPos = bits ++ rest) :
    gatherBits bits.length v s = .ok (bitsFrom v bits, s.withBuf { s.buf with inPos := s.buf.inPos + bits.length }) := by
  induction bits generalizing v s with
  | nil => simp [gatherBits, State.withBuf]
  | cons b bs ih =>
    have hb : s.buf.inBits[s.buf.inPos]? = some b := by
      have := congrArg List.head? h
      simpa using this
    simp only [List.length_cons, gatherBits, nextBit_some hb, ok_bind, bitsFrom_cons]
    rw [ih]
    · simp [State.withBuf, Nat.add_assoc, Nat.add_comm 1]
    · have := congrArg List.tail h
      simpa using this

/-- Reading more bits than are there. -/
theorem gatherBits_short {n v : Nat} {s : State} (h : (s.buf.inBits.drop s.buf.inPos).length < n) :
    gatherBits n v s = raise .truncatedStream 0 := by
  induction n generalizing v s with
  | zero => simp at h
  | succ n ih =>
    simp only [gatherBits]
    cases hb : s.buf.inBits[s.buf.inPos]? with
    | none => simp [nextBit_none hb]
    | some b =>
      simp only [nextBit_some hb, ok_bind]
      have hlt := (List.getElem?_eq_some_iff.1 hb).1
      apply ih
      simp at h ⊢
      omega

/-- What reading `n` bits has done. -/
theorem gatherBits_eq_ok {n v w : Nat} {s t : State} (h : gatherBits n v s = .ok (w, t)) :
    ∃ bits rest, bits.length = n ∧ s.buf.inBits.drop s.buf.inPos = bits ++ rest ∧ w = bitsFrom v bits ∧
      t = s.withBuf { s.buf with inPos := s.buf.inPos + n } := by
  by_cases hn : (s.buf.inBits.drop s.buf.inPos).length < n
  · rw [gatherBits_short hn] at h
    cases h
  · have hs : s.buf.inBits.drop s.buf.inPos = (s.buf.inBits.drop s.buf.inPos).take n ++ (s.buf.inBits.drop s.buf.inPos).drop n :=
      (List.take_append_drop _ _).symm
    have hl : ((s.buf.inBits.drop s.buf.inPos).take n).length = n := by rw [List.length_take]; omega
    have h2 := gatherBits_ok (v := v) hs
    rw [hl] at h2
    rw [h2] at h
    cases h
    exact ⟨_, _, hl, hs, rfl, rfl⟩

/-- Reading `n` bits of a padded input: the bits that are there, and zeros within the limit. -/
theorem gatherBitsPadded_ok {n v : Nat} {s : State} (h : n - (s.buf.inBits.drop s.buf.inPos).length + s.coder.padUsed ≤ s.par.padLimit) :
    let taken := (s.buf.inBits.drop s.buf.inPos).take n
    gatherBitsPadded n v s = .ok (bitsFrom v (taken ++ List.replicate (n - taken.length) false),
      (s.withBuf { s.buf with inPos := s.buf.inPos + taken.length }).withCoder
        { s.coder with padUsed := s.coder.padUsed + (n - taken.length) }) := by
  induction n generalizing v s with
  | zero => simp [gatherBitsPadded, State.withBuf, State.withCoder]
  | succ n ih =>
    simp only [gatherBitsPadded, nextBitPadded]
    cases hb : s.buf.inBits[s.buf.inPos]? with
    | none =>
      have hd : s.buf.inBits.drop s.buf.inPos = [] := List.drop_eq_nil_of_le (List.getElem?_eq_none_iff.1 hb)
      rw [hd] at h
      simp only [hd, List.take_nil, List.length_nil, Nat.sub_zero, List.nil_append] at h ⊢
      rw [if_pos (by omega)]
      simp only [ok_bind]
      rw [ih (by simp [hd]; omega)]
      simp [hd, List.replicate_succ, State.withBuf, State.withCoder, Nat.add_assoc, Nat.add_comm 1]
    | some b =>
      obtain ⟨hlt, hbe⟩ := List.getElem?_eq_some_iff.1 hb
      have hd : s.buf.inBits.drop s.buf.inPos = b :: s.buf.inBits.drop (s.buf.inPos + 1) := by
        rw [List.drop_eq_getElem_cons hlt, hbe]
      simp only [ok_bind]
      rw [hd] at h
      rw [ih (by simp at h ⊢; omega)]
      simp [hd, State.withBuf, State.withCoder, Nat.add_assoc, Nat.add_comm 1]

/-- Reading `n` bits of a padded input whose padding runs out. -/
theorem gatherBitsPadded_short {n v : Nat} {s : State}
    (h : s.par.padLimit < n - (s.buf.inBits.drop s.buf.inPos).length + s.coder.padUsed)
    (hn : (s.buf.inBits.drop s.buf.inPos).length < n) :
    gatherBitsPadded n v s = raise .truncatedStream 0 := by
  induction n generalizing v s with
  | zero => simp at hn
  | succ n ih =>
    simp only [gatherBitsPadded, nextBitPadded]
    cases hb : s.buf.inBits[s.buf.inPos]? with
    | none =>
      have hd : s.buf.inBits.drop s.buf.inPos = [] := List.drop_eq_nil_of_le (List.getElem?_eq_none_iff.1 hb)
      rw [hd] at h
      by_cases hp : s.coder.padUsed < s.par.padLimit
      · simp only [hp, if_true, ok_bind]
        simp only [List.length_nil] at h
        apply ih <;> simp [hd] <;> omega
      · simp [hp]
    | some b =>
      have hlt := (List.getElem?_eq_some_iff.1 hb).1
      simp only [ok_bind]
      simp only [List.length_drop] at h hn
      apply ih <;> simp <;> omega

end Sys2Proof.Machine
end

