-- ==== Sys2Proof/Laws/Model.lean ====
section
/-! SUPPORT. The symbol model's sums, and what its procedures can do (see Machine/SymbolModel.lean). -/

namespace Sys2Proof.Machine

/-! ### Sums of counts -/

theorem sum_take_succ (l : List Nat) (a : Nat) : (l.take (a + 1)).sum = (l.take a).sum + l[a]?.getD 0 := by
  rw [List.take_add_one]
  cases l[a]? <;> simp

theorem sum_take_mono (l : List Nat) {a b : Nat} (h : a ≤ b) : (l.take a).sum ≤ (l.take b).sum := by
  induction h with
  | refl => exact Nat.le_refl _
  | step _ ih => rw [sum_take_succ]; omega

/-- `C(a) + COUNT[a] = C(a + 1)` (40 R75). -/
theorem cumulative_succ (s : State) (a : Nat) : s.cumulative (a + 1) = s.cumulative a + s.countOf a := sum_take_succ _ _

/-- `C(a) + COUNT[a] ≤ T` for a symbol of the alphabet. -/
theorem cumulative_le_total {s : State} {a : Nat} (h : a < s.alphabet) : s.cumulative a + s.countOf a ≤ s.total := by
  rw [← cumulative_succ]
  exact sum_take_mono _ h

theorem sum_take_set {l : List Nat} {a k : Nat} (v : Nat) (ha : a < l.length) (hk : a < k) :
    ((l.set a v).take k).sum + l[a]?.getD 0 = (l.take k).sum + v := by
  induction l generalizing a k with
  | nil => simp at ha
  | cons x xs ih =>
    obtain ⟨k, rfl⟩ : ∃ j, k = j + 1 := ⟨k - 1, by omega⟩
    cases a with
    | zero => simp; omega
    | succ a =>
      have := ih (a := a) (k := k) (by simpa using ha) (by omega)
      simp at this ⊢
      omega

/-- One more of a symbol of the alphabet is one more in total (40 R77). -/
theorem sum_take_bump {l : List Nat} {a k : Nat} (ha : a < l.length) (hk : a < k) :
    ((l.set a (l[a]?.getD 0 + 1)).take k).sum = (l.take k).sum + 1 := by
  have := sum_take_set (l[a]?.getD 0 + 1) ha hk
  omega

/-! ### The procedures -/

/-- `modelUpdate` counts one more of the symbol, or the total is full (40 R77). -/
theorem modelUpdate_ok {a : Nat} {s t : State} (h : modelUpdate a s = .ok t) :
    s.total < Config.countMax ∧ t = s.withModel { s.model with count := s.model.count.set a (s.countOf a + 1) } := by
  unfold modelUpdate at h
  split at h
  · cases h
  · exact ⟨by omega, by cases h; rfl⟩

theorem modelUpdate_room {a : Nat} {s : State} (h : s.total < Config.countMax) :
    modelUpdate a s = .ok (s.withModel { s.model with count := s.model.count.set a (s.countOf a + 1) }) := if_neg (by omega)

theorem scale_eq (acfg : Conf) (w : Nat) :
    scale acfg w = if acfg.remove then w * acfg.alpha.toNat / 65536 else (w * acfg.alpha.toNat + 65535) / 65536 := by
  simp only [scale, ceilDiv, alphaOne_eq]
  rfl

/-- Scaling by at most 1 does not grow a count. -/
theorem scale_le {acfg : Conf} (h : acfg.alpha.toNat ≤ 65536) (w : Nat) : scale acfg w ≤ w := by
  rw [scale_eq]
  have : w * acfg.alpha.toNat ≤ w * 65536 := Nat.mul_le_mul_left _ h
  split <;> omega

/-- Rounding up keeps a count of at least 1 at least 1 (40 R78). -/
theorem scale_pos {acfg : Conf} (hr : acfg.remove = false) (ha : 1 ≤ acfg.alpha.toNat) {w : Nat} (hw : 1 ≤ w) : 1 ≤ scale acfg w := by
  rw [scale_eq, hr]
  have : 1 * 1 ≤ w * acfg.alpha.toNat := Nat.mul_le_mul hw ha
  simp
  omega

theorem modelDecay_count (s : State) : (modelDecay s).model.count = decayedCounts s.alphabet s.ctl.acfg s.model.count := by
  simp only [modelDecay, decayedCounts, State.withModel_model, funext (scale_eq _)]

theorem sum_map_le {f : Nat → Nat} (hf : ∀ w, f w ≤ w) (l : List Nat) : (l.map f).sum ≤ l.sum := by
  induction l with
  | nil => exact Nat.le_refl _
  | cons x xs ih =>
    have := hf x
    simp
    omega

/-- Decay does not grow the total (40 R79). -/
theorem modelDecay_total {s : State} (h : s.ctl.acfg.alpha.toNat ≤ 65536) : (modelDecay s).total ≤ s.total := by
  have hle := sum_map_le (scale_le h) (s.model.count.take s.alphabet)
  have ha : (modelDecay s).alphabet = s.alphabet := rfl
  unfold State.total
  rw [ha]
  simp only [modelDecay, State.withModel_model]
  by_cases hl : s.alphabet ≤ s.model.count.length
  · rw [List.take_append_of_le_length (by simp [hl]), List.take_of_length_le (by simp)]
    exact hle
  · rw [List.drop_eq_nil_of_le (by omega), List.append_nil, List.take_of_length_le (by simp)]
    exact hle

@[simp] theorem modelDecay_length (s : State) : (modelDecay s).model.count.length = s.model.count.length := by
  simp [modelDecay]
  omega

/-- The end of a coded symbol: the index moves on, and the counts decay if that is due (40 R80). -/
theorem countAndDecayModel_ok {s t : State} (h : countAndDecayModel s = .ok t) :
    s.ctl.symCount < Config.wordMax ∧
    t = if decayDue (s.withCtl { s.ctl with symCount := s.ctl.symCount + 1 }) then
        modelDecay (s.withCtl { s.ctl with symCount := s.ctl.symCount + 1 })
      else s.withCtl { s.ctl with symCount := s.ctl.symCount + 1 } := by
  obtain ⟨u, hu, h⟩ := bind_eq_ok h
  obtain ⟨hl, rfl⟩ := countSymbol_ok hu
  refine ⟨hl, ?_⟩
  split <;> simp_all

theorem countAndDecayModel_room {s : State} (h : s.ctl.symCount < Config.wordMax) :
    countAndDecayModel s = .ok (if decayDue (s.withCtl { s.ctl with symCount := s.ctl.symCount + 1 }) then
        modelDecay (s.withCtl { s.ctl with symCount := s.ctl.symCount + 1 })
      else s.withCtl { s.ctl with symCount := s.ctl.symCount + 1 }) := by
  rw [countAndDecayModel, countSymbol, if_neg (by omega)]
  simp only [ok_bind, pure_eq_ok]

theorem decayDue_iff (s : State) :
    decayDue s = true ↔ s.ctl.acfg.decayEn = true ∧ s.ctl.acfg.alpha.toNat < 65536 ∧ s.ctl.symCount % s.ctl.acfg.n.toNat = 0 := by
  simp only [decayDue, Conf.decayActive, Bool.and_eq_true, beq_iff_eq, and_assoc, decide_eq_true_eq]
  exact Iff.rfl

end Sys2Proof.Machine
end

