-- ==== Sys2Proof/Laws/Arith.lean ====
section
/-! SUPPORT. What each procedure of the arithmetic coder can do (see Machine/Arith.lean and Machine/SymbolModel.lean). -/

namespace Sys2Proof.Machine

/-! ### The interval's fixed points -/

theorem quarter_spec {p : Nat} (hp : 2 ≤ p) : 0 < quarter p ∧ one p + 1 = 4 * quarter p ∧ 2 ^ p = 4 * quarter p := by
  obtain ⟨n, rfl⟩ : ∃ n, p = n + 2 := ⟨p - 2, by omega⟩
  have h : 2 ^ (n + 2) = 4 * 2 ^ n := by rw [Nat.pow_add]; omega
  have hn : 0 < 2 ^ n := Nat.two_pow_pos n
  have hq : quarter (n + 2) = 2 ^ n := by
    unfold quarter ceilDiv one
    rw [h]
    omega
  rw [hq]
  unfold one
  omega

/-! ### Narrowing -/

/-- `narrow` raises `ZeroInterval`, or leaves at least two integers (41 R89). -/
theorem narrow_ok {a : Nat} {s t : State} (h : narrow a s = .ok t) :
    CodesInterval s a ∧ t = s.withCoder { s.coder with lo := s.regionLo a, hi := s.regionEnd a - 1 } := by
  unfold narrow at h
  split at h
  · cases h
  · split at h
    · cases h
    · exact ⟨⟨by omega, by omega⟩, by cases h; rfl⟩

theorem narrow_codes {a : Nat} {s : State} (h : CodesInterval s a) :
    narrow a s = .ok (s.withCoder { s.coder with lo := s.regionLo a, hi := s.regionEnd a - 1 }) := by
  obtain ⟨h1, h2⟩ := h
  rw [narrow, if_neg (by omega), if_neg (by omega)]

theorem narrow_zero {a : Nat} {s : State} (h : ¬ CodesInterval s a) : narrow a s = raise .zeroInterval 0 := by
  unfold narrow
  split
  · rfl
  · rw [if_pos]
    unfold CodesInterval at h
    omega

/-! ### Regions and the search -/

theorem le_mul_ceilDiv {a b : Nat} (hb : 0 < b) : a ≤ b * ceilDiv a b := by
  have h1 := Nat.div_add_mod (a + b - 1) b
  have h2 := Nat.mod_lt (a + b - 1) hb
  have h3 : b * ((a + b - 1) / b) + (b - 1) ≥ a + b - 1 := by omega
  simp only [ceilDiv]
  omega

/-- `ceil(a/b) ≤ n` says `a ≤ n·b` (00 R12). -/
theorem ceilDiv_le {a b n : Nat} (hb : 0 < b) : ceilDiv a b ≤ n ↔ a ≤ n * b := by
  constructor
  · intro h
    have := le_mul_ceilDiv (a := a) hb
    have : b * ceilDiv a b ≤ b * n := Nat.mul_le_mul_left _ h
    rw [Nat.mul_comm n]
    omega
  · intro h
    unfold ceilDiv
    rw [← Nat.lt_add_one_iff, Nat.div_lt_iff_lt_mul hb, Nat.add_mul]
    omega

theorem ceilDiv_mul_self {b n : Nat} (hb : 0 < b) : ceilDiv (b * n) b = n := by
  apply Nat.le_antisymm
  · rw [ceilDiv_le hb, Nat.mul_comm]
  · have := le_mul_ceilDiv (a := b * n) hb
    exact Nat.le_of_mul_le_mul_left this hb

theorem regionLo_ge (s : State) (a : Nat) : s.coder.lo ≤ s.regionLo a := Nat.le_add_right _ _

/-- A region ends within the interval (41 R88). -/
theorem regionEnd_le {s : State} {a : Nat} (ha : a < s.alphabet) (ht : 0 < s.total) (hw : s.coder.lo ≤ s.coder.hi) :
    s.regionEnd a ≤ s.coder.hi + 1 := by
  have h : ceilDiv ((s.cumulative a + s.countOf a) * s.range) s.total ≤ s.range := by
    rw [ceilDiv_le ht, Nat.mul_comm]
    exact Nat.mul_le_mul_left _ (cumulative_le_total ha)
  unfold State.regionEnd
  unfold State.range at *
  omega

/-- Regions of later symbols begin where the symbol's ends, or later. -/
theorem region_order {s : State} {a b : Nat} (h : a < b) : s.regionEnd a ≤ s.regionLo b := by
  unfold State.regionEnd State.regionLo
  have hc : s.cumulative a + s.countOf a ≤ s.cumulative b := by
    rw [← cumulative_succ]
    exact sum_take_mono _ h
  have : (s.cumulative a + s.countOf a) * s.range ≤ s.cumulative b * s.range := Nat.mul_le_mul_right _ hc
  unfold ceilDiv
  have := Nat.div_le_div_right (c := s.total) (Nat.sub_le_sub_right (Nat.add_le_add_right this s.total) 1)
  omega

/-- The decoder's test is membership in the region (41 R93). -/
theorem valueIn_iff {s : State} {a : Nat} (ht : 0 < s.total) (hv : s.coder.lo ≤ s.coder.value) : s.valueIn a = true ↔ InRegion s a := by
  have h1 : s.cumulative a * s.range ≤ (s.coder.value - s.coder.lo) * s.total ↔ s.regionLo a ≤ s.coder.value := by
    rw [← ceilDiv_le ht]
    unfold State.regionLo
    omega
  have h2 : (s.coder.value - s.coder.lo) * s.total < (s.cumulative a + s.countOf a) * s.range ↔ s.coder.value < s.regionEnd a := by
    rw [← Nat.not_le, ← ceilDiv_le ht]
    unfold State.regionEnd
    omega
  unfold State.valueIn InRegion
  simp only [Bool.and_eq_true, decide_eq_true_eq]
  rw [h1, h2]
  constructor
  · rintro ⟨⟨⟨-, -⟩, a⟩, b⟩
    exact ⟨a, b⟩
  · rintro ⟨a', b'⟩
    refine ⟨⟨⟨hv, ?_⟩, a'⟩, b'⟩
    apply Nat.pos_of_ne_zero
    intro h0
    have a2 := h1.1 (h1.2 a')
    have b2 := h2.1 (h2.2 b')
    unfold State.regionLo at a2
    unfold State.regionEnd at b2
    rw [h0, Nat.add_zero] at b2
    omega

/-- `VALUE` in the interval lies in the region of a symbol (41 R88). -/
theorem exists_inRegion {s : State} (ht : 0 < s.total) (hv : ValueOk s.coder) : ∃ a, a < s.alphabet ∧ InRegion s a := by
  obtain ⟨hv1, hv2⟩ := hv
  have main : ∀ k, s.coder.value < s.coder.lo + ceilDiv (s.cumulative k * s.range) s.total →
      ∃ a, a < k ∧ InRegion s a := by
    intro k
    induction k with
    | zero =>
      intro h
      have h0 : ceilDiv (s.cumulative 0 * s.range) s.total = 0 := by
        apply Nat.le_zero.1
        rw [ceilDiv_le ht]
        simp [State.cumulative]
      omega
    | succ k ih =>
      intro h
      by_cases hk : s.coder.value < s.regionLo k
      · obtain ⟨a, h1, h2⟩ := ih hk
        exact ⟨a, by omega, h2⟩
      · rw [cumulative_succ] at h
        exact ⟨k, by omega, by omega, h⟩
  apply main
  have hc : s.cumulative s.alphabet = s.total := rfl
  rw [hc, ceilDiv_mul_self ht]
  unfold State.range
  omega

theorem inRegion_unique {s : State} {a b : Nat} (ha : InRegion s a) (hb : InRegion s b) : a = b := by
  obtain ⟨a1, a2⟩ := ha
  obtain ⟨b1, b2⟩ := hb
  rcases Nat.lt_trichotomy a b with h | h | h
  · have := region_order (s := s) h
    omega
  · exact h
  · have := region_order (s := s) h
    omega

/-- The search finds the symbol whose region holds `VALUE` (41 R93). -/
theorem search_eq {s : State} {a : Nat} (ht : 0 < s.total) (hv : s.coder.lo ≤ s.coder.value) (ha : a < s.alphabet) (hr : InRegion s a) :
    search s = .ok a := by
  have hf : (List.range s.alphabet).find? s.valueIn = some a := by
    rw [List.find?_range_eq_some]
    refine ⟨(valueIn_iff ht hv).2 hr, by simpa using ha, fun b hb => ?_⟩
    cases hc : s.valueIn b with
    | false => rfl
    | true =>
      have := inRegion_unique hr ((valueIn_iff ht hv).1 hc)
      omega
  rw [search, if_neg (by omega), hf]

/-- What the search found. -/
theorem search_ok {s : State} {a : Nat} (h : search s = .ok a) : 0 < s.total ∧ a < s.alphabet ∧ s.valueIn a = true := by
  unfold search at h
  split at h
  · cases h
  · split at h
    · rename_i b hb
      cases h
      have := List.find?_some hb
      have := List.mem_of_find?_eq_some hb
      exact ⟨by omega, by simpa using this, ‹_›⟩
    · cases h

/-- Narrowing to a symbol of the alphabet stays within the interval (41 R89). -/
theorem narrowed_bounds {s : State} {a : Nat} (ha : a < s.alphabet) (hc : CodesInterval s a) (hw : s.coder.lo ≤ s.coder.hi) :
    s.regionLo a < s.regionEnd a - 1 ∧ s.regionEnd a - 1 ≤ s.coder.hi := by
  have := regionEnd_le ha hc.1 hw
  have := hc.2
  omega

/-! ### Renormalization -/

/-- What one pass of the loop does: the interval doubles in width, and one bit is emitted, held back, or read (41 R90). -/
structure Passed (dec : Bool) (s t : State) : Prop where
  same : t = { s with coder := t.coder, buf := { s.buf with outBits := t.buf.outBits, inPos := t.buf.inPos } }
  wide : t.coder.lo < t.coder.hi
  hi_max : t.coder.hi ≤ one s.par.p
  doubled : t.coder.hi + 1 - t.coder.lo = 2 * (s.coder.hi + 1 - s.coder.lo)
  enc : dec = false → t.coder.value = s.coder.value ∧ t.coder.padUsed = s.coder.padUsed ∧ t.buf.inPos = s.buf.inPos ∧
    ∃ bits, t.buf.outBits = s.buf.outBits ++ bits ∧ bits.length + t.coder.straddle = s.coder.straddle + 1 ∧
      (s.buf.outBits.length ≤ s.par.outCap → t.buf.outBits.length ≤ s.par.outCap) ∧
      (s.coder.straddle ≤ Config.countMax → t.coder.straddle ≤ Config.countMax)
  dec : dec = true → ValueOk t.coder ∧ t.coder.straddle = s.coder.straddle ∧ t.buf.outBits = s.buf.outBits ∧
    ((s.buf.inPos < s.buf.inBits.length ∧ t.buf.inPos = s.buf.inPos + 1 ∧ t.coder.padUsed = s.coder.padUsed) ∨
      (s.buf.inBits.length ≤ s.buf.inPos ∧ t.buf.inPos = s.buf.inPos ∧ t.coder.padUsed = s.coder.padUsed + 1 ∧
        s.coder.padUsed < s.par.padLimit))

/-- How a pass of the loop can fail: no room for the bit, or no bit to read. -/
def PassFails (dec : Bool) (s : State) (e : Stop) : Prop :=
  (dec = false ∧ e = .raised .capacityExceeded 2#32 ∧ Config.countMax ≤ s.coder.straddle) ∨
  (dec = false ∧ e = .raised .capacityExceeded 3#32 ∧ s.par.outCap ≤ s.buf.outBits.length + s.coder.straddle) ∨
  (dec = true ∧ e = .raised .truncatedStream 0#32 ∧ s.buf.inBits.length ≤ s.buf.inPos ∧ s.par.padLimit ≤ s.coder.padUsed)

theorem drainStraddle_spec (b : Bool) (s : State) :
    (s.buf.outBits.length + (s.coder.straddle + 1) ≤ s.par.outCap ∧
      drainStraddle b s = .ok ((s.withBuf { s.buf with outBits := s.buf.outBits ++ b :: List.replicate s.coder.straddle (!b) }).withCoder
        { s.coder with straddle := 0 })) ∨
    (s.par.outCap ≤ s.buf.outBits.length + s.coder.straddle ∧ drainStraddle b s = raise .capacityExceeded 3) := by
  by_cases hc : s.buf.outBits.length + (s.coder.straddle + 1) ≤ s.par.outCap
  · refine .inl ⟨hc, ?_⟩
    simp only [drainStraddle, emit]
    rw [if_neg (by omega)]
    simp only [ok_bind]
    rw [emitBits_fits (by simp; omega)]
    simp [State.withCoder, State.withBuf]
  · refine .inr ⟨by omega, ?_⟩
    simp only [drainStraddle, emit]
    split
    · rfl
    · simp only [ok_bind]
      rw [emitBits_full]
      · rfl
      · intro h
        have := congrArg List.length h
        simp at this
        omega
      · simp; omega

/-- The doubling in the decoder: the next bit is shifted into `VALUE`, or there is none. -/
theorem doubleInterval_dec (s : State) :
    (∃ (b : Bool) (u : State), doubleInterval true s = .ok u ∧
      u = { s with
        coder := ⟨2 * s.coder.lo, 2 * s.coder.hi + 1, 2 * s.coder.value + b.toNat, s.coder.straddle, u.coder.padUsed⟩
        buf := { s.buf with inPos := u.buf.inPos } } ∧
      ((s.buf.inPos < s.buf.inBits.length ∧ u.buf.inPos = s.buf.inPos + 1 ∧ u.coder.padUsed = s.coder.padUsed) ∨
        (s.buf.inBits.length ≤ s.buf.inPos ∧ u.buf.inPos = s.buf.inPos ∧ u.coder.padUsed = s.coder.padUsed + 1 ∧
          s.coder.padUsed < s.par.padLimit))) ∨
    (s.buf.inBits.length ≤ s.buf.inPos ∧ s.par.padLimit ≤ s.coder.padUsed ∧ doubleInterval true s = raise .truncatedStream 0) := by
  simp only [doubleInterval, if_true, nextBitPadded]
  cases hb : s.buf.inBits[s.buf.inPos]? with
  | some b =>
    have hlt := (List.getElem?_eq_some_iff.1 hb).1
    refine .inl ⟨b, { s with
        coder := ⟨2 * s.coder.lo, 2 * s.coder.hi + 1, 2 * s.coder.value + b.toNat, s.coder.straddle, s.coder.padUsed⟩
        buf := { s.buf with inPos := s.buf.inPos + 1 } }, ?_, rfl, .inl ⟨hlt, rfl, rfl⟩⟩
    simp [hb]
    rfl
  | none =>
    have hle := List.getElem?_eq_none_iff.1 hb
    by_cases hp : s.coder.padUsed < s.par.padLimit
    · refine .inl ⟨false, { s with
        coder := ⟨2 * s.coder.lo, 2 * s.coder.hi + 1, 2 * s.coder.value + 0, s.coder.straddle, s.coder.padUsed + 1⟩ },
        ?_, rfl, .inr ⟨hle, rfl, rfl, hp⟩⟩
      simp [hb, hp]
      rfl
    · exact .inr ⟨hle, by omega, by simp [hb, hp]⟩

/-- One pass of the loop on an interval of at least two integers, with `VALUE` in it in the decoder. -/
theorem renormPass_spec (dec : Bool) (s : State) (hp : 2 ≤ s.par.p) (hw : s.coder.lo < s.coder.hi) (hm : s.coder.hi ≤ one s.par.p)
    (hv : dec = true → ValueOk s.coder) :
    match renormPass dec s with
    | .ok none => IntervalOk s.par.p s.coder
    | .ok (some t) => Passed dec s t
    | .error e => PassFails dec s e := by
  obtain ⟨hq, h1, -⟩ := quarter_spec hp
  have hhalf : half s.par.p = 2 * quarter s.par.p := rfl
  have htq : threeQuarters s.par.p = 3 * quarter s.par.p := rfl
  cases dec with
  | false =>
    unfold renormPass
    by_cases c1 : s.coder.hi < half s.par.p
    · simp only [c1, if_true]
      rcases drainStraddle_spec false s with ⟨hc, hd⟩ | ⟨hc, hd⟩
      · simp only [Bool.false_eq_true, if_false, hd, ok_bind, doubleInterval]
        refine ⟨rfl, ?_, ?_, ?_, fun _ => ⟨rfl, rfl, rfl, _, rfl, ?_, ?_, ?_⟩, nofun⟩ <;> simp <;> omega
      · simp only [Bool.false_eq_true, if_false, hd, raise_bind]
        exact .inr (.inl ⟨rfl, rfl, hc⟩)
    · by_cases c2 : half s.par.p ≤ s.coder.lo
      · simp only [c1, c2, if_true, if_false]
        rcases drainStraddle_spec true s with ⟨hc, hd⟩ | ⟨hc, hd⟩
        · simp only [Bool.false_eq_true, if_false, hd, ok_bind, doubleInterval, subtractOffset]
          refine ⟨rfl, ?_, ?_, ?_, fun _ => ⟨rfl, rfl, rfl, _, rfl, ?_, ?_, ?_⟩, nofun⟩ <;> simp <;> omega
        · simp only [Bool.false_eq_true, if_false, hd, raise_bind]
          exact .inr (.inl ⟨rfl, rfl, hc⟩)
      · by_cases c3 : quarter s.par.p ≤ s.coder.lo ∧ s.coder.hi < threeQuarters s.par.p
        · simp only [c1, c2, c3, and_self, if_true, if_false]
          by_cases hc : s.coder.straddle = Config.countMax
          · simp only [Bool.false_eq_true, if_false, pendStraddle, hc, if_true, raise_bind]
            exact .inl ⟨rfl, rfl, by omega⟩
          · simp only [Bool.false_eq_true, if_false, pendStraddle, hc, ok_bind, doubleInterval, subtractOffset]
            refine ⟨rfl, ?_, ?_, ?_, fun _ => ⟨rfl, rfl, rfl, [], ?_, ?_, ?_, ?_⟩, nofun⟩ <;> simp <;> (try simp at hc) <;> omega
        · simp only [c1, c2, c3, if_false]
          exact ⟨by omega, by omega, hm, by omega⟩
  | true =>
    obtain ⟨hv1, hv2⟩ := hv rfl
    have key : ∀ d, d ≤ s.coder.lo → (d = 0 ∨ d = half s.par.p ∨ d = quarter s.par.p) → s.coder.hi - d < half s.par.p →
        match (do
          let s ← subtractOffset true d s
          return some (← doubleInterval true s) : Except Stop (Option State)) with
        | .ok none => IntervalOk s.par.p s.coder
        | .ok (some t) => Passed true s t
        | .error e => PassFails true s e := by
      intro d hd hd2 hh
      simp only [subtractOffset, if_true]
      rw [if_neg (by omega)]
      simp only [ok_bind]
      rcases doubleInterval_dec (s.withCoder { s.coder with lo := s.coder.lo - d, hi := s.coder.hi - d, value := s.coder.value - d })
        with ⟨b, u, hu, he, hr⟩ | ⟨e1, e2, e3⟩
      · rw [hu]
        simp only [ok_bind, pure_eq_ok]
        have hb : b.toNat ≤ 1 := by cases b <;> decide
        have hlo : u.coder.lo = 2 * (s.coder.lo - d) := by rw [he]; rfl
        have hhi : u.coder.hi = 2 * (s.coder.hi - d) + 1 := by rw [he]; rfl
        have hva : u.coder.value = 2 * (s.coder.value - d) + b.toNat := by rw [he]; rfl
        refine ⟨?_, ?_, ?_, ?_, nofun, fun _ => ⟨⟨?_, ?_⟩, ?_, ?_, ?_⟩⟩
        · rw [he]; rfl
        · omega
        · omega
        · omega
        · omega
        · omega
        · rw [he]; rfl
        · rw [he]; rfl
        · simpa using hr
      · rw [e3]
        exact .inr (.inr ⟨rfl, rfl, e1, e2⟩)
    unfold renormPass
    by_cases c1 : s.coder.hi < half s.par.p
    · have := key 0 (by omega) (.inl rfl) (by omega)
      simp only [subtractOffset, if_true, Nat.not_lt_zero, if_false, Nat.sub_zero, ok_bind] at this
      simp only [c1, if_true, ok_bind]
      exact this
    · by_cases c2 : half s.par.p ≤ s.coder.lo
      · simp only [c1, c2, if_true, if_false, ok_bind]
        exact key _ c2 (.inr (.inl rfl)) (by omega)
      · by_cases c3 : quarter s.par.p ≤ s.coder.lo ∧ s.coder.hi < threeQuarters s.par.p
        · simp only [c1, c2, c3, and_self, if_true, if_false, ok_bind]
          exact key _ c3.1 (.inr (.inr rfl)) (by omega)
        · simp only [c1, c2, c3, if_false]
          exact ⟨by omega, by omega, hm, by omega⟩

/-- What at most `n` passes of the loop do, from its start to its exit (41 R90, R91, R95). -/
structure Renormed (dec : Bool) (n : Nat) (s t : State) : Prop where
  same : t = { s with coder := t.coder, buf := { s.buf with outBits := t.buf.outBits, inPos := t.buf.inPos } }
  interval : IntervalOk s.par.p t.coder
  enc : dec = false → t.coder.value = s.coder.value ∧ t.coder.padUsed = s.coder.padUsed ∧ t.buf.inPos = s.buf.inPos ∧
    ∃ bits, t.buf.outBits = s.buf.outBits ++ bits ∧ bits.length + t.coder.straddle ≤ s.coder.straddle + n ∧
      (s.buf.outBits.length ≤ s.par.outCap → t.buf.outBits.length ≤ s.par.outCap) ∧
      (s.coder.straddle ≤ Config.countMax → t.coder.straddle ≤ Config.countMax)
  dec : dec = true → ValueOk t.coder ∧ t.coder.straddle = s.coder.straddle ∧ t.buf.outBits = s.buf.outBits ∧
    s.buf.inPos ≤ t.buf.inPos ∧ s.coder.padUsed ≤ t.coder.padUsed ∧
    t.buf.inPos + t.coder.padUsed ≤ s.buf.inPos + s.coder.padUsed + n ∧
    (s.buf.inPos ≤ s.buf.inBits.length → t.buf.inPos ≤ s.buf.inBits.length) ∧
    (s.coder.padUsed ≤ s.par.padLimit → t.coder.padUsed ≤ s.par.padLimit)

/-- How at most `n` passes of the loop can fail. -/
def RenormFails (dec : Bool) (n : Nat) (s : State) (e : Stop) : Prop :=
  (dec = false ∧ e = .raised .capacityExceeded 2#32 ∧ Config.countMax < s.coder.straddle + n) ∨
  (dec = false ∧ e = .raised .capacityExceeded 3#32 ∧ s.par.outCap < s.buf.outBits.length + s.coder.straddle + n) ∨
  (dec = true ∧ e = .raised .truncatedStream 0#32 ∧
    s.buf.inBits.length - s.buf.inPos + (s.par.padLimit - s.coder.padUsed) < n)

theorem renormLoop_spec (dec : Bool) (n : Nat) (s : State) (hp : 2 ≤ s.par.p) (hw : s.coder.lo < s.coder.hi)
    (hm : s.coder.hi ≤ one s.par.p) (hv : dec = true → ValueOk s.coder)
    (hn : 2 ^ s.par.p < (s.coder.hi + 1 - s.coder.lo) * 2 ^ (n + 1)) :
    match renormLoop dec (n + 1) s with
    | .ok t => Renormed dec n s t
    | .error e => RenormFails dec n s e := by
  induction n generalizing s with
  | zero =>
    have hpass := renormPass_spec dec s hp hw hm hv
    unfold renormLoop
    have hone := (quarter_spec hp).2
    cases hr : renormPass dec s with
    | error e =>
      rw [hr] at hpass
      exfalso
      have : renormPass dec s ≠ .error e := by
        intro _
        unfold renormPass at hr
        have hhalf : half s.par.p = 2 * quarter s.par.p := rfl
        have htq : threeQuarters s.par.p = 3 * quarter s.par.p := rfl
        rw [if_neg (by omega), if_neg (by omega), if_neg (by omega)] at hr
        cases hr
      exact this hr
    | ok o =>
      rw [hr] at hpass
      cases o with
      | none =>
        exact ⟨rfl, hpass, fun _ => ⟨rfl, rfl, rfl, [], by simp, by simp, id, id⟩,
          fun h => ⟨hv h, rfl, rfl, Nat.le_refl _, Nat.le_refl _, by omega, id, id⟩⟩
      | some u =>
        have := hpass.doubled
        have := hpass.hi_max
        omega
  | succ n ih =>
    have hpass := renormPass_spec dec s hp hw hm hv
    unfold renormLoop
    cases hr : renormPass dec s with
    | error e =>
      rw [hr] at hpass
      rcases hpass with ⟨h1, h2, h3⟩ | ⟨h1, h2, h3⟩ | ⟨h1, h2, h3, h4⟩
      · exact .inl ⟨h1, h2, by omega⟩
      · exact .inr (.inl ⟨h1, h2, by omega⟩)
      · exact .inr (.inr ⟨h1, h2, by omega⟩)
    | ok o =>
      rw [hr] at hpass
      cases o with
      | none =>
        exact ⟨rfl, hpass, fun _ => ⟨rfl, rfl, rfl, [], by simp, by simp, id, id⟩,
          fun h => ⟨hv h, rfl, rfl, Nat.le_refl _, Nat.le_refl _, by omega, id, id⟩⟩
      | some u =>
        have hpar : u.par = s.par := by rw [hpass.same]
        have hin : u.buf.inBits = s.buf.inBits := by rw [hpass.same]
        have hu := ih u (by rw [hpar]; exact hp) hpass.wide (by rw [hpar]; exact hpass.hi_max) (fun h => (hpass.dec h).1)
          (by rw [hpar, hpass.doubled]; rw [Nat.pow_succ] at hn; linarith)
        simp only [ok_bind]
        cases ht : renormLoop dec (n + 1) u with
        | error e =>
          rw [ht] at hu
          rcases hu with ⟨h1, h2, h3⟩ | ⟨h1, h2, h3⟩ | ⟨h1, h2, h3⟩
          · obtain ⟨-, -, -, bits, hb, hl, -⟩ := hpass.enc h1
            exact .inl ⟨h1, h2, by omega⟩
          · obtain ⟨-, -, -, bits, hb, hl, -⟩ := hpass.enc h1
            rw [hpar, hb] at h3
            simp at h3
            exact .inr (.inl ⟨h1, h2, by omega⟩)
          · obtain ⟨-, -, -, hb⟩ := hpass.dec h1
            rw [hpar, hin] at h3
            exact .inr (.inr ⟨h1, h2, by omega⟩)
        | ok t =>
          rw [ht] at hu
          refine ⟨?_, hpar ▸ hu.interval, fun h => ?_, fun h => ?_⟩
          · have h1 := hu.same
            rw [hpass.same] at h1
            exact h1
          · obtain ⟨a1, a2, a3, bits, a4, a5, a6, a7⟩ := hpass.enc h
            obtain ⟨b1, b2, b3, bits', b4, b5, b6, b7⟩ := hu.enc h
            rw [hpar] at b6
            exact ⟨b1.trans a1, b2.trans a2, b3.trans a3, bits ++ bits', by rw [b4, a4, List.append_assoc],
              by simp; omega, fun h => b6 (a6 h), fun h => b7 (a7 h)⟩
          · obtain ⟨a1, a2, a3, a4⟩ := hpass.dec h
            obtain ⟨b1, b2, b3, b4, b5, b6, b7, b8⟩ := hu.dec h
            rw [hpar] at b8
            rw [hin] at b7
            exact ⟨b1, b2.trans a2, b3.trans a3, by omega, by omega, by omega, by omega, by omega⟩

/-- Renormalization of an interval of at least two integers: at most `P − 1` passes (41 R91), after which the interval is wide again. -/
theorem renorm_spec (dec : Bool) (s : State) (hp : 2 ≤ s.par.p) (hw : s.coder.lo < s.coder.hi) (hm : s.coder.hi ≤ one s.par.p)
    (hv : dec = true → ValueOk s.coder) :
    match renorm dec s with
    | .ok t => Renormed dec (s.par.p - 1) s t
    | .error e => RenormFails dec (s.par.p - 1) s e := by
  unfold renorm
  obtain ⟨n, hn⟩ : ∃ n, s.par.p = n + 1 := ⟨s.par.p - 1, by omega⟩
  have h2 : 2 ≤ s.coder.hi + 1 - s.coder.lo := by omega
  have h3 : 0 < 2 ^ (n + 1) := Nat.two_pow_pos _
  have := renormLoop_spec dec n s hp hw hm hv (by rw [hn]; nlinarith)
  rw [hn]
  simpa using this

/-- What renormalization leaves unchanged, from any state (41 R90). -/
structure CoderFrame (dec : Bool) (s t : State) : Prop where
  same : t = { s with coder := t.coder, buf := { s.buf with outBits := t.buf.outBits, inPos := t.buf.inPos } }
  enc : dec = false → t.coder.value = s.coder.value ∧ t.coder.padUsed = s.coder.padUsed ∧ t.buf.inPos = s.buf.inPos ∧
    s.buf.outBits <+: t.buf.outBits
  dec : dec = true → t.coder.straddle = s.coder.straddle ∧ t.buf.outBits = s.buf.outBits ∧ s.buf.inPos ≤ t.buf.inPos

theorem CoderFrame.refl (dec : Bool) (s : State) : CoderFrame dec s s :=
  ⟨rfl, fun _ => ⟨rfl, rfl, rfl, List.prefix_refl _⟩, fun _ => ⟨rfl, rfl, Nat.le_refl _⟩⟩

theorem CoderFrame.trans {dec : Bool} {s t u : State} (h1 : CoderFrame dec s t) (h2 : CoderFrame dec t u) : CoderFrame dec s u := by
  refine ⟨?_, fun h => ?_, fun h => ?_⟩
  · have h3 := h2.same
    rw [h1.same] at h3
    exact h3
  · obtain ⟨a1, a2, a3, a4⟩ := h1.enc h
    obtain ⟨b1, b2, b3, b4⟩ := h2.enc h
    exact ⟨b1.trans a1, b2.trans a2, b3.trans a3, a4.trans b4⟩
  · obtain ⟨a1, a2, a3⟩ := h1.dec h
    obtain ⟨b1, b2, b3⟩ := h2.dec h
    exact ⟨b1.trans a1, b2.trans a2, a3.trans b3⟩

theorem drainStraddle_frame {b : Bool} {s t : State} (h : drainStraddle b s = .ok t) : CoderFrame false s t := by
  rcases drainStraddle_spec b s with ⟨-, h1⟩ | ⟨-, h1⟩ <;> rw [h1] at h <;> cases h
  exact ⟨rfl, fun _ => ⟨rfl, rfl, rfl, List.prefix_append _ _⟩, nofun⟩

theorem pendStraddle_frame {s t : State} (h : pendStraddle s = .ok t) : CoderFrame false s t := by
  unfold pendStraddle at h
  split at h <;> cases h
  exact ⟨rfl, fun _ => ⟨rfl, rfl, rfl, List.prefix_refl _⟩, nofun⟩

theorem subtractOffset_frame {dec : Bool} {d : Nat} {s t : State} (h : subtractOffset dec d s = .ok t) : CoderFrame dec s t := by
  unfold subtractOffset at h
  split at h
  · split at h <;> cases h
    exact ⟨rfl, fun h => by simp_all, fun _ => ⟨rfl, rfl, Nat.le_refl _⟩⟩
  · cases h
    exact ⟨rfl, fun _ => ⟨rfl, rfl, rfl, List.prefix_refl _⟩, fun h => by simp_all⟩

theorem doubleInterval_frame {dec : Bool} {s t : State} (h : doubleInterval dec s = .ok t) : CoderFrame dec s t := by
  cases dec with
  | false =>
    cases h
    exact ⟨rfl, fun _ => ⟨rfl, rfl, rfl, List.prefix_refl _⟩, nofun⟩
  | true =>
    rcases doubleInterval_dec s with ⟨b, u, h1, h2, h3⟩ | ⟨-, -, h1⟩ <;> rw [h1] at h <;> cases h
    refine ⟨?_, nofun, fun _ => ⟨?_, ?_, by omega⟩⟩ <;> rw [h2]

theorem renormPass_frame {dec : Bool} {s t : State} (h : renormPass dec s = .ok (some t)) : CoderFrame dec s t := by
  have tail : ∀ {d : Nat} {u : State}, CoderFrame dec s u →
      (do
        let s ← subtractOffset dec d u
        return some (← doubleInterval dec s) : Except Stop (Option State)) = .ok (some t) → CoderFrame dec s t := by
    intro d u hu h
    obtain ⟨v, h1, h⟩ := bind_eq_ok h
    obtain ⟨w, h2, h⟩ := bind_eq_ok h
    cases h
    exact (hu.trans (subtractOffset_frame h1)).trans (doubleInterval_frame h2)
  unfold renormPass at h
  simp only at h
  split at h
  · split at h
    · simp only [ok_bind] at h
      obtain ⟨w, h2, h⟩ := bind_eq_ok h
      cases h
      exact doubleInterval_frame h2
    · rename_i hd
      obtain ⟨u, h1, h⟩ := bind_eq_ok h
      obtain ⟨w, h2, h⟩ := bind_eq_ok h
      cases h
      obtain rfl : dec = false := by simpa using hd
      exact (drainStraddle_frame h1).trans (doubleInterval_frame h2)
  · split at h
    · split at h
      · exact tail (.refl _ _) h
      · rename_i hd
        obtain ⟨u, h1, h⟩ := bind_eq_ok h
        obtain rfl : dec = false := by simpa using hd
        exact tail (drainStraddle_frame h1) h
    · split at h
      · split at h
        · exact tail (.refl _ _) h
        · rename_i hd
          obtain ⟨u, h1, h⟩ := bind_eq_ok h
          obtain rfl : dec = false := by simpa using hd
          exact tail (pendStraddle_frame h1) h
      · cases h

theorem renormLoop_frame {dec : Bool} (n : Nat) {s t : State} (h : renormLoop dec n s = .ok t) : CoderFrame dec s t := by
  induction n generalizing s with
  | zero => cases h
  | succ n ih =>
    unfold renormLoop at h
    obtain ⟨o, h1, h⟩ := bind_eq_ok h
    cases o with
    | none =>
      cases h
      exact .refl _ _
    | some u => exact (renormPass_frame h1).trans (ih h)

/-- What renormalization leaves unchanged. -/
theorem renorm_frame {dec : Bool} {s t : State} (h : renorm dec s = .ok t) : CoderFrame dec s t := renormLoop_frame _ h

/-- What a pass does to the interval, the same in the encoder and in the decoder (41 R90). -/
theorem renormPass_bounds {dec} {s : State} {o} (h : renormPass dec s = .ok o) :
    (s.coder.hi < half s.par.p ∧ ∃ t, o = some t ∧ t.coder.lo = 2 * s.coder.lo ∧ t.coder.hi = 2 * s.coder.hi + 1 ∧ t.par = s.par) ∨
    (¬ s.coder.hi < half s.par.p ∧ half s.par.p ≤ s.coder.lo ∧ ∃ t, o = some t ∧ t.coder.lo = 2 * (s.coder.lo - half s.par.p) ∧ t.coder.hi = 2 * (s.coder.hi - half s.par.p) + 1 ∧ t.par = s.par) ∨
    (¬ s.coder.hi < half s.par.p ∧ ¬ half s.par.p ≤ s.coder.lo ∧ (quarter s.par.p ≤ s.coder.lo ∧ s.coder.hi < threeQuarters s.par.p) ∧ ∃ t, o = some t ∧ t.coder.lo = 2 * (s.coder.lo - quarter s.par.p) ∧ t.coder.hi = 2 * (s.coder.hi - quarter s.par.p) + 1 ∧ t.par = s.par) ∨
    (¬ s.coder.hi < half s.par.p ∧ ¬ half s.par.p ≤ s.coder.lo ∧ ¬ (quarter s.par.p ≤ s.coder.lo ∧ s.coder.hi < threeQuarters s.par.p) ∧ o = none) := by
  have hd : ∀ {dec} {s t : State}, doubleInterval dec s = .ok t → t.coder.lo = 2 * s.coder.lo ∧ t.coder.hi = 2 * s.coder.hi + 1 ∧ t.par = s.par := by
    intro dec s t h
    cases dec
    · cases h; exact ⟨rfl, rfl, rfl⟩
    · rcases doubleInterval_dec s with ⟨b, u, h1, h2, -⟩ | ⟨-, -, h1⟩
      · rw [h1] at h; cases h; rw [h2]; exact ⟨rfl, rfl, rfl⟩
      · rw [h1] at h; cases h
  have hs : ∀ {dec d} {s t : State}, subtractOffset dec d s = .ok t → t.coder.lo = s.coder.lo - d ∧ t.coder.hi = s.coder.hi - d ∧ t.par = s.par := by
    intro dec d s t h
    unfold subtractOffset at h
    split at h
    · split at h
      · cases h
      · cases h; exact ⟨rfl, rfl, rfl⟩
    · cases h; exact ⟨rfl, rfl, rfl⟩
  have hdr : ∀ {b} {s t : State}, drainStraddle b s = .ok t → t.coder.lo = s.coder.lo ∧ t.coder.hi = s.coder.hi ∧ t.par = s.par := by
    intro b s t h
    rcases drainStraddle_spec b s with ⟨-, h1⟩ | ⟨-, h1⟩
    · rw [h1] at h; cases h; exact ⟨rfl, rfl, rfl⟩
    · rw [h1] at h; cases h
  have hpn : ∀ {s t : State}, pendStraddle s = .ok t → t.coder.lo = s.coder.lo ∧ t.coder.hi = s.coder.hi ∧ t.par = s.par := by
    intro s t h
    unfold pendStraddle at h
    split at h
    · cases h
    · cases h; exact ⟨rfl, rfl, rfl⟩
  unfold renormPass at h
  by_cases c1 : s.coder.hi < half s.par.p
  · left; simp only [c1, if_true] at h
    split at h
    · simp only [ok_bind] at h
      obtain ⟨v, h2, h⟩ := bind_eq_ok h
      cases h
      obtain ⟨b1, b2, b3⟩ := hd h2
      exact ⟨c1, v, rfl, b1, b2, b3⟩
    · obtain ⟨u, h1, h⟩ := bind_eq_ok h
      obtain ⟨v, h2, h⟩ := bind_eq_ok h
      cases h
      obtain ⟨a1, a2, a3⟩ := hdr h1
      obtain ⟨b1, b2, b3⟩ := hd h2
      exact ⟨c1, v, rfl, by rw [b1, a1], by rw [b2, a2], by rw [b3, a3]⟩
  · by_cases c2 : half s.par.p ≤ s.coder.lo
    · right; left; simp only [c1, c2, if_true, if_false] at h
      split at h
      · simp only [ok_bind] at h
        obtain ⟨w, h3, h⟩ := bind_eq_ok h
        obtain ⟨v, h2, h⟩ := bind_eq_ok h
        cases h
        obtain ⟨b1, b2, b3⟩ := hd h2
        obtain ⟨d1, d2, d3⟩ := hs h3
        exact ⟨c1, c2, v, rfl, by rw [b1, d1], by rw [b2, d2], by rw [b3, d3]⟩
      · obtain ⟨u, h1, h⟩ := bind_eq_ok h
        obtain ⟨w, h3, h⟩ := bind_eq_ok h
        obtain ⟨v, h2, h⟩ := bind_eq_ok h
        cases h
        obtain ⟨a1, a2, a3⟩ := hdr h1
        obtain ⟨b1, b2, b3⟩ := hd h2
        obtain ⟨d1, d2, d3⟩ := hs h3
        exact ⟨c1, c2, v, rfl, by rw [b1, d1, a1], by rw [b2, d2, a2], by rw [b3, d3, a3]⟩
    · by_cases c3 : quarter s.par.p ≤ s.coder.lo ∧ s.coder.hi < threeQuarters s.par.p
      · right; right; left; simp only [c1, c2, c3, and_self, if_true, if_false] at h
        split at h
        · simp only [ok_bind] at h
          obtain ⟨w, h3, h⟩ := bind_eq_ok h
          obtain ⟨v, h2, h⟩ := bind_eq_ok h
          cases h
          obtain ⟨b1, b2, b3⟩ := hd h2
          obtain ⟨d1, d2, d3⟩ := hs h3
          exact ⟨c1, c2, c3, v, rfl, by rw [b1, d1], by rw [b2, d2], by rw [b3, d3]⟩
        · obtain ⟨u, h1, h⟩ := bind_eq_ok h
          obtain ⟨w, h3, h⟩ := bind_eq_ok h
          obtain ⟨v, h2, h⟩ := bind_eq_ok h
          cases h
          obtain ⟨a1, a2, a3⟩ := hpn h1
          obtain ⟨b1, b2, b3⟩ := hd h2
          obtain ⟨d1, d2, d3⟩ := hs h3
          exact ⟨c1, c2, c3, v, rfl, by rw [b1, d1, a1], by rw [b2, d2, a2], by rw [b3, d3, a3]⟩
      · right; right; right; simp only [c1, c2, c3, if_false] at h
        cases h
        exact ⟨c1, c2, c3, rfl⟩

/-- Encoder and decoder renormalize an interval identically (41 R101). -/
theorem renormLoop_lockstep (n : Nat) : ∀ (e d te td : State), e.par = d.par → e.coder.lo = d.coder.lo → e.coder.hi = d.coder.hi →
    renormLoop false n e = .ok te → renormLoop true n d = .ok td → te.coder.lo = td.coder.lo ∧ te.coder.hi = td.coder.hi := by
  induction n with
  | zero => intro e d te td _ _ _ h; cases h
  | succ n ih =>
    intro e d te td hp hl hh h1 h2
    unfold renormLoop at h1 h2
    obtain ⟨o1, g1, h1⟩ := bind_eq_ok h1
    obtain ⟨o2, g2, h2⟩ := bind_eq_ok h2
    have b1 := renormPass_bounds g1
    have b2 := renormPass_bounds g2
    rw [← hp, ← hl, ← hh] at b2
    rcases b1 with ⟨c1, t1, rfl, x1, y1, z1⟩ | ⟨c1, c2, t1, rfl, x1, y1, z1⟩ | ⟨c1, c2, c3, t1, rfl, x1, y1, z1⟩ | ⟨c1, c2, c3, rfl⟩ <;>
    rcases b2 with ⟨d1, t2, rfl, x2, y2, z2⟩ | ⟨d1, d2, t2, rfl, x2, y2, z2⟩ | ⟨d1, d2, d3, t2, rfl, x2, y2, z2⟩ | ⟨d1, d2, d3, rfl⟩ <;>
    first
    | (exfalso; omega)
    | exact ih t1 t2 te td (by rw [z1, z2]; try exact hp) (by omega) (by omega) h1 h2
    | (cases h1; cases h2; exact ⟨hl, hh⟩)

/-! ### One coded symbol -/

/-- The state after narrowing to `a`. -/
def narrowed (a : Nat) (s : State) : State := s.withCoder { s.coder with lo := s.regionLo a, hi := s.regionEnd a - 1 }

/-- The model step after `a` has been coded: the counts and the symbol index are updated, whatever the coder and the buffers hold (40 R77,
R80). -/
theorem modelStep_room {a : Nat} {s : State} (c : Coder) (b : Buffers) (ht : s.total < Config.countMax)
    (hs : s.ctl.symCount < Config.wordMax) :
    (modelUpdate a { s with coder := c, buf := b } >>= countAndDecayModel) =
    .ok { s with
      coder := c
      buf := b
      model := { s.model with count := countsAfter s a }
      ctl := { s.ctl with symCount := s.ctl.symCount + 1 } } := by
  have h1 : State.total { s with coder := c, buf := b } = s.total := rfl
  rw [modelUpdate_room (by omega)]
  simp only [ok_bind]
  rw [countAndDecayModel_room (by exact hs)]
  congr 1
  split
  · rename_i hd
    have hd' : s.ctl.acfg.decayEn = true ∧ s.ctl.acfg.alpha.toNat < 65536 ∧ (s.ctl.symCount + 1) % s.ctl.acfg.n.toNat = 0 :=
      (decayDue_iff _).1 hd
    simp only [countsAfter, hd', and_self, if_true, decayedCounts]
    simp only [modelDecay, funext (scale_eq _)]
    rfl
  · rename_i hd
    have hd' : ¬ (s.ctl.acfg.decayEn = true ∧ s.ctl.acfg.alpha.toNat < 65536 ∧ (s.ctl.symCount + 1) % s.ctl.acfg.n.toNat = 0) :=
      fun h => hd ((decayDue_iff _).2 h)
    simp only [countsAfter, hd', if_false]
    rfl

/-- What the model step has done. -/
theorem modelStep_ok {a : Nat} {s t : State} {c : Coder} {b : Buffers}
    (h : (modelUpdate a { s with coder := c, buf := b } >>= countAndDecayModel) = .ok t) :
    s.total < Config.countMax ∧ s.ctl.symCount < Config.wordMax ∧
    t = { s with
      coder := c
      buf := b
      model := { s.model with count := countsAfter s a }
      ctl := { s.ctl with symCount := s.ctl.symCount + 1 } } := by
  obtain ⟨u, hu, h2⟩ := bind_eq_ok h
  obtain ⟨h1, hu'⟩ := modelUpdate_ok hu
  have h3 := (countAndDecayModel_ok h2).1
  rw [hu'] at h3
  refine ⟨h1, h3, ?_⟩
  rw [modelStep_room c b h1 h3] at h
  cases h
  rfl

/-- One symbol step is narrowing, renormalization, and the model step (41 R94). -/
theorem acSymbol_eq (dec : Bool) (a : Nat) (s : State) :
    acSymbol dec a s = (narrow a s >>= fun s => renorm dec s >>= fun s => modelUpdate a s >>= countAndDecayModel) := rfl

/-- What a coded symbol has done (41 R94), from a state whose interval is sound. -/
theorem acSymbol_ok {dec : Bool} {a : Nat} {s t : State} (h : acSymbol dec a s = .ok t) (hp : 2 ≤ s.par.p) (ha : a < s.alphabet)
    (hw : s.coder.lo ≤ s.coder.hi) (hm : s.coder.hi ≤ one s.par.p) (hv : dec = true → InRegion s a) :
    CodesInterval s a ∧ s.total < Config.countMax ∧ s.ctl.symCount < Config.wordMax ∧
    ∃ u, renorm dec (narrowed a s) = .ok u ∧ Renormed dec (s.par.p - 1) (narrowed a s) u ∧
      t = { s with
        coder := u.coder
        buf := { s.buf with outBits := u.buf.outBits, inPos := u.buf.inPos }
        model := { s.model with count := countsAfter s a }
        ctl := { s.ctl with symCount := s.ctl.symCount + 1 } } := by
  rw [acSymbol_eq] at h
  obtain ⟨n, hn, h⟩ := bind_eq_ok h
  obtain ⟨hc, rfl⟩ := narrow_ok hn
  obtain ⟨u, hu, h⟩ := bind_eq_ok h
  have hb := narrowed_bounds ha hc hw
  have hr := renorm_spec dec (narrowed a s) hp hb.1 (Nat.le_trans hb.2 hm)
    (fun hd => ⟨(hv hd).1, by have := (hv hd).2; show s.coder.value ≤ s.regionEnd a - 1; omega⟩)
  rw [show renorm dec (narrowed a s) = .ok u from hu] at hr
  have hs := hr.same
  rw [hs] at h
  obtain ⟨h1, h2, h3⟩ := modelStep_ok h
  exact ⟨hc, h1, h2, u, hu, hr, h3⟩

/-- A symbol is coded where renormalization succeeds and the counters have room (41 R94). -/
theorem acSymbol_room {dec : Bool} {a : Nat} {s u : State} (hc : CodesInterval s a) (hu : renorm dec (narrowed a s) = .ok u)
    (hr : Renormed dec (s.par.p - 1) (narrowed a s) u) (ht : s.total < Config.countMax) (hs : s.ctl.symCount < Config.wordMax) :
    acSymbol dec a s = .ok { s with
        coder := u.coder
        buf := { s.buf with outBits := u.buf.outBits, inPos := u.buf.inPos }
        model := { s.model with count := countsAfter s a }
        ctl := { s.ctl with symCount := s.ctl.symCount + 1 } } := by
  rw [acSymbol_eq, narrow_codes hc]
  simp only [ok_bind]
  rw [show renorm dec (s.withCoder { s.coder with lo := s.regionLo a, hi := s.regionEnd a - 1 }) = .ok u from hu]
  simp only [ok_bind]
  rw [hr.same]
  exact modelStep_room _ _ ht hs

end Sys2Proof.Machine
end

