-- ==== Sys2Proof/Laws/Commands.lean ====
section
/-! SUPPORT. Every command is its rule carried out (see Machine/Dispatch.lean), and what follows for all of them. -/

namespace Sys2Proof.Machine

/-- The rule of each command. -/
def rule : Instr → State → Result
  | .nop => ruleNop
  | .abort => ruleAbort
  | .dbgRead sel => ruleDbgRead sel
  | .bsClearOut => ruleBsClearOut
  | .bsClearIn => ruleBsClearIn
  | .bsPutBit b => ruleBsPutBit b
  | .bsGetBit => ruleBsGetBit
  | .bsGammaPut n => ruleBsGammaPut n
  | .bsGammaGet => ruleBsGammaGet
  | .bsPack => ruleBsPack
  | .bsUnpack => ruleBsUnpack
  | .bsInBit b => ruleBsInBit b
  | .bsLoopback => ruleBsLoopback
  | .bsPeekOut k => ruleBsPeekOut k
  | .modelInit => ruleModelInit
  | .modelUpdate a => ruleModelUpdate a
  | .modelDecay => ruleModelDecay
  | .modelCount a => ruleModelCount a
  | .modelCum a => ruleModelCum a
  | .modelTotal => ruleModelTotal
  | .acEncStart => ruleAcEncStart
  | .acEncSym a => ruleAcEncSym a
  | .acEncFinish => ruleAcEncFinish
  | .acDecStart => ruleAcDecStart
  | .acDecSym => ruleAcDecSym
  | .ahEncStart => ruleAhEncStart
  | .ahEncSym a => ruleAhEncSym a
  | .ahDecStart => ruleAhDecStart
  | .ahDecSym => ruleAhDecSym
  | .ahUpdate a => ruleAhUpdate a
  | .ahDecay => ruleAhDecay
  | .ahReadW q => ruleAhReadW q
  | .ahReadC q => ruleAhReadC q
  | .ahReadParent k => ruleAhReadParent k
  | .ahReadLoc a => ruleAhReadLoc a

/-- Every command is its rule carried out. -/
theorem exec_eq (i : Instr) (s : State) : exec i s = runCommand i (rule i) s := by cases i <;> rfl

/-- A command whose rule completes ends in the state the rule gives, completed. -/
theorem exec_completes {i : Instr} {s u t : State} {v : Option Word} (hc : CarriedOut i s) (h : rule i s = .ok (v, u))
    (ht : t = u.complete v) : exec i s = .next t := by rw [exec_eq, runCommand_ok hc h, ht]

/-- A command whose rule gives a value and writes nothing returns the value. -/
theorem returns_of_rule {i : Instr} {s : State} {v : Word} (hc : CarriedOut i s) (h : rule i s = .ok (some v, s)) : Returns i s v :=
  exec_completes hc h rfl

/-- A command whose rule raises a fault enters it. -/
theorem faultsWith_of_rule {i : Instr} {s : State} {f : FaultCode} {info : Nat} (hc : CarriedOut i s) (h : rule i s = raise f info) :
    FaultsWith i s f info := by
  unfold FaultsWith
  rw [exec_eq, runCommand_raised hc h]
  rfl

/-- What a command that ends in a next state has done. -/
theorem exec_next {i : Instr} {s t : State} (h : exec i s = .next t) :
    (allowedInFault i.opcode = false ∧ s.faulted = true ∧ t = dropRecorded s) ∨
    (CarriedOut i s ∧ ∃ v u, rule i s = .ok (v, u) ∧ t = u.complete v) ∨
    (CarriedOut i s ∧ ∃ f info, rule i s = .error (.raised f info) ∧ t = faultRecorded s f info (encode i)) :=
  runCommand_next (exec_eq i s ▸ h)

/-- A command stops the machine only where its rule is stuck. -/
theorem exec_fault {i : Instr} {s : State} {f : Fault} (h : exec i s = .fault f) : rule i s = .error (.stuck f) :=
  runCommand_fault (exec_eq i s ▸ h)

/-- No command is refused. -/
theorem exec_ne_refused (i : Instr) (s : State) (r : Refusal) : exec i s ≠ .refused r := exec_eq i s ▸ runCommand_refused

end Sys2Proof.Machine
end

