-- ==== Sys2Proof/Laws/Encoding.lean ====
section
/-! SUPPORT. The fields of a command word (see Decode.lean). -/

namespace Sys2Proof

/-- The two fields of a word built from an opcode below 2^8 and an operand below 2^24. -/
theorem fields_of_word {op n : Nat} (hop : op < 2 ^ 8) (hn : n < 2 ^ 24) :
    opcodeOf (BitVec.ofNat 32 (op * 2 ^ 24 + n)) = op ∧ immOf (BitVec.ofNat 32 (op * 2 ^ 24 + n)) = n := by
  simp only [opcodeOf, immOf, BitVec.toNat_ofNat]
  omega

/-- A word is its two fields. -/
theorem word_of_fields (c : Word) : BitVec.ofNat 32 (opcodeOf c * 2 ^ 24 + immOf c) = c := by
  apply BitVec.eq_of_toNat_eq
  have h := c.isLt
  simp only [opcodeOf, immOf, BitVec.toNat_ofNat]
  omega

theorem Instr.opcode_lt (i : Instr) : i.opcode < 2 ^ 8 := by cases i <;> simp [Instr.opcode]

theorem Instr.operand_lt {i : Instr} (h : WellFormed i) : i.operand < 2 ^ 24 := by
  cases i
  case bsPutBit b => cases b <;> decide
  case bsInBit b => cases b <;> decide
  all_goals first | exact h | decide

/-- The fields of an encoded command. -/
theorem encode_fields {i : Instr} (h : WellFormed i) : opcodeOf (encode i) = i.opcode ∧ immOf (encode i) = i.operand :=
  fields_of_word i.opcode_lt (Instr.operand_lt h)

end Sys2Proof
end

