-- ==== Sys2Proof/Laws/Raises.lean ====
section
/-! SUPPORT. No rule raises the code `none`, so a command that faulted has a fault recorded (see Machine/Ops.lean). -/

namespace Sys2Proof.Machine

/-- Whatever the procedure raises, it is a fault. -/
def RaisesFaults {α : Type} (x : Except Stop α) : Prop := ∀ w, x ≠ .error (.raised .none w)

theorem RaisesFaults.ok {α : Type} {a : α} : RaisesFaults (.ok a : Except Stop α) := nofun

theorem RaisesFaults.stuck {α : Type} {f : Fault} : RaisesFaults (stuck f : Except Stop α) := nofun

theorem RaisesFaults.raise {α : Type} {f : FaultCode} {n : Nat} (h : f ≠ .none) : RaisesFaults (raise f n : Except Stop α) := by
  intro w hw
  cases hw
  exact h rfl

theorem RaisesFaults.bind {α β : Type} {x : Except Stop α} {f : α → Except Stop β} (hx : RaisesFaults x) (hf : ∀ a, RaisesFaults (f a)) :
    RaisesFaults (x >>= f) := by
  intro w h
  rcases bind_eq_error h with h | ⟨a, -, h⟩
  · exact hx w h
  · exact hf a w h

theorem RaisesFaults.ite {α : Type} {c : Prop} [Decidable c] {x y : Except Stop α} (hx : RaisesFaults x) (hy : RaisesFaults y) :
    RaisesFaults (if c then x else y) := by
  split <;> assumption

theorem raises_emit (b : Bool) (s : State) : RaisesFaults (emit b s) := .ite (.raise nofun) .ok

theorem raises_emitBits (bs : List Bool) (s : State) : RaisesFaults (emitBits bs s) := by
  induction bs generalizing s with
  | nil => exact .ok
  | cons b bs ih => exact .bind (raises_emit _ _) fun _ => ih _

theorem raises_nextBit (s : State) : RaisesFaults (nextBit s) := by
  unfold nextBit
  split
  · exact .ok
  · exact .raise nofun

theorem raises_nextBitPadded (s : State) : RaisesFaults (nextBitPadded s) := by
  unfold nextBitPadded
  split
  · exact .ok
  · exact .ite .ok (.raise nofun)

theorem raises_gatherBits (n v : Nat) (s : State) : RaisesFaults (gatherBits n v s) := by
  induction n generalizing v s with
  | zero => exact .ok
  | succ n ih => exact .bind (raises_nextBit _) fun _ => ih _ _

theorem raises_gatherBitsPadded (n v : Nat) (s : State) : RaisesFaults (gatherBitsPadded n v s) := by
  induction n generalizing v s with
  | zero => exact .ok
  | succ n ih => exact .bind (raises_nextBitPadded _) fun _ => ih _ _

theorem raises_gammaZeros (left k : Nat) (s : State) : RaisesFaults (gammaZeros left k s) := by
  induction left generalizing k s with
  | zero =>
    unfold gammaZeros
    split
    · rename_i e h
      intro w hw
      cases hw
      exact raises_nextBit s w h
    · exact .ok
    · exact .raise nofun
  | succ n ih =>
    unfold gammaZeros
    split
    · rename_i e h
      intro w hw
      cases hw
      exact raises_nextBit s w h
    · exact .ok
    · exact ih _ _

theorem raises_latch (kind : LatchKind) (s : State) : RaisesFaults (latch kind s) := by
  unfold latch
  split
  · exact .raise nofun
  · exact .ok

theorem raises_countSymbol (s : State) : RaisesFaults (countSymbol s) := .ite (.raise nofun) .ok

theorem raises_modelUpdate (a : Nat) (s : State) : RaisesFaults (modelUpdate a s) := .ite (.raise nofun) .ok

theorem raises_narrow (a : Nat) (s : State) : RaisesFaults (narrow a s) := .ite (.raise nofun) (.ite (.raise nofun) .ok)

theorem raises_drainStraddle (b : Bool) (s : State) : RaisesFaults (drainStraddle b s) :=
  .bind (raises_emit _ _) fun _ => .bind (raises_emitBits _ _) fun _ => .ok

theorem raises_pendStraddle (s : State) : RaisesFaults (pendStraddle s) := .ite (.raise nofun) .ok

theorem raises_subtractOffset (dec : Bool) (d : Nat) (s : State) : RaisesFaults (subtractOffset dec d s) :=
  .ite (.ite .stuck .ok) .ok

theorem raises_doubleInterval (dec : Bool) (s : State) : RaisesFaults (doubleInterval dec s) :=
  .ite (.bind (raises_nextBitPadded _) fun _ => .ok) .ok

theorem raises_renormPass (dec : Bool) (s : State) : RaisesFaults (renormPass dec s) := by
  have tail : ∀ d u, RaisesFaults (do
      let s ← subtractOffset dec d u
      return some (← doubleInterval dec s) : Except Stop (Option State)) := fun d u =>
    .bind (raises_subtractOffset _ _ _) fun _ => .bind (raises_doubleInterval _ _) fun _ => .ok
  unfold renormPass
  refine .ite (.ite (.bind .ok fun _ => ?_) (.bind (raises_drainStraddle _ _) fun _ => ?_))
    (.ite (.ite (.bind .ok fun _ => tail _ _) (.bind (raises_drainStraddle _ _) fun _ => tail _ _))
      (.ite (.ite (.bind .ok fun _ => tail _ _) (.bind (raises_pendStraddle _) fun _ => tail _ _)) .ok))
  · exact .bind (raises_doubleInterval _ _) fun _ => .ok
  · exact .bind (raises_doubleInterval _ _) fun _ => .ok

theorem raises_renormLoop (dec : Bool) (n : Nat) (s : State) : RaisesFaults (renormLoop dec n s) := by
  induction n generalizing s with
  | zero => exact .stuck
  | succ n ih =>
    refine .bind (raises_renormPass _ _) fun o => ?_
    cases o with
    | none => exact .ok
    | some u => exact ih _

theorem raises_search (s : State) : RaisesFaults (search s) := by
  unfold search
  split
  · exact .raise nofun
  · split
    · exact .ok
    · exact .raise nofun

theorem raises_acSymbol (dec : Bool) (a : Nat) (s : State) : RaisesFaults (acSymbol dec a s) :=
  .bind (raises_narrow _ _) fun _ => .bind (raises_renormLoop _ _ _) fun _ => .bind (raises_modelUpdate _ _) fun _ =>
    .bind (raises_countSymbol _) fun _ => .ok

theorem raises_acStart (s : State) : RaisesFaults (acStart s) := .bind (raises_latch _ _) fun _ => .ok

theorem raises_chain (t : Tree) (n : Nat) (l : Loc) : RaisesFaults (t.chain n l) := by
  induction n generalizing l with
  | zero => exact .stuck
  | succ n ih =>
    cases l with
    | absent => exact .ok
    | atRoot => exact .ok
    | atSlot k b => exact .bind (ih _) fun _ => .ok

theorem raises_leader (t : Tree) (q : Nat) : RaisesFaults (t.leader q) := by
  refine .bind (raises_chain _ _ _) fun above => ?_
  split
  · exact .ok
  · exact .stuck

theorem raises_slide (n q : Nat) (t : Tree) : RaisesFaults (Tree.slide n q t) := by
  induction n generalizing q t with
  | zero => exact .stuck
  | succ n ih => exact .bind (raises_leader _ _) fun _ => .ite .ok (ih _ _)

theorem raises_climb (n : Nat) (l : Loc) (t : Tree) : RaisesFaults (Tree.climb n l t) := by
  induction n generalizing l t with
  | zero => exact .stuck
  | succ n ih =>
    cases l with
    | absent => exact .stuck
    | atRoot => exact .ok
    | atSlot k b => exact .bind (raises_slide _ _ _) fun _ => ih _ _

theorem raises_treeUpdate (x : Key) (t : Tree) : RaisesFaults (treeUpdate x t) := .ite (.raise nofun) (raises_climb _ _ _)

theorem raises_treeSplit (a : Nat) (t : Tree) : RaisesFaults (treeSplit a t) := by
  unfold treeSplit
  split
  · exact .stuck
  · exact .ok
  · exact .ok

theorem raises_treeValidate (t : Tree) : RaisesFaults (treeValidate t) :=
  .ite (.raise nofun) (.ite .ok (.ite (.raise nofun) (.ite (.raise nofun) (.ite (.raise nofun) (.ite (.raise nofun) .ok)))))

theorem raises_buildLoop (n : Nat) (pool : List PoolItem) (t : Tree) : RaisesFaults (buildLoop n pool t) := by
  induction n generalizing pool t with
  | zero =>
    unfold buildLoop
    split
    · exact .stuck
    · exact .ok
    · exact .stuck
  | succ n ih =>
    unfold buildLoop
    split
    · exact .stuck
    · exact .ok
    · split
      · exact .stuck
      · rename_i hn
        cases hn
        simp only
        split
        · exact .stuck
        · exact ih _ _

theorem raises_treeRebuild (items : List (Key × Nat)) (t : Tree) : RaisesFaults (treeRebuild items t) :=
  .bind (raises_buildLoop _ _ _) fun _ => .ok

theorem raises_updateTree (a : Nat) (s : State) : RaisesFaults (updateTree a s) :=
  .bind (raises_treeUpdate _ _) fun _ => .bind (raises_treeValidate _) fun _ => .ok

theorem raises_decayTree (s : State) : RaisesFaults (decayTree s) :=
  .bind (raises_treeRebuild _ _) fun _ => .bind (raises_treeValidate _) fun _ => .ok

theorem raises_ahAfterSymbol (a : Nat) (s : State) : RaisesFaults (ahAfterSymbol a s) :=
  .bind (raises_updateTree _ _) fun _ => .bind (raises_countSymbol _) fun _ => .ite (raises_decayTree _) .ok

theorem raises_ahStart (m : Mode) (s : State) : RaisesFaults (ahStart m s) :=
  .bind (raises_latch _ _) fun _ => .bind (.ite .ok (.bind (raises_treeRebuild _ _) fun _ => .ok)) fun _ => .ok

theorem raises_requireSymbol (a : Nat) (s : State) : RaisesFaults (requireSymbol a s) := .ite (.raise nofun) .ok

theorem raises_ahEmitSymbol (a : Nat) (s : State) : RaisesFaults (ahEmitSymbol a s) :=
  .ite (.bind (.bind (raises_chain _ _ _) fun _ => .ok) fun _ => raises_emitBits _ _)
    (.ite (.raise nofun) (.bind (.bind (raises_chain _ _ _) fun _ => .ok) fun _ => .bind (raises_emitBits _ _) fun _ =>
      .bind (raises_treeSplit _ _) fun _ => .ok))

theorem raises_treeWalk (s : State) : RaisesFaults (treeWalk s) := by
  unfold treeWalk
  split
  · exact .raise nofun
  · exact .ok
  · exact .bind (raises_gatherBits _ _ _) fun _ => .bind (raises_requireSymbol _ _) fun _ =>
      .ite (.raise nofun) (.bind (raises_treeSplit _ _) fun _ => .ok)

theorem raises_debugValue (sel : Nat) (s : State) : RaisesFaults (debugValue sel s) := by
  unfold debugValue
  split <;> first | exact .ok | exact .ite .ok (.raise nofun) | exact .raise nofun

/-- No rule raises the code `none`. -/
theorem rule_raisesFaults (i : Instr) (s : State) : RaisesFaults (rule i s) := by
  have hm : ∀ m, RaisesFaults (requireMode m s) := fun _ => .ite (.raise nofun) .ok
  have him : RaisesFaults (requireIdleModel s) := .ite (.raise nofun) (.ite (.raise nofun) .ok)
  have hmo : RaisesFaults (requireModel s) := .ite (.raise nofun) .ok
  have hit : RaisesFaults (requireIdleTree s) := .ite (.raise nofun) .ok
  have htr : RaisesFaults (requireTree s) := .ite (.raise nofun) .ok
  have hsy : ∀ a, RaisesFaults (requireSymbol a s) := fun _ => raises_requireSymbol _ _
  cases i with
  | nop => exact .ok
  | abort => exact .ok
  | dbgRead sel => exact .bind (raises_debugValue _ _) fun _ => .ok
  | bsClearOut => exact .ok
  | bsClearIn => exact .ok
  | bsPutBit b => exact .bind (raises_emit _ _) fun _ => .ok
  | bsGetBit => exact .bind (raises_nextBit _) fun _ => .ok
  | bsGammaPut n => exact .bind (raises_emitBits _ _) fun _ => .ok
  | bsGammaGet => exact .bind (raises_gammaZeros _ _ _) fun _ => .bind (raises_gatherBits _ _ _) fun _ => .ok
  | bsPack => exact .ite (.raise nofun) .ok
  | bsUnpack => exact .ite (.raise nofun) (.ite (.raise nofun) (.ite (.raise nofun) .ok))
  | bsInBit b => exact .ite (.raise nofun) .ok
  | bsLoopback => exact .ite (.raise nofun) .ok
  | bsPeekOut k =>
    simp only [rule, ruleBsPeekOut]
    split
    · exact .ok
    · exact .raise nofun
  | modelInit => exact .ite (.raise nofun) (.bind (raises_latch _ _) fun _ => .ok)
  | modelUpdate a => exact .bind him fun _ => .bind (hsy _) fun _ => .bind (raises_modelUpdate _ _) fun _ => .ok
  | modelDecay => exact .bind him fun _ => .ok
  | modelCount a => exact .bind hmo fun _ => .bind (hsy _) fun _ => .ok
  | modelCum a => exact .bind hmo fun _ => .bind (hsy _) fun _ => .ok
  | modelTotal => exact .bind hmo fun _ => .ok
  | acEncStart => exact .bind (raises_acStart _) fun _ => .ok
  | acEncSym a => exact .bind (hm _) fun _ => .bind (hsy _) fun _ => .bind (raises_acSymbol _ _ _) fun _ => .ok
  | acEncFinish =>
    exact .bind (hm _) fun _ => .bind (.bind (raises_pendStraddle _) fun _ => raises_drainStraddle _ _) fun _ => .ok
  | acDecStart => exact .bind (raises_acStart _) fun _ => .bind (raises_gatherBitsPadded _ _ _) fun _ => .ok
  | acDecSym => exact .bind (hm _) fun _ => .bind (raises_search _) fun _ => .bind (raises_acSymbol _ _ _) fun _ => .ok
  | ahEncStart => exact .bind (raises_ahStart _ _) fun _ => .ok
  | ahEncSym a =>
    exact .bind (hm _) fun _ => .bind (hsy _) fun _ => .bind (raises_ahEmitSymbol _ _) fun _ => .bind (raises_ahAfterSymbol _ _) fun _ => .ok
  | ahDecStart => exact .bind (raises_ahStart _ _) fun _ => .ok
  | ahDecSym =>
    exact .bind (hm _) fun _ => .bind (raises_treeWalk _) fun _ => .bind (raises_ahAfterSymbol _ _) fun _ => .ok
  | ahUpdate a =>
    exact .bind hit fun _ => .bind (hsy _) fun _ => .ite (.raise nofun) (.bind (raises_updateTree _ _) fun _ => .ok)
  | ahDecay => exact .bind hit fun _ => .bind (raises_decayTree _) fun _ => .ok
  | ahReadW q => exact .bind htr fun _ => .ite (.raise nofun) .ok
  | ahReadC q => exact .bind htr fun _ => .ite (.raise nofun) .ok
  | ahReadParent k => exact .bind htr fun _ => .ite (.raise nofun) .ok
  | ahReadLoc a => exact .bind htr fun _ => .ite .ok (.bind (hsy _) fun _ => .ok)

/-- A command that was carried out with no fault recorded before and none after has completed. -/
theorem exec_completed {i : Instr} {s t : State} (hf : s.ctl.faultCode = .none) (h : exec i s = .next t) (ht : t.ctl.faultCode = .none) :
    ∃ v u, rule i s = .ok (v, u) ∧ t = u.complete v := by
  rcases exec_next h with ⟨-, h2, -⟩ | ⟨-, h2⟩ | ⟨-, f, info, h2, rfl⟩
  · rw [faulted_eq_false hf] at h2
    cases h2
  · exact h2
  · obtain rfl : f = .none := ht
    exact absurd h2 (rule_raisesFaults i s info)

end Sys2Proof.Machine
end

