-- ==== Sys2Proof/Laws/Frames.lean ====
section
/-! SUPPORT. What each command's rule writes when it completes, said once for each (see Machine/*.lean). -/

namespace Sys2Proof.Machine

theorem gammaZeros_frame {left k : Nat} {s t : State} {n : Nat} (h : gammaZeros left k s = .ok (n, t)) :
    ∃ p, s.buf.inPos ≤ p ∧ p ≤ s.buf.inBits.length ∧ t = { s with buf := { s.buf with inPos := p } } := by
  induction left generalizing k s with
  | zero =>
    unfold gammaZeros at h
    split at h
    · cases h
    · rename_i u hu
      cases h
      obtain ⟨hb, rfl⟩ := nextBit_ok hu
      exact ⟨_, Nat.le_succ _, (List.getElem?_eq_some_iff.1 hb).1, rfl⟩
    · cases h
  | succ l ih =>
    unfold gammaZeros at h
    split at h
    · cases h
    · rename_i u hu
      cases h
      obtain ⟨hb, rfl⟩ := nextBit_ok hu
      exact ⟨_, Nat.le_succ _, (List.getElem?_eq_some_iff.1 hb).1, rfl⟩
    · rename_i u hu
      obtain ⟨p, hp, hl, rfl⟩ := ih h
      obtain ⟨-, rfl⟩ := nextBit_ok hu
      exact ⟨p, by simp at hp; omega, hl, rfl⟩

theorem gatherBitsPadded_frame {n v w : Nat} {s t : State} (h : gatherBitsPadded n v s = .ok (w, t)) :
    t = { s with coder := { s.coder with padUsed := t.coder.padUsed }, buf := { s.buf with inPos := t.buf.inPos } } ∧
    s.buf.inPos ≤ t.buf.inPos ∧ s.coder.padUsed ≤ t.coder.padUsed ∧
    (s.buf.inPos ≤ s.buf.inBits.length → t.buf.inPos ≤ s.buf.inBits.length) ∧
    (s.coder.padUsed ≤ s.par.padLimit → t.coder.padUsed ≤ s.par.padLimit) ∧ w < (v + 1) * 2 ^ n := by
  induction n generalizing v s with
  | zero =>
    cases h
    exact ⟨rfl, Nat.le_refl _, Nat.le_refl _, id, id, by omega⟩
  | succ n ih =>
    obtain ⟨⟨b, u⟩, hu, h⟩ := bind_eq_ok h
    obtain ⟨h1, h2, h3, h4, h5, h6⟩ := ih h
    have hb : b.toNat ≤ 1 := by cases b <;> decide
    have hw : w < (v + 1) * 2 ^ (n + 1) := by
      rw [Nat.pow_succ]
      have : (2 * v + b.toNat + 1) * 2 ^ n ≤ (2 * v + 2) * 2 ^ n := Nat.mul_le_mul_right _ (by omega)
      calc w < _ := h6
        _ ≤ _ := this
        _ = _ := by ring
    rcases nextBitPadded_ok hu with ⟨hi, rfl⟩ | ⟨-, -, hp, rfl⟩
    · have hlt := (List.getElem?_eq_some_iff.1 hi).1
      exact ⟨h1, by simp at h2; omega, by simpa using h3, fun _ => h4 (by simp; omega), h5, hw⟩
    · exact ⟨h1, by simpa using h2, by simp at h3; omega, h4, fun _ => h5 (by simp; omega), hw⟩

theorem requireMode_ok {m : Mode} {s : State} {r : Unit} (h : requireMode m s = .ok r) : s.ctl.mode = m := by
  unfold requireMode at h
  split at h
  · cases h
  · simp_all

theorem requireSymbol_ok {a : Nat} {s : State} {r : Unit} (h : requireSymbol a s = .ok r) : a < s.alphabet := by
  unfold requireSymbol at h
  split at h
  · cases h
  · omega

theorem requireIdleModel_ok {s : State} {r : Unit} (h : requireIdleModel s = .ok r) : s.ctl.mode = .idle ∧ s.model.valid = true := by
  unfold requireIdleModel at h
  split at h
  · cases h
  · split at h
    · cases h
    · simp_all

theorem requireIdleTree_ok {s : State} {r : Unit} (h : requireIdleTree s = .ok r) : s.ctl.mode = .idle ∧ s.tree.valid = true := by
  unfold requireIdleTree at h
  split at h
  · cases h
  · simp_all

/-- What the arithmetic starts share (41 R97, R100). -/
theorem acStart_ok {s t : State} (h : acStart s = .ok t) :
    latchError .model s.par.kmax s.ctl.cfg = none ∧
    t = { s with
      model := { count := List.replicate s.ctl.cfg.k.toNat 1 ++ s.model.count.drop s.ctl.cfg.k.toNat, valid := true }
      coder := { lo := 0, hi := one s.par.p, value := 0, straddle := 0, padUsed := 0 }
      tree := { s.tree with valid := false }
      ctl := { s.ctl with acfg := s.ctl.cfg, symCount := 0 } } := by
  obtain ⟨u, hu, h⟩ := bind_eq_ok h
  obtain ⟨hl, rfl⟩ := latch_ok hu
  exact ⟨hl, by cases h; rfl⟩

/-- What the Huffman starts share (43 R116, R118). -/
theorem ahStart_ok {m : Mode} {s t : State} (h : ahStart m s = .ok t) :
    latchError .tree s.par.kmax s.ctl.cfg = none ∧ treeInit s.ctl.cfg s.tree = .ok t.tree ∧
    t = { s with
      tree := t.tree
      model := { s.model with valid := false }
      coder := { lo := 0, hi := 0, value := 0, straddle := 0, padUsed := 0 }
      ctl := { s.ctl.cleared with acfg := s.ctl.cfg, mode := m, symCount := 0 } } := by
  obtain ⟨u, hu, h⟩ := bind_eq_ok h
  obtain ⟨hl, rfl⟩ := latch_ok hu
  obtain ⟨tr, ht, h⟩ := bind_eq_ok h
  cases h
  exact ⟨hl, ht, rfl⟩

theorem updateTree_ok {a : Nat} {s t : State} (h : updateTree a s = .ok t) :
    ∃ tree, treeUpdate (.sym a) s.tree = .ok tree ∧ treeValidate tree = .ok () ∧ t = { s with tree := tree } := by
  obtain ⟨tree, h1, h⟩ := bind_eq_ok h
  obtain ⟨r, h2, h⟩ := bind_eq_ok h
  cases h
  exact ⟨tree, h1, h2, rfl⟩

theorem decayTree_ok {s t : State} (h : decayTree s = .ok t) :
    ∃ tree, treeDecay s.ctl.acfg s.tree = .ok tree ∧ treeValidate tree = .ok () ∧ t = { s with tree := tree } := by
  obtain ⟨tree, h1, h⟩ := bind_eq_ok h
  obtain ⟨r, h2, h⟩ := bind_eq_ok h
  cases h
  exact ⟨tree, h1, h2, rfl⟩

/-- What the end of a coded symbol of the Huffman coder writes (43 R115). -/
theorem ahAfterSymbol_frame {a : Nat} {s t : State} (h : ahAfterSymbol a s = .ok t) :
    s.ctl.symCount < Config.wordMax ∧
    t = { s with tree := t.tree, ctl := { s.ctl with symCount := s.ctl.symCount + 1 } } := by
  obtain ⟨u, hu, h⟩ := bind_eq_ok h
  obtain ⟨tree, -, -, rfl⟩ := updateTree_ok hu
  obtain ⟨v, hv, h⟩ := bind_eq_ok h
  obtain ⟨hl, rfl⟩ := countSymbol_ok hv
  refine ⟨hl, ?_⟩
  split at h
  · obtain ⟨tree', -, -, rfl⟩ := decayTree_ok h
    rfl
  · cases h
    rfl

/-- What the codeword of a symbol writes (43 R117). -/
theorem ahEmitSymbol_frame {a : Nat} {s t : State} (h : ahEmitSymbol a s = .ok t) :
    ∃ bits, (bits = [] ∨ s.buf.outBits.length + bits.length ≤ s.par.outCap) ∧
      t = { s with tree := t.tree, buf := { s.buf with outBits := s.buf.outBits ++ bits } } := by
  unfold ahEmitSymbol at h
  split at h
  · obtain ⟨bits, -, h⟩ := bind_eq_ok h
    obtain ⟨hc, rfl⟩ := emitBits_ok h
    exact ⟨bits, hc, rfl⟩
  · split at h
    · cases h
    · obtain ⟨path, -, h⟩ := bind_eq_ok h
      obtain ⟨u, hu, h⟩ := bind_eq_ok h
      obtain ⟨hc, rfl⟩ := emitBits_ok hu
      obtain ⟨tree, -, h⟩ := bind_eq_ok h
      cases h
      exact ⟨_, hc, rfl⟩

/-- What the walk down the tree writes (42 R114). -/
theorem treeWalk_frame {a : Nat} {s t : State} (h : treeWalk s = .ok (a, t)) :
    s.buf.inPos ≤ t.buf.inPos ∧ t = { s with tree := t.tree, buf := { s.buf with inPos := t.buf.inPos } } := by
  unfold treeWalk at h
  split at h
  · cases h
  · cases h
    exact ⟨Nat.le_add_right _ _, rfl⟩
  · obtain ⟨⟨b, u⟩, hu, h⟩ := bind_eq_ok h
    obtain ⟨bits, rest, -, -, -, rfl⟩ := gatherBits_eq_ok hu
    obtain ⟨r, -, h⟩ := bind_eq_ok h
    split at h
    · cases h
    · obtain ⟨tree, -, h⟩ := bind_eq_ok h
      cases h
      exact ⟨by simp; omega, rfl⟩

theorem flush_frame {s t : State} (h : flush s = .ok t) :
    ∃ bits, s.buf.outBits.length + bits.length ≤ s.par.outCap ∧
      t = { s with coder := { s.coder with straddle := 0 }, buf := { s.buf with outBits := s.buf.outBits ++ bits } } := by
  obtain ⟨u, hu, h⟩ := bind_eq_ok h
  unfold pendStraddle at hu
  split at hu
  · cases hu
  · cases hu
    rcases drainStraddle_spec _ (s.withCoder { s.coder with straddle := s.coder.straddle + 1 }) with ⟨hc, h1⟩ | ⟨-, h1⟩
    · rw [h1] at h
      cases h
      exact ⟨_, by simpa using hc, rfl⟩
    · rw [h1] at h
      cases h

/-- What an arithmetic symbol step writes, from any state (41 R94). -/
theorem acSymbol_frame {dec : Bool} {a : Nat} {s t : State} (h : acSymbol dec a s = .ok t) :
    CoderFrame dec s { s with coder := t.coder, buf := t.buf } ∧
    t = { s with
      coder := t.coder
      buf := t.buf
      model := { s.model with count := t.model.count }
      ctl := { s.ctl with symCount := s.ctl.symCount + 1 } } := by
  rw [acSymbol_eq] at h
  obtain ⟨n, hn, h⟩ := bind_eq_ok h
  obtain ⟨-, rfl⟩ := narrow_ok hn
  obtain ⟨u, hu, h⟩ := bind_eq_ok h
  have hf := renorm_frame hu
  have hs := hf.same
  rw [hs] at h
  obtain ⟨-, -, rfl⟩ := modelStep_ok (s := s) h
  exact ⟨⟨rfl, hf.enc, hf.dec⟩, rfl⟩

/-- What a command writes when it completes: a summary that holds from every state. -/
def Writes (i : Instr) (s u : State) : Prop :=
  match i with
  | .nop => u = s
  | .abort => u = { s with ctl := { s.ctl.cleared with mode := .idle } }
  | .dbgRead _ => u = s
  | .bsClearOut => u = { s with buf := { s.buf with outBits := [], outBytes := [] } }
  | .bsClearIn => u = { s with buf := { s.buf with inBits := [], inPos := 0, inBytes := [] }, coder := { s.coder with padUsed := 0 } }
  | .bsPutBit _ => ∃ bits, s.buf.outBits.length + bits.length ≤ s.par.outCap ∧ u = { s with buf := { s.buf with outBits := s.buf.outBits ++ bits } }
  | .bsGetBit => ∃ p, s.buf.inPos ≤ p ∧ (s.buf.inPos ≤ s.buf.inBits.length → p ≤ s.buf.inBits.length) ∧ u = { s with buf := { s.buf with inPos := p } }
  | .bsGammaPut _ =>
    ∃ bits, s.buf.outBits.length + bits.length ≤ s.par.outCap ∧ u = { s with buf := { s.buf with outBits := s.buf.outBits ++ bits } }
  | .bsGammaGet => ∃ p, s.buf.inPos ≤ p ∧ (s.buf.inPos ≤ s.buf.inBits.length → p ≤ s.buf.inBits.length) ∧ u = { s with buf := { s.buf with inPos := p } }
  | .bsPack =>
    ∃ bytes, s.buf.outBytes.length + bytes.length ≤ s.par.byteCap ∧
      u = { s with buf := { s.buf with outBits := [], outBytes := s.buf.outBytes ++ bytes } }
  | .bsUnpack =>
    ∃ bits, bits.length ≤ s.par.inCap ∧
      u = { s with buf := { s.buf with inBits := bits, inPos := 0, inBytes := [] }, coder := { s.coder with padUsed := 0 } }
  | .bsInBit _ => ∃ b, s.buf.inBits.length < s.par.inCap ∧ u = { s with buf := { s.buf with inBits := s.buf.inBits ++ [b] } }
  | .bsLoopback =>
    s.buf.outBits.length ≤ s.par.inCap ∧
      u = { s with buf := { s.buf with inBits := s.buf.outBits, inPos := 0 }, coder := { s.coder with padUsed := 0 } }
  | .bsPeekOut _ => u = s
  | .modelInit =>
    s.ctl.mode = .idle ∧ latchError .model s.par.kmax s.ctl.cfg = none ∧
      u = { s with
        model := { count := List.replicate s.ctl.cfg.k.toNat 1 ++ s.model.count.drop s.ctl.cfg.k.toNat, valid := true }
        tree := { s.tree with valid := false }
        ctl := { s.ctl with acfg := s.ctl.cfg } }
  | .modelUpdate a =>
    s.ctl.mode = .idle ∧ s.model.valid = true ∧ a < s.alphabet ∧ s.total < Config.countMax ∧
      u = { s with model := { s.model with count := s.model.count.set a (s.countOf a + 1) } }
  | .modelDecay => s.ctl.mode = .idle ∧ s.model.valid = true ∧ u = modelDecay s
  | .modelCount _ => u = s
  | .modelCum _ => u = s
  | .modelTotal => u = s
  | .acEncStart =>
    latchError .model s.par.kmax s.ctl.cfg = none ∧
      u = { s with
        model := { count := List.replicate s.ctl.cfg.k.toNat 1 ++ s.model.count.drop s.ctl.cfg.k.toNat, valid := true }
        coder := { lo := 0, hi := one s.par.p, value := 0, straddle := 0, padUsed := 0 }
        tree := { s.tree with valid := false }
        ctl := { s.ctl.cleared with acfg := s.ctl.cfg, mode := .acEnc, symCount := 0 } }
  | .acEncSym a =>
    s.ctl.mode = .acEnc ∧ a < s.alphabet ∧ acSymbol false a s = .ok u ∧ CoderFrame false s { s with coder := u.coder, buf := u.buf } ∧
      u = { s with
        coder := u.coder, buf := u.buf, model := { s.model with count := u.model.count }
        ctl := { s.ctl with symCount := s.ctl.symCount + 1 } }
  | .acEncFinish =>
    ∃ bits, s.ctl.mode = .acEnc ∧ s.buf.outBits.length + bits.length ≤ s.par.outCap ∧
      u = { s with
        coder := { s.coder with straddle := 0 }
        buf := { s.buf with outBits := s.buf.outBits ++ bits }
        ctl := { s.ctl with mode := .idle } }
  | .acDecStart =>
    latchError .model s.par.kmax s.ctl.cfg = none ∧ u.coder.value < 2 ^ s.par.p ∧ s.buf.inPos ≤ u.buf.inPos ∧
      (s.buf.inPos ≤ s.buf.inBits.length → u.buf.inPos ≤ s.buf.inBits.length) ∧ u.coder.padUsed ≤ s.par.padLimit ∧
      u = { s with
        model := { count := List.replicate s.ctl.cfg.k.toNat 1 ++ s.model.count.drop s.ctl.cfg.k.toNat, valid := true }
        coder := { lo := 0, hi := one s.par.p, value := u.coder.value, straddle := 0, padUsed := u.coder.padUsed }
        tree := { s.tree with valid := false }
        buf := { s.buf with inPos := u.buf.inPos }
        ctl := { s.ctl.cleared with acfg := s.ctl.cfg, mode := .acDec, symCount := 0 } }
  | .acDecSym =>
    s.ctl.mode = .acDec ∧ ∃ a, a < s.alphabet ∧ search s = .ok a ∧ acSymbol true a s = .ok u ∧
      CoderFrame true s { s with coder := u.coder, buf := u.buf } ∧
      u = { s with
        coder := u.coder, buf := u.buf, model := { s.model with count := u.model.count }
        ctl := { s.ctl with symCount := s.ctl.symCount + 1 } }
  | .ahEncStart =>
    latchError .tree s.par.kmax s.ctl.cfg = none ∧ treeInit s.ctl.cfg s.tree = .ok u.tree ∧
      u = { s with
        tree := u.tree
        model := { s.model with valid := false }
        coder := { lo := 0, hi := 0, value := 0, straddle := 0, padUsed := 0 }
        ctl := { s.ctl.cleared with acfg := s.ctl.cfg, mode := .ahEnc, symCount := 0 } }
  | .ahEncSym a =>
    s.ctl.mode = .ahEnc ∧ a < s.alphabet ∧ s.ctl.symCount < Config.wordMax ∧
      (∃ v, ahEmitSymbol a s = .ok v ∧ ahAfterSymbol a v = .ok u) ∧
      ∃ bits, (bits = [] ∨ s.buf.outBits.length + bits.length ≤ s.par.outCap) ∧
        u = { s with
          tree := u.tree
          buf := { s.buf with outBits := s.buf.outBits ++ bits }
          ctl := { s.ctl with symCount := s.ctl.symCount + 1 } }
  | .ahDecStart =>
    latchError .tree s.par.kmax s.ctl.cfg = none ∧ treeInit s.ctl.cfg s.tree = .ok u.tree ∧
      u = { s with
        tree := u.tree
        model := { s.model with valid := false }
        coder := { lo := 0, hi := 0, value := 0, straddle := 0, padUsed := 0 }
        ctl := { s.ctl.cleared with acfg := s.ctl.cfg, mode := .ahDec, symCount := 0 } }
  | .ahDecSym =>
    s.ctl.mode = .ahDec ∧ s.ctl.symCount < Config.wordMax ∧ (∃ a v, treeWalk s = .ok (a, v) ∧ ahAfterSymbol a v = .ok u) ∧
      s.buf.inPos ≤ u.buf.inPos ∧
      u = { s with tree := u.tree, buf := { s.buf with inPos := u.buf.inPos }, ctl := { s.ctl with symCount := s.ctl.symCount + 1 } }
  | .ahUpdate a =>
    s.ctl.mode = .idle ∧ s.tree.valid = true ∧ a < s.alphabet ∧ s.tree.locOf (.sym a) ≠ .absent ∧ updateTree a s = .ok u ∧
      u = { s with tree := u.tree }
  | .ahDecay => s.ctl.mode = .idle ∧ s.tree.valid = true ∧ decayTree s = .ok u ∧ u = { s with tree := u.tree }
  | .ahReadW _ => u = s
  | .ahReadC _ => u = s
  | .ahReadParent _ => u = s
  | .ahReadLoc _ => u = s

/-- A command returns a value exactly if its rule says so (10 R40), and writes what `Writes` says. -/
theorem rule_writes {i : Instr} {s u : State} {v : Option Word} (h : rule i s = .ok (v, u)) : Writes i s u ∧ v.isSome = returnsValue i := by
  have read : ∀ {x : Except Stop Unit} {r : Result}, (∀ v u, r = .ok (v, u) → u = s ∧ v.isSome = true) →
      ∀ {v u}, (x >>= fun _ => r) = .ok (v, u) → u = s ∧ v.isSome = true := by
    intro x r hr v u h
    obtain ⟨a, -, h⟩ := bind_eq_ok h
    exact hr _ _ h
  have ret : ∀ {w : Word} (v : Option Word) (u : State), (.ok (some w, s) : Result) = .ok (v, u) → u = s ∧ v.isSome = true := by
    intro w v u h
    cases h
    exact ⟨rfl, rfl⟩
  cases i with
  | nop => cases h; exact ⟨rfl, rfl⟩
  | abort => cases h; exact ⟨rfl, rfl⟩
  | dbgRead sel =>
    obtain ⟨w, -, h⟩ := bind_eq_ok h
    exact ret _ _ h
  | bsClearOut => cases h; exact ⟨rfl, rfl⟩
  | bsClearIn => cases h; exact ⟨rfl, rfl⟩
  | bsPutBit b =>
    obtain ⟨t, ht, h⟩ := bind_eq_ok h
    obtain ⟨hl, rfl⟩ := emit_ok ht
    cases h
    exact ⟨⟨[b], by simpa using hl, rfl⟩, rfl⟩
  | bsGetBit =>
    obtain ⟨⟨b, t⟩, ht, h⟩ := bind_eq_ok h
    obtain ⟨hl, rfl⟩ := nextBit_ok ht
    cases h
    have hlt := (List.getElem?_eq_some_iff.1 hl).1
    exact ⟨⟨_, Nat.le_succ _, fun _ => hlt, rfl⟩, rfl⟩
  | bsGammaPut n =>
    obtain ⟨t, ht, h⟩ := bind_eq_ok h
    obtain ⟨hl, rfl⟩ := emitBits_ok ht
    cases h
    refine ⟨⟨gammaCode n, ?_, rfl⟩, rfl⟩
    rcases hl with hl | hl
    · simp [gammaCode, bitsMSB] at hl
    · exact hl
  | bsGammaGet =>
    obtain ⟨⟨k, t⟩, ht, h⟩ := bind_eq_ok h
    obtain ⟨p, hp, hl, rfl⟩ := gammaZeros_frame ht
    obtain ⟨⟨m, t⟩, ht2, h⟩ := bind_eq_ok h
    obtain ⟨bits, rest, hb, hd, -, rfl⟩ := gatherBits_eq_ok ht2
    cases h
    refine ⟨⟨p + k, by omega, fun _ => ?_, rfl⟩, rfl⟩
    have hd := congrArg List.length hd
    simp at hd
    omega
  | bsPack =>
    simp only [rule, ruleBsPack] at h
    split at h
    · cases h
    · cases h
      exact ⟨⟨_, by rw [packBytes_length]; omega, rfl⟩, rfl⟩
  | bsUnpack =>
    simp only [rule, ruleBsUnpack] at h
    split at h
    · cases h
    split at h
    · cases h
    split at h
    · cases h
    cases h
    exact ⟨⟨_, by omega, rfl⟩, rfl⟩
  | bsInBit b =>
    simp only [rule, ruleBsInBit] at h
    split at h
    · cases h
    · cases h
      exact ⟨⟨b, by omega, rfl⟩, rfl⟩
  | bsLoopback =>
    simp only [rule, ruleBsLoopback] at h
    split at h
    · cases h
    · cases h
      exact ⟨⟨by omega, rfl⟩, rfl⟩
  | bsPeekOut k =>
    simp only [rule, ruleBsPeekOut] at h
    split at h
    · exact ret _ _ h
    · cases h
  | modelInit =>
    simp only [rule, ruleModelInit] at h
    split at h
    · cases h
    · rename_i hm
      obtain ⟨t, ht, h⟩ := bind_eq_ok h
      obtain ⟨hl, rfl⟩ := latch_ok ht
      cases h
      exact ⟨⟨by simpa using hm, hl, rfl⟩, rfl⟩
  | modelUpdate a =>
    obtain ⟨_, h1, h⟩ := bind_eq_ok h
    obtain ⟨_, h2, h⟩ := bind_eq_ok h
    obtain ⟨t, ht, h⟩ := bind_eq_ok h
    obtain ⟨hl, rfl⟩ := modelUpdate_ok ht
    cases h
    exact ⟨⟨(requireIdleModel_ok h1).1, (requireIdleModel_ok h1).2, requireSymbol_ok h2, hl, rfl⟩, rfl⟩
  | modelDecay =>
    obtain ⟨_, h1, h⟩ := bind_eq_ok h
    cases h
    exact ⟨⟨(requireIdleModel_ok h1).1, (requireIdleModel_ok h1).2, rfl⟩, rfl⟩
  | modelCount a => exact read (fun v u h => by obtain ⟨_, -, h⟩ := bind_eq_ok h; exact ret v u h) h
  | modelCum a => exact read (fun v u h => by obtain ⟨_, -, h⟩ := bind_eq_ok h; exact ret v u h) h
  | modelTotal => exact read ret h
  | acEncStart =>
    obtain ⟨t, ht, h⟩ := bind_eq_ok h
    obtain ⟨hl, rfl⟩ := acStart_ok ht
    cases h
    exact ⟨⟨hl, rfl⟩, rfl⟩
  | acEncSym a =>
    obtain ⟨_, h1, h⟩ := bind_eq_ok h
    obtain ⟨_, h2, h⟩ := bind_eq_ok h
    obtain ⟨t, ht, h⟩ := bind_eq_ok h
    cases h
    exact ⟨⟨requireMode_ok h1, requireSymbol_ok h2, ht, acSymbol_frame ht⟩, rfl⟩
  | acEncFinish =>
    obtain ⟨_, h1, h⟩ := bind_eq_ok h
    obtain ⟨t, ht, h⟩ := bind_eq_ok h
    obtain ⟨bits, hc, rfl⟩ := flush_frame ht
    cases h
    exact ⟨⟨bits, requireMode_ok h1, hc, rfl⟩, rfl⟩
  | acDecStart =>
    obtain ⟨t, ht, h⟩ := bind_eq_ok h
    obtain ⟨hl, rfl⟩ := acStart_ok ht
    obtain ⟨⟨w, t⟩, ht, h⟩ := bind_eq_ok h
    obtain ⟨h1, h2, -, h4, h5, h6⟩ := gatherBitsPadded_frame ht
    cases h
    refine ⟨⟨hl, ?_, h2, h4, h5 (Nat.zero_le _), ?_⟩, rfl⟩
    · simpa using h6
    · rw [h1]; rfl
  | acDecSym =>
    obtain ⟨_, h1, h⟩ := bind_eq_ok h
    obtain ⟨a, h2, h⟩ := bind_eq_ok h
    obtain ⟨t, ht, h⟩ := bind_eq_ok h
    cases h
    exact ⟨⟨requireMode_ok h1, a, (search_ok h2).2.1, h2, ht, acSymbol_frame ht⟩, rfl⟩
  | ahEncStart =>
    obtain ⟨t, ht, h⟩ := bind_eq_ok h
    cases h
    exact ⟨ahStart_ok ht, rfl⟩
  | ahEncSym a =>
    obtain ⟨_, h1, h⟩ := bind_eq_ok h
    obtain ⟨_, h2, h⟩ := bind_eq_ok h
    obtain ⟨t, ht, h⟩ := bind_eq_ok h
    obtain ⟨w, hw, h⟩ := bind_eq_ok h
    cases h
    obtain ⟨bits, hc, he⟩ := ahEmitSymbol_frame ht
    obtain ⟨hl, ha⟩ := ahAfterSymbol_frame hw
    rw [he] at hl ha
    exact ⟨⟨requireMode_ok h1, requireSymbol_ok h2, hl, ⟨t, ht, hw⟩, bits, hc, ha⟩, rfl⟩
  | ahDecStart =>
    obtain ⟨t, ht, h⟩ := bind_eq_ok h
    cases h
    exact ⟨ahStart_ok ht, rfl⟩
  | ahDecSym =>
    obtain ⟨_, h1, h⟩ := bind_eq_ok h
    obtain ⟨⟨a, t⟩, ht, h⟩ := bind_eq_ok h
    obtain ⟨w, hw, h⟩ := bind_eq_ok h
    cases h
    obtain ⟨hc, he⟩ := treeWalk_frame ht
    obtain ⟨hl, ha⟩ := ahAfterSymbol_frame hw
    have hp : u.buf.inPos = t.buf.inPos := by rw [ha]
    rw [he] at hl ha
    exact ⟨⟨requireMode_ok h1, hl, ⟨a, t, ht, hw⟩, by omega, by rw [hp]; exact ha⟩, rfl⟩
  | ahUpdate a =>
    obtain ⟨_, h1, h⟩ := bind_eq_ok h
    obtain ⟨_, h2, h⟩ := bind_eq_ok h
    split at h
    · cases h
    · rename_i hl
      obtain ⟨w, hw, h⟩ := bind_eq_ok h
      cases h
      obtain ⟨tree, -, -, he⟩ := updateTree_ok hw
      exact ⟨⟨(requireIdleTree_ok h1).1, (requireIdleTree_ok h1).2, requireSymbol_ok h2, hl, hw, by rw [he]⟩, rfl⟩
  | ahDecay =>
    obtain ⟨_, h1, h⟩ := bind_eq_ok h
    obtain ⟨w, hw, h⟩ := bind_eq_ok h
    cases h
    obtain ⟨tree, -, -, he⟩ := decayTree_ok hw
    exact ⟨⟨(requireIdleTree_ok h1).1, (requireIdleTree_ok h1).2, hw, by rw [he]⟩, rfl⟩
  | ahReadW q =>
    refine read (fun v u h => ?_) h
    split at h
    · cases h
    · exact ret v u h
  | ahReadC q =>
    refine read (fun v u h => ?_) h
    split at h
    · cases h
    · exact ret v u h
  | ahReadParent k =>
    refine read (fun v u h => ?_) h
    split at h
    · cases h
    · exact ret v u h
  | ahReadLoc a =>
    refine read (fun v u h => ?_) h
    split at h
    · exact ret v u h
    · obtain ⟨_, -, h⟩ := bind_eq_ok h
      exact ret v u h

/-! ### All commands -/

/-- A command is dropped, or completes and writes what `Writes` says, or faults with everything rolled back (60 R149, R150, R152). -/
theorem exec_outcomes {i : Instr} {s t : State} (h : exec i s = .next t) :
    t = dropRecorded s ∨ (∃ v u, Writes i s u ∧ v.isSome = returnsValue i ∧ t = u.complete v) ∨
    (∃ f info, f ≠ .none ∧ t = faultRecorded s f info (encode i)) := by
  rcases exec_next h with ⟨-, -, h1⟩ | ⟨-, v, u, h1, rfl⟩ | ⟨-, f, info, h1, rfl⟩
  · exact .inl h1
  · exact .inr (.inl ⟨v, u, (rule_writes h1).1, (rule_writes h1).2, rfl⟩)
  · exact .inr (.inr ⟨f, info, fun hf => by subst hf; exact rule_raisesFaults i s info h1, rfl⟩)

@[simp] theorem complete_ctl_mode (u : State) (v : Option Word) : (u.complete v).ctl.mode = u.ctl.mode := by cases v <;> rfl
@[simp] theorem complete_ctl_cfg (u : State) (v : Option Word) : (u.complete v).ctl.cfg = u.ctl.cfg := by cases v <;> rfl
@[simp] theorem complete_ctl_acfg (u : State) (v : Option Word) : (u.complete v).ctl.acfg = u.ctl.acfg := by cases v <;> rfl
@[simp] theorem complete_ctl_irqEn (u : State) (v : Option Word) : (u.complete v).ctl.irqEn = u.ctl.irqEn := by cases v <;> rfl
@[simp] theorem complete_ctl_symCount (u : State) (v : Option Word) : (u.complete v).ctl.symCount = u.ctl.symCount := by cases v <;> rfl
@[simp] theorem complete_ctl_faultCode (u : State) (v : Option Word) : (u.complete v).ctl.faultCode = u.ctl.faultCode := by cases v <;> rfl
@[simp] theorem complete_ctl_faultInfo (u : State) (v : Option Word) : (u.complete v).ctl.faultInfo = u.ctl.faultInfo := by cases v <;> rfl
@[simp] theorem complete_ctl_faultCmd (u : State) (v : Option Word) : (u.complete v).ctl.faultCmd = u.ctl.faultCmd := by cases v <;> rfl
@[simp] theorem complete_ctl_dropped (u : State) (v : Option Word) : (u.complete v).ctl.dropped = u.ctl.dropped := by cases v <;> rfl
@[simp] theorem complete_par (u : State) (v : Option Word) : (u.complete v).par = u.par := by cases v <;> rfl
@[simp] theorem complete_host (u : State) (v : Option Word) : (u.complete v).host = u.host := by cases v <;> rfl
@[simp] theorem complete_coder (u : State) (v : Option Word) : (u.complete v).coder = u.coder := by cases v <;> rfl
@[simp] theorem complete_model (u : State) (v : Option Word) : (u.complete v).model = u.model := by cases v <;> rfl
@[simp] theorem complete_tree (u : State) (v : Option Word) : (u.complete v).tree = u.tree := by cases v <;> rfl
@[simp] theorem complete_buf (u : State) (v : Option Word) : (u.complete v).buf = u.buf := by cases v <;> rfl

/-- What a completing command writes of the control state and of what is not the block's (10 R34, R36, R37, 60 R153). -/
theorem writes_ctl {i : Instr} {s u : State} (h : Writes i s u) :
   u.par = s.par ∧ u.host = s.host ∧ u.ctl.cfg = s.ctl.cfg ∧ u.ctl.irqEn = s.ctl.irqEn ∧ u.ctl.result = s.ctl.result ∧
   ((i ≠ .abort ∧ opensMode i = none ∧ u.ctl.faultCode = s.ctl.faultCode ∧ u.ctl.faultInfo = s.ctl.faultInfo ∧ u.ctl.faultCmd = s.ctl.faultCmd ∧ u.ctl.dropped = s.ctl.dropped) ∨
    ((i = .abort ∨ opensMode i ≠ none) ∧ u.ctl.faultCode = .none ∧ u.ctl.faultInfo = 0#32 ∧ u.ctl.faultCmd = 0#32 ∧ u.ctl.dropped = false)) ∧
   (u.ctl.mode = s.ctl.mode ∨ opensMode i = some u.ctl.mode ∨ (i = .abort ∧ u.ctl.mode = .idle) ∨
    (i = .acEncFinish ∧ s.ctl.mode = .acEnc ∧ u.ctl.mode = .idle)) ∧
   (u.ctl.acfg = s.ctl.acfg ∨ ((i = .modelInit ∨ opensMode i ≠ none) ∧ u.ctl.acfg = s.ctl.cfg ∧ ∃ k, latchError k s.par.kmax s.ctl.cfg = none)) := by
  cases i <;> simp only [Writes] at h
  case bsPutBit => obtain ⟨_, -, rfl⟩ := h; simp [opensMode]
  case bsGetBit => obtain ⟨_, -, -, rfl⟩ := h; simp [opensMode]
  case bsGammaPut => obtain ⟨_, -, rfl⟩ := h; simp [opensMode]
  case bsGammaGet => obtain ⟨_, -, -, rfl⟩ := h; simp [opensMode]
  case bsPack => obtain ⟨_, -, rfl⟩ := h; simp [opensMode]
  case bsUnpack => obtain ⟨_, -, rfl⟩ := h; simp [opensMode]
  case bsInBit => obtain ⟨_, -, rfl⟩ := h; simp [opensMode]
  case bsLoopback => obtain ⟨-, rfl⟩ := h; simp [opensMode]
  case modelInit => obtain ⟨-, hl, rfl⟩ := h; simp [opensMode]; exact .inr ⟨_, hl⟩
  case modelUpdate => obtain ⟨-, -, -, -, rfl⟩ := h; simp [opensMode]
  case modelDecay => obtain ⟨-, -, rfl⟩ := h; simp [opensMode, modelDecay]
  case acEncStart => obtain ⟨hl, rfl⟩ := h; simp [opensMode, Control.cleared]; exact .inr ⟨_, hl⟩
  case acEncSym => obtain ⟨-, -, -, -, he⟩ := h; rw [he]; simp [opensMode]
  case acEncFinish => obtain ⟨_, hm, -, rfl⟩ := h; simp [opensMode, hm]
  case acDecStart => obtain ⟨hl, -, -, -, -, he⟩ := h; rw [he]; simp [opensMode, Control.cleared]; exact .inr ⟨_, hl⟩
  case acDecSym => obtain ⟨-, _, -, -, -, -, he⟩ := h; rw [he]; simp [opensMode]
  case ahEncStart => obtain ⟨hl, -, he⟩ := h; rw [he]; simp [opensMode, Control.cleared]; exact .inr ⟨_, hl⟩
  case ahEncSym => obtain ⟨-, -, -, -, _, -, he⟩ := h; rw [he]; simp [opensMode]
  case ahDecStart => obtain ⟨hl, -, he⟩ := h; rw [he]; simp [opensMode, Control.cleared]; exact .inr ⟨_, hl⟩
  case ahDecSym => obtain ⟨-, -, -, -, he⟩ := h; rw [he]; simp [opensMode]
  case ahUpdate => obtain ⟨-, -, -, -, -, he⟩ := h; rw [he]; simp [opensMode]
  case ahDecay => obtain ⟨-, -, -, he⟩ := h; rw [he]; simp [opensMode]
  all_goals (subst h; simp [opensMode, Control.cleared])

end Sys2Proof.Machine
end

