-- ==== Sys2Proof/Laws/TreeShape.lean ====
section
/-! SUPPORT. Reading and writing the tree arena by slot position, and the shape of a tree: parents, children and locations agree. -/

namespace Sys2Proof.Machine

/-! ### Positions -/

@[simp] theorem slotPos_slotOf (q : Nat) : slotPos (q / 2) (slotOf q) = q := by
  unfold slotPos slotOf
  rcases Nat.mod_two_eq_zero_or_one q with h | h <;> simp [h] <;> omega

@[simp] theorem slotPos_div (k : Nat) (b : Bool) : slotPos k b / 2 = k := by cases b <;> (simp [slotPos]; try omega)

@[simp] theorem slotOf_slotPos (k : Nat) (b : Bool) : slotOf (slotPos k b) = b := by
  cases b <;> simp [slotPos, slotOf]

theorem slot_inj {p q : Nat} (h : p / 2 = q / 2) (hb : slotOf p = slotOf q) : p = q := by
  rw [← slotPos_slotOf p, ← slotPos_slotOf q, h, hb]

theorem slotPos_lt {k m : Nat} {b : Bool} (h : k < m) : slotPos k b < 2 * m := by cases b <;> simp [slotPos] <;> omega

theorem child_eq_ch (t : Tree) (k : Nat) (b : Bool) : (t.pairAt k).child b = t.ch (slotPos k b) := by simp [Tree.ch]

theorem weight_eq_wt (t : Tree) (k : Nat) (b : Bool) : (t.pairAt k).weight b = t.wt (slotPos k b) := by simp [Tree.wt]

theorem sum_eq (t : Tree) (i : Nat) : (t.pairAt i).sum = t.wt (2 * i) + t.wt (2 * i + 1) := by
  have h : t.wt (2 * i) = (t.pairAt i).w0 := by have := weight_eq_wt t i false; simpa [slotPos, Pair.weight] using this.symm
  have h2 : t.wt (2 * i + 1) = (t.pairAt i).w1 := by have := weight_eq_wt t i true; simpa [slotPos, Pair.weight] using this.symm
  rw [h, h2, Pair.sum]

/-! ### Writes -/

theorem pairAt_setPair (t : Tree) (k j : Nat) (p : Pair) :
    (t.setPair k p).pairAt j = if j = k ∧ k < t.pairs.length then p else t.pairAt j := by
  simp only [Tree.pairAt, Tree.setPair, List.getElem?_set]
  by_cases h : k = j
  · subst h
    by_cases h2 : k < t.pairs.length
    · simp [h2]
    · simp [h2]
  · simp [h, Ne.symm h]

theorem Pair.weight_withWeight (p : Pair) (b c : Bool) (w : Nat) : (p.withWeight b w).weight c = if c = b then w else p.weight c := by
  cases b <;> cases c <;> rfl
theorem Pair.child_withWeight (p : Pair) (b c : Bool) (w : Nat) : (p.withWeight b w).child c = p.child c := by cases b <;> cases c <;> rfl
theorem Pair.parent_withWeight (p : Pair) (b : Bool) (w : Nat) : (p.withWeight b w).parent = p.parent := by cases b <;> rfl
theorem Pair.child_withChild (p : Pair) (b c : Bool) (x : Child) : (p.withChild b x).child c = if c = b then x else p.child c := by
  cases b <;> cases c <;> rfl
theorem Pair.weight_withChild (p : Pair) (b c : Bool) (x : Child) : (p.withChild b x).weight c = p.weight c := by cases b <;> cases c <;> rfl
theorem Pair.parent_withChild (p : Pair) (b : Bool) (x : Child) : (p.withChild b x).parent = p.parent := by cases b <;> rfl

/-- What a tree write leaves alone: everything but the pairs and the locations. -/
structure SameFrame (t u : Tree) : Prop where
  m : u.m = t.m
  root : u.root = t.root
  rootW : u.rootW = t.rootW
  valid : u.valid = t.valid
  pairs : u.pairs.length = t.pairs.length
  locs : u.locSym.length = t.locSym.length

theorem SameFrame.rfl' (t : Tree) : SameFrame t t := ⟨rfl, rfl, rfl, rfl, rfl, rfl⟩

theorem SameFrame.trans {t u v : Tree} (h : SameFrame t u) (h2 : SameFrame u v) : SameFrame t v :=
  ⟨h2.m.trans h.m, h2.root.trans h.root, h2.rootW.trans h.rootW, h2.valid.trans h.valid, h2.pairs.trans h.pairs, h2.locs.trans h.locs⟩

theorem sameFrame_setPair (t : Tree) (k : Nat) (p : Pair) : SameFrame t (t.setPair k p) := ⟨rfl, rfl, rfl, rfl, by simp [Tree.setPair], rfl⟩
theorem sameFrame_setLoc (t : Tree) (x : Key) (l : Loc) : SameFrame t (t.setLoc x l) := by
  cases x
  · exact ⟨rfl, rfl, rfl, rfl, rfl, by simp [Tree.setLoc]⟩
  · exact ⟨rfl, rfl, rfl, rfl, rfl, rfl⟩

/-- The key has an entry in the location table. -/
def Tree.hasEntry (t : Tree) : Key → Prop
  | .sym a => a < t.locSym.length
  | .nyt => True

theorem hasEntry_of_loc {t : Tree} {x : Key} (h : t.locOf x ≠ .absent) : t.hasEntry x := by
  cases x with
  | nyt => trivial
  | sym a =>
    by_contra hn
    exact h (by simp [Tree.locOf, List.getElem?_eq_none (Nat.not_lt.mp hn)])

theorem locOf_setLoc (t : Tree) (x y : Key) (l : Loc) (h : t.hasEntry x) : (t.setLoc x l).locOf y = if y = x then l else t.locOf y := by
  cases x with
  | nyt => cases y <;> simp [Tree.setLoc, Tree.locOf]
  | sym a =>
    cases y with
    | nyt => simp [Tree.setLoc, Tree.locOf]
    | sym b =>
      simp only [Tree.setLoc, Tree.locOf, List.getElem?_set, Key.sym.injEq]
      by_cases hb : a = b
      · subst hb; simp [show a < t.locSym.length from h]
      · simp [hb, Ne.symm hb]

@[simp] theorem pairAt_setLoc (t : Tree) (x : Key) (l : Loc) (k : Nat) : (t.setLoc x l).pairAt k = t.pairAt k := by cases x <;> rfl
@[simp] theorem wt_setLoc (t : Tree) (x : Key) (l : Loc) (q : Nat) : (t.setLoc x l).wt q = t.wt q := by simp [Tree.wt]
@[simp] theorem ch_setLoc (t : Tree) (x : Key) (l : Loc) (q : Nat) : (t.setLoc x l).ch q = t.ch q := by simp [Tree.ch]
@[simp] theorem locOf_setPair (t : Tree) (k : Nat) (p : Pair) (x : Key) : (t.setPair k p).locOf x = t.locOf x := by cases x <;> rfl

theorem wt_setWeight {t : Tree} {q : Nat} (h : q / 2 < t.pairs.length) (w p : Nat) :
    (t.setWeight q w).wt p = if p = q then w else t.wt p := by
  simp only [Tree.wt, Tree.setWeight, pairAt_setPair, h, and_true]
  by_cases hd : p / 2 = q / 2
  · simp only [hd, if_true, Pair.weight_withWeight]
    by_cases hp : p = q
    · simp [hp]
    · have : slotOf p ≠ slotOf q := fun hs => hp (slot_inj hd hs)
      simp [hp, this]
  · have : p ≠ q := fun e => hd (by rw [e])
    simp [hd, this]

theorem ch_setWeight (t : Tree) (q w p : Nat) : (t.setWeight q w).ch p = t.ch p := by
  simp only [Tree.ch, Tree.setWeight, pairAt_setPair]
  split
  · rename_i h; rw [Pair.child_withWeight, h.1]
  · rfl

theorem parent_setWeight (t : Tree) (q w i : Nat) : ((t.setWeight q w).pairAt i).parent = (t.pairAt i).parent := by
  simp only [Tree.setWeight, pairAt_setPair]
  split
  · rename_i h; rw [Pair.parent_withWeight, h.1]
  · rfl

@[simp] theorem locOf_setWeight (t : Tree) (q w : Nat) (x : Key) : (t.setWeight q w).locOf x = t.locOf x := by simp [Tree.setWeight]

theorem sameFrame_setWeight (t : Tree) (q w : Nat) : SameFrame t (t.setWeight q w) := sameFrame_setPair _ _ _

theorem ch_setParent (t : Tree) (k : Nat) (r : Option (Nat × Bool)) (p : Nat) : (t.setParent k r).ch p = t.ch p := by
  simp only [Tree.ch, Tree.setParent, pairAt_setPair]
  split
  · rename_i h; rw [h.1]; rfl
  · rfl

theorem wt_setParent (t : Tree) (k : Nat) (r : Option (Nat × Bool)) (p : Nat) : (t.setParent k r).wt p = t.wt p := by
  simp only [Tree.wt, Tree.setParent, pairAt_setPair]
  split
  · rename_i h; rw [h.1]; rfl
  · rfl

theorem parent_setParent (t : Tree) (k : Nat) (r : Option (Nat × Bool)) (i : Nat) :
    ((t.setParent k r).pairAt i).parent = if i = k ∧ k < t.pairs.length then r else (t.pairAt i).parent := by
  simp only [Tree.setParent, pairAt_setPair]
  split <;> rfl

theorem ch_setSlot {t : Tree} {q : Nat} (h : q / 2 < t.pairs.length) (x : Child) (p : Nat) :
    (t.setPair (q / 2) ((t.pairAt (q / 2)).withChild (slotOf q) x)).ch p = if p = q then x else t.ch p := by
  simp only [Tree.ch, pairAt_setPair, h, and_true]
  by_cases hd : p / 2 = q / 2
  · simp only [hd, if_true, Pair.child_withChild]
    by_cases hp : p = q
    · simp [hp]
    · have : slotOf p ≠ slotOf q := fun hs => hp (slot_inj hd hs)
      simp [hp, this]
  · have : p ≠ q := fun e => hd (by rw [e])
    simp [hd, this]

theorem wt_setSlot (t : Tree) (k : Nat) (b : Bool) (x : Child) (p : Nat) :
    (t.setPair k ((t.pairAt k).withChild b x)).wt p = t.wt p := by
  simp only [Tree.wt, pairAt_setPair]
  split
  · rename_i h; rw [Pair.weight_withChild, h.1]
  · rfl

theorem parent_setSlot (t : Tree) (k : Nat) (b : Bool) (x : Child) (i : Nat) :
    ((t.setPair k ((t.pairAt k).withChild b x)).pairAt i).parent = (t.pairAt i).parent := by
  simp only [pairAt_setPair]
  split
  · rename_i h; rw [Pair.parent_withChild, h.1]
  · rfl

theorem ch_setChild {t : Tree} {q : Nat} (h : q / 2 < t.pairs.length) (x : Child) (p : Nat) :
    (t.setChild q x).ch p = if p = q then x else t.ch p := by
  unfold Tree.setChild
  cases x <;> simp only [ch_setLoc, ch_setParent, ch_setSlot h]

theorem wt_setChild (t : Tree) (q : Nat) (x : Child) (p : Nat) : (t.setChild q x).wt p = t.wt p := by
  unfold Tree.setChild
  cases x <;> simp only [wt_setLoc, wt_setParent, wt_setSlot]

theorem parent_setChild (t : Tree) (q : Nat) (x : Child) (i : Nat) :
    ((t.setChild q x).pairAt i).parent = if x = .node i ∧ i < t.pairs.length then some (q / 2, slotOf q) else (t.pairAt i).parent := by
  unfold Tree.setChild
  cases x with
  | leaf a => simp [parent_setSlot]
  | nyt => simp [parent_setSlot]
  | node k =>
    simp only [parent_setParent, parent_setSlot, (sameFrame_setPair _ _ _).pairs, Child.node.injEq]
    by_cases hk : k = i
    · subst hk; simp
    · simp [hk, Ne.symm hk]

theorem locOf_setChild (t : Tree) (q : Nat) (x : Child) (y : Key) (h : ∀ z, x.key? = some z → t.hasEntry z) :
    (t.setChild q x).locOf y = if x.key? = some y then .atSlot (q / 2) (slotOf q) else t.locOf y := by
  unfold Tree.setChild
  cases x with
  | node k => simp [Child.key?, Tree.setParent]
  | leaf a =>
    have := h (.sym a) rfl
    rw [locOf_setLoc _ _ _ _ (by exact this)]
    simp [Child.key?, eq_comm]
  | nyt =>
    rw [locOf_setLoc _ .nyt _ _ (by trivial)]
    simp [Child.key?, eq_comm]

theorem sameFrame_setChild (t : Tree) (q : Nat) (x : Child) : SameFrame t (t.setChild q x) := by
  unfold Tree.setChild
  cases x with
  | node k => exact (sameFrame_setPair _ _ _).trans (sameFrame_setPair _ _ _)
  | leaf a => exact (sameFrame_setPair _ _ _).trans (sameFrame_setLoc _ _ _)
  | nyt => exact (sameFrame_setPair _ _ _).trans (sameFrame_setLoc _ _ _)

theorem sameFrame_swapSlots (t : Tree) (q l : Nat) : SameFrame t (t.swapSlots q l) := (sameFrame_setChild _ _ _).trans (sameFrame_setChild _ _ _)

theorem wt_swapSlots (t : Tree) (q l p : Nat) : (t.swapSlots q l).wt p = t.wt p := by rw [Tree.swapSlots, wt_setChild, wt_setChild]

theorem ch_swapSlots {t : Tree} {q l : Nat} (hq : q / 2 < t.pairs.length) (hl : l / 2 < t.pairs.length) (p : Nat) :
    (t.swapSlots q l).ch p = if p = l then t.ch q else if p = q then t.ch l else t.ch p := by
  rw [Tree.swapSlots, ch_setChild ((sameFrame_setChild t q (t.ch l)).pairs ▸ hl), ch_setChild hq]

theorem parent_swapSlots (t : Tree) (q l i : Nat) : ((t.swapSlots q l).pairAt i).parent =
    if t.ch q = .node i ∧ i < t.pairs.length then some (l / 2, slotOf l)
    else if t.ch l = .node i ∧ i < t.pairs.length then some (q / 2, slotOf q) else (t.pairAt i).parent := by
  rw [Tree.swapSlots, parent_setChild, parent_setChild, (sameFrame_setChild t q (t.ch l)).pairs]

/-! ### Shape -/

/-- Parents, children and locations agree (10 R31; 42 R102, TI2 and TI4), by position. -/
structure Shape (t : Tree) : Prop where
  size : t.m ≤ t.pairs.length
  root : 0 < t.m → t.root = .node (t.m - 1) ∧ (t.pairAt (t.m - 1)).parent = none
  parent : ∀ i, i + 1 < t.m → ∃ q, q < 2 * t.m ∧ i < q / 2 ∧ t.ch q = .node i ∧ (t.pairAt i).parent = some (q / 2, slotOf q)
  node : ∀ q i, q < 2 * t.m → t.ch q = .node i → i + 1 < t.m ∧ i < q / 2 ∧ (t.pairAt i).parent = some (q / 2, slotOf q)
  slot : ∀ x q, t.locOf x = .atSlot (q / 2) (slotOf q) ↔ q < 2 * t.m ∧ (t.ch q).key? = some x
  rootLoc : ∀ x, t.locOf x = .atRoot ↔ t.root.key? = some x

theorem TreeOk.shape {k : Nat} {g : Bool} {t : Tree} (h : TreeOk k g t) (hl : t.m ≤ t.pairs.length) : Shape t := by
  have hpar : ∀ i, i + 1 < t.m → ∃ q, q < 2 * t.m ∧ i < q / 2 ∧ t.ch q = .node i ∧ (t.pairAt i).parent = some (q / 2, slotOf q) := by
    intro i hi
    obtain ⟨j, b, h1, h2, h3, h4⟩ := h.parent_later i hi
    exact ⟨slotPos j b, slotPos_lt h3, by simpa using h2, by rw [← child_eq_ch, h4], by simpa using h1⟩
  refine ⟨hl, h.root_node, hpar, fun q i hq hc => ?_, fun x q => ?_, h.loc_root⟩
  · obtain ⟨h1, h2⟩ := h.child_once q i hq hc
    obtain ⟨q', h3, h4, h5, h6⟩ := hpar i h1
    rw [h2] at h6; injection h6 with h6; injection h6 with h7 h8
    exact ⟨h1, by omega, h2⟩
  · rw [h.loc_slot, child_eq_ch, slotPos_slotOf]
    constructor
    · rintro ⟨a, b⟩; exact ⟨by omega, b⟩
    · rintro ⟨a, b⟩; exact ⟨by omega, b⟩

/-- `Node(i)` stands in one slot. -/
theorem Shape.node_inj {t : Tree} (h : Shape t) {p q i : Nat} (hp : p < 2 * t.m) (hq : q < 2 * t.m) (h1 : t.ch p = .node i)
    (h2 : t.ch q = .node i) : p = q := by
  have a := (h.node p i hp h1).2.2
  have b := (h.node q i hq h2).2.2
  rw [a] at b; injection b with b; injection b with b c
  exact slot_inj b c

/-- A leaf key stands in one slot. -/
theorem Shape.key_inj {t : Tree} (h : Shape t) {p q : Nat} {x : Key} (hp : p < 2 * t.m) (hq : q < 2 * t.m) (h1 : (t.ch p).key? = some x)
    (h2 : (t.ch q).key? = some x) : p = q := by
  have a := (h.slot x p).2 ⟨hp, h1⟩
  have b := (h.slot x q).2 ⟨hq, h2⟩
  rw [a] at b; injection b with b c
  exact slot_inj b c

theorem Shape.child_inj {t : Tree} (h : Shape t) {p q : Nat} (hp : p < 2 * t.m) (hq : q < 2 * t.m) (e : t.ch p = t.ch q) : p = q := by
  cases hc : t.ch p with
  | node i => exact h.node_inj hp hq hc (e ▸ hc)
  | leaf a => exact h.key_inj hp hq (x := .sym a) (by rw [hc]; rfl) (by rw [← e, hc]; rfl)
  | nyt => exact h.key_inj hp hq (x := .nyt) (by rw [hc]; rfl) (by rw [← e, hc]; rfl)

/-- A walk up from pair `k` ends, and lists the positions above it. -/
theorem Shape.chain_ok {t : Tree} (h : Shape t) : ∀ (n k : Nat), k < t.m → t.m ≤ n + k → ∀ fuel, n ≤ fuel →
    ∃ l, t.chain fuel (t.parentLoc k) = .ok l ∧ ∀ q, q / 2 = k → ∀ p, p ∈ l ↔ Above t q p := by
  intro n
  induction n with
  | zero => intro k hk hn; omega
  | succ n ih =>
    intro k hk hn fuel hf
    obtain ⟨fuel, rfl⟩ : ∃ f, fuel = f + 1 := ⟨fuel - 1, by omega⟩
    by_cases hr : k = t.m - 1
    · have hp := (h.root (by omega)).2
      rw [← hr] at hp
      refine ⟨[], by simp [Tree.parentLoc, hp, Tree.chain], fun q hq p => ⟨nofun, fun ha => ?_⟩⟩
      cases ha with
      | parent e => rw [hq, hp] at e; exact absurd e (by simp)
      | up e _ => rw [hq, hp] at e; exact absurd e (by simp)
    · obtain ⟨r, h1, h2, h3, h4⟩ := h.parent k (by omega)
      obtain ⟨l, hl, hm⟩ := ih (r / 2) (by omega) (by omega) fuel (by omega)
      refine ⟨r :: l, by simp [Tree.parentLoc, h4, Tree.chain] at hl ⊢; rw [hl]; rfl, fun q hq p => ?_⟩
      rw [List.mem_cons, hm r rfl]
      constructor
      · rintro (rfl | ha)
        · exact .parent (by rw [hq, h4])
        · exact .up (by rw [hq, h4]) ha
      · intro ha
        cases ha with
        | parent e =>
          rw [hq, h4] at e; injection e with e; injection e with e1 e2
          exact .inl (slot_inj e1.symm e2.symm)
        | up e ha =>
          rw [hq, h4] at e; injection e with e; injection e with e1 e2
          rw [slot_inj e1 e2]; exact .inr ha

theorem Shape.ancestors_ok {t : Tree} (h : Shape t) {q : Nat} (hq : q < 2 * t.m) : ∃ l, t.ancestors q = .ok l ∧ ∀ p, p ∈ l ↔ Above t q p := by
  obtain ⟨l, h1, h2⟩ := h.chain_ok (t.m - q / 2) (q / 2) (by omega) (by omega) t.walkFuel (by unfold Tree.walkFuel; omega)
  exact ⟨l, h1, h2 q rfl⟩

theorem Above.lt {t : Tree} (h : Shape t) {q p : Nat} (hq : q < 2 * t.m) (ha : Above t q p) : q / 2 < p / 2 ∧ p < 2 * t.m := by
  have key : ∀ {q r : Nat}, q < 2 * t.m → (t.pairAt (q / 2)).parent = some (r / 2, slotOf r) → q / 2 < r / 2 ∧ r < 2 * t.m := by
    intro q r hq e
    have hne : q / 2 + 1 < t.m := by
      by_contra hn
      have : q / 2 = t.m - 1 := by omega
      rw [this, (h.root (by omega)).2] at e; exact absurd e (by simp)
    obtain ⟨r', h1, h2, h3, h4⟩ := h.parent _ hne
    rw [h4] at e; injection e with e; injection e with e1 e2
    rw [slot_inj e1 e2] at h1 h2; exact ⟨h2, h1⟩
  induction ha with
  | parent e => exact key hq e
  | up e _ ih => have := key hq e; have := ih this.2; omega

end Sys2Proof.Machine
end

