-- ==== Sys2Proof/Laws/TreeUpdate.lean ====
section
/-! SUPPORT. What `treeUpdate` (42 R106 to R108) does to a tree. -/

namespace Sys2Proof.Machine

/-! ### Locations after a swap, weights of leaves -/

theorem Shape.hasEntry {t : Tree} (h : Shape t) {q : Nat} (hq : q < 2 * t.m) : ∀ z, (t.ch q).key? = some z → t.hasEntry z :=
  fun z hz => hasEntry_of_loc (by rw [(h.slot z q).2 ⟨hq, hz⟩]; simp)

theorem locOf_swapSlots {t : Tree} (h : Shape t) {q l : Nat} (hq : q < 2 * t.m) (hl : l < 2 * t.m) (x : Key) : (t.swapSlots q l).locOf x =
    if (t.ch q).key? = some x then .atSlot (l / 2) (slotOf l)
    else if (t.ch l).key? = some x then .atSlot (q / 2) (slotOf q) else t.locOf x := by
  rw [Tree.swapSlots, locOf_setChild, locOf_setChild _ _ _ _ (h.hasEntry hl)]
  intro z hz
  have := h.hasEntry hq z hz
  cases z with
  | nyt => trivial
  | sym a => show a < _; rw [(sameFrame_setChild t q (t.ch l)).locs]; exact this

theorem leafWeight_slot {t : Tree} {x : Key} {q : Nat} (h : t.locOf x = .atSlot (q / 2) (slotOf q)) : leafWeight t x = some (t.wt q) := by
  simp [leafWeight, h, weight_eq_wt]

theorem leafWeight_absent {t : Tree} {x : Key} (h : t.locOf x = .absent) : leafWeight t x = none := by simp [leafWeight, h]

theorem loc_cases (t : Tree) (x : Key) : t.locOf x = .absent ∨ t.locOf x = .atRoot ∨ ∃ q, t.locOf x = .atSlot (q / 2) (slotOf q) := by
  cases h : t.locOf x with
  | absent => exact .inl rfl
  | atRoot => exact .inr (.inl rfl)
  | atSlot k b => exact .inr (.inr ⟨slotPos k b, by simp⟩)

theorem Shape.congr {t u : Tree} (h : Shape t) (f : SameFrame t u) (hc : ∀ p, u.ch p = t.ch p)
    (hp : ∀ i, (u.pairAt i).parent = (t.pairAt i).parent) (hl : ∀ x, u.locOf x = t.locOf x) : Shape u := by
  constructor
  · rw [f.m, f.pairs]; exact h.size
  · rw [f.m, f.root, hp]; exact h.root
  · intro i hi; rw [f.m] at hi ⊢; simp only [hc, hp]; exact h.parent i hi
  · intro q i; rw [f.m, hc, hp]; exact h.node q i
  · intro x q; rw [f.m, hc, hl]; exact h.slot x q
  · intro x; rw [f.root, hl]; exact h.rootLoc x

/-! ### The walk's invariant -/

/-- The tree while the walk of 42 R108 stands at position `q`: the slot's weight may lag by 1 behind the pair it holds. -/
structure Cur (t : Tree) (q : Nat) : Prop where
  shape : Shape t
  pos : q < 2 * t.m
  order : ∀ a b, a < b → b < 2 * t.m → t.wt a ≤ t.wt b + if b = q then 1 else 0
  sums : ∀ p i, p < 2 * t.m → t.ch p = .node i → t.wt p + (if p = q then 1 else 0) = (t.pairAt i).sum
  rootSum : t.rootW = (t.pairAt (t.m - 1)).sum
  zero : ∀ p, p < 2 * t.m → t.wt p = 0 → t.ch p = .nyt ∨ p = q ∨ t.ch p = .node (q / 2)
  nyt : ∀ p, p < 2 * t.m → t.ch p = .nyt → p = 0 ∧ t.wt p = 0
  cur : t.ch q ≠ .nyt

/-- The tree between commands, and, with `lag = 1`, at the end of the walk before the root's weight grows. -/
structure Settled (t : Tree) (lag : Nat) : Prop where
  shape : Shape t
  order : ∀ a b, a < b → b < 2 * t.m → t.wt a ≤ t.wt b
  sums : ∀ p i, p < 2 * t.m → t.ch p = .node i → t.wt p = (t.pairAt i).sum
  rootSum : 0 < t.m → t.rootW + lag = (t.pairAt (t.m - 1)).sum
  zero : ∀ p, p < 2 * t.m → t.wt p = 0 → t.ch p = .nyt
  nyt : ∀ p, p < 2 * t.m → t.ch p = .nyt → p = 0 ∧ t.wt p = 0

/-- No slide or increment makes a leaf come or go. -/
def SameLeaves (t u : Tree) : Prop := ∀ x, u.locOf x = .absent ↔ t.locOf x = .absent

theorem leader_ok {t : Tree} {q : Nat} (h : Cur t q) : ∃ l, t.leader q = .ok l ∧ q ≤ l ∧ l < 2 * t.m ∧ t.wt l = t.wt q ∧ (l ≠ q → ¬ Above t q l) ∧
    ∀ p, l < p → p < 2 * t.m → t.wt p = t.wt q → Above t q p := by
  obtain ⟨above, ha, hm⟩ := h.shape.ancestors_ok h.pos
  have hq : q ∉ above := fun hq => by have := (Above.lt h.shape h.pos ((hm q).1 hq)).1; omega
  set l := (List.range (2 * t.m)).filter fun p => t.wt p == t.wt q && !above.contains p with hl
  have mem : ∀ p, p ∈ l ↔ p < 2 * t.m ∧ t.wt p = t.wt q ∧ p ∉ above := by intro p; simp [hl]
  have hsort : l.Pairwise (· < ·) := (List.pairwise_lt_range (n := 2 * t.m)).filter _
  cases hg : l.getLast? with
  | none =>
    rw [List.getLast?_eq_none_iff] at hg
    exact absurd ((mem q).2 ⟨h.pos, rfl, hq⟩) (by rw [hg]; simp)
  | some p =>
    obtain ⟨ys, hys⟩ := List.getLast?_eq_some_iff.1 hg
    have hp : p ∈ l := by rw [hys]; simp
    have hmax : ∀ r, r ∈ l → r ≤ p := by
      intro r hr
      rw [hys] at hr hsort
      rw [List.pairwise_append] at hsort
      rcases List.mem_append.1 hr with hr | hr
      · exact (hsort.2.2 r hr p (by simp)).le
      · simp at hr; omega
    refine ⟨p, ?_, hmax q ((mem q).2 ⟨h.pos, rfl, hq⟩), ((mem p).1 hp).1, ((mem p).1 hp).2.1, fun _ hab => ((mem p).1 hp).2.2 ((hm p).2 hab), ?_⟩
    · simp only [Tree.leader, ha, bind, Except.bind]
      simp only [← hl, hg]; rfl
    · intro r hr hr2 hw
      by_contra hn
      have := hmax r ((mem r).2 ⟨hr2, hw, fun hx => hn ((hm r).1 hx)⟩)
      omega

/-! ### A swap -/

theorem swap_ok {t : Tree} {q l : Nat} (h : Cur t q) (hql : q < l) (hl : l < 2 * t.m) (hw : t.wt l = t.wt q) (hn : ¬ Above t q l) :
    Cur (t.swapSlots q l) l ∧ (t.swapSlots q l).ch l = t.ch q ∧ SameLeaves t (t.swapSlots q l) ∧
    ∀ x, leafWeight (t.swapSlots q l) x = leafWeight t x := by
  have hs := h.shape
  have hsz := hs.size
  have hq := h.pos
  have hne : q ≠ l := by omega
  have f := sameFrame_swapSlots t q l
  have hch := ch_swapSlots (t := t) (q := q) (l := l) (by omega) (by omega)
  have hpa := parent_swapSlots t q l
  have hlo := locOf_swapSlots hs hq hl
  have hnode : ∀ j, t.ch l = .node j → j ≠ q / 2 := by
    rintro j hj rfl
    exact hn (.parent (hs.node l _ hl hj).2.2)
  have hpos : t.wt l ≠ 0 := by
    intro h0
    rcases h.zero l hl h0 with hz | hz | hz
    · have := (h.nyt l hl hz).1; omega
    · omega
    · exact hnode _ hz rfl
  have hlow : ∀ j, t.ch l = .node j → j < q / 2 := by
    intro j hj
    have h1 := hnode j hj
    have h2 := hs.node l j hl hj
    by_contra hlt
    have hs1 := h.sums l j hl hj
    rw [if_neg hne.symm, sum_eq] at hs1
    have ha := h.order q (2 * j) (by omega) (by omega)
    have hb := h.order q (2 * j + 1) (by omega) (by omega)
    rw [if_neg (by omega)] at ha hb
    omega
  have key_ne : ∀ x, (t.ch q).key? = some x → (t.ch l).key? = some x → False := fun x h1 h2 => hne (hs.key_inj hq hl h1 h2)
  have hroot : ∀ x, t.root.key? = some x → False := by intro x; rw [(hs.root (by omega)).1]; simp [Child.key?]
  refine ⟨⟨⟨by rw [f.m, f.pairs]; exact hsz, ?_, ?_, ?_, ?_, ?_⟩, by rw [f.m]; exact hl, ?_, ?_, ?_, ?_, ?_, ?_⟩, by rw [hch, if_pos rfl], ?_, ?_⟩
  · intro h0; rw [f.m] at h0 ⊢; rw [f.root, hpa, if_neg, if_neg]
    · exact hs.root h0
    · rintro ⟨hc, _⟩; have := (hs.node _ _ hl hc).1; omega
    · rintro ⟨hc, _⟩; have := (hs.node _ _ hq hc).1; omega
  · intro i hi
    rw [f.m] at hi ⊢
    obtain ⟨p, h1, h2, h3, h4⟩ := hs.parent i hi
    by_cases e1 : p = q
    · subst e1; exact ⟨l, hl, by omega, by rw [hch, if_pos rfl, h3], by rw [hpa, if_pos ⟨h3, by omega⟩]⟩
    · by_cases e2 : p = l
      · subst e2
        refine ⟨q, hq, hlow i h3, by rw [hch, if_neg hne, if_pos rfl, h3], ?_⟩
        rw [hpa, if_neg, if_pos ⟨h3, by omega⟩]
        rintro ⟨hc, _⟩; exact hne (hs.node_inj hq h1 hc h3)
      · refine ⟨p, h1, h2, by rw [hch, if_neg e2, if_neg e1, h3], ?_⟩
        rw [hpa, if_neg, if_neg, h4]
        · rintro ⟨hc, _⟩; exact e2 (hs.node_inj h1 hl h3 hc)
        · rintro ⟨hc, _⟩; exact e1 (hs.node_inj h1 hq h3 hc)
  · intro p i hp hc
    rw [f.m] at hp ⊢
    rw [hch] at hc
    by_cases e2 : p = l
    · subst e2; rw [if_pos rfl] at hc
      have := hs.node q i hq hc
      exact ⟨this.1, by omega, by rw [hpa, if_pos ⟨hc, by omega⟩]⟩
    · rw [if_neg e2] at hc
      by_cases e1 : p = q
      · subst e1; rw [if_pos rfl] at hc
        have := hs.node l i hl hc
        refine ⟨this.1, hlow i hc, ?_⟩
        rw [hpa, if_neg, if_pos ⟨hc, by omega⟩]
        rintro ⟨hc2, _⟩; exact hne (hs.node_inj hq hl hc2 hc)
      · rw [if_neg e1] at hc
        have := hs.node p i hp hc
        refine ⟨this.1, this.2.1, ?_⟩
        rw [hpa, if_neg, if_neg, this.2.2]
        · rintro ⟨hc2, _⟩; exact e2 (hs.node_inj hp hl hc hc2)
        · rintro ⟨hc2, _⟩; exact e1 (hs.node_inj hp hq hc hc2)
  · intro x p
    rw [hlo, hch, f.m]
    by_cases k1 : (t.ch q).key? = some x
    · rw [if_pos k1]
      constructor
      · intro e; injection e with e1 e2
        have := slot_inj e1 e2; subst this
        rw [if_pos rfl]; exact ⟨hl, k1⟩
      · rintro ⟨hp, hk⟩
        by_cases e2 : p = l
        · rw [e2]
        · rw [if_neg e2] at hk
          by_cases e1 : p = q
          · rw [if_pos e1] at hk; exact (key_ne x k1 hk).elim
          · rw [if_neg e1] at hk; exact (e1 (hs.key_inj hp hq hk k1)).elim
    · rw [if_neg k1]
      by_cases k2 : (t.ch l).key? = some x
      · rw [if_pos k2]
        constructor
        · intro e; injection e with e1 e2
          have := slot_inj e1 e2; subst this
          rw [if_neg hne, if_pos rfl]; exact ⟨hq, k2⟩
        · rintro ⟨hp, hk⟩
          by_cases e2 : p = l
          · rw [if_pos e2] at hk; exact (k1 hk).elim
          · rw [if_neg e2] at hk
            by_cases e1 : p = q
            · rw [e1]
            · rw [if_neg e1] at hk; exact (e2 (hs.key_inj hp hl hk k2)).elim
      · rw [if_neg k2, hs.slot]
        by_cases e2 : p = l
        · rw [if_pos e2, e2]; exact ⟨fun hx => (k2 hx.2).elim, fun hx => (k1 hx.2).elim⟩
        · rw [if_neg e2]
          by_cases e1 : p = q
          · rw [if_pos e1, e1]; exact ⟨fun hx => (k1 hx.2).elim, fun hx => (k2 hx.2).elim⟩
          · rw [if_neg e1]
  · intro x
    rw [f.root, hlo]
    refine ⟨fun e => ?_, fun e => (hroot x e).elim⟩
    split at e
    · exact absurd e (by simp)
    · split at e
      · exact absurd e (by simp)
      · exact (hs.rootLoc x).1 e
  · intro a b hab hb
    rw [f.m] at hb
    simp only [wt_swapSlots]
    have := h.order a b hab hb
    by_cases e : b = q
    · have := h.order a l (by omega) hl
      rw [if_neg hne.symm] at this
      subst e; omega
    · rw [if_neg e] at this; omega
  · intro p i hp hc
    rw [f.m] at hp
    rw [sum_eq, wt_swapSlots, wt_swapSlots, wt_swapSlots, ← sum_eq]
    rw [hch] at hc
    by_cases e2 : p = l
    · subst e2; rw [if_pos rfl] at hc ⊢
      have := h.sums q i hq hc; rw [if_pos rfl] at this; omega
    · rw [if_neg e2] at hc ⊢
      by_cases e1 : p = q
      · subst e1; rw [if_pos rfl] at hc
        have := h.sums l i hl hc; rw [if_neg hne.symm] at this; omega
      · rw [if_neg e1] at hc
        have := h.sums p i hp hc; rw [if_neg e1] at this; omega
  · rw [f.rootW, f.m, sum_eq, wt_swapSlots, wt_swapSlots, ← sum_eq]; exact h.rootSum
  · intro p hp h0
    rw [f.m] at hp
    rw [wt_swapSlots] at h0
    have e2 : p ≠ l := by rintro rfl; exact hpos h0
    have e1 : p ≠ q := by rintro rfl; exact hpos (hw.trans h0)
    left
    rw [hch, if_neg e2, if_neg e1]
    rcases h.zero p hp h0 with hz | hz | hz
    · exact hz
    · exact (e1 hz).elim
    · exfalso
      have := h.sums p _ hp hz
      rw [if_neg e1, h0, sum_eq] at this
      have hq2 : q = 2 * (q / 2) ∨ q = 2 * (q / 2) + 1 := by omega
      rcases hq2 with e | e <;> rw [← e] at this <;> omega
  · intro p hp hc
    rw [f.m] at hp
    rw [wt_swapSlots]
    rw [hch] at hc
    by_cases e2 : p = l
    · rw [if_pos e2] at hc; exact (h.cur hc).elim
    · rw [if_neg e2] at hc
      by_cases e1 : p = q
      · rw [if_pos e1] at hc; exact (hpos (h.nyt l hl hc).2).elim
      · rw [if_neg e1] at hc; exact h.nyt p hp hc
  · rw [hch, if_pos rfl]; exact h.cur
  · intro x
    rw [hlo]
    by_cases k1 : (t.ch q).key? = some x
    · rw [if_pos k1, (hs.slot x q).2 ⟨hq, k1⟩]; simp
    · rw [if_neg k1]
      by_cases k2 : (t.ch l).key? = some x
      · rw [if_pos k2, (hs.slot x l).2 ⟨hl, k2⟩]; simp
      · rw [if_neg k2]
  · intro x
    have hx := hlo x
    by_cases k1 : (t.ch q).key? = some x
    · rw [if_pos k1] at hx
      rw [leafWeight_slot hx, leafWeight_slot ((hs.slot x q).2 ⟨hq, k1⟩), wt_swapSlots, hw]
    · rw [if_neg k1] at hx
      by_cases k2 : (t.ch l).key? = some x
      · rw [if_pos k2] at hx
        rw [leafWeight_slot hx, leafWeight_slot ((hs.slot x l).2 ⟨hl, k2⟩), wt_swapSlots, hw]
      · rw [if_neg k2] at hx
        rcases loc_cases t x with e | e | ⟨p, e⟩
        · rw [leafWeight_absent e, leafWeight_absent (hx.trans e)]
        · simp only [leafWeight, hx, e, f.rootW]
        · rw [leafWeight_slot e, leafWeight_slot (hx.trans e), wt_swapSlots]

/-! ### The slide -/

theorem slide_ok : ∀ (fuel q : Nat) (t : Tree), Cur t q → 2 * t.m < fuel + q → ∃ p u, Tree.slide fuel q t = .ok (p, u) ∧ Cur u p ∧ q ≤ p ∧
    SameFrame t u ∧ u.ch p = t.ch q ∧ (∀ r, u.wt r = t.wt r) ∧ u.wt p = t.wt q ∧ SameLeaves t u ∧ (∀ x, leafWeight u x = leafWeight t x) ∧
    ∀ r, p < r → r < 2 * u.m → u.wt r = u.wt p → Above u p r := by
  intro fuel
  induction fuel with
  | zero => intro q t h hf; have := h.pos; omega
  | succ fuel ih =>
    intro q t h hf
    obtain ⟨l, h1, h2, h3, h4, h5, h6⟩ := leader_ok h
    unfold Tree.slide
    simp only [h1, bind, Except.bind]
    by_cases e : l = q
    · rw [if_pos e]; subst e
      exact ⟨l, t, rfl, h, le_refl _, .rfl' t, rfl, fun _ => rfl, rfl, fun _ => Iff.rfl, fun _ => rfl, h6⟩
    · rw [if_neg e]
      obtain ⟨c, hc, hl, hx⟩ := swap_ok h (by omega) h3 h4 (h5 e)
      have f := sameFrame_swapSlots t q l
      obtain ⟨p, u, g1, g2, g3, g4, g5, g6, g7, g8, g9, g10⟩ := ih l _ c (by rw [f.m]; omega)
      refine ⟨p, u, g1, g2, by omega, f.trans g4, g5.trans hc, fun r => (g6 r).trans (wt_swapSlots _ _ _ _), ?_, ?_, fun x => (g9 x).trans (hx x), g10⟩
      · rw [g7, wt_swapSlots, h4]
      · exact fun x => (g8 x).trans (hl x)

/-! ### An increment -/

theorem above_sum {t : Tree} {q r p : Nat} (h : Cur t q) (ha : Above t r p) (hr : r < 2 * t.m) (hq : q / 2 < r / 2 ∨ q = r) :
    (t.pairAt (r / 2)).sum ≤ t.wt p := by
  have up : ∀ {r s : Nat}, r < 2 * t.m → (q / 2 < r / 2 ∨ q = r) → (t.pairAt (r / 2)).parent = some (s / 2, slotOf s) →
      s < 2 * t.m ∧ q / 2 < s / 2 ∧ t.wt s = (t.pairAt (r / 2)).sum := by
    intro r s hr hq e
    have hlt := Above.lt h.shape hr (.parent e)
    have hc : t.ch s = .node (r / 2) := by
      have hne : r / 2 + 1 < t.m := by omega
      obtain ⟨s', h1, h2, h3, h4⟩ := h.shape.parent _ hne
      rw [h4] at e; injection e with e; injection e with e1 e2
      rw [← slot_inj e1 e2]; exact h3
    have hs := h.sums s _ hlt.2 hc
    have hsq : s ≠ q := by rintro rfl; omega
    rw [if_neg hsq] at hs
    exact ⟨hlt.2, by omega, by omega⟩
  induction ha with
  | parent e => exact (up hr hq e).2.2 ▸ le_refl _
  | @up q' s' p' e _ ih =>
    obtain ⟨h1, h2, h3⟩ := up hr hq e
    have := ih h1 (.inl h2)
    have h4 : t.wt s' ≤ (t.pairAt (s' / 2)).sum := by
      rw [sum_eq]
      have : s' = 2 * (s' / 2) ∨ s' = 2 * (s' / 2) + 1 := by omega
      rcases this with e | e <;> rw [← e] <;> omega
    omega

/-- The tree after the slot's weight has grown: the walk goes on at the parent, or has come to the root. -/
theorem grow_ok {t : Tree} {q : Nat} (h : Cur t q) (hlead : ∀ r, q < r → r < 2 * t.m → t.wt r = t.wt q → Above t q r) :
    let u := t.setWeight q (t.wt q + 1)
    ((u.parentLoc (q / 2) = .atRoot ∧ Settled u 1) ∨
      ∃ p, u.parentLoc (q / 2) = .atSlot (p / 2) (slotOf p) ∧ Cur u p ∧ q / 2 < p / 2 ∧ ∃ i, u.ch p = .node i) ∧
    SameFrame t u ∧ SameLeaves t u ∧
    ∀ x, leafWeight u x = if (t.ch q).key? = some x then (leafWeight t x).map (· + 1) else leafWeight t x := by
  intro u
  have hs := h.shape
  have hsz := hs.size
  have hq := h.pos
  have f : SameFrame t u := sameFrame_setWeight t q _
  have hch : ∀ p, u.ch p = t.ch p := ch_setWeight t q _
  have hpa : ∀ i, (u.pairAt i).parent = (t.pairAt i).parent := parent_setWeight t q _
  have hlo : ∀ x, u.locOf x = t.locOf x := locOf_setWeight t q _
  have hwt : ∀ p, u.wt p = if p = q then t.wt q + 1 else t.wt p := wt_setWeight (by omega) _
  have hsu : Shape u := hs.congr f hch hpa hlo
  have sum_other : ∀ i, i ≠ q / 2 → (u.pairAt i).sum = (t.pairAt i).sum := by
    intro i hi; rw [sum_eq, sum_eq, hwt, hwt, if_neg (by omega), if_neg (by omega)]
  have sum_q : (u.pairAt (q / 2)).sum = (t.pairAt (q / 2)).sum + 1 := by
    rw [sum_eq, sum_eq, hwt, hwt]
    have : q = 2 * (q / 2) ∨ q = 2 * (q / 2) + 1 := by omega
    rcases this with e | e
    · rw [if_pos e.symm, if_neg (by omega), ← e]; omega
    · rw [if_neg (by omega), if_pos e.symm, ← e]; omega
  have q_le : t.wt q ≤ (t.pairAt (q / 2)).sum := by
    rw [sum_eq]
    have : q = 2 * (q / 2) ∨ q = 2 * (q / 2) + 1 := by omega
    rcases this with e | e <;> rw [← e] <;> omega
  have hleaves : SameLeaves t u := fun x => by rw [hlo]
  have hweight : ∀ x, leafWeight u x = if (t.ch q).key? = some x then (leafWeight t x).map (· + 1) else leafWeight t x := by
    intro x
    have e := hlo x
    rcases loc_cases t x with e2 | e2 | ⟨p, e2⟩
    · rw [leafWeight_absent e2, leafWeight_absent (e.trans e2)]; simp
    · have : (t.ch q).key? ≠ some x := by
        intro hk; rw [(hs.slot x q).2 ⟨hq, hk⟩] at e2; exact absurd e2 (by simp)
      rw [if_neg this]; simp only [leafWeight, e, e2, f.rootW]
    · rw [leafWeight_slot e2, leafWeight_slot (e.trans e2), hwt]
      have hp := (hs.slot x p).1 e2
      by_cases hpq : p = q
      · subst hpq; rw [if_pos rfl, if_pos hp.2]; rfl
      · rw [if_neg hpq, if_neg]
        intro hk; exact hpq (hs.key_inj hp.1 hq hp.2 hk)
  have nyt' : ∀ p, p < 2 * u.m → u.ch p = .nyt → p = 0 ∧ u.wt p = 0 := by
    intro p hp hc
    rw [f.m] at hp; rw [hch] at hc
    have := h.nyt p hp hc
    rw [hwt, if_neg (by rintro rfl; exact h.cur hc)]; exact this
  refine ⟨?_, f, hleaves, hweight⟩
  by_cases hr : q / 2 = t.m - 1
  · left
    have hnone : (u.pairAt (q / 2)).parent = none := by rw [hpa, hr]; exact (hs.root (by omega)).2
    refine ⟨by simp [Tree.parentLoc, hnone], hsu, ?_, ?_, ?_, ?_, nyt'⟩
    · intro a b hab hb
      rw [f.m] at hb
      rw [hwt, hwt]
      have ho := h.order a b hab hb
      by_cases e1 : b = q
      · subst e1; rw [if_pos rfl] at ho ⊢; rw [if_neg (by omega)]; omega
      · rw [if_neg e1] at ho ⊢
        by_cases e2 : a = q
        · subst e2; rw [if_pos rfl]
          by_contra hlt
          have := Above.lt hs hq (hlead b hab hb (by omega))
          omega
        · rw [if_neg e2]; omega
    · intro p i hp hc
      rw [f.m] at hp; rw [hch] at hc
      have hn := hs.node p i hp hc
      rw [sum_other i (by omega), ← h.sums p i hp hc, hwt]
      by_cases e : p = q
      · simp [e]
      · simp [e]
    · intro _
      rw [f.rootW, f.m, ← hr, sum_q, h.rootSum, hr]
    · intro p hp h0
      rw [f.m] at hp; rw [hwt] at h0; rw [hch]
      by_cases e : p = q
      · rw [if_pos e] at h0; omega
      · rw [if_neg e] at h0
        rcases h.zero p hp h0 with hz | hz | hz
        · exact hz
        · exact (e hz).elim
        · have := (hs.node p _ hp hz).1; omega
  · right
    obtain ⟨p, hp, hlt, hcp, hpp⟩ := hs.parent (q / 2) (by omega)
    have hpq : p ≠ q := by rintro rfl; omega
    have hwp : t.wt p = (t.pairAt (q / 2)).sum := by have := h.sums p _ hp hcp; rw [if_neg hpq] at this; omega
    refine ⟨p, by simp [Tree.parentLoc, hpa, hpp], ⟨hsu, by rw [f.m]; exact hp, ?_, ?_, ?_, ?_, nyt', by rw [hch, hcp]; simp⟩, hlt, _, (hch p).trans hcp⟩
    · intro a b hab hb
      rw [f.m] at hb
      rw [hwt, hwt]
      have ho := h.order a b hab hb
      by_cases e1 : b = q
      · subst e1; rw [if_pos rfl] at ho ⊢; rw [if_neg (by omega)]; omega
      · rw [if_neg e1] at ho ⊢
        by_cases e2 : a = q
        · subst e2; rw [if_pos rfl]
          by_cases e3 : b = p
          · rw [if_pos e3]; omega
          · rw [if_neg e3]
            by_contra hlt2
            have hab2 := hlead b hab hb (by omega)
            have hup : Above t p b := by
              cases hab2 with
              | parent e =>
                rw [hpp] at e; injection e with e; injection e with e4 e5
                exact (e3 (slot_inj e4 e5).symm).elim
              | up e ha =>
                rw [hpp] at e; injection e with e; injection e with e4 e5
                rw [slot_inj e4 e5]; exact ha
            have hsum := above_sum h hup hp (.inl hlt)
            have hz : ∃ s, s < 2 * t.m ∧ s / 2 = p / 2 ∧ s ≠ p ∧ t.wt s = 0 := by
              rw [sum_eq] at hsum
              have : p = 2 * (p / 2) ∨ p = 2 * (p / 2) + 1 := by omega
              rcases this with e | e
              · rw [← e] at hsum
                exact ⟨p + 1, by omega, by omega, by omega, by omega⟩
              · refine ⟨p - 1, by omega, by omega, by omega, ?_⟩
                rw [← e, show 2 * (p / 2) = p - 1 by omega] at hsum; omega
            obtain ⟨s, s1, s2, s3, s4⟩ := hz
            rcases h.zero s s1 s4 with z | z | z
            · have := (h.nyt s s1 z).1; omega
            · omega
            · exact s3 (hs.node_inj s1 hp z hcp)
        · rw [if_neg e2]; split <;> omega
    · intro r i hr2 hc
      rw [f.m] at hr2; rw [hch] at hc
      have hn := hs.node r i hr2 hc
      by_cases e : r = p
      · subst e
        rw [hcp] at hc; injection hc with hc; subst hc
        rw [sum_q, hwt, if_neg hpq, if_pos rfl, hwp]
      · rw [if_neg e]
        have hi : i ≠ q / 2 := by
          rintro rfl; exact e (hs.node_inj hr2 hp hc hcp)
        rw [sum_other i hi, ← h.sums r i hr2 hc, hwt]
        by_cases e1 : r = q
        · simp [e1]
        · simp [e1]
    · rw [f.rootW, f.m, sum_other _ (by omega), h.rootSum]
    · intro r hr2 h0
      rw [f.m] at hr2; rw [hwt] at h0; rw [hch]
      by_cases e : r = q
      · rw [if_pos e] at h0; omega
      · rw [if_neg e] at h0
        rcases h.zero r hr2 h0 with hz | hz | hz
        · exact .inl hz
        · exact (e hz).elim
        · exact .inr (.inl (hs.node_inj hr2 hp hz hcp))

/-! ### The walk -/

/-- What `treeUpdate` does to a tree's leaves and sizes: the leaf `x`, if any, and the root weigh one more. -/
structure Grown (t u : Tree) (x : Option Key) : Prop where
  m : u.m = t.m
  root : u.root = t.root
  rootW : u.rootW = t.rootW + 1
  valid : u.valid = t.valid
  pairs : u.pairs.length = t.pairs.length
  locs : u.locSym.length = t.locSym.length
  leaves : SameLeaves t u
  weight : ∀ y, leafWeight u y = if x = some y then (leafWeight t y).map (· + 1) else leafWeight t y

theorem Grown.after {t u v : Tree} {x y : Option Key} (f : SameFrame t u) (hl : SameLeaves t u)
    (hw : ∀ z, leafWeight u z = if x = some z then (leafWeight t z).map (· + 1) else leafWeight t z) (g : Grown u v y) (hy : y = none) :
    Grown t v x := by
  refine ⟨g.m.trans f.m, g.root.trans f.root, by rw [g.rootW, f.rootW], g.valid.trans f.valid, g.pairs.trans f.pairs, g.locs.trans f.locs,
    fun z => (g.leaves z).trans (hl z), fun z => ?_⟩
  rw [g.weight z, if_neg (by rw [hy]; simp), hw]

/-- The end of the walk at the root: only the root's weight grows. -/
theorem climb_root {fuel : Nat} {t : Tree} (h : Settled t 1) (hm : 0 < t.m) :
    ∃ u, Tree.climb (fuel + 1) .atRoot t = .ok u ∧ Settled u 0 ∧ Grown t u none := by
  have hl : ∀ x, ({ t with rootW := t.rootW + 1 } : Tree).locOf x = t.locOf x := by intro x; cases x <;> rfl
  refine ⟨_, rfl, ⟨⟨h.shape.size, h.shape.root, h.shape.parent, h.shape.node, ?_, ?_⟩, h.order, h.sums, h.rootSum, h.zero, h.nyt⟩,
    ⟨rfl, rfl, rfl, rfl, rfl, rfl, fun x => by rw [hl], fun x => ?_⟩⟩
  · intro x q; rw [hl]; exact h.shape.slot x q
  · intro x; rw [hl]; exact h.shape.rootLoc x
  · rw [if_neg (by simp)]
    have hr : t.locOf x ≠ .atRoot := by
      rw [Ne, h.shape.rootLoc, (h.shape.root hm).1]; simp [Child.key?]
    rcases loc_cases t x with e | e | ⟨p, e⟩
    · rw [leafWeight_absent e, leafWeight_absent ((hl x).trans e)]
    · exact absurd e hr
    · rw [leafWeight_slot e, leafWeight_slot ((hl x).trans e)]; rfl

/-- The walk from position `q` ends at the root (42 R108). -/
theorem climb_ok : ∀ (fuel q : Nat) (t : Tree), Cur t q → t.m < fuel + q / 2 →
    ∃ u, Tree.climb fuel (.atSlot (q / 2) (slotOf q)) t = .ok u ∧ Settled u 0 ∧ Grown t u (t.ch q).key? := by
  intro fuel
  induction fuel with
  | zero => intro q t h hf; have := h.pos; omega
  | succ fuel ih =>
    intro q t h hf
    obtain ⟨p, u, g1, g2, g3, g4, g5, g6, g7, g8, g9, g10⟩ := slide_ok (2 * t.m + 1) q t h (by omega)
    obtain ⟨hnext, f, hl, hw⟩ := grow_ok g2 g10
    have hpos := h.pos
    have hm : 0 < (u.setWeight p (u.wt p + 1)).m := by rw [f.m, g4.m]; omega
    obtain ⟨fuel, rfl⟩ : ∃ n, fuel = n + 1 := ⟨fuel - 1, by omega⟩
    unfold Tree.climb
    simp only [slotPos_slotOf, g1, bind, Except.bind]
    rw [← g7]
    have hw2 : ∀ z, leafWeight (u.setWeight p (u.wt p + 1)) z
        = if (t.ch q).key? = some z then (leafWeight t z).map (· + 1) else leafWeight t z := by
      intro z; rw [hw z, g5, g9 z]
    have hl2 : SameLeaves t (u.setWeight p (u.wt p + 1)) := fun z => (hl z).trans (g8 z)
    rcases hnext with ⟨e, hs⟩ | ⟨r, e, hc, hlt, i, hi⟩
    · rw [e]
      obtain ⟨v, v1, v2, v3⟩ := climb_root (fuel := fuel) hs hm
      exact ⟨v, v1, v2, v3.after (g4.trans f) hl2 hw2 rfl⟩
    · rw [e]
      obtain ⟨v, v1, v2, v3⟩ := ih r _ hc (by rw [f.m, g4.m]; omega)
      exact ⟨v, v1, v2, v3.after (g4.trans f) hl2 hw2 (by rw [hi]; rfl)⟩

/-! ### Before and after -/

/-- A tree ready for `treeUpdate` of leaf `x` in a slot: settled, but for the zero weights that a split has just made (42 R109). -/
structure Ready (t : Tree) (q : Nat) : Prop where
  shape : Shape t
  pos : q < 2 * t.m
  order : ∀ a b, a < b → b < 2 * t.m → t.wt a ≤ t.wt b
  sums : ∀ p i, p < 2 * t.m → t.ch p = .node i → t.wt p = (t.pairAt i).sum
  rootSum : t.rootW = (t.pairAt (t.m - 1)).sum
  zero : ∀ p, p < 2 * t.m → t.wt p = 0 → t.ch p = .nyt ∨ p = q ∨ t.ch p = .node (q / 2)
  nyt : ∀ p, p < 2 * t.m → t.ch p = .nyt → p = 0 ∧ t.wt p = 0

theorem update_slot {t : Tree} {q a : Nat} (h : Ready t q) (hc : t.ch q = .leaf a) (hw : t.rootW < Config.countMax) :
    ∃ u, treeUpdate (.sym a) t = .ok u ∧ Settled u 0 ∧ Grown t u (some (.sym a)) := by
  have hcur : Cur t q := by
    refine ⟨h.shape, h.pos, fun a b hab hb => le_trans (h.order a b hab hb) (Nat.le_add_right _ _), fun p i hp hi => ?_, h.rootSum, h.zero, h.nyt,
      by rw [hc]; simp⟩
    rw [if_neg, h.sums p i hp hi, Nat.add_zero]
    rintro rfl; rw [hc] at hi; exact absurd hi (by simp)
  obtain ⟨u, h1, h2, h3⟩ := climb_ok t.walkFuel q t hcur (by unfold Tree.walkFuel; omega)
  have hk : (t.ch q).key? = some (.sym a) := by rw [hc]; rfl
  refine ⟨u, ?_, h2, by rw [hk] at h3; exact h3⟩
  rw [treeUpdate, if_neg (by omega), (h.shape.slot (.sym a) q).2 ⟨h.pos, hk⟩]; exact h1

/-- A settled tree whose leaves are those the configuration allows meets the invariants (42 R102). -/
theorem Settled.treeOk {k : Nat} {g : Bool} {t : Tree} (h : Settled t 0) (hroot : t.m = 0 → t.root.key? ≠ none)
    (halpha : ∀ a, t.locOf (.sym a) ≠ .absent → a < k) (hg : g = true → t.locNyt ≠ .absent)
    (hng : g = false → t.locNyt = .absent ∧ ∀ a, a < k → t.locOf (.sym a) ≠ .absent) (hn : t.root = .nyt → t.rootW = 0)
    (hl : ∀ a, t.root = .leaf a → 1 ≤ t.rootW) (hm : t.m ≤ k) (hw : t.rootW ≤ Config.countMax) : TreeOk k g t where
  ordered := fun q hq => h.order q (q + 1) (by omega) hq
  root_node := h.shape.root
  root_leaf := hroot
  parent_later := fun i hi => by
    obtain ⟨q, h1, h2, h3, h4⟩ := h.shape.parent i hi
    exact ⟨q / 2, slotOf q, h4, h2, by omega, by rw [child_eq_ch, slotPos_slotOf, h3]⟩
  child_once := fun q i hq hc => ⟨(h.shape.node q i hq hc).1, (h.shape.node q i hq hc).2.2⟩
  slot_sum := h.sums
  root_sum := fun h0 => by have := h.rootSum h0; omega
  loc_slot := fun x j b => by
    have := h.shape.slot x (slotPos j b)
    rw [slotPos_div, slotOf_slotPos] at this
    rw [this, child_eq_ch]
    constructor
    · rintro ⟨a, c⟩
      refine ⟨?_, c⟩
      cases b <;> simp [slotPos] at a <;> omega
    · rintro ⟨a, c⟩; exact ⟨slotPos_lt a, c⟩
  loc_root := h.shape.rootLoc
  in_alphabet := halpha
  nyt_present := hg
  nyt_weight := fun q hq hc => (h.nyt q hq hc).2
  nyt_root_weight := hn
  all_present := hng
  leaf_weight := fun q a hq hc => by
    by_contra h0
    have := h.zero q hq (by omega); rw [hc] at this; exact absurd this (by simp)
  leaf_root_weight := hl
  size := hm
  weight_max := hw

/-- A tree that meets the invariants is settled: only the NYT, at position 0, has weight 0. -/
theorem TreeOk.settled {k : Nat} {g : Bool} {t : Tree} (h : TreeOk k g t) (hlen : t.m ≤ t.pairs.length) : Settled t 0 := by
  have hs := h.shape hlen
  have horder : ∀ b a, a ≤ b → b < 2 * t.m → t.wt a ≤ t.wt b := by
    intro b
    induction b with
    | zero => intro a ha _; rw [Nat.le_zero.1 ha]
    | succ b ih =>
      intro a ha hb
      by_cases e : a = b + 1
      · rw [e]
      · exact le_trans (ih a (by omega) (by omega)) (h.ordered b hb)
  have hzero : ∀ n p, p ≤ n → p < 2 * t.m → t.wt p = 0 → t.ch p = .nyt := by
    intro n
    induction n using Nat.strong_induction_on with
    | _ n ih =>
      intro p hpn hp h0
      cases hc : t.ch p with
      | nyt => rfl
      | leaf a => have := h.leaf_weight p a hp hc; omega
      | node i =>
        exfalso
        have hn := hs.node p i hp hc
        have hsum := h.slot_sum p i hp hc
        rw [h0, sum_eq] at hsum
        have h1 := ih (2 * i) (by omega) (2 * i) (le_refl _) (by omega) (by omega)
        have h2 := ih (2 * i + 1) (by omega) (2 * i + 1) (le_refl _) (by omega) (by omega)
        have := hs.child_inj (p := 2 * i) (q := 2 * i + 1) (by omega) (by omega) (h1.trans h2.symm)
        omega
  refine ⟨hs, fun a b hab hb => horder b a (by omega) hb, h.slot_sum, fun h0 => by rw [h.root_sum h0]; rfl, fun p hp h0 => hzero p p (le_refl _) hp h0, ?_⟩
  intro p hp hc
  have h0 := h.nyt_weight p hp hc
  refine ⟨?_, h0⟩
  have := horder p 0 (by omega) hp
  have h1 := hzero 0 0 (le_refl _) (by omega) (by omega)
  exact hs.child_inj hp (by omega) (hc.trans h1.symm)

theorem Settled.ready {t : Tree} (h : Settled t 0) {q : Nat} (hq : q < 2 * t.m) : Ready t q :=
  ⟨h.shape, hq, h.order, h.sums, by rw [← h.rootSum (by omega)]; rfl, fun p hp h0 => .inl (h.zero p hp h0), h.nyt⟩

theorem locNyt_iff {t u : Tree} (h : SameLeaves t u) : u.locNyt = .absent ↔ t.locNyt = .absent := h .nyt

/-- `treeUpdate` of a symbol of the tree (42 R108): its weight and the root's grow by 1, and the invariants are kept. -/
theorem treeUpdate_ok {k a : Nat} {g : Bool} {t : Tree} (h : TreeOk k g t) (hlen : t.m ≤ t.pairs.length) (ha : t.locOf (.sym a) ≠ .absent)
    (hw : t.rootW < Config.countMax) : ∃ u, treeUpdate (.sym a) t = .ok u ∧ TreeOk k g u ∧ Grown t u (some (.sym a)) := by
  have hset := h.settled hlen
  have fin : ∀ u, Settled u 0 → Grown t u (some (.sym a)) → (t.m = 0 → t.root = .leaf a) → TreeOk k g u := by
    intro u hu hg hr
    refine hu.treeOk ?_ ?_ ?_ ?_ ?_ ?_ ?_ ?_
    · rw [hg.m, hg.root]; exact h.root_leaf
    · intro b hb; exact h.in_alphabet b (fun e => hb ((hg.leaves _).2 e))
    · intro e hn; exact h.nyt_present e ((locNyt_iff hg.leaves).1 hn)
    · intro e; exact ⟨(locNyt_iff hg.leaves).2 (h.all_present e).1, fun b hb hn => (h.all_present e).2 b hb ((hg.leaves _).1 hn)⟩
    · rw [hg.root]; intro e
      by_cases h0 : t.m = 0
      · rw [hr h0] at e; exact absurd e (by simp)
      · rw [(h.root_node (by omega)).1] at e; exact absurd e (by simp)
    · intro b hb; rw [hg.rootW]; omega
    · rw [hg.m]; exact h.size
    · rw [hg.rootW]; omega
  rcases loc_cases t (.sym a) with e | e | ⟨q, e⟩
  · exact absurd e ha
  · have hroot : t.root = .leaf a := by
      have := (h.loc_root _).1 e
      cases hc : t.root with
      | leaf b => rw [hc] at this; simp [Child.key?] at this; rw [this]
      | nyt => rw [hc] at this; simp [Child.key?] at this
      | node i => rw [hc] at this; simp [Child.key?] at this
    have hm : t.m = 0 := by
      by_contra h0
      have := (h.root_node (by omega)).1
      rw [hroot] at this; exact absurd this (by simp)
    have hl : ∀ x, ({ t with rootW := t.rootW + 1 } : Tree).locOf x = t.locOf x := by intro x; cases x <;> rfl
    have hgr : Grown t { t with rootW := t.rootW + 1 } (some (.sym a)) := by
      refine ⟨rfl, rfl, rfl, rfl, rfl, rfl, fun x => by rw [hl], fun x => ?_⟩
      split
      · rename_i hx; injection hx with hx; subst hx
        simp only [leafWeight, hl, e]; rfl
      · rename_i hx
        have hr : t.locOf x ≠ .atRoot := by
          intro hr
          have := (h.loc_root _).1 hr
          rw [hroot] at this; exact hx this
        simp only [leafWeight, hl]
        cases h2 : t.locOf x with
        | absent => rfl
        | atRoot => exact absurd h2 hr
        | atSlot j b => rfl
    have hs := hset.shape
    refine ⟨{ t with rootW := t.rootW + 1 }, by rw [treeUpdate, if_neg (by omega), e]; rfl, fin _ ⟨⟨hs.size, hs.root, hs.parent, hs.node, ?_, ?_⟩, hset.order, hset.sums, ?_,
      hset.zero, hset.nyt⟩ hgr fun _ => hroot, hgr⟩
    · intro x q; rw [hl]; exact hs.slot x q
    · intro x; rw [hl]; exact hs.rootLoc x
    · intro h0; exact absurd h0 (by show ¬ 0 < t.m; omega)
  · have hq := (hset.shape.slot _ q).1 e
    have hc : t.ch q = .leaf a := by
      cases hc : t.ch q with
      | leaf b => rw [hc] at hq; simp [Child.key?] at hq; rw [hq.2]
      | nyt => rw [hc] at hq; simp [Child.key?] at hq
      | node i => rw [hc] at hq; simp [Child.key?] at hq
    obtain ⟨u, h1, h2, h3⟩ := update_slot (hset.ready hq.1) hc hw
    exact ⟨u, h1, fin u h2 h3 (fun h0 => by omega), h3⟩

/-- `treeValidate` of a tree that meets the invariants finds no defect (42 R110). -/
theorem treeValidate_ok {k : Nat} {g : Bool} {t : Tree} (h : TreeOk k g t) : treeValidate t = .ok () := by
  have h1 : t.weightsOrdered = true := by
    simp only [Tree.weightsOrdered, List.all_eq_true, List.mem_range, decide_eq_true_eq]
    exact fun q hq => h.ordered q (by omega)
  rw [treeValidate, if_neg (by simp [h1])]
  by_cases h0 : t.m = 0
  · rw [if_pos h0]
  · have hr := h.root_node (by omega)
    have h2 : t.rootPairOk = true := by simp [Tree.rootPairOk, hr.1, hr.2]
    have h3 : (List.range (t.m - 1)).all t.parentOk = true := by
      simp only [List.all_eq_true, List.mem_range]
      intro i hi
      obtain ⟨j, b, e1, e2, e3, e4⟩ := h.parent_later i (by omega)
      simp [Tree.parentOk, e1, e2, e4]
    have h4 : (List.range (t.m - 1)).all t.sumOk = true := by
      simp only [List.all_eq_true, List.mem_range]
      intro i hi
      obtain ⟨j, b, e1, e2, e3, e4⟩ := h.parent_later i (by omega)
      have := h.slot_sum (slotPos j b) i (slotPos_lt e3) (by rw [← child_eq_ch, e4])
      simp [Tree.sumOk, e1, this]
    rw [if_neg h0, if_neg (by simp [h2]), if_neg (by simp [h3]), if_neg (by simp [h4]), if_neg]
    rw [h.root_sum (by omega)]; exact fun hn => hn rfl

end Sys2Proof.Machine
end

