-- ==== Sys2Proof/Laws/TreeSplit.lean ====
section
/-! SUPPORT. What `treeSplit` (42 R109) does to a tree, and how large a tree can be. -/

namespace Sys2Proof.Machine

/-! ### Size -/

/-- A tree that lacks a symbol of the alphabet has room for one more pair (10 R28). -/
theorem TreeOk.room {k a : Nat} {g : Bool} {t : Tree} (h : TreeOk k g t) (hlen : t.m ≤ t.pairs.length) (ha : a < k)
    (habs : t.locOf (.sym a) = .absent) : t.m + 1 ≤ k := by
  by_cases h0 : t.m = 0
  · omega
  have hs := h.shape hlen
  let code : Nat → Nat ⊕ (Nat ⊕ Unit) := fun q => match t.ch q with
    | .node i => .inl i
    | .leaf b => .inr (.inl b)
    | .nyt => .inr (.inr ())
  let target : Finset (Nat ⊕ (Nat ⊕ Unit)) := (Finset.range (t.m - 1)).disjSum (((Finset.range k).erase a).disjSum {()})
  have hcard : (Finset.range (2 * t.m)).card ≤ target.card := by
    refine Finset.card_le_card_of_injOn code ?_ ?_
    · intro q hq
      have hq := Finset.mem_range.1 (Finset.mem_coe.1 hq)
      simp only [target, code, Finset.mem_coe]
      cases hc : t.ch q with
      | node i => have := (hs.node q i hq hc).1; simp; omega
      | nyt => simp
      | leaf b =>
        have hloc := (hs.slot (.sym b) q).2 ⟨hq, by rw [hc]; rfl⟩
        have hb := h.in_alphabet b (by rw [hloc]; simp)
        have : b ≠ a := by rintro rfl; rw [habs] at hloc; exact absurd hloc (by simp)
        simp [hb, this]
    · intro p hp q hq e
      have hp := Finset.mem_range.1 (Finset.mem_coe.1 hp)
      have hq := Finset.mem_range.1 (Finset.mem_coe.1 hq)
      refine hs.child_inj hp hq ?_
      simp only [code] at e
      cases hc : t.ch p <;> cases hc2 : t.ch q <;> simp_all
  simp only [target, Finset.card_range, Finset.card_disjSum, Finset.card_erase_of_mem (Finset.mem_range.2 ha), Finset.card_singleton] at hcard
  omega

/-! ### The split -/

theorem pairAt_shift {t : Tree} (h : t.m < t.pairs.length) (i : Nat) (hi : i < t.m) : t.shiftPairs.pairAt (i + 1) = (t.pairAt i).renumber := by
  have h1 : t.pairs[i]? = some (t.pairAt i) := by
    rw [Tree.pairAt, List.getElem?_eq_getElem (by omega)]; rfl
  show (((Pair.reset :: (t.pairs.take t.m).map Pair.renumber ++ t.pairs.drop (t.m + 1)).take t.pairs.length)[i + 1]?).getD Pair.reset = _
  rw [List.getElem?_take_of_lt (by omega), List.cons_append, List.getElem?_cons_succ, List.getElem?_append_left (by simp; omega),
    List.getElem?_map, List.getElem?_take_of_lt hi, h1]
  rfl

theorem length_shift {t : Tree} (h : t.m < t.pairs.length) : t.shiftPairs.pairs.length = t.pairs.length := by
  simp [Tree.shiftPairs]; omega

theorem Pair.weight_renumber (p : Pair) (b : Bool) : p.renumber.weight b = p.weight b := by cases b <;> rfl
theorem Pair.child_renumber (p : Pair) (b : Bool) : p.renumber.child b = (p.child b).renumber := by cases b <;> rfl

theorem key_renumber (c : Child) : c.renumber.key? = c.key? := by cases c <;> rfl

theorem locOf_shift (t : Tree) (x : Key) : t.shiftPairs.locOf x = (t.locOf x).renumber := by
  cases x with
  | nyt => rfl
  | sym a =>
    simp only [Tree.locOf, Tree.shiftPairs, List.getElem?_map]
    cases t.locSym[a]? <;> rfl

/-- What `treeSplit` gives: a new pair in front of the others, with the NYT and the new symbol, both of weight 0. -/
structure Split (t u : Tree) (a : Nat) : Prop where
  m : u.m = t.m + 1
  rootW : u.rootW = t.rootW
  valid : u.valid = t.valid
  pairs : u.pairs.length = t.pairs.length
  locs : u.locSym.length = t.locSym.length
  ready : Ready u 1
  leaf : u.ch 1 = .leaf a
  absent : ∀ x, x ≠ .sym a → (u.locOf x = .absent ↔ t.locOf x = .absent)
  present : u.locOf (.sym a) ≠ .absent
  weight : ∀ x, leafWeight u x = if x = .sym a then some 0 else leafWeight t x
  newLeaf : NewLeaf t a u

/-- The references of a grown tree follow from its shape. -/
theorem newLeaf_of_shape {t u : Tree} {a : Nat} (h : Shape u) (hm : u.m = t.m + 1) (hw : u.rootW = t.rootW)
    (h0 : u.ch 0 = .nyt ∧ u.ch 1 = .leaf a ∧ u.wt 0 = 0 ∧ u.wt 1 = 0) (hwt : ∀ p, p < 2 * t.m → u.wt (p + 2) = t.wt p)
    (hch : ∀ p, p < 2 * t.m → u.ch (p + 2) = match t.ch p with
      | .nyt => .node 0
      | .leaf b => .leaf b
      | .node i => .node (i + 1)) : NewLeaf t a u := by
  have hr := h.root (by omega)
  rw [hm, Nat.add_sub_cancel] at hr
  exact ⟨hm, hr.1, hw, h0, hwt, hch, fun q i hq hc => (h.node q i hq hc).2.2, hr.2, h.slot, fun x hx => by
    have := (h.rootLoc x).1 hx; rw [hr.1] at this; exact absurd this (by simp [Child.key?])⟩

theorem treeSplit_ok {k a : Nat} {g : Bool} {t : Tree} (h : TreeOk k g t) (hlen : t.m < t.pairs.length) (hal : a < t.locSym.length)
    (ha : t.locOf (.sym a) = .absent) (hn : t.locNyt ≠ .absent) : ∃ u, treeSplit a t = .ok u ∧ Split t u a := by
  have hset := h.settled hlen.le
  have hs := hset.shape
  rcases loc_cases t .nyt with e | e | ⟨q, e⟩
  · exact absurd e hn
  · -- the tree is the NYT alone
    have hroot : t.root = .nyt := by
      have := (hs.rootLoc _).1 e
      cases hc : t.root with
      | nyt => rfl
      | leaf b => rw [hc] at this; simp [Child.key?] at this
      | node i => rw [hc] at this; simp [Child.key?] at this
    have hm : t.m = 0 := by
      by_contra h0
      have := (hs.root (by omega)).1
      rw [hroot] at this; exact absurd this (by simp)
    have hw := h.nyt_root_weight hroot
    have hlocs : ∀ x, x ≠ .nyt → t.locOf x = .absent := by
      intro x hx
      rcases loc_cases t x with e2 | e2 | ⟨q, e2⟩
      · exact e2
      · have := (hs.rootLoc x).1 e2
        rw [hroot] at this; exact absurd (Option.some.inj this).symm hx
      · have := (hs.slot x q).1 e2; omega
    let t1 : Tree := { t.setPair 0 (splitPair a none) with m := 1, root := .node 0 }
    let u := (t1.setLoc .nyt (.atSlot 0 false)).setLoc (.sym a) (.atSlot 0 true)
    have hu : treeSplit a t = .ok u := by simp only [treeSplit, show t.locNyt = .atRoot from e]; rfl
    have f : SameFrame t1 u := (sameFrame_setLoc _ _ _).trans (sameFrame_setLoc _ _ _)
    have hlo : ∀ x, u.locOf x = if x = .sym a then .atSlot 0 true else if x = .nyt then .atSlot 0 false else .absent := by
      intro x
      rw [locOf_setLoc _ _ _ _ (by exact hal), locOf_setLoc _ .nyt _ _ (by trivial)]
      split
      · rfl
      · split
        · rfl
        · rename_i h1 h2; rw [← hlocs x h2]; cases x <;> rfl
    have hp0 : u.pairAt 0 = splitPair a none := by
      have : t1.pairAt 0 = splitPair a none := by
        show (t.setPair 0 _).pairAt 0 = _
        rw [pairAt_setPair, if_pos ⟨rfl, by omega⟩]
      simp [u, this]
    have c0 : u.ch 0 = .nyt := by simp [Tree.ch, hp0, slotOf, Pair.child, splitPair]
    have c1 : u.ch 1 = .leaf a := by simp [Tree.ch, hp0, slotOf, Pair.child, splitPair]
    have w0 : u.wt 0 = 0 := by simp [Tree.wt, hp0, slotOf, Pair.weight, splitPair]
    have w1 : u.wt 1 = 0 := by simp [Tree.wt, hp0, slotOf, Pair.weight, splitPair]
    have um : u.m = 1 := f.m
    have two : ∀ q, q < 2 * u.m → q = 0 ∨ q = 1 := by intro q hq; rw [um] at hq; omega
    have hshape : Shape u := by
      constructor
      · rw [um, f.pairs]; show 1 ≤ (t.setPair 0 _).pairs.length; rw [(sameFrame_setPair _ _ _).pairs]; omega
      · intro _; rw [um, hp0, f.root]; exact ⟨rfl, rfl⟩
      · intro i hi; omega
      · intro q i hq hc
        rcases two q hq with rfl | rfl
        · rw [c0] at hc; exact absurd hc (by simp)
        · rw [c1] at hc; exact absurd hc (by simp)
      · intro x q
        rw [hlo]
        constructor
        · intro e2
          split at e2
          · rename_i hx; injection e2 with e3 e4
            have : q = 1 := slot_inj (by simpa using e3.symm) (by rw [← e4]; rfl)
            subst this; exact ⟨by omega, by rw [c1, hx]; rfl⟩
          · split at e2
            · rename_i hx; injection e2 with e3 e4
              have : q = 0 := slot_inj (by simpa using e3.symm) (by rw [← e4]; rfl)
              subst this; exact ⟨by omega, by rw [c0, hx]; rfl⟩
            · exact absurd e2 (by simp)
        · rintro ⟨hq, hk⟩
          rcases two q hq with rfl | rfl
          · rw [c0] at hk; simp [Child.key?] at hk; subst hk; simp [slotOf]
          · rw [c1] at hk; simp [Child.key?] at hk; subst hk; simp [slotOf]
      · intro x
        rw [hlo, f.root]
        refine ⟨fun e2 => ?_, fun e2 => ?_⟩
        · split at e2
          · exact absurd e2 (by simp)
          · split at e2 <;> exact absurd e2 (by simp)
        · exact absurd e2 (by simp [t1, Child.key?])
    refine ⟨u, hu, ⟨by rw [um, hm], f.rootW, f.valid, f.pairs.trans (sameFrame_setPair _ _ _).pairs, f.locs, ⟨hshape, by omega, ?_, ?_, ?_, ?_, ?_⟩,
      c1, ?_, ?_, ?_, newLeaf_of_shape hshape (by omega) f.rootW ⟨c0, c1, w0, w1⟩ (fun p hp => by omega) (fun p hp => by omega)⟩⟩
    · intro p q hpq hq
      rcases two q hq with rfl | rfl
      · omega
      · rcases two p (by omega) with rfl | rfl
        · rw [w0, w1]
        · omega
    · intro p i hp hc; exact absurd (hshape.node p i hp hc).1 (by omega)
    · rw [f.rootW, um, sum_eq, w0, w1]; exact hw
    · intro p hp _
      rcases two p hp with rfl | rfl
      · exact .inl c0
      · exact .inr (.inl rfl)
    · intro p hp hc
      rcases two p hp with rfl | rfl
      · exact ⟨rfl, w0⟩
      · rw [c1] at hc; exact absurd hc (by simp)
    · intro x hx
      rw [hlo, if_neg hx]
      split
      · rename_i h2; rw [h2, show t.locOf .nyt = .atRoot from e]; simp
      · rename_i h2; rw [hlocs x h2]
    · rw [hlo, if_pos rfl]; simp
    · intro x
      have := hlo x
      split
      · rename_i hx; rw [if_pos hx] at this
        rw [leafWeight_slot (q := 1) this, w1]
      · rename_i hx; rw [if_neg hx] at this
        split at this
        · rename_i h2; subst h2
          rw [leafWeight_slot (q := 0) this, w0]
          simp [leafWeight, show t.locOf .nyt = .atRoot from e, hw]
        · rename_i h2
          rw [leafWeight_absent this, leafWeight_absent (hlocs x h2)]
  · -- the NYT is in slot 0 of pair 0
    obtain ⟨hq, hkq⟩ := (hs.slot _ q).1 e
    have hcq : t.ch q = .nyt := by
      cases hc : t.ch q with
      | nyt => rfl
      | leaf b => rw [hc] at hkq; simp [Child.key?] at hkq
      | node i => rw [hc] at hkq; simp [Child.key?] at hkq
    obtain ⟨rfl, hw0⟩ := hset.nyt q hq hcq
    have hroot := hs.root (by omega)
    let t1 := t.shiftPairs
    let t2 := t1.setPair 0 (splitPair a (some (1, false)))
    let t3 := t2.setPair 1 ((t2.pairAt 1).withChild false (.node 0))
    let u := (t3.setLoc .nyt (.atSlot 0 false)).setLoc (.sym a) (.atSlot 0 true)
    have hu : treeSplit a t = .ok u := by
      simp only [treeSplit, show t.locNyt = .atSlot 0 false from e]
      rfl
    have l1 : t1.pairs.length = t.pairs.length := length_shift hlen
    have l2 : t2.pairs.length = t.pairs.length := (sameFrame_setPair _ _ _).pairs.trans l1
    have f : SameFrame t1 u :=
      (((sameFrame_setPair t1 0 _).trans (sameFrame_setPair t2 1 _)).trans (sameFrame_setLoc _ _ _)).trans (sameFrame_setLoc _ _ _)
    have hlo : ∀ x, u.locOf x = if x = .sym a then .atSlot 0 true else if x = .nyt then .atSlot 0 false else (t.locOf x).renumber := by
      intro x
      have hal1 : a < t1.locSym.length := by simp [t1, Tree.shiftPairs, hal]
      rw [locOf_setLoc _ _ _ _ (by exact hal1), locOf_setLoc _ .nyt _ _ (by trivial)]
      simp only [t3, t2, locOf_setPair]
      rw [← locOf_shift]
    have hpu : ∀ i, u.pairAt i = t3.pairAt i := by intro i; simp [u]
    have hp0 : u.pairAt 0 = splitPair a (some (1, false)) := by
      rw [hpu]; simp only [t3, t2]
      rw [pairAt_setPair, if_neg (by omega), pairAt_setPair, if_pos ⟨rfl, by omega⟩]
    have hp1 : u.pairAt 1 = (t.pairAt 0).renumber.withChild false (.node 0) := by
      rw [hpu]; simp only [t3]
      rw [pairAt_setPair, if_pos ⟨rfl, by omega⟩]; simp only [t2]
      rw [pairAt_setPair, if_neg (by omega)]
      rw [show t1.pairAt 1 = (t.pairAt 0).renumber from pairAt_shift hlen 0 (by omega)]
    have hps : ∀ i, 0 < i → i < t.m → u.pairAt (i + 1) = (t.pairAt i).renumber := by
      intro i h0 hi
      rw [hpu]; simp only [t3, t2]
      rw [pairAt_setPair, if_neg (by omega), pairAt_setPair, if_neg (by omega)]
      exact pairAt_shift hlen i hi
    have c0 : u.ch 0 = .nyt := by simp [Tree.ch, hp0, slotOf, Pair.child, splitPair]
    have c1 : u.ch 1 = .leaf a := by simp [Tree.ch, hp0, slotOf, Pair.child, splitPair]
    have w0 : u.wt 0 = 0 := by simp [Tree.wt, hp0, slotOf, Pair.weight, splitPair]
    have w1 : u.wt 1 = 0 := by simp [Tree.wt, hp0, slotOf, Pair.weight, splitPair]
    have hslot : ∀ p, slotOf (p + 2) = slotOf p := by intro p; simp [slotOf]
    have wS : ∀ p, p < 2 * t.m → u.wt (p + 2) = t.wt p := by
      intro p hp
      have hd : (p + 2) / 2 = p / 2 + 1 := by omega
      simp only [Tree.wt, hd, hslot]
      by_cases h0 : p / 2 = 0
      · rw [h0, hp1, Pair.weight_withChild, Pair.weight_renumber]
      · rw [hps _ (by omega) (by omega), Pair.weight_renumber]
    have cS : ∀ p, p < 2 * t.m → u.ch (p + 2) = if p = 0 then .node 0 else (t.ch p).renumber := by
      intro p hp
      have hd : (p + 2) / 2 = p / 2 + 1 := by omega
      simp only [Tree.ch, hd, hslot]
      by_cases h0 : p / 2 = 0
      · rw [h0, hp1, Pair.child_withChild, Pair.child_renumber]
        have : p = 0 ∨ p = 1 := by omega
        rcases this with rfl | rfl <;> simp [slotOf]
      · rw [hps _ (by omega) (by omega), Pair.child_renumber, if_neg (by omega)]
    have pS : ∀ i, i < t.m → (u.pairAt (i + 1)).parent = (t.pairAt i).parent.map fun r => (r.1 + 1, r.2) := by
      intro i hi
      by_cases h0 : i = 0
      · subst h0; rw [hp1, Pair.parent_withChild]; rfl
      · rw [hps i (by omega) hi]; rfl
    have um : u.m = t.m + 1 := f.m
    have split3 : ∀ q, q < 2 * u.m → q = 0 ∨ q = 1 ∨ ∃ p, q = p + 2 ∧ p < 2 * t.m := by
      intro q hq; rw [um] at hq
      rcases q with _ | _ | q
      · exact .inl rfl
      · exact .inr (.inl rfl)
      · exact .inr (.inr ⟨q, rfl, by omega⟩)
    have node_of : ∀ p i, p < 2 * t.m → p ≠ 0 → (t.ch p).renumber = .node i → ∃ j, i = j + 1 ∧ t.ch p = .node j := by
      intro p i hp h0 hc
      cases h2 : t.ch p with
      | node j => rw [h2] at hc; injection hc with hc; exact ⟨j, hc.symm, rfl⟩
      | leaf b => rw [h2] at hc; exact absurd hc (by simp [Child.renumber])
      | nyt => rw [h2] at hc; exact absurd hc (by simp [Child.renumber])
    have hshape : Shape u := by
      constructor
      · rw [um, f.pairs, l1]; omega
      · intro _
        rw [um, f.root]
        refine ⟨?_, ?_⟩
        · show t.root.renumber = _; rw [hroot.1]; show Child.node _ = _; congr 1; omega
        · have := pS (t.m - 1) (by omega)
          rw [show t.m + 1 - 1 = t.m - 1 + 1 by omega, this, hroot.2]; rfl
      · intro i hi
        rcases i with _ | i
        · exact ⟨2, by omega, by omega, by rw [show 2 = 0 + 2 from rfl, cS 0 (by omega), if_pos rfl], by rw [hp0]; rfl⟩
        · obtain ⟨p, h1, h2, h3, h4⟩ := hs.parent i (by omega)
          have hp0' : p ≠ 0 := by omega
          refine ⟨p + 2, by omega, by omega, by rw [cS p h1, if_neg hp0', h3]; rfl, ?_⟩
          rw [pS i (by omega), h4, hslot]
          simp
      · intro q i hq2 hc
        rcases split3 q hq2 with rfl | rfl | ⟨p, rfl, hp⟩
        · rw [c0] at hc; exact absurd hc (by simp)
        · rw [c1] at hc; exact absurd hc (by simp)
        · rw [cS p hp] at hc
          by_cases h0 : p = 0
          · rw [if_pos h0] at hc; injection hc with hc; subst hc; subst h0
            exact ⟨by omega, by omega, by rw [hp0]; rfl⟩
          · rw [if_neg h0] at hc
            obtain ⟨j, rfl, hj⟩ := node_of p i hp h0 hc
            have := hs.node p j hp hj
            exact ⟨by omega, by omega, by rw [pS j (by omega), this.2.2, hslot]; simp⟩
      · intro x q
        rw [hlo]
        constructor
        · intro e2
          split at e2
          · rename_i hx; injection e2 with e3 e4
            have : q = 1 := slot_inj (by simpa using e3.symm) (by rw [← e4]; rfl)
            subst this; exact ⟨by omega, by rw [c1, hx]; rfl⟩
          · split at e2
            · rename_i hx; injection e2 with e3 e4
              have : q = 0 := slot_inj (by simpa using e3.symm) (by rw [← e4]; rfl)
              subst this; exact ⟨by omega, by rw [c0, hx]; rfl⟩
            · rename_i hx hx2
              rcases loc_cases t x with e3 | e3 | ⟨p, e3⟩
              · rw [e3] at e2; exact absurd e2 (by simp [Loc.renumber])
              · rw [e3] at e2; exact absurd e2 (by simp [Loc.renumber])
              · rw [e3] at e2; injection e2 with e4 e5
                have : q = p + 2 := slot_inj (by omega) (by rw [hslot, e5])
                subst this
                obtain ⟨g1, g2⟩ := (hs.slot x p).1 e3
                have h0 : p ≠ 0 := by
                  rintro rfl; rw [hcq] at g2; injection g2 with g2; exact hx2 g2.symm
                exact ⟨by omega, by rw [cS p g1, if_neg h0, key_renumber, g2]⟩
        · rintro ⟨hq2, hk⟩
          rcases split3 q hq2 with rfl | rfl | ⟨p, rfl, hp⟩
          · rw [c0] at hk; simp [Child.key?] at hk; subst hk; simp [slotOf]
          · rw [c1] at hk; simp [Child.key?] at hk; subst hk; simp [slotOf]
          · rw [cS p hp] at hk
            by_cases h0 : p = 0
            · rw [if_pos h0] at hk; exact absurd hk (by simp [Child.key?])
            · rw [if_neg h0, key_renumber] at hk
              have e3 := (hs.slot x p).2 ⟨hp, hk⟩
              have hx : x ≠ .sym a := by rintro rfl; rw [ha] at e3; exact absurd e3 (by simp)
              have hx2 : x ≠ .nyt := by
                rintro rfl; exact h0 (hs.key_inj hp hq hk (by rw [hcq]; rfl))
              rw [if_neg hx, if_neg hx2, e3, hslot]
              show Loc.atSlot _ _ = _; congr 1; omega
      · intro x
        rw [hlo, f.root]
        have hr : (t1.root).key? = none := by show t.root.renumber.key? = none; rw [hroot.1]; rfl
        rw [hr]
        refine ⟨fun e2 => ?_, fun e2 => absurd e2 (by simp)⟩
        split at e2
        · exact absurd e2 (by simp)
        · split at e2
          · exact absurd e2 (by simp)
          · rcases loc_cases t x with e3 | e3 | ⟨p, e3⟩
            · rw [e3] at e2; exact absurd e2 (by simp [Loc.renumber])
            · have := (hs.rootLoc x).1 e3; rw [hroot.1] at this; exact absurd this (by simp [Child.key?])
            · rw [e3] at e2; exact absurd e2 (by simp [Loc.renumber])
    have sumS : ∀ i, i < t.m → (u.pairAt (i + 1)).sum = (t.pairAt i).sum := by
      intro i hi
      rw [sum_eq, sum_eq, show 2 * (i + 1) = 2 * i + 2 by omega, show 2 * i + 2 + 1 = (2 * i + 1) + 2 by omega, wS _ (by omega), wS _ (by omega)]
    refine ⟨u, hu, ⟨um, f.rootW, f.valid, f.pairs.trans l1, f.locs.trans (by simp [t1, Tree.shiftPairs]), ⟨hshape, by omega, ?_, ?_, ?_, ?_, ?_⟩,
      c1, ?_, ?_, ?_, newLeaf_of_shape hshape um f.rootW ⟨c0, c1, w0, w1⟩ wS fun p hp => ?_⟩⟩
    · intro p q hpq hq2
      rcases split3 p (by omega) with rfl | rfl | ⟨p', rfl, hp'⟩
      · rw [w0]; omega
      · rw [w1]; omega
      · rcases split3 q hq2 with rfl | rfl | ⟨q', rfl, hq'⟩
        · omega
        · omega
        · rw [wS _ hp', wS _ hq']; exact hset.order p' q' (by omega) hq'
    · intro p i hp hc
      rcases split3 p hp with rfl | rfl | ⟨p', rfl, hp'⟩
      · rw [c0] at hc; exact absurd hc (by simp)
      · rw [c1] at hc; exact absurd hc (by simp)
      · rw [wS _ hp']
        rw [cS _ hp'] at hc
        by_cases h0 : p' = 0
        · rw [if_pos h0] at hc; injection hc with hc; subst hc; subst h0
          rw [sum_eq, w0, w1, hw0]
        · rw [if_neg h0] at hc
          obtain ⟨j, rfl, hj⟩ := node_of p' i hp' h0 hc
          rw [sumS j (by have := (hs.node p' j hp' hj).1; omega), hset.sums p' j hp' hj]
    · rw [f.rootW, um, show t.m + 1 - 1 = t.m - 1 + 1 by omega, sumS _ (by omega)]
      exact hset.rootSum (by omega)
    · intro p hp h0
      rcases split3 p hp with rfl | rfl | ⟨p', rfl, hp'⟩
      · exact .inl c0
      · exact .inr (.inl rfl)
      · rw [wS _ hp'] at h0
        have := hset.nyt p' hp' (hset.zero p' hp' h0)
        refine .inr (.inr ?_)
        rw [cS _ hp', if_pos this.1]
    · intro p hp hc
      rcases split3 p hp with rfl | rfl | ⟨p', rfl, hp'⟩
      · exact ⟨rfl, w0⟩
      · rw [c1] at hc; exact absurd hc (by simp)
      · rw [cS _ hp'] at hc
        by_cases h0 : p' = 0
        · rw [if_pos h0] at hc; exact absurd hc (by simp)
        · rw [if_neg h0] at hc
          have : t.ch p' = .nyt := by cases h2 : t.ch p' <;> rw [h2] at hc <;> simp [Child.renumber] at hc ⊢
          exact absurd (hset.nyt p' hp' this).1 h0
    · intro x hx
      rw [hlo, if_neg hx]
      split
      · rename_i h2; rw [h2, e]; simp
      · cases t.locOf x <;> simp [Loc.renumber]
    · rw [hlo, if_pos rfl]; simp
    · intro x
      have hx := hlo x
      split
      · rename_i h2; rw [if_pos h2] at hx
        rw [leafWeight_slot (q := 1) hx, w1]
      · rename_i h2; rw [if_neg h2] at hx
        by_cases h3 : x = .nyt
        · rw [if_pos h3] at hx
          rw [leafWeight_slot (q := 0) hx, w0, h3, leafWeight_slot e, hw0]
        · rw [if_neg h3] at hx
          rcases loc_cases t x with e3 | e3 | ⟨p, e3⟩
          · rw [leafWeight_absent e3, leafWeight_absent (hx.trans (by rw [e3]; rfl))]
          · have := (hs.rootLoc x).1 e3; rw [hroot.1] at this; exact absurd this (by simp [Child.key?])
          · have hp := ((hs.slot x p).1 e3).1
            rw [leafWeight_slot e3, leafWeight_slot (q := p + 2) (hx.trans (by rw [e3, hslot]; show Loc.atSlot _ _ = _; congr 1; omega)), wS p hp]
    · rw [cS p hp]
      by_cases h0 : p = 0
      · rw [if_pos h0, h0, hcq]
      · rw [if_neg h0]
        cases hc : t.ch p with
        | nyt => exact absurd (hset.nyt p hp hc).1 h0
        | leaf b => rfl
        | node i => rfl

/-- A split and the update that follows it (43 R117, R119): the new symbol weighs 1, the root one more, and the invariants are kept. -/
theorem splitUpdate_ok {k a : Nat} {g : Bool} {t : Tree} (h : TreeOk k g t) (hlen : t.m < t.pairs.length) (hal : a < t.locSym.length) (hk : a < k)
    (ha : t.locOf (.sym a) = .absent) (hn : t.locNyt ≠ .absent) (hw : t.rootW < Config.countMax) :
    ∃ u v, treeSplit a t = .ok u ∧ treeUpdate (.sym a) u = .ok v ∧ TreeOk k g v ∧ Split t u a ∧ Grown u v (some (.sym a)) := by
  obtain ⟨u, hu, hsp⟩ := treeSplit_ok h hlen hal ha hn
  obtain ⟨v, hv, hset, hgr⟩ := update_slot hsp.ready hsp.leaf (by rw [hsp.rootW]; exact hw)
  refine ⟨u, v, hu, hv, ?_, hsp, hgr⟩
  have hm : 0 < v.m := by rw [hgr.m, hsp.m]; omega
  have hroot := (hset.shape.root hm).1
  have hg : g = true := by
    cases g with
    | true => rfl
    | false => exact absurd (h.all_present rfl).1 hn
  have habs : ∀ x, x ≠ .sym a → (v.locOf x = .absent ↔ t.locOf x = .absent) := fun x hx => (hgr.leaves x).trans (hsp.absent x hx)
  refine hset.treeOk (fun h0 => by omega) (fun b hb => ?_) (fun _ => ?_) (fun hf => by rw [hg] at hf; exact absurd hf (by simp)) (fun e => ?_)
    (fun b e => ?_) ?_ ?_
  · by_cases e : b = a
    · rw [e]; exact hk
    · exact h.in_alphabet b (fun e2 => hb ((habs _ (by simpa using e)).2 e2))
  · intro e; exact hn ((habs .nyt (by simp)).1 e)
  · rw [hroot] at e; exact absurd e (by simp)
  · rw [hroot] at e; exact absurd e (by simp)
  · rw [hgr.m, hsp.m]; exact h.room hlen.le hk ha
  · rw [hgr.rootW, hsp.rootW]; omega

end Sys2Proof.Machine
end

