-- ==== Sys2Proof/Laws/TreeRebuild.lean ====
section
/-! SUPPORT. What `treeRebuild`, `treeDecay` and `treeInit` (42 R111 to R113) give. -/

namespace Sys2Proof.Machine

/-! ### The least element -/

/-- What the pool's order compares (42 R111). -/
theorem le_iff {a b : PoolItem} : a.le b = true ↔
    a.weight < b.weight ∨ a.weight = b.weight ∧ (a.kind < b.kind ∨ a.kind = b.kind ∧ a.keyNo ≤ b.keyNo) := by
  simp [PoolItem.le]

theorem le_trans_item {a b c : PoolItem} (h : a.le b = true) (h2 : b.le c = true) : a.le c = true := by
  rw [le_iff] at *; omega

theorem le_refl_item (a : PoolItem) : a.le a = true := by rw [le_iff]; omega

theorem le_of_not_le {a b : PoolItem} (h : a.le b ≠ true) : b.le a = true := by
  rw [ne_eq, le_iff] at h; rw [le_iff]; omega

theorem least_spec : ∀ (l : List PoolItem) (a : PoolItem), PoolItem.least a l ∈ a :: l ∧ ∀ b ∈ a :: l, (PoolItem.least a l).le b = true := by
  intro l
  induction l with
  | nil => intro a; simp [PoolItem.least, le_refl_item]
  | cons c l ih =>
    intro a
    unfold PoolItem.least
    by_cases h : c.le a = true
    · rw [if_pos h]
      obtain ⟨h1, h2⟩ := ih c
      refine ⟨List.mem_cons_of_mem _ h1, fun b hb => ?_⟩
      rcases List.mem_cons.1 hb with rfl | hb
      · exact le_trans_item (h2 c (by simp)) h
      · exact h2 b hb
    · rw [if_neg h]
      obtain ⟨h1, h2⟩ := ih a
      refine ⟨?_, fun b hb => ?_⟩
      · rcases List.mem_cons.1 h1 with e | e
        · rw [e]; simp
        · exact List.mem_cons_of_mem _ (List.mem_cons_of_mem _ e)
      · rcases List.mem_cons.1 hb with rfl | hb
        · exact h2 b (by simp)
        · rcases List.mem_cons.1 hb with rfl | hb
          · exact le_trans_item (h2 a (by simp)) (le_of_not_le h)
          · exact h2 b (List.mem_cons_of_mem _ hb)

/-! ### The order of the nodes -/

theorem Before.weight_le {w w' : Nat} {x y : Child} (h : Before w x w' y) : w ≤ w' := by unfold Before at h; omega

theorem Before.trans {w w' w'' : Nat} {x y z : Child} (h : Before w x w' y) (h2 : Before w' y w'' z) : Before w x w'' z := by
  unfold Before at *; omega

theorem rank_inj {x y : Child} (h : x.rank = y.rank) : x = y := by
  cases x <;> cases y <;> simp_all [Child.rank]

/-- The element's kind and key# are those of its child value. -/
def PoolItem.Ranked (i : PoolItem) : Prop := (i.kind, i.keyNo) = i.child.rank

/-- Two elements of the pool in order, with different child values. -/
theorem before_of_le {a b : PoolItem} (h : a.le b = true) (ha : a.Ranked) (hb : b.Ranked) (hne : a.child ≠ b.child) :
    Before a.weight a.child b.weight b.child := by
  unfold PoolItem.Ranked at ha hb
  rw [le_iff] at h
  unfold Before
  rw [← ha, ← hb]
  by_cases he : a.kind = b.kind ∧ a.keyNo = b.keyNo
  · exact absurd (rank_inj (by rw [← ha, ← hb, he.1, he.2])) hne
  · simp only; omega

/-! ### One pass of the rebuild -/

theorem ch_adopt (t : Tree) (x : Child) (r : Nat × Bool) (p : Nat) : (t.adopt x r).ch p = t.ch p := by
  cases x <;> simp [Tree.adopt, ch_setParent]
theorem wt_adopt (t : Tree) (x : Child) (r : Nat × Bool) (p : Nat) : (t.adopt x r).wt p = t.wt p := by
  cases x <;> simp [Tree.adopt, wt_setParent]
theorem sameFrame_adopt (t : Tree) (x : Child) (r : Nat × Bool) : SameFrame t (t.adopt x r) := by
  cases x
  · exact .rfl' t
  · exact .rfl' t
  · exact sameFrame_setPair _ _ _
theorem parent_adopt (t : Tree) (x : Child) (r : Nat × Bool) (i : Nat) :
    ((t.adopt x r).pairAt i).parent = if x = .node i ∧ i < t.pairs.length then some r else (t.pairAt i).parent := by
  cases x with
  | leaf a => simp [Tree.adopt]
  | nyt => simp [Tree.adopt]
  | node k =>
    simp only [Tree.adopt, parent_setParent, Child.node.injEq]
    by_cases h : k = i
    · subst h; simp
    · simp [h, Ne.symm h]

/-- The pairs a pass leaves: `i0` and `i1` in pair `M`. -/
structure Joined (t u : Tree) (i0 i1 : PoolItem) : Prop where
  m : u.m = t.m + 1
  valid : u.valid = t.valid
  pairs : u.pairs.length = t.pairs.length
  locs : u.locSym.length = t.locSym.length
  wt : ∀ p, u.wt p = if p = 2 * t.m then i0.weight else if p = 2 * t.m + 1 then i1.weight else t.wt p
  ch : ∀ p, u.ch p = if p = 2 * t.m then i0.child else if p = 2 * t.m + 1 then i1.child else t.ch p
  parent : ∀ i, i < t.pairs.length → (u.pairAt i).parent = if i1.child = .node i then some (t.m, true)
    else if i0.child = .node i then some (t.m, false) else if i = t.m then none else (t.pairAt i).parent

theorem joined (t : Tree) (i0 i1 : PoolItem) (h : t.m < t.pairs.length) : Joined t (t.joinItems i0 i1) i0 i1 := by
  let p0 : Pair := { w0 := i0.weight, w1 := i1.weight, c0 := i0.child, c1 := i1.child, parent := none }
  let t1 := t.setPair t.m p0
  let t2 := t1.adopt i0.child (t.m, false)
  let t3 := t2.adopt i1.child (t.m, true)
  have e : t.joinItems i0 i1 = { t3 with m := t.m + 1 } := rfl
  have f : SameFrame t t3 := ((sameFrame_setPair t t.m p0).trans (sameFrame_adopt _ _ _)).trans (sameFrame_adopt _ _ _)
  have hd0 : (2 * t.m) / 2 = t.m := by omega
  have hd1 : (2 * t.m + 1) / 2 = t.m := by omega
  have hs0 : slotOf (2 * t.m) = false := by simp [slotOf]
  have hs1 : slotOf (2 * t.m + 1) = true := by simp [slotOf]
  have other : ∀ p, p ≠ 2 * t.m → p ≠ 2 * t.m + 1 → p / 2 ≠ t.m := by intro p h1 h2; omega
  have hp : ∀ i, t1.pairAt i = if i = t.m ∧ t.m < t.pairs.length then p0 else t.pairAt i := fun i => pairAt_setPair t t.m i p0
  rw [e]
  refine ⟨rfl, f.valid, f.pairs, f.locs, fun p => ?_, fun p => ?_, fun i hi => ?_⟩
  · show t3.wt p = _
    rw [wt_adopt, wt_adopt]
    by_cases h0 : p = 2 * t.m
    · rw [if_pos h0, h0, Tree.wt, hd0, hs0, hp, if_pos ⟨rfl, h⟩]; rfl
    · rw [if_neg h0]
      by_cases h1 : p = 2 * t.m + 1
      · rw [if_pos h1, h1, Tree.wt, hd1, hs1, hp, if_pos ⟨rfl, h⟩]; rfl
      · rw [if_neg h1, Tree.wt, hp, if_neg (fun hx => other p h0 h1 hx.1)]; rfl
  · show t3.ch p = _
    rw [ch_adopt, ch_adopt]
    by_cases h0 : p = 2 * t.m
    · rw [if_pos h0, h0, Tree.ch, hd0, hs0, hp, if_pos ⟨rfl, h⟩]; rfl
    · rw [if_neg h0]
      by_cases h1 : p = 2 * t.m + 1
      · rw [if_pos h1, h1, Tree.ch, hd1, hs1, hp, if_pos ⟨rfl, h⟩]; rfl
      · rw [if_neg h1, Tree.ch, hp, if_neg (fun hx => other p h0 h1 hx.1)]; rfl
  · show (t3.pairAt i).parent = _
    rw [parent_adopt, parent_adopt, hp]
    have l1 : t1.pairs.length = t.pairs.length := (sameFrame_setPair t t.m p0).pairs
    have l2 : t2.pairs.length = t.pairs.length := (sameFrame_adopt t1 _ _).pairs.trans l1
    simp only [l1, l2, hi, h, and_true]
    split
    · rfl
    · split
      · rfl
      · split <;> rfl

/-! ### The loop -/

/-- The pairs built so far and the pool of what is still to be paired (42 R111). -/
structure Built (items : List (Key × Nat)) (pool : List PoolItem) (t : Tree) : Prop where
  count : t.m + pool.length = items.length
  size : items.length ≤ t.pairs.length + 1
  order : RebuildOrder t
  ahead : ∀ i ∈ pool, ∀ p, p < 2 * t.m → Before (t.wt p) (t.ch p) i.weight i.child
  ranked : ∀ i ∈ pool, i.Ranked
  parent : ∀ i, i < t.m → (∃ q, q < 2 * t.m ∧ i < q / 2 ∧ t.ch q = .node i ∧ (t.pairAt i).parent = some (q / 2, slotOf q)) ∨
    ((t.pairAt i).parent = none ∧ ∃ it ∈ pool, it.child = .node i)
  node : ∀ q i, q < 2 * t.m → t.ch q = .node i → i < q / 2 ∧ (t.pairAt i).parent = some (q / 2, slotOf q) ∧ t.wt q = (t.pairAt i).sum
  poolNode : ∀ it ∈ pool, ∀ i, it.child = .node i → i < t.m ∧ (t.pairAt i).parent = none ∧ it.weight = (t.pairAt i).sum
  nodup : (pool.map PoolItem.child).Nodup
  apart : ∀ it ∈ pool, ∀ p, p < 2 * t.m → t.ch p ≠ it.child
  inj : ∀ p q, p < 2 * t.m → q < 2 * t.m → t.ch p = t.ch q → p = q
  leaves : ∀ x w, (x, w) ∈ items ↔ (∃ p, p < 2 * t.m ∧ (t.ch p).key? = some x ∧ t.wt p = w) ∨
    ∃ it ∈ pool, it.child.key? = some x ∧ it.weight = w
  total : (pool.map PoolItem.weight).sum = (items.map Prod.snd).sum

theorem Built.perm {items : List (Key × Nat)} {pool pool' : List PoolItem} {t : Tree} (h : Built items pool t) (hp : pool.Perm pool') :
    Built items pool' t where
  count := by rw [← hp.length_eq]; exact h.count
  size := h.size
  order := h.order
  ahead := fun i hi => h.ahead i (hp.mem_iff.2 hi)
  ranked := fun i hi => h.ranked i (hp.mem_iff.2 hi)
  parent := fun i hi => (h.parent i hi).imp_right fun ⟨a, it, b, c⟩ => ⟨a, it, hp.mem_iff.1 b, c⟩
  node := h.node
  poolNode := fun i hi => h.poolNode i (hp.mem_iff.2 hi)
  nodup := (hp.map _).nodup_iff.1 h.nodup
  apart := fun i hi => h.apart i (hp.mem_iff.2 hi)
  inj := h.inj
  leaves := fun x w => by
    rw [h.leaves]
    constructor
    · rintro (a | ⟨it, a, b⟩)
      · exact .inl a
      · exact .inr ⟨it, hp.mem_iff.1 a, b⟩
    · rintro (a | ⟨it, a, b⟩)
      · exact .inl a
      · exact .inr ⟨it, hp.mem_iff.2 a, b⟩
  total := by rw [← (hp.map _).sum_eq]; exact h.total

theorem built_join {items : List (Key × Nat)} {i0 i1 : PoolItem} {rest : List PoolItem} {t : Tree} (h : Built items (i0 :: i1 :: rest) t)
    (l0 : i0.le i1 = true) (l1 : ∀ i ∈ rest, i1.le i = true) :
    Built items (rest ++ [joinedItem t.m i0 i1]) (t.joinItems i0 i1) := by
  have hcount := h.count
  have hsize := h.size
  simp only [List.length_cons] at hcount
  have hlt : t.m < t.pairs.length := by omega
  have j := joined t i0 i1 hlt
  set u := t.joinItems i0 i1 with hu
  have hnd := h.nodup
  simp only [List.map_cons, List.nodup_cons, List.mem_cons, not_or] at hnd
  obtain ⟨⟨ne01, ne0r⟩, ne1r, hndr⟩ := hnd
  have ne0 : ∀ i ∈ rest, i.child ≠ i0.child := fun i hi e => ne0r (List.mem_map.2 ⟨i, hi, e⟩)
  have ne1 : ∀ i ∈ rest, i.child ≠ i1.child := fun i hi e => ne1r (List.mem_map.2 ⟨i, hi, e⟩)
  have m0 : i0 ∈ i0 :: i1 :: rest := by simp
  have m1 : i1 ∈ i0 :: i1 :: rest := by simp
  have mr : ∀ i ∈ rest, i ∈ i0 :: i1 :: rest := fun i hi => by simp [hi]
  have b01 : Before i0.weight i0.child i1.weight i1.child := before_of_le l0 (h.ranked i0 m0) (h.ranked i1 m1) ne01
  have b1r : ∀ i ∈ rest, Before i1.weight i1.child i.weight i.child := fun i hi =>
    before_of_le (l1 i hi) (h.ranked i1 m1) (h.ranked i (mr i hi)) (ne1 i hi).symm
  have b1j : Before i1.weight i1.child (i0.weight + i1.weight) (.node t.m) := by
    have hc := h.poolNode i1 m1
    unfold Before
    cases hk : i1.child with
    | nyt => simp [Child.rank]; omega
    | leaf a => simp [Child.rank]; omega
    | node i => have := (hc i hk).1; simp [Child.rank]; omega
  have low : ∀ p, p < 2 * t.m → u.wt p = t.wt p ∧ u.ch p = t.ch p := by
    intro p hp
    rw [j.wt, j.ch, if_neg (by omega), if_neg (by omega), if_neg (by omega), if_neg (by omega)]; exact ⟨rfl, rfl⟩
  have wa : u.wt (2 * t.m) = i0.weight := by rw [j.wt, if_pos rfl]
  have wb : u.wt (2 * t.m + 1) = i1.weight := by rw [j.wt, if_neg (by omega), if_pos rfl]
  have ca : u.ch (2 * t.m) = i0.child := by rw [j.ch, if_pos rfl]
  have cb : u.ch (2 * t.m + 1) = i1.child := by rw [j.ch, if_neg (by omega), if_pos rfl]
  have cases3 : ∀ p, p < 2 * u.m → p < 2 * t.m ∨ p = 2 * t.m ∨ p = 2 * t.m + 1 := by intro p hp; rw [j.m] at hp; omega
  have sums : ∀ i, i < t.m → (u.pairAt i).sum = (t.pairAt i).sum := by
    intro i hi
    rw [sum_eq, sum_eq, (low _ (by omega)).1, (low _ (by omega)).1]
  have sumM : (u.pairAt t.m).sum = i0.weight + i1.weight := by rw [sum_eq, wa, wb]
  have parM : (u.pairAt t.m).parent = none := by
    rw [j.parent _ hlt, if_neg, if_neg, if_pos rfl]
    · intro e; have := (h.poolNode i0 m0 _ e).1; omega
    · intro e; have := (h.poolNode i1 m1 _ e).1; omega
  have parKeep : ∀ i, i < t.m → i0.child ≠ .node i → i1.child ≠ .node i → (u.pairAt i).parent = (t.pairAt i).parent := by
    intro i hi e0 e1
    rw [j.parent i (by omega), if_neg e1, if_neg e0, if_neg (by omega)]
  have par0 : ∀ i, i0.child = .node i → (u.pairAt i).parent = some (2 * t.m / 2, slotOf (2 * t.m)) := by
    intro i e
    have := (h.poolNode i0 m0 i e).1
    rw [j.parent i (by omega), if_neg (fun e1 => ne01 (e.trans e1.symm)), if_pos e]
    simp [slotOf]
  have par1 : ∀ i, i1.child = .node i → (u.pairAt i).parent = some ((2 * t.m + 1) / 2, slotOf (2 * t.m + 1)) := by
    intro i e
    have := (h.poolNode i1 m1 i e).1
    rw [j.parent i (by omega), if_pos e]
    simp [slotOf]; omega
  have hjm : joinedItem t.m i0 i1 ∈ rest ++ [joinedItem t.m i0 i1] := by simp
  have memP : ∀ it, it ∈ rest ++ [joinedItem t.m i0 i1] → it ∈ rest ∨ it = joinedItem t.m i0 i1 := by intro it hi; simpa using hi
  constructor
  · rw [j.m]; simp; omega
  · rw [j.pairs]; exact hsize
  · intro a b hab hb
    rcases cases3 b hb with hb | rfl | rfl
    · rw [(low a (by omega)).1, (low b hb).1, (low a (by omega)).2, (low b hb).2]; exact h.order a b hab hb
    · rw [(low a (by omega)).1, (low a (by omega)).2, wa, ca]; exact h.ahead i0 m0 a (by omega)
    · rw [wb, cb]
      rcases cases3 a (by rw [j.m]; omega) with ha | rfl | rfl
      · rw [(low a ha).1, (low a ha).2]; exact h.ahead i1 m1 a ha
      · rw [wa, ca]; exact b01
      · omega
  · intro it hi p hp
    have hge : Before i1.weight i1.child it.weight it.child := by
      rcases memP it hi with hr | rfl
      · exact b1r it hr
      · exact b1j
    rcases cases3 p hp with hp | rfl | rfl
    · rw [(low p hp).1, (low p hp).2]; exact (h.ahead i1 m1 p hp).trans hge
    · rw [wa, ca]; exact b01.trans hge
    · rw [wb, cb]; exact hge
  · intro it hi
    rcases memP it hi with hr | rfl
    · exact h.ranked it (mr it hr)
    · rfl
  · intro i hi
    rw [j.m] at hi ⊢
    by_cases him : i = t.m
    · subst him; exact .inr ⟨parM, _, hjm, rfl⟩
    · have hi' : i < t.m := by omega
      by_cases e0 : i0.child = .node i
      · exact .inl ⟨2 * t.m, by omega, by omega, ca.trans e0, par0 i e0⟩
      · by_cases e1 : i1.child = .node i
        · exact .inl ⟨2 * t.m + 1, by omega, by omega, cb.trans e1, par1 i e1⟩
        · rcases h.parent i hi' with ⟨q, a, b, c, d⟩ | ⟨a, it, b, c⟩
          · exact .inl ⟨q, by omega, b, by rw [(low q a).2, c], by rw [parKeep i hi' e0 e1, d]⟩
          · refine .inr ⟨by rw [parKeep i hi' e0 e1, a], it, ?_, c⟩
            rcases List.mem_cons.1 b with rfl | b
            · exact (e0 c).elim
            · rcases List.mem_cons.1 b with rfl | b
              · exact (e1 c).elim
              · simp [b]
  · intro q i hq hc
    rcases cases3 q hq with hq | rfl | rfl
    · rw [(low q hq).2] at hc
      obtain ⟨a, b, c⟩ := h.node q i hq hc
      have e0 : i0.child ≠ .node i := fun e => h.apart i0 m0 q hq (hc.trans e.symm)
      have e1 : i1.child ≠ .node i := fun e => h.apart i1 m1 q hq (hc.trans e.symm)
      exact ⟨a, by rw [parKeep i (by omega) e0 e1, b], by rw [(low q hq).1, c, sums i (by omega)]⟩
    · rw [ca] at hc
      have := h.poolNode i0 m0 i hc
      exact ⟨by omega, par0 i hc, by rw [wa, this.2.2, sums i this.1]⟩
    · rw [cb] at hc
      have := h.poolNode i1 m1 i hc
      exact ⟨by omega, par1 i hc, by rw [wb, this.2.2, sums i this.1]⟩
  · intro it hi i hc
    rcases memP it hi with hr | rfl
    · have := h.poolNode it (mr it hr) i hc
      refine ⟨by rw [j.m]; omega, ?_, by rw [sums i this.1]; exact this.2.2⟩
      rw [parKeep i this.1 (fun e => ne0 it hr (hc.trans e.symm)) (fun e => ne1 it hr (hc.trans e.symm))]; exact this.2.1
    · have : i = t.m := by injection hc with hc; exact hc.symm
      subst this
      exact ⟨by rw [j.m]; omega, parM, sumM.symm⟩
  · rw [List.map_append, List.nodup_append]
    refine ⟨hndr, by simp, ?_⟩
    intro a ha b hb e
    simp only [List.map_cons, List.map_nil, List.mem_singleton] at hb
    obtain ⟨it, hr, rfl⟩ := List.mem_map.1 ha
    subst hb
    have := (h.poolNode it (mr it hr) t.m e).1
    omega
  · intro it hi p hp e
    rcases memP it hi with hr | rfl
    · rcases cases3 p hp with hp | rfl | rfl
      · rw [(low p hp).2] at e; exact h.apart it (mr it hr) p hp e
      · rw [ca] at e; exact ne0 it hr e.symm
      · rw [cb] at e; exact ne1 it hr e.symm
    · have e' : u.ch p = .node t.m := e
      rcases cases3 p hp with hp | rfl | rfl
      · rw [(low p hp).2] at e'
        have := (h.node p _ hp e').1; omega
      · rw [ca] at e'; have := (h.poolNode i0 m0 _ e').1; omega
      · rw [cb] at e'; have := (h.poolNode i1 m1 _ e').1; omega
  · intro p q hp hq e
    rcases cases3 p hp with hp | rfl | rfl
    · rw [(low p hp).2] at e
      rcases cases3 q hq with hq | rfl | rfl
      · rw [(low q hq).2] at e; exact h.inj p q hp hq e
      · rw [ca] at e; exact (h.apart i0 m0 p hp e).elim
      · rw [cb] at e; exact (h.apart i1 m1 p hp e).elim
    · rw [ca] at e
      rcases cases3 q hq with hq | rfl | rfl
      · rw [(low q hq).2] at e; exact (h.apart i0 m0 q hq e.symm).elim
      · rfl
      · rw [cb] at e; exact (ne01 e).elim
    · rw [cb] at e
      rcases cases3 q hq with hq | rfl | rfl
      · rw [(low q hq).2] at e; exact (h.apart i1 m1 q hq e.symm).elim
      · rw [ca] at e; exact (ne01 e.symm).elim
      · rfl
  · intro x w
    rw [h.leaves x w]
    constructor
    · rintro (⟨p, a, b, c⟩ | ⟨it, a, b, c⟩)
      · exact .inl ⟨p, by rw [j.m]; omega, by rw [(low p a).2, b], by rw [(low p a).1, c]⟩
      · rcases List.mem_cons.1 a with rfl | a
        · exact .inl ⟨2 * t.m, by rw [j.m]; omega, by rw [ca, b], by rw [wa, c]⟩
        · rcases List.mem_cons.1 a with rfl | a
          · exact .inl ⟨2 * t.m + 1, by rw [j.m]; omega, by rw [cb, b], by rw [wb, c]⟩
          · exact .inr ⟨it, by simp [a], b, c⟩
    · rintro (⟨p, a, b, c⟩ | ⟨it, a, b, c⟩)
      · rcases cases3 p a with hp | rfl | rfl
        · exact .inl ⟨p, hp, by rw [← (low p hp).2, b], by rw [← (low p hp).1, c]⟩
        · exact .inr ⟨i0, m0, by rw [← ca, b], by rw [← wa, c]⟩
        · exact .inr ⟨i1, m1, by rw [← cb, b], by rw [← wb, c]⟩
      · rcases memP it a with hr | rfl
        · exact .inr ⟨it, mr it hr, b, c⟩
        · exact absurd b (by simp [joinedItem, Child.key?])
  · rw [← h.total]; simp [joinedItem]; omega

theorem buildLoop_ok {items : List (Key × Nat)} : ∀ (fuel : Nat) (pool : List PoolItem) (t : Tree), Built items pool t → pool ≠ [] →
    pool.length ≤ fuel + 1 → ∃ it u, buildLoop fuel pool t = .ok (it, u) ∧ Built items [it] u ∧ u.valid = t.valid ∧
      u.pairs.length = t.pairs.length ∧ u.locSym.length = t.locSym.length := by
  intro fuel
  induction fuel with
  | zero =>
    intro pool t h hne hl
    match pool, hne with
    | [i], _ => exact ⟨i, t, rfl, h, rfl, rfl, rfl⟩
    | _ :: _ :: _, _ => simp at hl
  | succ fuel ih =>
    intro pool t h hne hl
    match pool, hne with
    | [i], _ => exact ⟨i, t, rfl, h, rfl, rfl, rfl⟩
    | i :: k :: rest, _ =>
      unfold buildLoop
      obtain ⟨hm0, hle0⟩ := least_spec (k :: rest) i
      set i0 := PoolItem.least i (k :: rest) with hi0
      have hperm0 := List.perm_cons_erase hm0
      have hlen0 : ((i :: k :: rest).erase i0).length = rest.length + 1 := by
        have := hperm0.length_eq; simp at this ⊢; omega
      match hx : (i :: k :: rest).erase i0 with
      | [] => rw [hx] at hlen0; simp at hlen0
      | x :: xs =>
        simp only
        obtain ⟨hm1, hle1⟩ := least_spec xs x
        set i1 := PoolItem.least x xs with hi1
        have hperm1 := List.perm_cons_erase hm1
        rw [hx] at hperm0
        have hp := hperm0.trans (hperm1.cons i0)
        have hb := h.perm hp
        have w01 : i0.le i1 = true := hle0 i1 (hp.mem_iff.2 (by simp))
        have w1r : ∀ r ∈ (x :: xs).erase i1, i1.le r = true := fun r hr => hle1 r (List.mem_of_mem_erase hr)
        have hj := built_join hb w01 w1r
        have hlt : t.m < t.pairs.length := by
          have a := h.count; have b := h.size
          simp only [List.length_cons] at a; omega
        have f := joined t i0 i1 hlt
        obtain ⟨it, u, e, g1, g2, g3, g4⟩ := ih _ _ hj (by simp) (by
          have := hperm1.length_eq
          have := hp.length_eq
          simp only [List.length_append, List.length_cons, List.length_nil] at *; omega)
        exact ⟨it, u, by rw [← hi0, hx]; exact e, g1, g2.trans f.valid, g3.trans f.pairs, g4.trans f.locs⟩

/-! ### The location index -/

theorem locOf_clear (t : Tree) (x : Key) : t.clearLocs.locOf x = .absent := by
  cases x with
  | nyt => rfl
  | sym a =>
    simp only [Tree.clearLocs, Tree.locOf, List.getElem?_replicate]
    split <;> rfl

theorem placeLeaf_frame (t : Tree) (q : Nat) : SameFrame t (t.placeLeaf q) ∧ (∀ k, (t.placeLeaf q).pairAt k = t.pairAt k) := by
  unfold Tree.placeLeaf
  split
  · exact ⟨sameFrame_setLoc _ _ _, fun k => pairAt_setLoc _ _ _ _⟩
  · exact ⟨.rfl' t, fun _ => rfl⟩

theorem key_inj_child {c d : Child} {x : Key} (h : c.key? = some x) (h2 : d.key? = some x) : c = d := by
  have e : c.key? = d.key? := h.trans h2.symm
  have hn : d.key? ≠ none := by rw [h2]; simp
  clear h h2
  cases c <;> cases d <;> simp [Child.key?] at e hn ⊢
  exact e

theorem placeFold {t : Tree} {N : Nat} (hinj : ∀ p q, p < N → q < N → t.ch p = t.ch q → p = q)
    (hent : ∀ p x, p < N → (t.ch p).key? = some x → t.hasEntry x) : ∀ n, n ≤ N →
    SameFrame t ((List.range n).foldl Tree.placeLeaf t.clearLocs) ∧
    (∀ k, ((List.range n).foldl Tree.placeLeaf t.clearLocs).pairAt k = t.pairAt k) ∧
    (∀ x q, ((List.range n).foldl Tree.placeLeaf t.clearLocs).locOf x = .atSlot (q / 2) (slotOf q) ↔ q < n ∧ (t.ch q).key? = some x) ∧
    ∀ x, ((List.range n).foldl Tree.placeLeaf t.clearLocs).locOf x ≠ .atRoot := by
  intro n
  induction n with
  | zero =>
    intro _
    refine ⟨⟨rfl, rfl, rfl, rfl, rfl, by simp [Tree.clearLocs]⟩, fun _ => rfl, fun x q => ?_, fun x => ?_⟩
    · simp [locOf_clear]
    · simp [locOf_clear]
  | succ n ih =>
    intro hn
    obtain ⟨f, hp, hs, hr⟩ := ih (by omega)
    rw [List.range_succ, List.foldl_append]
    set v := (List.range n).foldl Tree.placeLeaf t.clearLocs with hv
    show SameFrame t (v.placeLeaf n) ∧ (∀ k, (v.placeLeaf n).pairAt k = _) ∧ (∀ x q, (v.placeLeaf n).locOf x = _ ↔ _) ∧ ∀ x, (v.placeLeaf n).locOf x ≠ _
    have g := placeLeaf_frame v n
    have hc : v.ch n = t.ch n := by simp only [Tree.ch, hp]
    refine ⟨f.trans g.1, fun k => (g.2 k).trans (hp k), ?_⟩
    have hlo : ∀ x, (v.placeLeaf n).locOf x = if (t.ch n).key? = some x then .atSlot (n / 2) (slotOf n) else v.locOf x := by
      intro x
      unfold Tree.placeLeaf
      rw [hc]
      cases hk : (t.ch n).key? with
      | none => simp
      | some y =>
        have he := hent n y (by omega) hk
        have he2 : v.hasEntry y := by
          cases y with
          | nyt => trivial
          | sym a => show a < _; rw [f.locs]; exact he
        simp only [locOf_setLoc _ _ _ _ he2, Option.some.injEq, eq_comm]
    refine ⟨fun x q => ?_, fun x => ?_⟩
    · rw [hlo]
      by_cases hk : (t.ch n).key? = some x
      · rw [if_pos hk]
        constructor
        · intro e; injection e with e1 e2
          have := slot_inj e1 e2; subst this
          exact ⟨by omega, hk⟩
        · rintro ⟨hq, hk2⟩
          rw [hinj n q (by omega) (by omega) (key_inj_child hk hk2)]
      · rw [if_neg hk, hs]
        constructor
        · rintro ⟨a, b⟩; exact ⟨by omega, b⟩
        · rintro ⟨a, b⟩
          refine ⟨?_, b⟩
          by_contra hlt
          have : q = n := by omega
          subst this; exact hk b
    · rw [hlo]; split
      · simp
      · exact hr x

/-! ### The rebuild -/

/-- What a list of leaves must be for a rebuild of a tree over `k` symbols. -/
structure Items (k : Nat) (g : Bool) (items : List (Key × Nat)) : Prop where
  nonempty : items ≠ []
  nodup : (items.map Prod.fst).Nodup
  sym : ∀ a w, (Key.sym a, w) ∈ items → a < k ∧ 1 ≤ w
  nyt : ∀ w, (Key.nyt, w) ∈ items → w = 0
  growth : g = true → (Key.nyt, 0) ∈ items
  static : g = false → (∀ w, (Key.nyt, w) ∉ items) ∧ ∀ a, a < k → ∃ w, (Key.sym a, w) ∈ items
  size : items.length ≤ k + 1
  total : (items.map Prod.snd).sum ≤ Config.countMax

theorem leafItem_child (x : Key) (w : Nat) : (leafItem x w).child.key? = some x ∧ (leafItem x w).weight = w := by cases x <;> exact ⟨rfl, rfl⟩

/-- A rebuild gives a tree that meets the invariants, holds exactly the given leaves, and has its nodes in the rebuild's order (42 R111). -/
theorem treeRebuild_ok {k : Nat} {g : Bool} {items : List (Key × Nat)} {t : Tree} (h : Items k g items) (hsize : items.length ≤ t.pairs.length + 1)
    (hloc : k ≤ t.locSym.length) : ∃ u, treeRebuild items t = .ok u ∧ TreeOk k g u ∧ RebuildOrder u ∧ u.m + 1 = items.length ∧
      u.rootW = (items.map Prod.snd).sum ∧ u.valid = t.valid ∧ u.pairs.length = t.pairs.length ∧ u.locSym.length = t.locSym.length ∧
      ∀ x w, leafWeight u x = some w ↔ (x, w) ∈ items := by
  have hstart : Built items (items.map fun e => leafItem e.1 e.2) { t with m := 0 } := by
    constructor
    · simp
    · exact hsize
    · intro a b _ hb; exact absurd hb (Nat.not_lt_zero _)
    · intro i _ p hp; exact absurd hp (Nat.not_lt_zero _)
    · intro i hi
      obtain ⟨e, _, rfl⟩ := List.mem_map.1 hi
      cases h1 : e.1 <;> rfl
    · intro i hi; exact absurd hi (Nat.not_lt_zero _)
    · intro q i hq; exact absurd hq (Nat.not_lt_zero _)
    · intro it hi i hc
      obtain ⟨e, _, rfl⟩ := List.mem_map.1 hi
      have := (leafItem_child e.1 e.2).1
      rw [hc] at this; exact absurd this (by simp [Child.key?])
    · rw [List.map_map]
      refine List.Nodup.map_on ?_ (List.Nodup.of_map _ h.nodup)
      intro a ha b hb e
      have e1 := (leafItem_child a.1 a.2).1
      have e2 := (leafItem_child b.1 b.2).1
      simp only [Function.comp] at e
      rw [e, e2] at e1
      exact List.inj_on_of_nodup_map h.nodup ha hb (Option.some.inj e1).symm
    · intro it _ p hp; exact absurd hp (Nat.not_lt_zero _)
    · intro p q hp; exact absurd hp (Nat.not_lt_zero _)
    · intro x w
      constructor
      · intro hx
        exact .inr ⟨leafItem x w, List.mem_map.2 ⟨(x, w), hx, rfl⟩, leafItem_child x w⟩
      · rintro (⟨p, hp, _⟩ | ⟨it, hi, hk, hw⟩)
        · exact absurd hp (Nat.not_lt_zero _)
        · obtain ⟨e, he, rfl⟩ := List.mem_map.1 hi
          have := leafItem_child e.1 e.2
          rw [this.1] at hk; rw [this.2] at hw
          rw [← Option.some.inj hk, ← hw]; exact he
    · rw [List.map_map]; congr 1
      exact List.map_congr_left fun e _ => (leafItem_child e.1 e.2).2
  obtain ⟨it, b, hloop, hb, bv, bp, bl⟩ := buildLoop_ok items.length _ _ hstart (by simpa using h.nonempty) (by simp)
  let t1 : Tree := { b with rootW := it.weight, root := it.child }
  have hres : treeRebuild items t = .ok t1.placeLeaves := by
    simp only [treeRebuild, hloop, bind, Except.bind]; rfl
  have hcount : b.m + 1 = items.length := hb.count
  have hit : it ∈ [it] := by simp
  have hent : ∀ x, (∃ w, (x, w) ∈ items) → t1.hasEntry x := by
    rintro x ⟨w, hw⟩
    cases x with
    | nyt => trivial
    | sym a => show a < b.locSym.length; rw [bl]; have := (h.sym a w hw).1; show a < t.locSym.length; omega
  have hent2 : ∀ p x, p < 2 * b.m → (t1.ch p).key? = some x → t1.hasEntry x :=
    fun p x hp hk => hent x ⟨_, (hb.leaves x (b.wt p)).2 (.inl ⟨p, hp, hk, rfl⟩)⟩
  obtain ⟨f, hpairs, hslot, hnroot⟩ := placeFold (t := t1) (N := 2 * b.m) hb.inj hent2 (2 * b.m) (le_refl _)
  let v := (List.range (2 * b.m)).foldl Tree.placeLeaf t1.clearLocs
  let u := t1.placeLeaves
  -- the root
  have hrootN : 0 < b.m → it.child = .node (b.m - 1) ∧ (b.pairAt (b.m - 1)).parent = none := by
    intro h0
    rcases hb.parent (b.m - 1) (by omega) with ⟨q, h1, h2, _⟩ | ⟨h1, it', h2, h3⟩
    · omega
    · rw [List.mem_singleton] at h2; subst h2; exact ⟨h3, h1⟩
  have hroot0 : b.m = 0 → it.child.key? ≠ none := by
    intro h0 hk
    cases hc : it.child with
    | node i => have := (hb.poolNode it hit i hc).1; omega
    | leaf a => rw [hc] at hk; exact absurd hk (by simp [Child.key?])
    | nyt => rw [hc] at hk; exact absurd hk (by simp [Child.key?])
  have hroot : ∀ x, it.child.key? = some x → b.m = 0 ∧ (x, it.weight) ∈ items := by
    intro x hk
    refine ⟨?_, (hb.leaves x it.weight).2 (.inr ⟨it, hit, hk, rfl⟩)⟩
    by_contra h0
    rw [(hrootN (by omega)).1] at hk; exact absurd hk (by simp [Child.key?])
  have hu : SameFrame t1 u ∧ (∀ i, u.pairAt i = b.pairAt i) ∧ ∀ x, u.locOf x = if it.child.key? = some x then .atRoot else v.locOf x := by
    show SameFrame t1 t1.placeLeaves ∧ (∀ i, t1.placeLeaves.pairAt i = _) ∧ ∀ x, t1.placeLeaves.locOf x = _
    have hvroot : v.root = it.child := f.root
    have hdef : t1.placeLeaves = match v.root.key? with | some y => v.setLoc y .atRoot | none => v := rfl
    rw [hdef, hvroot]
    cases hk : it.child.key? with
    | none => exact ⟨f, hpairs, fun x => by simp [v]⟩
    | some y =>
      have he : v.hasEntry y := by
        have := hent y ⟨_, (hroot y hk).2⟩
        cases y with
        | nyt => trivial
        | sym a => show a < v.locSym.length; rw [show v.locSym.length = t1.locSym.length from f.locs]; exact this
      refine ⟨f.trans (sameFrame_setLoc _ _ _), fun i => (pairAt_setLoc _ _ _ _).trans (hpairs i), fun x => ?_⟩
      show (v.setLoc y .atRoot).locOf x = _
      rw [locOf_setLoc _ _ _ _ he]
      simp only [Option.some.injEq, eq_comm]
  obtain ⟨uf, up, ul⟩ := hu
  have um : u.m = b.m := uf.m
  have uroot : u.root = it.child := uf.root
  have urw : u.rootW = it.weight := uf.rootW
  have uch : ∀ p, u.ch p = b.ch p := fun p => by simp only [Tree.ch, up]
  have uwt : ∀ p, u.wt p = b.wt p := fun p => by simp only [Tree.wt, up]
  have uslot : ∀ x q, u.locOf x = .atSlot (q / 2) (slotOf q) ↔ q < 2 * b.m ∧ (b.ch q).key? = some x := by
    intro x q
    rw [ul]
    by_cases hk : it.child.key? = some x
    · rw [if_pos hk]
      have h0 := (hroot x hk).1
      exact ⟨fun e => absurd e (by simp), fun e => by omega⟩
    · rw [if_neg hk]; exact hslot x q
  have uatroot : ∀ x, u.locOf x = .atRoot ↔ it.child.key? = some x := by
    intro x
    rw [ul]
    by_cases hk : it.child.key? = some x
    · simp [hk]
    · rw [if_neg hk]; exact ⟨fun e => absurd e (hnroot x), fun e => absurd e hk⟩
  have hlw : ∀ x w, leafWeight u x = some w ↔ (x, w) ∈ items := by
    intro x w
    rw [hb.leaves]
    rcases loc_cases u x with e | e | ⟨q, e⟩
    · rw [leafWeight_absent e]
      refine ⟨fun h2 => absurd h2 (by simp), ?_⟩
      rintro (⟨p, hp, hk, _⟩ | ⟨it', hi, hk, _⟩)
      · rw [(uslot x p).2 ⟨hp, hk⟩] at e; exact absurd e (by simp)
      · rw [List.mem_singleton] at hi; subst hi
        rw [(uatroot x).2 hk] at e; exact absurd e (by simp)
    · have hk := (uatroot x).1 e
      have h0 := (hroot x hk).1
      have : leafWeight u x = some it.weight := by simp [leafWeight, e, urw]
      rw [this, Option.some.injEq]
      constructor
      · intro hw; exact .inr ⟨it, hit, hk, hw⟩
      · rintro (⟨p, hp, _⟩ | ⟨it', hi, _, hw⟩)
        · omega
        · rw [List.mem_singleton] at hi; subst hi; exact hw
    · obtain ⟨hq, hk⟩ := (uslot x q).1 e
      rw [leafWeight_slot e, uwt, Option.some.injEq]
      constructor
      · intro hw; exact .inl ⟨q, hq, hk, hw⟩
      · rintro (⟨p, hp, hk2, hw⟩ | ⟨it', hi, hk2, _⟩)
        · rw [hb.inj q p hq hp (key_inj_child hk hk2)]; exact hw
        · rw [List.mem_singleton] at hi; subst hi
          have := (hroot x hk2).1; omega
  have habs : ∀ x, u.locOf x ≠ .absent → ∃ w, (x, w) ∈ items := by
    intro x hx
    rcases loc_cases u x with e | e | ⟨q, e⟩
    · exact absurd e hx
    · exact ⟨_, (hroot x ((uatroot x).1 e)).2⟩
    · obtain ⟨hq, hk⟩ := (uslot x q).1 e
      exact ⟨_, (hb.leaves x (b.wt q)).2 (.inl ⟨q, hq, hk, rfl⟩)⟩
  have hpres : ∀ x w, (x, w) ∈ items → u.locOf x ≠ .absent := by
    intro x w hx e
    have := (hlw x w).2 hx
    rw [leafWeight_absent e] at this; exact absurd this (by simp)
  have hleafw : ∀ q x, q < 2 * u.m → (u.ch q).key? = some x → (x, u.wt q) ∈ items := by
    intro q x hq hk
    rw [um] at hq; rw [uch] at hk; rw [uwt]
    exact (hb.leaves x _).2 (.inl ⟨q, hq, hk, rfl⟩)
  have htot : it.weight = (items.map Prod.snd).sum := by have := hb.total; simpa using this
  have hord : RebuildOrder u := by
    intro p q hpq hq
    rw [um] at hq; rw [uwt, uwt, uch, uch]; exact hb.order p q hpq hq
  refine ⟨u, hres, ?_, hord, by rw [um]; exact hcount, by rw [urw, htot], uf.valid.trans bv, uf.pairs.trans bp, uf.locs.trans bl, hlw⟩
  refine
    { ordered := fun q hq => ?_, root_node := fun h0 => ?_, root_leaf := fun h0 => ?_, parent_later := fun i hi => ?_,
      child_once := fun q i hq hc => ?_, slot_sum := fun q i hq hc => ?_, root_sum := fun h0 => ?_, loc_slot := fun x i c => ?_,
      loc_root := fun x => by rw [uatroot, uroot], in_alphabet := fun a ha => ?_, nyt_present := fun hg => hpres .nyt 0 (h.growth hg),
      nyt_weight := fun q hq hc => h.nyt _ (hleafw q .nyt hq (by rw [hc]; rfl)), nyt_root_weight := fun e => ?_,
      all_present := fun hg => ⟨?_, fun a ha => ?_⟩, leaf_weight := fun q a hq hc => (h.sym a _ (hleafw q _ hq (by rw [hc]; rfl))).2,
      leaf_root_weight := fun a e => ?_, size := ?_, weight_max := by rw [urw, htot]; exact h.total }
  · rw [um] at hq; exact (hord q (q + 1) (by omega) (by rw [um]; exact hq)).weight_le
  · rw [um] at h0 ⊢; rw [uroot, up]; exact hrootN h0
  · rw [um] at h0; rw [uroot]; exact hroot0 h0
  · rw [um] at hi ⊢
    rcases hb.parent i (by omega) with ⟨q, h1, h2, h3, h4⟩ | ⟨_, it', h2, h3⟩
    · exact ⟨q / 2, slotOf q, by rw [up, h4], h2, by omega, by rw [child_eq_ch, slotPos_slotOf, uch, h3]⟩
    · rw [List.mem_singleton] at h2; subst h2
      rw [(hrootN (by omega)).1] at h3; injection h3 with h3; omega
  · rw [um] at hq ⊢; rw [uch] at hc; rw [up]
    have := hb.node q i hq hc
    exact ⟨by omega, this.2.1⟩
  · rw [um] at hq; rw [uch] at hc; rw [uwt, up]; exact (hb.node q i hq hc).2.2
  · rw [um] at h0 ⊢; rw [urw, up]; exact (hb.poolNode it hit _ (hrootN h0).1).2.2
  · have := uslot x (slotPos i c)
    rw [slotPos_div, slotOf_slotPos] at this
    rw [this, child_eq_ch, uch, um]
    constructor
    · rintro ⟨h1, h2⟩
      refine ⟨?_, h2⟩
      cases c <;> simp [slotPos] at h1 <;> omega
    · rintro ⟨h1, h2⟩; exact ⟨slotPos_lt h1, h2⟩
  · obtain ⟨w, hw⟩ := habs _ ha; exact (h.sym a w hw).1
  · rw [urw]; exact h.nyt _ (hroot .nyt (by rw [← uroot, e]; rfl)).2
  · by_contra hn
    obtain ⟨w, hw⟩ := habs .nyt hn
    exact (h.static hg).1 w hw
  · obtain ⟨w, hw⟩ := (h.static hg).2 a ha
    exact hpres _ w hw
  · rw [urw]; exact (h.sym a _ (hroot (.sym a) (by rw [← uroot, e]; rfl)).2).2
  · rw [um]; have := h.size; omega

end Sys2Proof.Machine
end

