-- ==== Sys2Proof/Laws/TreeDecay.lean ====
section
/-! SUPPORT. What `treeDecay` and `treeInit` (42 R112, R113) give. -/

namespace Sys2Proof.Machine

/-! ### The leaves of a tree -/

theorem mem_leaves {k : Nat} {g : Bool} {t : Tree} (h : TreeOk k g t) (hlen : t.m ≤ t.pairs.length) (x : Key) (w : Nat) :
    (x, w) ∈ t.leaves ↔ leafWeight t x = some w := by
  have hs := h.shape hlen
  have hslots : (x, w) ∈ ((List.range (2 * t.m)).filterMap fun q => (t.ch q).key?.map fun y => (y, t.wt q)) ↔
      ∃ q, q < 2 * t.m ∧ (t.ch q).key? = some x ∧ t.wt q = w := by
    simp only [List.mem_filterMap, List.mem_range, Option.map_eq_some_iff, Prod.mk.injEq]
    constructor
    · rintro ⟨q, hq, y, hy, rfl, hw⟩; exact ⟨q, hq, hy, hw⟩
    · rintro ⟨q, hq, hy, hw⟩; exact ⟨q, hq, x, hy, rfl, hw⟩
  have hmem : (x, w) ∈ t.leaves ↔ (∃ q, q < 2 * t.m ∧ (t.ch q).key? = some x ∧ t.wt q = w) ∨ (t.root.key? = some x ∧ t.rootW = w) := by
    unfold Tree.leaves
    cases hr : t.root.key? with
    | none => simp only [hslots]; simp
    | some y =>
      simp only [List.mem_append, hslots, List.mem_singleton, Prod.mk.injEq, Option.some.injEq]
      constructor
      · rintro (a | ⟨rfl, rfl⟩)
        · exact .inl a
        · exact .inr ⟨rfl, rfl⟩
      · rintro (a | ⟨rfl, rfl⟩)
        · exact .inl a
        · exact .inr ⟨rfl, rfl⟩
  rw [hmem]
  rcases loc_cases t x with e | e | ⟨q, e⟩
  · rw [leafWeight_absent e]
    refine ⟨?_, fun h2 => absurd h2 (by simp)⟩
    rintro (⟨p, hp, hk, _⟩ | ⟨hk, _⟩)
    · rw [(hs.slot x p).2 ⟨hp, hk⟩] at e; exact absurd e (by simp)
    · rw [(hs.rootLoc x).2 hk] at e; exact absurd e (by simp)
  · have hk := (hs.rootLoc x).1 e
    have : leafWeight t x = some t.rootW := by simp [leafWeight, e]
    rw [this, Option.some.injEq]
    constructor
    · rintro (⟨p, hp, hk2, _⟩ | ⟨_, hw⟩)
      · rw [(hs.slot x p).2 ⟨hp, hk2⟩] at e; exact absurd e (by simp)
      · exact hw
    · intro hw; exact .inr ⟨hk, hw⟩
  · obtain ⟨hq, hk⟩ := (hs.slot x q).1 e
    rw [leafWeight_slot e, Option.some.injEq]
    constructor
    · rintro (⟨p, hp, hk2, hw⟩ | ⟨hk2, _⟩)
      · rw [hs.key_inj hq hp hk hk2]; exact hw
      · rw [(hs.rootLoc x).2 hk2] at e; exact absurd e (by simp)
    · intro hw; exact .inl ⟨q, hq, hk, hw⟩

theorem leaves_slots {k : Nat} {g : Bool} {t : Tree} (h : TreeOk k g t) (h0 : 0 < t.m) :
    t.leaves = (List.range (2 * t.m)).filterMap fun q => (t.ch q).key?.map fun y => (y, t.wt q) := by
  unfold Tree.leaves; rw [(h.root_node h0).1]; rfl

theorem leaves_root {k : Nat} {g : Bool} {t : Tree} (h : TreeOk k g t) (h0 : t.m = 0) : ∃ x, t.leaves = [(x, t.rootW)] := by
  unfold Tree.leaves
  cases hr : t.root.key? with
  | none => exact absurd hr (h.root_leaf h0)
  | some y => exact ⟨y, by simp [h0]⟩

theorem nodup_leaves {k : Nat} {g : Bool} {t : Tree} (h : TreeOk k g t) (hlen : t.m ≤ t.pairs.length) : (t.leaves.map Prod.fst).Nodup := by
  by_cases h0 : t.m = 0
  · obtain ⟨x, e⟩ := leaves_root h h0; rw [e]; simp
  · have hs := h.shape hlen
    rw [leaves_slots h (by omega)]
    have key : ∀ l : List Nat, l.Nodup → (∀ q ∈ l, q < 2 * t.m) →
        ((l.filterMap fun q => (t.ch q).key?.map fun y => (y, t.wt q)).map Prod.fst).Nodup := by
      intro l
      induction l with
      | nil => simp
      | cons q l ih =>
        intro hnd hl
        rw [List.nodup_cons] at hnd
        have := ih hnd.2 fun p hp => hl p (by simp [hp])
        simp only [List.filterMap_cons]
        cases hk : (t.ch q).key? with
        | none => simpa using this
        | some x =>
          simp only [Option.map_some, List.map_cons, List.nodup_cons]
          refine ⟨?_, this⟩
          intro hx
          obtain ⟨⟨y, w⟩, hy, he0⟩ := List.mem_map.1 hx
          obtain ⟨p, hp, he⟩ := List.mem_filterMap.1 hy
          obtain ⟨z, hz, he⟩ := Option.map_eq_some_iff.1 he
          injection he with he1 he2
          subst he1
          have := hs.key_inj (hl q (by simp)) (hl p (by simp [hp])) hk (he0 ▸ hz)
          subst this; exact hnd.1 hp
    exact key _ List.nodup_range fun q hq => List.mem_range.1 hq

theorem sum_range_list (f : Nat → Nat) (n : Nat) : ((List.range n).map f).sum = ∑ i ∈ Finset.range n, f i := by
  induction n with
  | zero => rfl
  | succ n ih => rw [List.range_succ, Finset.sum_range_succ, List.map_append, List.sum_append, ih]; simp

theorem sum_range_pairs (f : Nat → Nat) (n : Nat) : ∑ q ∈ Finset.range (2 * n), f q = ∑ i ∈ Finset.range n, (f (2 * i) + f (2 * i + 1)) := by
  induction n with
  | zero => rfl
  | succ n ih => rw [show 2 * (n + 1) = 2 * n + 1 + 1 by omega, Finset.sum_range_succ, Finset.sum_range_succ, Finset.sum_range_succ, ih]; omega

/-- The leaves' weights sum to the root's (10 R30). -/
theorem sum_leaves {k : Nat} {g : Bool} {t : Tree} (h : TreeOk k g t) (hlen : t.m ≤ t.pairs.length) : (t.leaves.map Prod.snd).sum = t.rootW := by
  by_cases h0 : t.m = 0
  · obtain ⟨x, e⟩ := leaves_root h h0; rw [e]; simp
  · have hs := h.shape hlen
    rw [leaves_slots h (by omega)]
    have key : ∀ l : List Nat, ((l.filterMap fun q => (t.ch q).key?.map fun y => (y, t.wt q)).map Prod.snd).sum
        = (l.map fun q => if (t.ch q).key? = none then 0 else t.wt q).sum := by
      intro l
      induction l with
      | nil => rfl
      | cons q l ih => simp only [List.filterMap_cons, List.map_cons, List.sum_cons]; cases hk : (t.ch q).key? <;> simp [ih]
    rw [key, sum_range_list]
    have hsplit : (∑ q ∈ Finset.range (2 * t.m), if (t.ch q).key? = none then 0 else t.wt q)
        + (∑ q ∈ Finset.range (2 * t.m), if (t.ch q).key? = none then t.wt q else 0) = ∑ q ∈ Finset.range (2 * t.m), t.wt q := by
      rw [← Finset.sum_add_distrib]
      refine Finset.sum_congr rfl fun q _ => ?_
      split <;> simp
    have hall : ∑ q ∈ Finset.range (2 * t.m), t.wt q = ∑ i ∈ Finset.range t.m, (t.pairAt i).sum := by
      rw [sum_range_pairs]; exact Finset.sum_congr rfl fun i _ => (sum_eq t i).symm
    have hnodes : (∑ q ∈ Finset.range (2 * t.m), if (t.ch q).key? = none then t.wt q else 0) = ∑ i ∈ Finset.range (t.m - 1), (t.pairAt i).sum := by
      rw [← Finset.sum_filter]
      have hnode : ∀ q, (t.ch q).key? = none → ∃ i, t.ch q = .node i := by
        intro q hk; cases hc : t.ch q with
        | node i => exact ⟨i, rfl⟩
        | leaf a => rw [hc] at hk; simp [Child.key?] at hk
        | nyt => rw [hc] at hk; simp [Child.key?] at hk
      refine Finset.sum_bij (fun q _ => match t.ch q with | .node i => i | _ => 0) ?_ ?_ ?_ ?_
      · intro q hq
        rw [Finset.mem_filter, Finset.mem_range] at hq
        obtain ⟨i, hi⟩ := hnode q hq.2
        simp only [hi, Finset.mem_range]
        have := (hs.node q i hq.1 hi).1; omega
      · intro p hp q hq e
        rw [Finset.mem_filter, Finset.mem_range] at hp hq
        obtain ⟨i, hi⟩ := hnode p hp.2
        obtain ⟨j, hj⟩ := hnode q hq.2
        simp only [hi, hj] at e; subst e
        exact hs.node_inj hp.1 hq.1 hi hj
      · intro i hi
        rw [Finset.mem_range] at hi
        obtain ⟨q, h1, _, h3, _⟩ := hs.parent i (by omega)
        exact ⟨q, by rw [Finset.mem_filter, Finset.mem_range]; exact ⟨h1, by rw [h3]; rfl⟩, by simp only [h3]⟩
      · intro q hq
        rw [Finset.mem_filter, Finset.mem_range] at hq
        obtain ⟨i, hi⟩ := hnode q hq.2
        simp only [hi]
        exact h.slot_sum q i hq.1 hi
    have hlast : ∑ i ∈ Finset.range t.m, (t.pairAt i).sum = (∑ i ∈ Finset.range (t.m - 1), (t.pairAt i).sum) + (t.pairAt (t.m - 1)).sum := by
      conv_lhs => rw [show t.m = t.m - 1 + 1 by omega]
      rw [Finset.sum_range_succ]
    have := h.root_sum (by omega)
    omega

theorem length_keys {k : Nat} {l : List (Key × Nat)} (hnd : (l.map Prod.fst).Nodup) (hk : ∀ a w, (Key.sym a, w) ∈ l → a < k) : l.length ≤ k + 1 := by
  have hsub : l.map Prod.fst ⊆ Key.nyt :: (List.range k).map Key.sym := by
    intro x hx
    obtain ⟨⟨y, w⟩, hm, rfl⟩ := List.mem_map.1 hx
    cases y with
    | nyt => simp
    | sym a => exact List.mem_cons_of_mem _ (List.mem_map.2 ⟨a, List.mem_range.2 (hk a w hm), rfl⟩)
  have := (hnd.subperm hsub).length_le
  simpa using this

/-! ### Decay -/

theorem decay_fst {c : Conf} {e e' : Key × Nat} (h : decayLeaf c e = some e') : e'.1 = e.1 ∧ (c.alpha.toNat ≤ Config.alphaOne → e'.2 ≤ e.2) := by
  obtain ⟨x, w⟩ := e
  cases x with
  | nyt => simp only [decayLeaf, Option.some.injEq] at h; subst h; exact ⟨rfl, fun _ => Nat.zero_le _⟩
  | sym a =>
    simp only [decayLeaf] at h
    split at h
    · exact absurd h (by simp)
    · injection h with h; subst h; exact ⟨rfl, fun hc => scale_le hc w⟩

theorem decay_list (c : Conf) (hc : c.alpha.toNat ≤ Config.alphaOne) (l : List (Key × Nat)) :
    ((l.filterMap (decayLeaf c)).map Prod.fst).Sublist (l.map Prod.fst) ∧ ((l.filterMap (decayLeaf c)).map Prod.snd).sum ≤ (l.map Prod.snd).sum := by
  induction l with
  | nil => simp
  | cons e l ih =>
    simp only [List.filterMap_cons]
    cases hd : decayLeaf c e with
    | none => exact ⟨ih.1.cons _, by simp only [List.map_cons, List.sum_cons]; omega⟩
    | some e' =>
      have := decay_fst hd
      have h2 := this.2 hc
      refine ⟨?_, by simp only [List.map_cons, List.sum_cons]; omega⟩
      simp only [List.map_cons, this.1]; exact ih.1.cons_cons _

/-- What `AH_DECAY` makes of a symbol's weight (42 R112). -/
def decayedWeight (c : Conf) (w : Nat) : Option Nat := if scale c w = 0 ∧ c.remove = true then none else some (scale c w)

/-- The NYT weighs 0, if the tree has it (42 R102, R113). -/
theorem TreeOk.nyt_leaf {k : Nat} {g : Bool} {t : Tree} (h : TreeOk k g t) (hlen : t.m ≤ t.pairs.length) {w : Nat} (hw : leafWeight t .nyt = some w) :
    w = 0 := by
  have hs := h.shape hlen
  rcases loc_cases t .nyt with e | e | ⟨q, e⟩
  · rw [leafWeight_absent e] at hw; cases hw
  · simp only [leafWeight, e, Option.some.injEq] at hw
    rw [← hw]; exact h.nyt_root_weight (key_inj_child ((hs.rootLoc _).1 e) rfl)
  · rw [leafWeight_slot e, Option.some.injEq] at hw
    obtain ⟨hq, hk⟩ := (hs.slot _ q).1 e
    rw [← hw]; exact h.nyt_weight q hq (key_inj_child hk rfl)

/-- `treeDecay` of a tree that meets the invariants (42 R112): it keeps them, and every leaf has its decayed weight. -/
theorem treeDecay_ok {k : Nat} {t : Tree} {c : Conf} (h : TreeOk k c.growth t) (hlen : k ≤ t.pairs.length) (hloc : k ≤ t.locSym.length)
    (hk : 1 ≤ k) (ha : c.alpha.toNat ≤ Config.alphaOne) (ha1 : 1 ≤ c.alpha.toNat) (hr : c.remove = true → c.growth = true) :
    ∃ u, treeDecay c t = .ok u ∧ TreeOk k c.growth u ∧ RebuildOrder u ∧ u.valid = t.valid ∧ u.pairs.length = t.pairs.length ∧
      u.locSym.length = t.locSym.length ∧ leafWeight u .nyt = leafWeight t .nyt ∧
      ∀ a, leafWeight u (.sym a) = (leafWeight t (.sym a)).bind (decayedWeight c) := by
  have hm : t.m ≤ t.pairs.length := le_trans h.size hlen
  have hmem := mem_leaves h hm
  have hlist := decay_list c ha t.leaves
  have hs := h.shape hm
  have hpos : ∀ a w, leafWeight t (.sym a) = some w → a < k ∧ 1 ≤ w := by
    intro a w hw
    rcases loc_cases t (.sym a) with e | e | ⟨q, e⟩
    · rw [leafWeight_absent e] at hw; exact absurd hw (by simp)
    · have hroot := (hs.rootLoc _).1 e
      refine ⟨h.in_alphabet a (by rw [e]; simp), ?_⟩
      have : leafWeight t (.sym a) = some t.rootW := by simp [leafWeight, e]
      rw [this] at hw; injection hw with hw
      rw [← hw]; exact h.leaf_root_weight a (key_inj_child hroot rfl)
    · obtain ⟨hq, hkq⟩ := (hs.slot _ q).1 e
      refine ⟨h.in_alphabet a (by rw [e]; simp), ?_⟩
      rw [leafWeight_slot e] at hw; injection hw with hw
      rw [← hw]; exact h.leaf_weight q a hq (key_inj_child hkq rfl)
  have hnyt : ∀ w, leafWeight t .nyt = some w → w = 0 := fun w hw => h.nyt_leaf hm hw
  have hsome : ∀ x, t.locOf x ≠ .absent → ∃ w, leafWeight t x = some w := by
    intro x hx
    rcases loc_cases t x with e | e | ⟨q, e⟩
    · exact absurd e hx
    · exact ⟨t.rootW, by simp [leafWeight, e]⟩
    · exact ⟨_, leafWeight_slot e⟩
  have hscale : ∀ w, 1 ≤ w → c.remove ≠ true → 1 ≤ scale c w := by
    intro w hw hrm
    unfold scale ceilDiv
    rw [if_neg (by simpa using hrm), show Config.alphaOne = 65536 from rfl]
    have : 1 ≤ w * c.alpha.toNat := Nat.mul_pos hw ha1
    omega
  have hin : ∀ a w', (Key.sym a, w') ∈ t.leaves.filterMap (decayLeaf c) ↔ ∃ w, leafWeight t (.sym a) = some w ∧ decayedWeight c w = some w' := by
    intro a w'
    rw [List.mem_filterMap]
    constructor
    · rintro ⟨⟨x, w⟩, he, hd⟩
      have := (decay_fst hd).1
      subst this
      refine ⟨w, (hmem _ _).1 he, ?_⟩
      simp only [decayLeaf] at hd
      unfold decayedWeight
      split at hd
      · exact absurd hd (by simp)
      · rename_i hn; rw [if_neg hn]; injection hd with hd; injection hd with _ hd; rw [hd]
    · rintro ⟨w, hw, hd⟩
      refine ⟨(.sym a, w), (hmem _ _).2 hw, ?_⟩
      unfold decayedWeight at hd
      simp only [decayLeaf]
      split at hd
      · exact absurd hd (by simp)
      · rename_i hn; rw [if_neg hn]; injection hd with hd; rw [hd]
  have hinN : ∀ w', (Key.nyt, w') ∈ t.leaves.filterMap (decayLeaf c) ↔ w' = 0 ∧ ∃ w, leafWeight t .nyt = some w := by
    intro w'
    rw [List.mem_filterMap]
    constructor
    · rintro ⟨⟨x, w⟩, he, hd⟩
      have := (decay_fst hd).1
      subst this
      simp only [decayLeaf, Option.some.injEq, Prod.mk.injEq, true_and] at hd
      exact ⟨hd.symm, w, (hmem _ _).1 he⟩
    · rintro ⟨rfl, w, hw⟩
      exact ⟨(.nyt, w), (hmem _ _).2 hw, rfl⟩
  have hitems : Items k c.growth (t.leaves.filterMap (decayLeaf c)) := by
    refine ⟨?_, hlist.1.nodup (nodup_leaves h hm), ?_, fun w hw => ((hinN w).1 hw).1, ?_, ?_, ?_, ?_⟩
    · intro hnil
      by_cases hg : c.growth = true
      · obtain ⟨w, hw⟩ := hsome .nyt (h.nyt_present hg)
        have := (hinN 0).2 ⟨rfl, w, hw⟩
        rw [hnil] at this; exact absurd this (by simp)
      · have hrm : c.remove ≠ true := fun e => hg (hr e)
        obtain ⟨w, hw⟩ := hsome (.sym 0) ((h.all_present (by simpa using hg)).2 0 hk)
        have h1 := hscale w (hpos 0 w hw).2 hrm
        have := (hin 0 (scale c w)).2 ⟨w, hw, by unfold decayedWeight; rw [if_neg (fun hx => hrm hx.2)]⟩
        rw [hnil] at this; exact absurd this (by simp)
    · intro a w' hw'
      obtain ⟨w, hw, hd⟩ := (hin a w').1 hw'
      refine ⟨(hpos a w hw).1, ?_⟩
      unfold decayedWeight at hd
      split at hd
      · exact absurd hd (by simp)
      · rename_i hn
        injection hd with hd
        by_cases hrm : c.remove = true
        · by_contra h0; exact hn ⟨by omega, hrm⟩
        · rw [← hd]; exact hscale w (hpos a w hw).2 hrm
    · intro hg
      obtain ⟨w, hw⟩ := hsome .nyt (h.nyt_present hg)
      exact (hinN 0).2 ⟨rfl, w, hw⟩
    · intro hg
      have hrm : c.remove ≠ true := fun e => by rw [hr e] at hg; exact absurd hg (by simp)
      refine ⟨fun w hw => ?_, fun a ha => ?_⟩
      · obtain ⟨_, w2, hw2⟩ := (hinN w).1 hw
        rw [leafWeight_absent (x := .nyt) (h.all_present hg).1] at hw2; exact absurd hw2 (by simp)
      · obtain ⟨w, hw⟩ := hsome (.sym a) ((h.all_present hg).2 a ha)
        exact ⟨_, (hin a (scale c w)).2 ⟨w, hw, by unfold decayedWeight; rw [if_neg (fun hx => hrm hx.2)]⟩⟩
    · refine length_keys (hlist.1.nodup (nodup_leaves h hm)) fun a w' hw' => ?_
      obtain ⟨w, hw, _⟩ := (hin a w').1 hw'
      exact (hpos a w hw).1
    · exact le_trans hlist.2 (by rw [sum_leaves h hm]; exact h.weight_max)
  obtain ⟨u, hu, hok, hord, _, _, hv, hp, hl, hw⟩ := treeRebuild_ok hitems (by have := hitems.size; omega) hloc
  refine ⟨u, hu, hok, hord, hv, hp, hl, ?_, fun a => ?_⟩
  · cases hn : leafWeight t .nyt with
    | none =>
      cases hn2 : leafWeight u .nyt with
      | none => rfl
      | some w =>
        obtain ⟨_, w2, hw2⟩ := (hinN w).1 ((hw _ _).1 hn2)
        rw [hn] at hw2; exact absurd hw2 (by simp)
    | some w => rw [hnyt w hn]; exact (hw _ _).2 ((hinN 0).2 ⟨rfl, w, hn⟩)
  · cases hn : leafWeight t (.sym a) with
    | none =>
      cases hn2 : leafWeight u (.sym a) with
      | none => rfl
      | some w =>
        obtain ⟨w2, hw2, _⟩ := (hin a w).1 ((hw _ _).1 hn2)
        rw [hn] at hw2; exact absurd hw2 (by simp)
    | some w =>
      show _ = decayedWeight c w
      cases hd : decayedWeight c w with
      | some w' => exact (hw _ _).2 ((hin a w').2 ⟨w, hn, hd⟩)
      | none =>
        cases hn2 : leafWeight u (.sym a) with
        | none => rfl
        | some w' =>
          obtain ⟨w2, hw2, hd2⟩ := (hin a w').1 ((hw _ _).1 hn2)
          rw [hn] at hw2; injection hw2 with hw2; subst hw2
          rw [hd] at hd2; exact absurd hd2 (by simp)

theorem decayedLeaf_sym (c : Conf) (a w : Nat) : decayedLeaf c (.sym a) w = decayedWeight c w := by
  simp only [decayedLeaf, decayedWeight, scale_eq]
  cases c.remove <;> simp

/-! ### The initial tree -/

/-- The initial tree (42 R113): the NYT alone, or every symbol at weight 1. -/
theorem treeInit_ok {t : Tree} {c : Conf} (hk : 1 ≤ c.k.toNat) (hlen : c.k.toNat ≤ t.pairs.length) (hloc : c.k.toNat ≤ t.locSym.length) :
    ∃ u, treeInit c t = .ok u ∧ TreeOk c.k.toNat c.growth u ∧ RebuildOrder u ∧ u.valid = true ∧ u.pairs.length = t.pairs.length ∧
      u.locSym.length = t.locSym.length ∧
      (c.growth = true → u.m = 0 ∧ u.root = .nyt ∧ u.rootW = 0 ∧ u.locNyt = .atRoot ∧ ∀ a, u.locOf (.sym a) = .absent) ∧
      (c.growth = false → u.m = c.k.toNat - 1 ∧ u.rootW = c.k.toNat ∧ ∀ a, a < c.k.toNat → leafWeight u (.sym a) = some 1) := by
  unfold treeInit
  by_cases hg : c.growth = true
  · rw [if_pos hg]
    refine ⟨_, rfl, ?_⟩
    set u : Tree := { ({ t with m := 0, root := .nyt, rootW := 0 } : Tree).clearLocs.setLoc .nyt .atRoot with valid := true } with hu
    have hlo : ∀ x, u.locOf x = if x = .nyt then .atRoot else .absent := by
      intro x
      cases x with
      | nyt => rfl
      | sym a =>
        have : u.locOf (.sym a) = ({ t with m := 0, root := .nyt, rootW := 0 } : Tree).clearLocs.locOf (.sym a) := rfl
        rw [this, locOf_clear]; simp
    have um : u.m = 0 := rfl
    have ur : u.root = .nyt := rfl
    have uw : u.rootW = 0 := rfl
    refine ⟨?_, fun p q hpq hq => by rw [um] at hq; omega, rfl, rfl, by simp [hu, Tree.setLoc, Tree.clearLocs], fun _ => ⟨rfl, rfl, rfl, rfl, fun a => by rw [hlo]; simp⟩, fun e => by rw [hg] at e; exact absurd e (by simp)⟩
    refine
      { ordered := fun q hq => by rw [um] at hq; omega, root_node := fun h0 => by omega, root_leaf := fun _ => by rw [ur]; simp [Child.key?],
        parent_later := fun i hi => by omega, child_once := fun q i hq => by omega, slot_sum := fun q i hq => by omega,
        root_sum := fun h0 => by omega, loc_slot := fun x j b => ?_, loc_root := fun x => ?_, in_alphabet := fun a ha => ?_,
        nyt_present := fun _ => by show u.locNyt ≠ .absent; simp [hu, Tree.setLoc], nyt_weight := fun q hq => by omega,
        nyt_root_weight := fun _ => uw, all_present := fun e => by rw [hg] at e; exact absurd e (by simp),
        leaf_weight := fun q a hq => by omega, leaf_root_weight := fun a e => by rw [ur] at e; exact absurd e (by simp),
        size := by omega, weight_max := by rw [uw]; exact Nat.zero_le _ }
    · rw [hlo]; split
      · exact ⟨fun e => absurd e (by simp), fun e => by omega⟩
      · exact ⟨fun e => absurd e (by simp), fun e => by omega⟩
    · rw [hlo, ur]
      cases x <;> simp [Child.key?]
    · rw [hlo] at ha; simp at ha
  · rw [if_neg hg]
    have hgf : c.growth = false := by simpa using hg
    have hmem : ∀ x w, (x, w) ∈ ((List.range c.k.toNat).map fun a => (Key.sym a, 1)) ↔ ∃ a, a < c.k.toNat ∧ x = .sym a ∧ w = 1 := by
      intro x w
      simp only [List.mem_map, List.mem_range, Prod.mk.injEq]
      constructor
      · rintro ⟨a, h1, h2, h3⟩; exact ⟨a, h1, h2.symm, h3.symm⟩
      · rintro ⟨a, h1, h2, h3⟩; exact ⟨a, h1, h2.symm, h3.symm⟩
    have htot : (((List.range c.k.toNat).map fun a => (Key.sym a, 1)).map Prod.snd).sum = c.k.toNat := by
      rw [List.map_map]; simp [Function.comp_def]
    have hitems : Items c.k.toNat c.growth ((List.range c.k.toNat).map fun a => (.sym a, 1)) := by
      refine ⟨?_, ?_, fun a w hw => ?_, fun w hw => ?_, fun e => absurd e hg, fun _ => ⟨fun w hw => ?_, fun a ha => ⟨1, (hmem _ _).2 ⟨a, ha, rfl, rfl⟩⟩⟩, by simp, ?_⟩
      · intro e
        have := congrArg List.length e
        simp at this; omega
      · rw [List.map_map]
        exact List.Nodup.map (fun a b e => by simpa using e) List.nodup_range
      · obtain ⟨b, hb, e, rfl⟩ := (hmem _ _).1 hw
        injection e with e; exact ⟨by omega, le_refl _⟩
      · obtain ⟨b, _, e, _⟩ := (hmem _ _).1 hw; exact absurd e (by simp)
      · obtain ⟨b, _, e, _⟩ := (hmem _ _).1 hw; exact absurd e (by simp)
      · rw [htot]
        have : c.k.toNat < 2 ^ 16 := c.k.isLt
        exact le_trans this.le (by decide)
    obtain ⟨u, h1, h2, hord, h3, h4, h5, h6, h7, h8⟩ := treeRebuild_ok hitems (t := t) (by simp; omega) hloc
    have hvl : ∀ x, ({ u with valid := true } : Tree).locOf x = u.locOf x := by intro x; cases x <;> rfl
    have hlw : ∀ x, leafWeight { u with valid := true } x = leafWeight u x := by intro x; simp only [leafWeight, hvl]; rfl
    refine ⟨{ u with valid := true }, by simp only [h1, bind, Except.bind]; rfl, ?_, hord, rfl, h6, h7, fun e => absurd e hg, fun _ => ⟨?_, ?_, fun a ha => ?_⟩⟩
    · exact
        { ordered := h2.ordered, root_node := h2.root_node, root_leaf := h2.root_leaf, parent_later := h2.parent_later,
          child_once := h2.child_once, slot_sum := h2.slot_sum, root_sum := h2.root_sum, loc_slot := fun x j b => by rw [hvl]; exact h2.loc_slot x j b,
          loc_root := fun x => by rw [hvl]; exact h2.loc_root x, in_alphabet := fun a ha => h2.in_alphabet a (by rw [hvl] at ha; exact ha),
          nyt_present := h2.nyt_present, nyt_weight := h2.nyt_weight, nyt_root_weight := h2.nyt_root_weight,
          all_present := fun e => ⟨(h2.all_present e).1, fun a ha => by rw [hvl]; exact (h2.all_present e).2 a ha⟩,
          leaf_weight := h2.leaf_weight, leaf_root_weight := h2.leaf_root_weight, size := h2.size, weight_max := h2.weight_max }
    · show u.m = _; simp at h3; omega
    · show u.rootW = _; rw [h4, htot]
    · rw [hlw]; exact (h8 _ _).2 ((hmem _ _).2 ⟨a, ha, rfl, rfl⟩)

end Sys2Proof.Machine
end

