-- ==== Sys2Proof/Laws/TreePath.lean ====
section
/-! SUPPORT. The path of a leaf, walked up by `pathBits` (42 R104) and down by `descend` (42 R114). -/

namespace Sys2Proof.Machine

/-- A walk up from pair `k`, read backwards, is a walk down from the root to it. -/
theorem Shape.chain_descend {t : Tree} (h : Shape t) : ∀ (n k : Nat), k < t.m → t.m ≤ n + k → ∀ fuel, n ≤ fuel →
    ∃ l, t.chain fuel (t.parentLoc k) = .ok l ∧
      ∀ rest c, t.descend t.root ((l.map slotOf).reverse ++ rest) c = t.descend (.node k) rest (c + l.length) := by
  intro n
  induction n with
  | zero => intro k hk hn; omega
  | succ n ih =>
    intro k hk hn fuel hf
    obtain ⟨fuel, rfl⟩ : ∃ f, fuel = f + 1 := ⟨fuel - 1, by omega⟩
    by_cases hr : k = t.m - 1
    · obtain ⟨hroot, hp⟩ := h.root (by omega)
      rw [← hr] at hp hroot
      exact ⟨[], by simp [Tree.parentLoc, hp, Tree.chain], fun rest c => by simp [hroot]⟩
    · obtain ⟨r, h1, h2, h3, h4⟩ := h.parent k (by omega)
      obtain ⟨l, hl, hd⟩ := ih (r / 2) (by omega) (by omega) fuel (by omega)
      refine ⟨r :: l, by simp [Tree.parentLoc, h4, Tree.chain] at hl ⊢; rw [hl]; rfl, fun rest c => ?_⟩
      rw [List.map_cons, List.reverse_cons, List.append_assoc, hd, List.singleton_append, Tree.descend, child_eq_ch, slotPos_slotOf, h3,
        List.length_cons, Nat.add_assoc]

theorem descend_key (t : Tree) {x : Child} {y : Key} (h : x.key? = some y) (bits : List Bool) (c : Nat) : t.descend x bits c = some (y, c) := by
  cases x with
  | leaf a => cases h; unfold Tree.descend; rfl
  | nyt => cases h; unfold Tree.descend; rfl
  | node k => cases h

/-- A leaf of the tree has a path, and descending along it ends at the leaf. -/
theorem Shape.path_ok {t : Tree} (h : Shape t) {x : Key} (hx : t.locOf x ≠ .absent) :
    ∃ code, t.pathBits x = .ok code ∧ ∀ rest, t.descend t.root (code ++ rest) 0 = some (x, code.length) := by
  cases hl : t.locOf x with
  | absent => exact absurd hl hx
  | atRoot =>
    have hr := (h.rootLoc x).1 hl
    exact ⟨[], by simp [Tree.pathBits, hl, Tree.walkFuel, Tree.chain], fun rest => by rw [descend_key t hr]; rfl⟩
  | atSlot k b =>
    have hq := (h.slot x (slotPos k b)).1 (by simpa using hl)
    have hk : k < t.m := by have := slotPos_div k b; omega
    obtain ⟨l, h1, h2⟩ := h.chain_descend (t.m - k) k hk (by omega) t.m (by omega)
    refine ⟨(l.map slotOf).reverse ++ [b], by simp [Tree.pathBits, hl, Tree.walkFuel, Tree.chain, h1], fun rest => ?_⟩
    rw [List.append_assoc, h2, List.singleton_append, Tree.descend, child_eq_ch, descend_key t hq.2]
    simp

/-- A descent reads what it returns: the bits up to the leaf. -/
theorem descend_le (t : Tree) {x : Child} {bits : List Bool} {c n : Nat} {y : Key} (h : t.descend x bits c = some (y, n)) :
    c ≤ n ∧ n ≤ c + bits.length := by
  induction bits generalizing x c with
  | nil =>
    cases x <;> simp [Tree.descend] at h <;> omega
  | cons b bs ih =>
    cases x with
    | leaf a => simp [Tree.descend] at h; omega
    | nyt => simp [Tree.descend] at h; omega
    | node k =>
      rw [Tree.descend] at h
      have := ih h
      simp
      omega

/-- More bits behind do not change a descent. -/
theorem descend_append (t : Tree) (more : List Bool) {x : Child} {bits : List Bool} {c : Nat} {r : Key × Nat} (h : t.descend x bits c = some r) :
    t.descend x (bits ++ more) c = some r := by
  induction bits generalizing x c with
  | nil =>
    cases x with
    | node k => simp [Tree.descend] at h
    | leaf a => rw [descend_key t (x := .leaf a) rfl] at h ⊢; exact h
    | nyt => rw [descend_key t (x := .nyt) rfl] at h ⊢; exact h
  | cons b bs ih =>
    cases x with
    | node k => rw [List.cons_append, Tree.descend]; rw [Tree.descend] at h; exact ih h
    | leaf a => rw [descend_key t (x := .leaf a) rfl] at h ⊢; exact h
    | nyt => rw [descend_key t (x := .nyt) rfl] at h ⊢; exact h

/-- Bits that end inside a leaf's path end no descent. -/
theorem Shape.descend_short {t : Tree} (h : Shape t) {x : Key} {path bits tail : List Bool} (hx : t.locOf x ≠ .absent) (hp : t.pathBits x = .ok path)
    (hb : path = bits ++ tail) (ht : tail ≠ []) : t.descend t.root bits 0 = none := by
  obtain ⟨path', h1, h2⟩ := h.path_ok hx
  rw [hp] at h1; cases h1
  cases hd : t.descend t.root bits 0 with
  | none => rfl
  | some r =>
    have h3 := h2 []
    rw [List.append_nil, hb, descend_append t tail hd] at h3
    have hr : r = (x, (bits ++ tail).length) := Option.some.inj h3
    rw [hr] at hd
    have h4 := (descend_le t hd).2
    have h5 := List.length_pos_iff.2 ht
    rw [List.length_append] at h4; omega

/-- A descent ends at a leaf of the tree. -/
theorem Shape.descend_present {t : Tree} (h : Shape t) (hr : t.m = 0 → t.root.key? ≠ none) {x : Child} {bits : List Bool} {c n : Nat} {y : Key}
    (hx : x = t.root ∨ ∃ q, q < 2 * t.m ∧ t.ch q = x) (hd : t.descend x bits c = some (y, n)) : t.locOf y ≠ .absent := by
  have key : ∀ {x : Child}, x.key? = some y → (x = t.root ∨ ∃ q, q < 2 * t.m ∧ t.ch q = x) → t.locOf y ≠ .absent := by
    rintro x hk (rfl | ⟨q, hq, rfl⟩)
    · rw [(h.rootLoc y).2 hk]; simp
    · rw [(h.slot y q).2 ⟨hq, hk⟩]; simp
  induction bits generalizing x c with
  | nil =>
    cases x with
    | node k => simp [Tree.descend] at hd
    | leaf a => simp [Tree.descend] at hd; exact key (x := .leaf a) (by simp [Child.key?, hd.1]) hx
    | nyt => simp [Tree.descend] at hd; exact key (x := .nyt) (by simp [Child.key?, hd.1]) hx
  | cons b bs ih =>
    cases x with
    | leaf a => simp [Tree.descend] at hd; exact key (x := .leaf a) (by simp [Child.key?, hd.1]) hx
    | nyt => simp [Tree.descend] at hd; exact key (x := .nyt) (by simp [Child.key?, hd.1]) hx
    | node k =>
      rw [Tree.descend, child_eq_ch] at hd
      refine ih (.inr ⟨_, slotPos_lt ?_, rfl⟩) hd
      rcases hx with e | ⟨q, hq, e⟩
      · by_cases hm : 0 < t.m
        · have := (h.root hm).1; rw [← e] at this; injection this with this; omega
        · exact absurd (by rw [← e]; rfl) (hr (by omega))
      · have := h.node q k hq e; omega

end Sys2Proof.Machine
end

