-- ==== Sys2Proof/Laws/TreeSizes.lean ====
section
/-! SUPPORT. The tree's procedures keep the sizes of the tables and the validity bit, on any tree (see Machine/Tree.lean). -/

namespace Sys2Proof.Machine

/-- Table sizes and validity are kept. -/
structure SameSizes (t u : Tree) : Prop where
  valid : u.valid = t.valid
  pairs : u.pairs.length = t.pairs.length
  locs : u.locSym.length = t.locSym.length

theorem SameSizes.rfl' (t : Tree) : SameSizes t t := ⟨rfl, rfl, rfl⟩

theorem SameSizes.trans {t u v : Tree} (h : SameSizes t u) (h2 : SameSizes u v) : SameSizes t v :=
  ⟨h2.valid.trans h.valid, h2.pairs.trans h.pairs, h2.locs.trans h.locs⟩

theorem SameFrame.sizes {t u : Tree} (h : SameFrame t u) : SameSizes t u := ⟨h.valid, h.pairs, h.locs⟩

theorem slide_sizes {fuel q l : Nat} {t u : Tree} (h : Tree.slide fuel q t = .ok (l, u)) : SameSizes t u := by
  induction fuel generalizing q t with
  | zero => cases h
  | succ n ih =>
    obtain ⟨r, -, h⟩ := bind_eq_ok h
    split at h
    · cases h; exact .rfl' _
    · exact (sameFrame_swapSlots _ _ _).sizes.trans (ih h)

theorem climb_sizes {fuel : Nat} {loc : Loc} {t u : Tree} (h : Tree.climb fuel loc t = .ok u) : SameSizes t u := by
  induction fuel generalizing loc t with
  | zero => cases h
  | succ n ih =>
    cases loc with
    | absent => cases h
    | atRoot => cases h; exact ⟨rfl, rfl, rfl⟩
    | atSlot k b =>
      obtain ⟨⟨q, v⟩, hv, h⟩ := bind_eq_ok h
      exact (slide_sizes hv).trans ((sameFrame_setWeight _ _ _).sizes.trans (ih h))

theorem treeUpdate_sizes {x : Key} {t u : Tree} (h : treeUpdate x t = .ok u) : SameSizes t u := by
  unfold treeUpdate at h
  split at h
  · cases h
  · exact climb_sizes h

theorem shiftPairs_sizes (t : Tree) : SameSizes t t.shiftPairs := by
  refine ⟨rfl, ?_, by simp [Tree.shiftPairs]⟩
  simp [Tree.shiftPairs]
  omega

theorem treeSplit_sizes {a : Nat} {t u : Tree} (h : treeSplit a t = .ok u) : SameSizes t u := by
  unfold treeSplit at h
  split at h
  · cases h
  · cases h
    exact ⟨rfl, by simp [Tree.setLoc, Tree.setPair], by simp [Tree.setLoc, Tree.setPair]⟩
  · cases h
    have := shiftPairs_sizes t
    exact ⟨this.valid, by simpa [Tree.setLoc, Tree.setPair] using this.pairs, by simpa [Tree.setLoc, Tree.setPair] using this.locs⟩

theorem adopt_sizes (t : Tree) (x : Child) (r : Nat × Bool) : SameSizes t (t.adopt x r) := by
  cases x with
  | node k => exact (sameFrame_setPair _ _ _).sizes
  | leaf a => exact .rfl' _
  | nyt => exact .rfl' _

theorem joinItems_sizes (t : Tree) (i j : PoolItem) : SameSizes t (t.joinItems i j) := by
  have h1 := (sameFrame_setPair t t.m { w0 := i.weight, w1 := j.weight, c0 := i.child, c1 := j.child, parent := none }).sizes
  have h := h1.trans ((adopt_sizes _ i.child (t.m, false)).trans (adopt_sizes _ j.child (t.m, true)))
  exact ⟨h.valid, h.pairs, h.locs⟩

theorem buildLoop_sizes {fuel : Nat} {pool : List PoolItem} {t u : Tree} {i : PoolItem} (h : buildLoop fuel pool t = .ok (i, u)) :
    SameSizes t u := by
  induction fuel generalizing pool t with
  | zero =>
    unfold buildLoop at h
    split at h
    · cases h
    · cases h; exact .rfl' _
    · cases h
  | succ n ih =>
    unfold buildLoop at h
    split at h
    · cases h
    · cases h; exact .rfl' _
    · simp only at h
      split at h
      · cases h
      · exact (joinItems_sizes _ _ _).trans (ih h)

theorem placeLeaf_sizes (t : Tree) (q : Nat) : SameSizes t (t.placeLeaf q) := by
  unfold Tree.placeLeaf
  split
  · exact (sameFrame_setLoc _ _ _).sizes
  · exact .rfl' _

theorem placeLeaves_sizes (t : Tree) : SameSizes t t.placeLeaves := by
  have hf : ∀ (l : List Nat) (t : Tree), SameSizes t (l.foldl Tree.placeLeaf t) := by
    intro l
    induction l with
    | nil => exact fun t => .rfl' t
    | cons q l ih => exact fun t => (placeLeaf_sizes t q).trans (ih _)
  have hc : SameSizes t t.clearLocs := ⟨rfl, rfl, by simp [Tree.clearLocs]⟩
  have h := hc.trans (hf (List.range (2 * t.m)) _)
  unfold Tree.placeLeaves
  simp only
  split
  · exact h.trans (sameFrame_setLoc _ _ _).sizes
  · exact h

theorem treeRebuild_sizes {items : List (Key × Nat)} {t u : Tree} (h : treeRebuild items t = .ok u) : SameSizes t u := by
  obtain ⟨⟨i, v⟩, hv, h⟩ := bind_eq_ok h
  cases h
  have h1 := buildLoop_sizes hv
  have h2 := placeLeaves_sizes { v with rootW := i.weight, root := i.child }
  exact ⟨h2.valid.trans h1.valid, h2.pairs.trans h1.pairs, h2.locs.trans h1.locs⟩

theorem treeDecay_sizes {c : Conf} {t u : Tree} (h : treeDecay c t = .ok u) : SameSizes t u := treeRebuild_sizes h

/-- `treeInit` makes the tree valid and keeps the table sizes. -/
theorem treeInit_sizes {c : Conf} {t u : Tree} (h : treeInit c t = .ok u) :
    u.valid = true ∧ u.pairs.length = t.pairs.length ∧ u.locSym.length = t.locSym.length := by
  unfold treeInit at h
  split at h
  · cases h
    exact ⟨rfl, by simp [Tree.setLoc, Tree.clearLocs], by simp [Tree.setLoc, Tree.clearLocs]⟩
  · obtain ⟨v, hv, h⟩ := bind_eq_ok h
    cases h
    have := treeRebuild_sizes hv
    exact ⟨rfl, this.pairs, this.locs⟩

end Sys2Proof.Machine
end

