-- ==== Sys2Proof/Laws/TreeSteps.lean ====
section
/-! SUPPORT. `treeUpdate` and `treeSplit` follow the relations of Safety.lean: leader, swap, slide and walk (42 R106 to R109). -/

namespace Sys2Proof.Machine

/-- The procedure `leader` gives the leader (42 R107). -/
theorem leader_isLeader {t : Tree} {q : Nat} (h : Cur t q) : ∃ l, t.leader q = .ok l ∧ IsLeader t q l := by
  obtain ⟨l, h1, -, h3, h4, h5, h6⟩ := leader_ok h
  refine ⟨l, h1, h3, h4, ?_, fun p hp hw ha => ?_⟩
  · by_cases e : l = q
    · intro ha; have := (Above.lt h.shape h.pos ha).1; omega
    · exact h5 e
  · by_contra hn
    exact ha (h6 p (by omega) hp hw)

/-- The procedure `swapSlots` swaps (42 R106). -/
theorem swapSlots_swapped {t : Tree} {q l : Nat} (h : Shape t) (hq : q < 2 * t.m) (hl : l < 2 * t.m) : Swapped t q l (t.swapSlots q l) := by
  have f := sameFrame_swapSlots t q l
  have hsz := h.size
  refine ⟨f.m, f.root, f.rootW, wt_swapSlots t q l, ch_swapSlots (by omega) (by omega), fun i hi => ?_, locOf_swapSlots h hq hl⟩
  rw [parent_swapSlots]
  have : i < t.pairs.length := by omega
  simp only [this, and_true]

/-- The slide goes from leader to leader (42 R108). -/
theorem slide_slid : ∀ (fuel q : Nat) (t : Tree) (p : Nat) (u : Tree), Cur t q → Tree.slide fuel q t = .ok (p, u) → Slid t q u p := by
  intro fuel
  induction fuel with
  | zero => intro q t p u _ h; cases h
  | succ fuel ih =>
    intro q t p u h hs
    obtain ⟨l, h1, hl⟩ := leader_isLeader h
    unfold Tree.slide at hs
    simp only [h1, bind, Except.bind] at hs
    by_cases e : l = q
    · rw [if_pos e] at hs; subst e; cases hs
      exact .stay hl
    · rw [if_neg e] at hs
      have hlt : q < l := by
        have hne : ¬ Above t q q := fun ha => by have := (Above.lt h.shape h.pos ha).1; omega
        have := hl.2.2.2 q h.pos rfl hne; omega
      have hc := (swap_ok h hlt hl.1 hl.2.1 hl.2.2.1).1
      exact .move hl e (swapSlots_swapped h.shape h.pos hl.1) (ih l _ p u hc hs)

/-- The walk climbs (42 R108). -/
theorem climb_climbed : ∀ (fuel q : Nat) (t u : Tree), Cur t q → Tree.climb fuel (.atSlot (q / 2) (slotOf q)) t = .ok u →
    Climbed t (.atSlot (q / 2) (slotOf q)) u := by
  intro fuel
  induction fuel with
  | zero => intro q t u _ h; cases h
  | succ fuel ih =>
    intro q t v h hv
    obtain ⟨p, u, g1, g2, g3, g4, g5, g6, g7, g8, g9, g10⟩ := slide_ok (2 * t.m + 1) q t h (by omega)
    unfold Tree.climb at hv
    simp only [slotPos_slotOf, g1, bind, Except.bind] at hv
    refine .slot (slide_slid _ _ _ _ _ h g1) ?_
    rw [← g7] at hv ⊢
    rw [show u.parentLoc (p / 2) = (u.setWeight p (u.wt p + 1)).parentLoc (p / 2) by simp only [Tree.parentLoc, parent_setWeight]]
    rcases (grow_ok g2 g10).1 with ⟨e, -⟩ | ⟨r, e, hc, -⟩
    · rw [e] at hv ⊢
      cases fuel with
      | zero => cases hv
      | succ n => cases hv; exact .root
    · rw [e] at hv ⊢
      exact ih r _ v hc hv

theorem Ready.cur {t : Tree} {q a : Nat} (h : Ready t q) (hc : t.ch q = .leaf a) : Cur t q := by
  refine ⟨h.shape, h.pos, fun a b hab hb => le_trans (h.order a b hab hb) (Nat.le_add_right _ _), fun p i hp hi => ?_, h.rootSum, h.zero, h.nyt,
    by rw [hc]; simp⟩
  rw [if_neg, h.sums p i hp hi, Nat.add_zero]
  rintro rfl; rw [hc] at hi; exact absurd hi (by simp)

theorem Ready.climbed {t u : Tree} {q a : Nat} (h : Ready t q) (hc : t.ch q = .leaf a) (hu : treeUpdate (.sym a) t = .ok u) :
    Climbed t (t.locOf (.sym a)) u := by
  have hloc := (h.shape.slot (.sym a) q).2 ⟨h.pos, by rw [hc]; rfl⟩
  unfold treeUpdate at hu
  split at hu
  · cases hu
  · rw [hloc] at hu ⊢
    exact climb_climbed _ _ _ _ (h.cur hc) hu

/-- `treeUpdate` of a symbol of a legal tree is the walk of 42 R108. -/
theorem treeUpdate_climbed {k a : Nat} {g : Bool} {t u : Tree} (h : TreeOk k g t) (hlen : t.m ≤ t.pairs.length)
    (ha : t.locOf (.sym a) ≠ .absent) (hu : treeUpdate (.sym a) t = .ok u) : Climbed t (t.locOf (.sym a)) u := by
  have hset := h.settled hlen
  rcases loc_cases t (.sym a) with e | e | ⟨q, e⟩
  · exact absurd e ha
  · unfold treeUpdate at hu
    split at hu
    · cases hu
    · rw [e] at hu ⊢
      cases hu; exact .root
  · have hq := (hset.shape.slot _ q).1 e
    refine (hset.ready hq.1).climbed (a := a) ?_ hu
    cases hc : t.ch q with
    | leaf b => rw [hc] at hq; simp [Child.key?] at hq; rw [hq.2]
    | nyt => rw [hc] at hq; simp [Child.key?] at hq
    | node i => rw [hc] at hq; simp [Child.key?] at hq

end Sys2Proof.Machine
end

