-- ==== Sys2Proof/Laws/Huffman.lean ====
section
/-! SUPPORT. What the Huffman commands do in a state that holds a legal tree (43 R115 to R121). -/

namespace Sys2Proof.Machine

/-- The tree `t` is legal for the configuration of `s`, and its tables have room for the alphabet. -/
structure HuffOk (s : State) (t : Tree) : Prop where
  tree : TreeOk s.alphabet s.ctl.acfg.growth t
  pairs : s.alphabet ≤ t.pairs.length
  locs : s.alphabet ≤ t.locSym.length

theorem huffOk_of {s : State} (hb : BlockInv s) (ht : TreeInv s) (hv : s.tree.valid = true) : HuffOk s s.tree :=
  ⟨ht hv, by rw [hb.tables.pairs_length]; exact hb.acfg.k_max, by rw [hb.tables.loc_length]; exact hb.acfg.k_max⟩

theorem HuffOk.size {s : State} {t : Tree} (h : HuffOk s t) : t.m ≤ t.pairs.length := le_trans h.tree.size h.pairs

theorem HuffOk.shape {s : State} {t : Tree} (h : HuffOk s t) : Shape t := h.tree.shape h.size

theorem HuffOk.of_sizes {s : State} {t u : Tree} (h : HuffOk s t) (hu : TreeOk s.alphabet s.ctl.acfg.growth u) (hs : SameSizes t u) :
    HuffOk s u := ⟨hu, by rw [hs.pairs]; exact h.pairs, by rw [hs.locs]; exact h.locs⟩

/-! ### Symbols below the alphabet's size as raw codes -/

theorem lt_rawWidth {a k : Nat} (h : a < k) : a < 2 ^ rawWidth k := by
  unfold rawWidth
  split
  · have : a = 0 := by omega
    simp [this]
  · have := Nat.lt_log2_self (n := k - 1)
    omega

/-! ### Counting a symbol -/

/-- The tree with the symbol in it: the tree itself, or the tree grown by the symbol (43 R117, 42 R114). -/
def Placed (t : Tree) (a : Nat) (u : Tree) : Prop :=
  (t.locOf (.sym a) ≠ .absent ∧ u = t) ∨ (t.locOf (.sym a) = .absent ∧ t.locNyt ≠ .absent ∧ treeSplit a t = .ok u)

theorem Placed.sizes {t u : Tree} {a : Nat} (h : Placed t a u) : SameSizes t u := by
  rcases h with ⟨-, rfl⟩ | ⟨-, -, h⟩
  · exact .rfl' _
  · exact treeSplit_sizes h

/-- Where a symbol is new, the tree grows and has its NYT. -/
theorem HuffOk.grows {s : State} {t : Tree} (h : HuffOk s t) {a : Nat} (ha : a < s.alphabet) (hl : t.locOf (.sym a) = .absent) :
    s.ctl.acfg.growth = true ∧ t.locNyt ≠ .absent := by
  cases hg : s.ctl.acfg.growth with
  | true => exact ⟨rfl, h.tree.nyt_present hg⟩
  | false => exact absurd hl ((h.tree.all_present hg).2 a ha)

/-- A symbol of the alphabet can be placed, and then counted where the root's weight has room (42 R108, R109). -/
theorem HuffOk.place {s : State} {t : Tree} (h : HuffOk s t) {a : Nat} (ha : a < s.alphabet) :
    ∃ u, Placed t a u ∧ u.rootW = t.rootW ∧
      (t.rootW < Config.countMax → ∃ v, treeUpdate (.sym a) u = .ok v ∧ HuffOk s v ∧ v.valid = t.valid ∧ v.rootW = t.rootW + 1 ∧
        (∀ x, leafWeight v x = countedLeaf t a x) ∧ Counted t a v) := by
  by_cases hl : t.locOf (.sym a) = .absent
  · have hn := (h.grows ha hl).2
    have hroom := h.tree.room h.size ha hl
    obtain ⟨u, hu, hsp⟩ := treeSplit_ok h.tree (lt_of_lt_of_le hroom h.pairs) (lt_of_lt_of_le ha h.locs) hl hn
    refine ⟨u, .inr ⟨hl, hn, hu⟩, hsp.rootW, fun hw => ?_⟩
    obtain ⟨u', v, hu', hv, hok, -, hgr⟩ := splitUpdate_ok h.tree (lt_of_lt_of_le hroom h.pairs) (lt_of_lt_of_le ha h.locs) ha hl hn hw
    rw [hu] at hu'; cases hu'
    refine ⟨v, hv, h.of_sizes hok ((treeSplit_sizes hu).trans (treeUpdate_sizes hv)), by rw [hgr.valid, hsp.valid],
      by rw [hgr.rootW, hsp.rootW], fun x => ?_, u, .inr ⟨hl, hsp.newLeaf⟩, hsp.ready.climbed hsp.leaf hv⟩
    rw [hgr.weight, hsp.weight, countedLeaf]
    by_cases hx : x = .sym a
    · rw [if_pos (by rw [hx]), if_pos hx, if_pos hx, hx, leafWeight_absent hl]; rfl
    · rw [if_neg (by simpa using Ne.symm hx), if_neg hx, if_neg hx]
  · refine ⟨t, .inl ⟨hl, rfl⟩, rfl, fun hw => ?_⟩
    obtain ⟨v, hv, hok, hgr⟩ := treeUpdate_ok h.tree h.size hl hw
    refine ⟨v, hv, h.of_sizes hok (treeUpdate_sizes hv), hgr.valid, hgr.rootW, fun x => ?_, t, .inl ⟨hl, rfl⟩,
      treeUpdate_climbed h.tree h.size hl hv⟩
    rw [hgr.weight, countedLeaf]
    by_cases hx : x = .sym a
    · rw [if_pos (by rw [hx]), if_pos hx, hx]
      cases hlw : leafWeight t (.sym a) with
      | some w => rfl
      | none =>
        unfold leafWeight at hlw
        split at hlw
        · exact absurd ‹_› hl
        · cases hlw
        · cases hlw
    · rw [if_neg (by simpa using Ne.symm hx), if_neg hx]

theorem updateTree_run {s : State} {a : Nat} {v : Tree} (hv : treeUpdate (.sym a) s.tree = .ok v) (h : HuffOk s v) :
    updateTree a s = .ok (s.withTree v) := by
  simp [updateTree, hv, treeValidate_ok h.tree]

/-- A decay of a legal tree (43 R121). -/
theorem decayTree_run {s : State} (h : HuffOk s s.tree) (hc : LegalConf s.par.kmax s.ctl.acfg)
    (hr : s.ctl.acfg.remove = true → s.ctl.acfg.growth = true) :
    ∃ u, decayTree s = .ok (s.withTree u) ∧ HuffOk s u ∧ u.valid = s.tree.valid ∧ RebuildOrder u ∧
      ∀ x, leafWeight u x = (leafWeight s.tree x).bind (decayedLeaf s.ctl.acfg x) := by
  obtain ⟨u, hu, hok, ho, hv, -, -, hn, hs⟩ := treeDecay_ok h.tree h.pairs h.locs hc.k_min hc.alpha_max hc.alpha_min hr
  refine ⟨u, by simp [decayTree, hu, treeValidate_ok hok], h.of_sizes hok (treeDecay_sizes hu), hv, ho, fun x => ?_⟩
  cases x with
  | nyt =>
    rw [hn]
    cases hw : leafWeight s.tree .nyt with
    | none => rfl
    | some w => rw [h.tree.nyt_leaf h.size hw]; rfl
  | sym a => rw [hs, funext (decayedLeaf_sym _ a)]

/-- The end of a coded symbol: the tree `w` depends on the tree and the configuration alone, so two coders agree on it. -/
theorem ahAfterSymbol_run {s : State} {a : Nat} {v : Tree} (hv : treeUpdate (.sym a) s.tree = .ok v) (h : HuffOk s v)
    (hc : LegalConf s.par.kmax s.ctl.acfg) (hr : s.ctl.acfg.remove = true → s.ctl.acfg.growth = true) :
    (s.ctl.symCount < Config.wordMax → ∃ w, HuffOk s w ∧ w.valid = v.valid ∧
      ((¬ DecayFollows s → w = v) ∧
        (DecayFollows s → RebuildOrder w ∧ ∀ x, leafWeight w x = (leafWeight v x).bind (decayedLeaf s.ctl.acfg x))) ∧
      ∀ d : State, d.tree = s.tree → d.ctl.acfg = s.ctl.acfg → d.ctl.symCount = s.ctl.symCount →
        ahAfterSymbol a d = .ok { d with tree := w, ctl := { d.ctl with symCount := d.ctl.symCount + 1 } }) ∧
    (¬ s.ctl.symCount < Config.wordMax → ahAfterSymbol a s = raise .capacityExceeded 7) := by
  have run : ∀ d : State, d.tree = s.tree → d.ctl.acfg = s.ctl.acfg → updateTree a d = .ok (d.withTree v) := by
    intro d h1 h2
    refine updateTree_run (by rw [h1]; exact hv) ⟨?_, ?_, ?_⟩
    · have := h.tree; unfold State.alphabet at this ⊢; rw [h2]; exact this
    · have := h.pairs; unfold State.alphabet at this ⊢; rw [h2]; exact this
    · have := h.locs; unfold State.alphabet at this ⊢; rw [h2]; exact this
  constructor
  · intro hs
    have hcount : ∀ d : State, d.ctl.symCount = s.ctl.symCount →
        countSymbol (d.withTree v) = .ok { d with tree := v, ctl := { d.ctl with symCount := d.ctl.symCount + 1 } } := by
      intro d hd
      rw [countSymbol, if_neg (by simp [State.withTree, hd]; simpa using hs)]
      rfl
    by_cases hd : decayDue { s with tree := v, ctl := { s.ctl with symCount := s.ctl.symCount + 1 } } = true
    · have hdf : DecayFollows s := (decayDue_iff _).1 hd
      obtain ⟨w, hw, hwok, hwv, hwo, hwl⟩ := decayTree_run
        (s := { s with tree := v, ctl := { s.ctl with symCount := s.ctl.symCount + 1 } }) ⟨h.tree, h.pairs, h.locs⟩ hc hr
      refine ⟨w, ⟨hwok.tree, hwok.pairs, hwok.locs⟩, hwv, ⟨fun e => absurd hdf e, fun _ => ⟨hwo, hwl⟩⟩, fun d h1 h2 h3 => ?_⟩
      have hd' : decayDue { d with tree := v, ctl := { d.ctl with symCount := d.ctl.symCount + 1 } } = true := by
        simpa only [decayDue, h2, h3] using hd
      have hw' : decayTree { d with tree := v, ctl := { d.ctl with symCount := d.ctl.symCount + 1 } } =
          .ok { d with tree := w, ctl := { d.ctl with symCount := d.ctl.symCount + 1 } } := by
        obtain ⟨w', e1, e2, e3⟩ := decayTree_ok hw
        have e4 : w' = w := (congrArg State.tree e3).symm
        subst e4
        have e1 : treeDecay d.ctl.acfg v = .ok w' := by rw [h2]; exact e1
        simp [decayTree, e1, e2, State.withTree]
      simp only [ahAfterSymbol, run d h1 h2, ok_bind, hcount d h3, if_pos hd', hw']
    · refine ⟨v, h, rfl, ⟨fun _ => rfl, fun e => absurd ((decayDue_iff { s with tree := v, ctl := { s.ctl with symCount := s.ctl.symCount + 1 } }).2 e) hd⟩, fun d h1 h2 h3 => ?_⟩
      have hd' : ¬ decayDue { d with tree := v, ctl := { d.ctl with symCount := d.ctl.symCount + 1 } } = true := by
        simpa only [decayDue, h2, h3] using hd
      simp only [ahAfterSymbol, run d h1 h2, ok_bind, hcount d h3, if_neg hd']
      rfl
  · intro hs
    rw [ahAfterSymbol, run s rfl rfl, ok_bind, countSymbol, if_pos (by simp [State.withTree]; simpa using hs)]
    rfl

/-- A symbol that has been placed is coded into a `CodedTree` (43 R115), or the root's weight or the symbol index is full. -/
theorem coded_run {s : State} {a : Nat} {u : Tree} (hb : BlockInv s) (ht : TreeInv s) (hv : s.tree.valid = true) (ha : a < s.alphabet)
    (hu : Placed s.tree a u) :
    (s.tree.rootW < Config.countMax → s.ctl.symCount < Config.wordMax → ∃ w, CodedTree s a w ∧
      ∀ d : State, d.tree = u → d.ctl.acfg = s.ctl.acfg → d.ctl.symCount = s.ctl.symCount →
        ahAfterSymbol a d = .ok { d with tree := w, ctl := { d.ctl with symCount := d.ctl.symCount + 1 } }) ∧
    (s.tree.rootW = Config.countMax → ∀ d : State, d.tree = u → ahAfterSymbol a d = raise .capacityExceeded 1) ∧
    (s.tree.rootW < Config.countMax → s.ctl.symCount = Config.wordMax →
      ∀ d : State, d.tree = u → d.ctl.acfg = s.ctl.acfg → d.par = s.par → d.ctl.symCount = s.ctl.symCount →
        ahAfterSymbol a d = raise .capacityExceeded 7) := by
  have hk := huffOk_of hb ht hv
  obtain ⟨u', hpl, hur, hup⟩ := hk.place ha
  obtain rfl : u' = u := by
    rcases hu with ⟨e1, e2⟩ | ⟨e1, -, e2⟩ <;> rcases hpl with ⟨f1, f2⟩ | ⟨f1, -, f2⟩
    · rw [e2, f2]
    · exact absurd f1 e1
    · exact absurd e1 f1
    · rw [e2] at f2; cases f2; rfl
  refine ⟨fun hw hs => ?_, fun hw d hd => ?_, fun hw hs d h1 h2 h3 h4 => ?_⟩
  · obtain ⟨v, hv1, hv2, hv3, hv4, hv5, hv6⟩ := hup hw
    obtain ⟨w, w1, w2, ⟨w3, w4⟩, w5⟩ :=
      (ahAfterSymbol_run (s := s.withTree u') hv1 ⟨hv2.tree, hv2.pairs, hv2.locs⟩ hb.acfg (hb.tree_conf hv)).1 hs
    refine ⟨w, ⟨by rw [w2, hv3, hv], w1.tree, fun hd => ?_, fun hd => ⟨(w4 hd).1, fun x => by rw [(w4 hd).2, hv5]; rfl⟩⟩, w5⟩
    rw [w3 hd]
    exact ⟨hv6, hv4, hv5⟩
  · rw [ahAfterSymbol, updateTree, treeUpdate, if_pos (by rw [hd, hur]; exact hw)]
    rfl
  · obtain ⟨v, hv1, hv2, -⟩ := hup hw
    have hal : d.alphabet = s.alphabet := by unfold State.alphabet; rw [h2]
    refine (ahAfterSymbol_run (s := d) (by rw [h1]; exact hv1) ⟨by rw [hal, h2]; exact hv2.tree, by rw [hal]; exact hv2.pairs, by rw [hal]; exact hv2.locs⟩
      (by rw [h2, h3]; exact hb.acfg) (by rw [h2]; exact hb.tree_conf hv)).2 (by omega)

/-! ### Codewords -/

/-- Every symbol of the alphabet has a codeword, and there is only one. -/
theorem HuffOk.codeword {s : State} (h : HuffOk s s.tree) {a : Nat} (ha : a < s.alphabet) :
    ∃ code, Codeword s a code ∧ ∀ code', Codeword s a code' → code' = code := by
  by_cases hl : s.tree.locOf (.sym a) = .absent
  · obtain ⟨path, hp, -⟩ := h.shape.path_ok (x := .nyt) (h.grows ha hl).2
    refine ⟨path ++ bitsMSB a (rawWidth s.alphabet), .inr ⟨hl, path, hp, rfl⟩, ?_⟩
    rintro code' (⟨h1, -⟩ | ⟨-, p', h1, rfl⟩)
    · exact absurd hl h1
    · rw [hp] at h1; cases h1; rfl
  · obtain ⟨code, hp, -⟩ := h.shape.path_ok hl
    refine ⟨code, .inl ⟨hl, hp⟩, ?_⟩
    rintro code' (⟨-, h1⟩ | ⟨h1, -⟩)
    · rw [hp] at h1; cases h1; rfl
    · exact absurd h1 hl

/-- The encoder emits the codeword, then grows the tree where the symbol is new (43 R117). -/
theorem ahEmitSymbol_run {s : State} {a : Nat} {code : List Bool} {u : Tree} (hc : Codeword s a code) (hu : Placed s.tree a u) :
    ahEmitSymbol a s = (emitBits code s >>= fun t => .ok (t.withTree u)) := by
  unfold ahEmitSymbol
  rcases hc with ⟨hl, hp⟩ | ⟨hl, path, hp, rfl⟩
  · rw [if_pos hl, hp, ok_bind]
    rcases hu with ⟨-, rfl⟩ | ⟨h, -⟩
    · cases he : emitBits code s with
      | error e => rfl
      | ok t =>
        obtain ⟨-, rfl⟩ := emitBits_ok he
        rfl
    · exact absurd h hl
  · rcases hu with ⟨h, -⟩ | ⟨-, hn, hs⟩
    · exact absurd hl h
    · rw [if_neg (by simpa using hl), if_neg hn, hp, ok_bind]
      cases he : emitBits (path ++ s.rawBits a) s with
      | error e => simp only [State.rawBits] at he; rw [he]; rfl
      | ok t =>
        simp only [State.rawBits] at he
        rw [he]
        obtain ⟨-, rfl⟩ := emitBits_ok he
        simp only [ok_bind]
        show (treeSplit a s.tree >>= _) = _
        rw [hs]
        rfl

theorem drop_drop_append {l a b : List Bool} {n : Nat} (h : l.drop n = a ++ b) : l.drop (n + a.length) = b := by
  rw [← List.drop_drop, h, List.drop_left]

/-- The decoder reads a codeword back: the symbol, and the tree with the symbol in it (42 R114). -/
theorem treeWalk_run {s : State} (h : HuffOk s s.tree) {a : Nat} (ha : a < s.alphabet) {code rest : List Bool} {u : Tree} {d : State}
    (hc : Codeword s a code) (hu : Placed s.tree a u) (ht : d.tree = s.tree) (hk : d.ctl.acfg = s.ctl.acfg)
    (hi : d.buf.inBits.drop d.buf.inPos = code ++ rest) :
    treeWalk d = .ok (a, { d with tree := u, buf := { d.buf with inPos := d.buf.inPos + code.length } }) := by
  have hal : d.alphabet = s.alphabet := by unfold State.alphabet; rw [hk]
  rcases hc with ⟨hl, hp⟩ | ⟨hl, path, hp, rfl⟩
  · obtain ⟨code', h1, h2⟩ := h.shape.path_ok hl
    rw [hp] at h1; cases h1
    unfold treeWalk
    rw [hi, ht, h2]
    rcases hu with ⟨-, rfl⟩ | ⟨h, -⟩
    · simp only [State.withBuf, ← ht]
    · exact absurd h hl
  · rcases hu with ⟨h', -⟩ | ⟨-, hn, hs⟩
    · exact absurd hl h'
    obtain ⟨path', h1, h2⟩ := h.shape.path_ok (x := .nyt) hn
    rw [hp] at h1; cases h1
    rw [List.append_assoc] at hi
    unfold treeWalk
    rw [hi, ht, h2]
    have hg := gatherBits_ok (v := 0) (s := d.withBuf { d.buf with inPos := d.buf.inPos + path.length }) (drop_drop_append hi)
    rw [bitsMSB_length, bitsFrom_bitsMSB, Nat.mod_eq_of_lt (lt_rawWidth ha)] at hg
    simp only [hal, hg, ok_bind]
    have hreq : requireSymbol a ((d.withBuf { d.buf with inPos := d.buf.inPos + path.length }).withBuf
        { (d.withBuf { d.buf with inPos := d.buf.inPos + path.length }).buf with
          inPos := (d.withBuf { d.buf with inPos := d.buf.inPos + path.length }).buf.inPos + rawWidth s.alphabet }) = .ok () := by
      rw [requireSymbol, if_neg]
      show ¬ d.alphabet ≤ a
      rw [hal]; omega
    rw [hreq, ok_bind, if_neg (by simpa [State.withBuf, ht] using hl)]
    show (treeSplit a d.tree >>= _) = _
    rw [ht, hs]
    simp [State.withBuf, State.withTree, Nat.add_assoc]

/-- An input that ends inside a path runs out (42 R114). -/
theorem treeWalk_short {s : State} (h : Shape s.tree) {x : Key} {path tail : List Bool} (hx : s.tree.locOf x ≠ .absent)
    (hp : s.tree.pathBits x = .ok path) (hi : path = s.buf.inBits.drop s.buf.inPos ++ tail) (ht : tail ≠ []) :
    treeWalk s = raise .truncatedStream 0 := by
  rw [treeWalk, h.descend_short hx hp hi ht]

/-- Behind the NYT's path the decoder gathers the raw code and checks it (42 R114). -/
theorem treeWalk_raw {s : State} (h : Shape s.tree) {path raw : List Bool} (hn : s.tree.locNyt ≠ .absent) (hp : s.tree.pathBits .nyt = .ok path) :
    (s.buf.inBits.drop s.buf.inPos = path ++ raw → raw.length < rawWidth s.alphabet → treeWalk s = raise .truncatedStream 0) ∧
    ∀ more, s.buf.inBits.drop s.buf.inPos = path ++ raw ++ more → raw.length = rawWidth s.alphabet →
      (s.alphabet ≤ bitsValue raw → treeWalk s = raise .symbolNotInAlphabet (bitsValue raw)) ∧
      (bitsValue raw < s.alphabet → s.tree.locOf (.sym (bitsValue raw)) ≠ .absent → treeWalk s = raise .streamInconsistent (bitsValue raw)) := by
  obtain ⟨path', h1, h2⟩ := h.path_ok (x := .nyt) hn
  rw [hp] at h1; cases h1
  refine ⟨fun hi hl => ?_, fun more hi hl => ?_⟩
  · unfold treeWalk
    rw [hi, h2]
    simp only
    rw [gatherBits_short]
    · rfl
    · show ((s.buf.inBits.drop (s.buf.inPos + path.length)).length) < _
      rw [drop_drop_append hi]; exact hl
  · rw [List.append_assoc] at hi
    have hg := gatherBits_ok (v := 0) (s := s.withBuf { s.buf with inPos := s.buf.inPos + path.length }) (drop_drop_append hi)
    rw [hl, ← bitsValue_eq] at hg
    unfold treeWalk
    rw [hi, h2]
    simp only [hg, ok_bind]
    refine ⟨fun hk => ?_, fun hk hx => ?_⟩
    · rw [requireSymbol, if_pos (by exact hk)]; rfl
    · rw [requireSymbol, if_neg (by exact Nat.not_le.2 hk), ok_bind, if_pos (by exact hx)]

/-- Whatever bits the decoder reads, a symbol that it returns is one of the alphabet, placed in the tree (42 R114). -/
theorem treeWalk_ok {s t : State} {a : Nat} (h : HuffOk s s.tree) (hw : treeWalk s = .ok (a, t)) :
    a < s.alphabet ∧ Placed s.tree a t.tree := by
  have hs := h.shape
  unfold treeWalk at hw
  split at hw
  · cases hw
  · rename_i hd
    cases hw
    have := hs.descend_present h.tree.root_leaf (.inl rfl) hd
    exact ⟨h.tree.in_alphabet _ this, .inl ⟨this, rfl⟩⟩
  · rename_i hd
    have hn := hs.descend_present h.tree.root_leaf (.inl rfl) hd
    obtain ⟨⟨b, u⟩, hg, hw⟩ := bind_eq_ok hw
    obtain ⟨bits, rest, -, -, -, rfl⟩ := gatherBits_eq_ok hg
    obtain ⟨r, hr, hw⟩ := bind_eq_ok hw
    have hb := requireSymbol_ok hr
    split at hw
    · cases hw
    · rename_i hl
      obtain ⟨v, hv, hw⟩ := bind_eq_ok hw
      cases hw
      exact ⟨hb, .inr ⟨by simpa using hl, hn, hv⟩⟩

/-- The walk down stays within the input (42 R114). -/
theorem treeWalk_inside {s t : State} {a : Nat} (hw : treeWalk s = .ok (a, t)) (hp : s.buf.inPos ≤ s.buf.inBits.length) :
    t.buf.inPos ≤ s.buf.inBits.length := by
  unfold treeWalk at hw
  split at hw
  · cases hw
  · rename_i hd
    have := (descend_le _ hd).2
    cases hw
    simp at this ⊢
    omega
  · rename_i hd
    obtain ⟨⟨b, u⟩, hg, hw⟩ := bind_eq_ok hw
    obtain ⟨bits, rest, hl, hdr, -, rfl⟩ := gatherBits_eq_ok hg
    obtain ⟨r, hr, hw⟩ := bind_eq_ok hw
    split at hw
    · cases hw
    · obtain ⟨v, hv, hw⟩ := bind_eq_ok hw
      cases hw
      have h1 := (descend_le _ hd).2
      have h2 := congrArg List.length hdr
      simp at h1 h2 ⊢
      omega

end Sys2Proof.Machine
end

