-- ==== Sys2Proof/Laws/Kept.lean ====
section
/-! SUPPORT. What a completed command writes keeps the invariants of the block and of the tree (41 R95, 42 R102). -/

namespace Sys2Proof.Machine

/-- What BlockInv reads, the coder's pad counter and the buffers apart. -/
structure SameCore (s t : State) : Prop where
  par : t.par = s.par
  lo : t.coder.lo = s.coder.lo
  hi : t.coder.hi = s.coder.hi
  value : t.coder.value = s.coder.value
  straddle : t.coder.straddle = s.coder.straddle
  model : t.model = s.model
  tree : t.tree = s.tree
  mode : t.ctl.mode = s.ctl.mode
  acfg : t.ctl.acfg = s.ctl.acfg
  sym : t.ctl.symCount = s.ctl.symCount

/-- The invariant reads no more than the core, the pad counter and the buffers. -/
theorem SameCore.inv {s t : State} (c : SameCore s t) (h : BlockInv s) (hpad : t.coder.padUsed ≤ s.par.padLimit)
    (ho : t.buf.outBits.length ≤ s.par.outCap) (hi : t.buf.inBits.length ≤ s.par.inCap) (hp : t.buf.inPos ≤ t.buf.inBits.length)
    (hob : t.buf.outBytes.length ≤ s.par.byteCap) (hib : t.buf.inBytes.length ≤ s.par.byteCap) : BlockInv t := by
  have htot : t.total = s.total := by simp only [State.total, State.alphabet, c.model, c.acfg]
  constructor
  · rw [c.par]; exact h.build
  · exact ⟨by rw [c.model, c.par]; exact h.tables.1, by rw [c.tree, c.par]; exact h.tables.2, by rw [c.tree, c.par]; exact h.tables.3⟩
  · refine ⟨?_, ?_, ?_, ?_, ?_, ?_, ?_, ?_, ?_, hp, ?_, ?_⟩
    · rw [c.lo, c.par]; exact h.widths.lo_max
    · rw [c.hi, c.par]; exact h.widths.hi_max
    · rw [c.value, c.par]; exact h.widths.value_max
    · rw [c.straddle]; exact h.widths.straddle_max
    · rw [c.par]; exact hpad
    · rw [c.sym]; exact h.widths.symCount_max
    · rw [c.model, htot]; exact h.widths.total_max
    · rw [c.par]; exact ho
    · rw [c.par]; exact hi
    · rw [c.par]; exact hob
    · rw [c.par]; exact hib
  · rw [c.par, c.acfg]; exact h.acfg
  · rw [c.mode, c.par]
    intro hm; have := h.interval hm
    exact ⟨by rw [c.lo]; exact this.1, by rw [c.hi]; exact this.2, by rw [c.hi]; exact this.3, by rw [c.lo, c.hi]; exact this.4⟩
  · rw [c.mode]; intro hm; have := h.window hm; unfold ValueOk at this ⊢; rw [c.lo, c.hi, c.value]; exact this
  · rw [c.model, c.tree]; exact h.one_valid
  · rw [c.mode, c.model]; exact h.model_open
  · rw [c.mode, c.tree]; exact h.tree_open
  · rw [c.tree, c.acfg]; exact h.tree_conf

/-- Buffers and the pad counter within their bounds keep the invariant. -/
theorem BlockInv.buffers {s : State} {b : Buffers} {pad : Nat} (h : BlockInv s) (hpad : pad ≤ s.par.padLimit)
    (ho : b.outBits.length ≤ s.par.outCap) (hi : b.inBits.length ≤ s.par.inCap) (hp : b.inPos ≤ b.inBits.length)
    (hob : b.outBytes.length ≤ s.par.byteCap) (hib : b.inBytes.length ≤ s.par.byteCap) :
    BlockInv { s with buf := b, coder := { s.coder with padUsed := pad } } :=
  SameCore.inv (s := s) ⟨rfl, rfl, rfl, rfl, rfl, rfl, rfl, rfl, rfl, rfl⟩ h hpad ho hi hp hob hib

theorem SameCore.inv_same {s t : State} (c : SameCore s t) (h : BlockInv s) (hpad : t.coder.padUsed = s.coder.padUsed) (hb : t.buf = s.buf) : BlockInv t := by
  have := h.widths
  exact c.inv h (hpad ▸ this.pad_max) (hb ▸ this.outBits_max) (hb ▸ this.inBits_max) (hb ▸ this.inPos_max) (hb ▸ this.outBytes_max) (hb ▸ this.inBytes_max)

/-- Returning a value keeps the invariant. -/
theorem complete_inv {u : State} (h : BlockInv u) (v : Option Word) : BlockInv (u.complete v) := by
  refine SameCore.inv_same ⟨?_, ?_, ?_, ?_, ?_, ?_, ?_, ?_, ?_, ?_⟩ h ?_ ?_ <;> cases v <;> rfl

/-- The total of a model of ones is the alphabet's size (40 R76). -/
theorem total_fresh (k : Nat) (l : List Nat) : ((List.replicate k 1 ++ l).take k).sum = k := by
  rw [List.take_append_of_le_length (by simp), List.take_of_length_le (by simp)]; simp

/-- The counts after a symbol keep their number, and their total fits (40 R77, R79). -/
theorem countsAfter_ok {s : State} {a : Nat} (ha : a < s.alphabet) (hlen : a < s.model.count.length) (hal : s.ctl.acfg.alpha.toNat ≤ 65536) (ht : s.total < Config.countMax) :
    (countsAfter s a).length = s.model.count.length ∧ ((countsAfter s a).take s.alphabet).sum ≤ Config.countMax := by
  have hb : ((s.model.count.set a (s.countOf a + 1)).take s.alphabet).sum = s.total + 1 := by
    have := sum_take_bump hlen ha
    simpa [State.total, State.countOf] using this
  unfold countsAfter
  simp only
  split
  · set u : State := s.withModel { s.model with count := s.model.count.set a (s.countOf a + 1) } with hu
    have h1 := modelDecay_total (s := u) hal
    have h2 := modelDecay_count u
    have h3 : u.total = s.total + 1 := hb
    have h4 := modelDecay_length u
    rw [h2] at h4
    refine ⟨?_, ?_⟩
    · have : u.model.count.length = s.model.count.length := by simp [hu, State.withModel]
      rw [← this, ← h4]; rfl
    · have h5 : (modelDecay u).total = ((decayedCounts s.alphabet s.ctl.acfg (s.model.count.set a (s.countOf a + 1))).take s.alphabet).sum := by
        unfold State.total; rw [h2]; rfl
      rw [← h5]; omega
  · exact ⟨by simp, by rw [hb]; omega⟩

theorem half_facts {par : Params} (h : LegalBuild par) : 0 < half par.p ∧ half par.p ≤ one par.p ∧ 0 < quarter par.p ∧ one par.p = 2 ^ par.p - 1 := by
  have := quarter_spec (p := par.p) (by have := h.p_min; omega)
  unfold half; exact ⟨by omega, by omega, by omega, rfl⟩

theorem legal_of {kmax : Nat} {c : Conf} {k : LatchKind} (h : latchError k kmax c = none) : LegalConf kmax c ∧ (k = .tree → c.remove = true → c.growth = true) := by
  obtain ⟨⟨a, b, c, d⟩, e, f⟩ := legal_of_latchError h
  exact ⟨⟨a, b, c, d, e⟩, f⟩

/-- A command that makes a fresh model keeps the invariant (40 R81, 41 R97, R100). -/
theorem fresh_model_inv {s t : State} (hb : BlockInv s) (hl : latchError .model s.par.kmax s.ctl.cfg = none)
   (par : t.par = s.par) (model : t.model = { count := List.replicate s.ctl.cfg.k.toNat 1 ++ s.model.count.drop s.ctl.cfg.k.toNat, valid := true })
   (tree : t.tree = { s.tree with valid := false }) (acfg : t.ctl.acfg = s.ctl.cfg)
   (hsym : t.ctl.symCount ≤ Config.wordMax) (hm : t.ctl.mode ≠ .ahEnc ∧ t.ctl.mode ≠ .ahDec)
   (hc : t.ctl.mode = .acEnc ∨ t.ctl.mode = .acDec → t.coder.lo = 0 ∧ t.coder.hi = one s.par.p)
   (hmax : t.coder.lo ≤ one s.par.p ∧ t.coder.hi ≤ one s.par.p)
   (hv : t.coder.value ≤ one s.par.p) (hst : t.coder.straddle ≤ Config.countMax) (hpad : t.coder.padUsed ≤ s.par.padLimit)
   (buf : t.buf = { s.buf with inPos := t.buf.inPos }) (hp : t.buf.inPos ≤ s.buf.inBits.length) : BlockInv t := by
  obtain ⟨hlc, -⟩ := legal_of hl
  have hw := hb.widths
  have hf := half_facts hb.build
  have hlen : t.model.count.length = s.par.kmax := by
    rw [model]; have := hlc.k_max; have := hb.tables.count_length; simp; omega
  refine ⟨par ▸ hb.build, ⟨by rw [hlen, par], ?_, ?_⟩, ?_, by rw [par, acfg]; exact hlc, ?_, ?_, ?_, ?_, ?_, ?_⟩
  · rw [tree, par]; exact hb.tables.pairs_length
  · rw [tree, par]; exact hb.tables.loc_length
  · refine ⟨by rw [par]; exact hmax.1, by rw [par]; exact hmax.2, by rw [par]; exact hv, hst, by rw [par]; exact hpad, hsym, ?_, ?_, ?_, ?_, ?_, ?_⟩
    · intro _
      have : t.total = s.ctl.cfg.k.toNat := by
        unfold State.total State.alphabet; rw [acfg, model]; exact total_fresh _ _
      have h1 := hlc.k_max; have h2 := hb.build.kmax_max
      rw [this]; simp; omega
    · rw [buf, par]; exact hw.outBits_max
    · rw [buf, par]; exact hw.inBits_max
    · rw [buf]; exact hp
    · rw [buf, par]; exact hw.outBytes_max
    · rw [buf, par]; exact hw.inBytes_max
  · intro h
    obtain ⟨h1, h2⟩ := hc h
    rw [par]
    exact ⟨by rw [h1]; exact hf.1, by rw [h2]; exact hf.2.1, by rw [h2], .inl (by rw [h1]; exact hf.2.2.1)⟩
  · intro h
    obtain ⟨h1, h2⟩ := hc (.inr h)
    exact ⟨by rw [h1]; exact Nat.zero_le _, by rw [h2]; exact hv⟩
  · rw [tree]; simp
  · intro _; rw [model]
  · rintro (h | h)
    · exact absurd h hm.1
    · exact absurd h hm.2
  · rw [tree]; simp

/-- A Huffman command changes only the tree (kept in size and validity), the buffers' positions, and the symbol counter. -/
theorem huff_inv {s t : State} (hb : BlockInv s) (par : t.par = s.par) (coder : t.coder = s.coder) (model : t.model = s.model)
   (hs : SameSizes s.tree t.tree) (acfg : t.ctl.acfg = s.ctl.acfg) (mode : t.ctl.mode = s.ctl.mode) (hsym : t.ctl.symCount ≤ Config.wordMax)
   (ho : t.buf.outBits.length ≤ s.par.outCap) (buf : t.buf = { s.buf with inPos := t.buf.inPos, outBits := t.buf.outBits })
   (hp : t.buf.inPos ≤ s.buf.inBits.length) : BlockInv t := by
  have hw := hb.widths
  have htot : t.total = s.total := by simp only [State.total, State.alphabet, model, acfg]
  refine ⟨par ▸ hb.build, ⟨by rw [model, par]; exact hb.tables.count_length, by rw [hs.pairs, par]; exact hb.tables.pairs_length, by rw [hs.locs, par]; exact hb.tables.loc_length⟩, ?_, ?_, ?_, ?_, ?_, ?_, ?_, ?_⟩
  · refine ⟨?_, ?_, ?_, ?_, ?_, hsym, ?_, by rw [par]; exact ho, ?_, ?_, ?_, ?_⟩
    · rw [coder, par]; exact hw.lo_max
    · rw [coder, par]; exact hw.hi_max
    · rw [coder, par]; exact hw.value_max
    · rw [coder]; exact hw.straddle_max
    · rw [coder, par]; exact hw.pad_max
    · rw [model, htot]; exact hw.total_max
    · rw [buf, par]; exact hw.inBits_max
    · rw [buf]; exact hp
    · rw [buf, par]; exact hw.outBytes_max
    · rw [buf, par]; exact hw.inBytes_max
  · rw [par, acfg]; exact hb.acfg
  · rw [mode, par, coder]; exact hb.interval
  · rw [mode, coder]; exact hb.window
  · rw [model, hs.valid]; exact hb.one_valid
  · rw [mode, model]; exact hb.model_open
  · rw [mode, hs.valid]; exact hb.tree_open
  · rw [hs.valid, acfg]; exact hb.tree_conf

/-- The Huffman starts keep the invariant (43 R116, R118). -/
theorem ahStart_inv {s t : State} {m : Mode} (hb : BlockInv s) (hm : m = .ahEnc ∨ m = .ahDec) (hl : latchError .tree s.par.kmax s.ctl.cfg = none)
   (hi : treeInit s.ctl.cfg s.tree = .ok t.tree)
   (ht : t = { s with
        tree := t.tree
        model := { s.model with valid := false }
        coder := { lo := 0, hi := 0, value := 0, straddle := 0, padUsed := 0 }
        ctl := { s.ctl.cleared with acfg := s.ctl.cfg, mode := m, symCount := 0 } }) : BlockInv t := by
  obtain ⟨hlc, hr⟩ := legal_of hl
  have hw := hb.widths
  obtain ⟨h1, h2, h3⟩ := treeInit_sizes hi
  rw [ht]
  refine ⟨hb.build, ⟨hb.tables.count_length, by rw [← hb.tables.pairs_length]; exact h2, by rw [← hb.tables.loc_length]; exact h3⟩, ?_, hlc, ?_, ?_, ?_, ?_, ?_, ?_⟩
  · refine ⟨Nat.zero_le _, Nat.zero_le _, Nat.zero_le _, Nat.zero_le _, Nat.zero_le _, Nat.zero_le _, ?_, hw.outBits_max, hw.inBits_max, hw.inPos_max, hw.outBytes_max, hw.inBytes_max⟩
    intro h; cases h
  · rcases hm with rfl | rfl <;> simp
  · rcases hm with rfl | rfl <;> simp
  · simp
  · rcases hm with rfl | rfl <;> simp
  · intro _; exact h1
  · intro _; exact hr rfl

theorem ahAfterSymbol_sizes {a : Nat} {s t : State} (h : ahAfterSymbol a s = .ok t) : SameSizes s.tree t.tree := by
  obtain ⟨u, hu, h⟩ := bind_eq_ok h
  obtain ⟨tr, h1, -, rfl⟩ := updateTree_ok hu
  obtain ⟨w, hw, h⟩ := bind_eq_ok h
  obtain ⟨-, rfl⟩ := countSymbol_ok hw
  have := treeUpdate_sizes h1
  split at h
  · obtain ⟨tr2, h2, -, rfl⟩ := decayTree_ok h
    exact this.trans (treeDecay_sizes h2)
  · cases h; exact this

theorem ahEmitSymbol_sizes {a : Nat} {s t : State} (h : ahEmitSymbol a s = .ok t) : SameSizes s.tree t.tree := by
  unfold ahEmitSymbol at h
  split at h
  · obtain ⟨_, _, h⟩ := bind_eq_ok h
    obtain ⟨-, rfl⟩ := emitBits_ok h
    exact .rfl' _
  · split at h
    · cases h
    · obtain ⟨_, _, h⟩ := bind_eq_ok h
      obtain ⟨v, hv, h⟩ := bind_eq_ok h
      obtain ⟨-, rfl⟩ := emitBits_ok hv
      obtain ⟨w, hw, h⟩ := bind_eq_ok h
      cases h
      exact treeSplit_sizes hw

theorem treeWalk_sizes {a : Nat} {s t : State} (hw : treeWalk s = .ok (a, t)) : SameSizes s.tree t.tree := by
  unfold treeWalk at hw
  split at hw
  · cases hw
  · cases hw; exact .rfl' _
  · obtain ⟨⟨b, u⟩, hg, hw⟩ := bind_eq_ok hw
    obtain ⟨bits, rest, hl, hdr, -, rfl⟩ := gatherBits_eq_ok hg
    obtain ⟨r, hr, hw⟩ := bind_eq_ok hw
    split at hw
    · cases hw
    · obtain ⟨v, hv, hw⟩ := bind_eq_ok hw
      cases hw
      exact treeSplit_sizes hv

/-- An arithmetic symbol step keeps the invariant (41 R94, R95). -/
theorem acSym_inv {dec : Bool} {a : Nat} {s u : State} (hb : BlockInv s) (ha : a < s.alphabet) (hm : s.ctl.mode = if dec then .acDec else .acEnc)
    (h : acSymbol dec a s = .ok u) (hv : dec = true → InRegion s a) : BlockInv u := by
  have hp : 2 ≤ s.par.p := by have := hb.build.p_min; omega
  have hm' : s.ctl.mode = .acEnc ∨ s.ctl.mode = .acDec := by cases dec <;> simp_all
  have hiv := hb.interval hm'
  have hw : s.coder.lo ≤ s.coder.hi := by have := hiv.lo_low; have := hiv.hi_high; omega
  obtain ⟨hc, ht, hs, r, hr, hren, rfl⟩ := acSymbol_ok h hp ha hw hiv.hi_max hv
  have hb' := hb.widths
  have hmv := hb.model_open hm'
  have hcl := hb.tables.count_length
  have hk : s.alphabet ≤ s.par.kmax := hb.acfg.k_max
  obtain ⟨c1, c2⟩ := countsAfter_ok ha (by omega) hb.acfg.alpha_max ht
  have hi2 : IntervalOk s.par.p r.coder := hren.interval
  have hhi := hi2.hi_max
  have hlo : r.coder.lo ≤ one s.par.p := by have := hi2.lo_low; have := hi2.hi_high; omega
  have hval : r.coder.value ≤ one s.par.p := by
    cases dec with
    | false => have := (hren.enc rfl).1; rw [this]; exact hb'.value_max
    | true => have := (hren.dec rfl).1; exact le_trans this.2 hhi
  have hstr : r.coder.straddle ≤ Config.countMax := by
    cases dec with
    | false => obtain ⟨-, -, -, _, -, -, -, h⟩ := hren.enc rfl; exact h hb'.straddle_max
    | true => have := (hren.dec rfl).2.1; rw [this]; exact hb'.straddle_max
  have hpad : r.coder.padUsed ≤ s.par.padLimit := by
    cases dec with
    | false => have := (hren.enc rfl).2.1; rw [this]; exact hb'.pad_max
    | true => exact (hren.dec rfl).2.2.2.2.2.2.2 hb'.pad_max
  have hout : r.buf.outBits.length ≤ s.par.outCap := by
    cases dec with
    | false => obtain ⟨-, -, -, _, -, -, h, -⟩ := hren.enc rfl; exact h hb'.outBits_max
    | true => have := (hren.dec rfl).2.2.1; rw [this]; exact hb'.outBits_max
  have hin : r.buf.inPos ≤ s.buf.inBits.length := by
    cases dec with
    | false => have := (hren.enc rfl).2.2.1; rw [this]; exact hb'.inPos_max
    | true => exact (hren.dec rfl).2.2.2.2.2.2.1 hb'.inPos_max
  refine ⟨hb.build, ⟨c1.trans hcl, hb.tables.pairs_length, hb.tables.loc_length⟩,
    ⟨hlo, hhi, hval, hstr, hpad, hs, fun _ => c2, hout, hb'.inBits_max, hin, hb'.outBytes_max, hb'.inBytes_max⟩, hb.acfg, fun _ => hi2, ?_, hb.one_valid,
    fun _ => hmv, hb.tree_open, hb.tree_conf⟩
  intro hmd
  cases dec with
  | false => simp only [hm] at hmd; simp at hmd
  | true => exact (hren.dec rfl).1

/-- What a completed command writes keeps the block's invariant. -/
theorem writes_inv {i : Instr} {s u : State} (hb : BlockInv s) (h : Writes i s u) : BlockInv u := by
  have hw := hb.widths
  have hob := hw.outBits_max; have hib := hw.inBits_max; have hip := hw.inPos_max; have hoy := hw.outBytes_max; have hiy := hw.inBytes_max; have hpm := hw.pad_max
  cases i <;> simp only [Writes] at h
  case nop | dbgRead | bsPeekOut | modelCount | modelCum | modelTotal | ahReadW | ahReadC | ahReadParent | ahReadLoc => rw [h]; exact hb
  case abort =>
    subst h
    exact ⟨hb.build, ⟨hb.tables.1, hb.tables.2, hb.tables.3⟩, ⟨hw.1, hw.2, hw.3, hw.4, hw.5, hw.6, hw.7, hw.8, hw.9, hw.10, hw.11, hw.12⟩, hb.acfg, by simp, by simp, hb.one_valid, by simp, by simp, hb.tree_conf⟩
  case bsClearOut => subst h; exact hb.buffers (by simpa) (by simp) (by simpa) (by simpa) (by simp) (by simpa)
  case bsClearIn => subst h; exact hb.buffers (by simp) (by simpa) (by simp) (by simp) (by simpa) (by simp)
  case bsPutBit => obtain ⟨b, h1, rfl⟩ := h; exact hb.buffers (by simpa) (by simpa) (by simpa) (by simpa) (by simpa) (by simpa)
  case bsGammaPut => obtain ⟨b, h1, rfl⟩ := h; exact hb.buffers (by simpa) (by simpa) (by simpa) (by simpa) (by simpa) (by simpa)
  case bsGetBit => obtain ⟨p, -, h1, rfl⟩ := h; exact hb.buffers (by simpa) (by simpa) (by simpa) (h1 hip) (by simpa) (by simpa)
  case bsGammaGet => obtain ⟨p, -, h1, rfl⟩ := h; exact hb.buffers (by simpa) (by simpa) (by simpa) (h1 hip) (by simpa) (by simpa)
  case bsPack => obtain ⟨b, h1, rfl⟩ := h; exact hb.buffers (by simpa) (by simp) (by simpa) (by simpa) (by simpa) (by simpa)
  case bsUnpack => obtain ⟨b, h1, rfl⟩ := h; exact hb.buffers (by simp) (by simpa) (by simpa) (by simp) (by simpa) (by simp)
  case bsInBit => obtain ⟨b, h1, rfl⟩ := h; exact hb.buffers (by simpa) (by simpa) (by simp; omega) (by simp; omega) (by simpa) (by simpa)
  case bsLoopback => obtain ⟨h1, rfl⟩ := h; exact hb.buffers (by simp) (by simpa) (by simpa) (by simp) (by simpa) (by simpa)
  case modelInit =>
    obtain ⟨hm, hl, rfl⟩ := h
    exact fresh_model_inv hb hl rfl rfl rfl rfl hw.symCount_max (by simp [hm]) (by simp [hm]) ⟨hw.lo_max, hw.hi_max⟩ hw.value_max hw.straddle_max hpm rfl hip
  case modelUpdate a =>
    obtain ⟨hm, hv, ha, ht, rfl⟩ := h
    have hk : s.alphabet ≤ s.par.kmax := hb.acfg.k_max
    refine ⟨hb.build, ⟨by simpa using hb.tables.count_length, hb.tables.pairs_length, hb.tables.loc_length⟩,
      ⟨hw.1, hw.2, hw.3, hw.4, hw.5, hw.6, ?_, hob, hib, hip, hoy, hiy⟩, hb.acfg, by simp [hm], by simp [hm], hb.one_valid, by simp [hm], by simp [hm], hb.tree_conf⟩
    intro _
    have := sum_take_bump (l := s.model.count) (a := a) (k := s.alphabet) (by rw [hb.tables.count_length]; omega) ha
    have h2 : ((s.model.count.set a (s.countOf a + 1)).take s.alphabet).sum = s.total + 1 := by simpa [State.total, State.countOf] using this
    exact h2.trans_le ht
  case modelDecay =>
    obtain ⟨hm, hv, rfl⟩ := h
    refine ⟨hb.build, ⟨(modelDecay_length s).trans hb.tables.count_length, hb.tables.pairs_length, hb.tables.loc_length⟩,
      ⟨hw.1, hw.2, hw.3, hw.4, hw.5, hw.6, ?_, hob, hib, hip, hoy, hiy⟩, hb.acfg, by simp [modelDecay, State.withModel, hm], by simp [modelDecay, State.withModel, hm], hb.one_valid, fun _ => hv, hb.tree_open, hb.tree_conf⟩
    intro _
    exact le_trans (modelDecay_total hb.acfg.alpha_max) (hw.total_max hv)
  case acEncStart =>
    obtain ⟨hl, rfl⟩ := h
    exact fresh_model_inv hb hl rfl rfl rfl rfl (Nat.zero_le _) (by simp) (by simp) ⟨Nat.zero_le _, Nat.le_refl _⟩ (Nat.zero_le _) (Nat.zero_le _) (Nat.zero_le _) rfl hip
  case acDecStart =>
    obtain ⟨hl, h1, h2, h3, h4, h5⟩ := h
    have hf := half_facts hb.build
    rw [h5]
    exact fresh_model_inv hb hl rfl rfl rfl rfl (Nat.zero_le _) (by simp) (by simp) ⟨Nat.zero_le _, Nat.le_refl _⟩ (by simp; omega) (Nat.zero_le _) h4 rfl (h3 hip)
  case acEncSym a => exact acSym_inv hb h.2.1 (by simpa using h.1) h.2.2.1 nofun
  case acDecSym =>
    obtain ⟨hm, a, ha, hs, hx, -⟩ := h
    obtain ⟨g1, g2, g3⟩ := search_ok hs
    exact acSym_inv hb ha (by simpa using hm) hx (fun _ => (valueIn_iff g1 (hb.window hm).1).1 g3)
  case acEncFinish =>
    obtain ⟨bits, hm, hc, rfl⟩ := h
    refine ⟨hb.build, ⟨hb.tables.1, hb.tables.2, hb.tables.3⟩, ⟨hw.1, hw.2, hw.3, Nat.zero_le _, hw.5, hw.6, hw.7, by simpa, hib, hip, hoy, hiy⟩, hb.acfg, by simp, by simp, hb.one_valid, by simp, by simp, hb.tree_conf⟩
  case ahEncStart => exact ahStart_inv hb (.inl rfl) h.1 h.2.1 h.2.2
  case ahDecStart => exact ahStart_inv hb (.inr rfl) h.1 h.2.1 h.2.2
  case ahEncSym a =>
    obtain ⟨hm, ha, hs, ⟨v, h1, h2⟩, bits, hc, h3⟩ := h
    have hsz := (ahEmitSymbol_sizes h1).trans (ahAfterSymbol_sizes h2)
    rw [h3]
    refine huff_inv hb rfl rfl rfl hsz rfl rfl hs ?_ rfl hip
    rcases hc with rfl | hc
    · simpa
    · simpa
  case ahDecSym =>
    obtain ⟨hm, hs, ⟨a, v, h1, h2⟩, -, h3⟩ := h
    have hsz := (treeWalk_sizes h1).trans (ahAfterSymbol_sizes h2)
    have hin := treeWalk_inside h1 hip
    have hfr := ahAfterSymbol_frame h2
    have : u.buf.inPos = v.buf.inPos := by rw [hfr.2]
    rw [h3]
    exact huff_inv hb rfl rfl rfl hsz rfl rfl hs hob rfl (by rw [this]; exact hin)
  case ahUpdate a =>
    obtain ⟨hm, hv, ha, hl, h1, h2⟩ := h
    obtain ⟨tr, g1, -, rfl⟩ := updateTree_ok h1
    exact huff_inv hb rfl rfl rfl (treeUpdate_sizes g1) rfl rfl hw.symCount_max hob rfl hip
  case ahDecay =>
    obtain ⟨hm, hv, h1, h2⟩ := h
    obtain ⟨tr, g1, -, rfl⟩ := decayTree_ok h1
    exact huff_inv hb rfl rfl rfl (treeDecay_sizes g1) rfl rfl hw.symCount_max hob rfl hip

/-- A command that leaves the tree and its configuration alone keeps the tree's invariant. -/
theorem tree_same {s t : State} (h : TreeInv s) (h1 : t.tree = s.tree) (h2 : t.ctl.acfg = s.ctl.acfg) : TreeInv t := by
  intro hv
  rw [h1] at hv ⊢
  unfold State.alphabet
  rw [h2]
  exact h hv

/-- The end of a coded symbol leaves a legal tree (43 R115). -/
theorem after_tree {s v t : State} {a : Nat} (hk : HuffOk s s.tree) (hb : BlockInv s) (ha : a < s.alphabet) (hv : s.tree.valid = true) (hpl : Placed s.tree a v.tree)
    (hvc : v.ctl.acfg = s.ctl.acfg) (hvp : v.par = s.par) (h : ahAfterSymbol a v = .ok t) : TreeOk s.alphabet s.ctl.acfg.growth t.tree := by
  have hw : v.tree.rootW ≠ Config.countMax := by
    obtain ⟨x, hx, -⟩ := bind_eq_ok h
    obtain ⟨tr, htr, -⟩ := updateTree_ok hx
    rw [treeUpdate] at htr
    split at htr
    · cases htr
    · assumption
  obtain ⟨u, hpl', hur, hup⟩ := hk.place ha
  have hu : u = v.tree := by
    rcases hpl with ⟨e1, e2⟩ | ⟨e1, -, e2⟩ <;> rcases hpl' with ⟨f1, f2⟩ | ⟨f1, -, f2⟩
    · rw [e2, f2]
    · exact absurd f1 e1
    · exact absurd e1 f1
    · rw [e2] at f2; cases f2; rfl
  subst hu
  have := hk.tree.weight_max
  obtain ⟨w, hw1, hw2, -⟩ := hup (by omega)
  have hal : v.alphabet = s.alphabet := by unfold State.alphabet; rw [hvc]
  obtain ⟨x, x1, x2, x3, x4⟩ := (ahAfterSymbol_run (s := v) hw1 ⟨by rw [hal, hvc]; exact hw2.tree, by rw [hal]; exact hw2.pairs, by rw [hal]; exact hw2.locs⟩
    (by rw [hvc, hvp]; exact hb.acfg) (by rw [hvc]; exact hb.tree_conf hv)).1 (ahAfterSymbol_frame h).1
  rw [x4 v rfl rfl rfl] at h
  cases h
  have := x1.tree
  rw [hal, hvc] at this
  exact this

/-- The encoder's first half places the symbol in the tree (43 R117). -/
theorem emit_placed {s v : State} {a : Nat} (hk : HuffOk s s.tree) (ha : a < s.alphabet) (h : ahEmitSymbol a s = .ok v) :
    Placed s.tree a v.tree ∧ v.ctl = s.ctl ∧ v.par = s.par := by
  obtain ⟨code, hc, -⟩ := hk.codeword ha
  obtain ⟨u, hpl, -⟩ := hk.place ha
  rw [ahEmitSymbol_run hc hpl] at h
  obtain ⟨x, hx, h⟩ := bind_eq_ok h
  obtain ⟨-, rfl⟩ := emitBits_ok hx
  cases h
  exact ⟨hpl, rfl, rfl⟩

/-- What a completed command writes keeps the tree's invariant. -/
theorem writes_tree {i : Instr} {s u : State} (hb : BlockInv s) (ht : TreeInv s) (h : Writes i s u) : TreeInv u := by
  cases i <;> simp only [Writes] at h
  case nop | dbgRead | bsPeekOut | modelCount | modelCum | modelTotal | ahReadW | ahReadC | ahReadParent | ahReadLoc => rw [h]; exact ht
  case abort => subst h; exact tree_same ht rfl rfl
  case bsClearOut => subst h; exact tree_same ht rfl rfl
  case bsClearIn => subst h; exact tree_same ht rfl rfl
  case bsPutBit => obtain ⟨b, h1, rfl⟩ := h; exact tree_same ht rfl rfl
  case bsGammaPut => obtain ⟨b, h1, rfl⟩ := h; exact tree_same ht rfl rfl
  case bsGetBit => obtain ⟨p, -, h1, rfl⟩ := h; exact tree_same ht rfl rfl
  case bsGammaGet => obtain ⟨p, -, h1, rfl⟩ := h; exact tree_same ht rfl rfl
  case bsPack => obtain ⟨b, h1, rfl⟩ := h; exact tree_same ht rfl rfl
  case bsUnpack => obtain ⟨b, h1, rfl⟩ := h; exact tree_same ht rfl rfl
  case bsInBit => obtain ⟨b, h1, rfl⟩ := h; exact tree_same ht rfl rfl
  case bsLoopback => obtain ⟨h1, rfl⟩ := h; exact tree_same ht rfl rfl
  case modelInit => obtain ⟨hm, hl, rfl⟩ := h; intro hv; cases hv
  case modelUpdate a => obtain ⟨hm, hv, ha, h1, rfl⟩ := h; exact tree_same ht rfl rfl
  case modelDecay => obtain ⟨hm, hv, rfl⟩ := h; exact tree_same ht rfl rfl
  case acEncStart => obtain ⟨hl, rfl⟩ := h; intro hv; cases hv
  case acDecStart => obtain ⟨hl, h1, h2, h3, h4, h5⟩ := h; rw [h5]; intro hv; cases hv
  case acEncSym a => obtain ⟨_, _, _, _, h⟩ := h; rw [h]; exact tree_same ht rfl rfl
  case acDecSym => obtain ⟨_, _, _, _, _, _, h⟩ := h; rw [h]; exact tree_same ht rfl rfl
  case acEncFinish => obtain ⟨bits, hm, hc, rfl⟩ := h; exact tree_same ht rfl rfl
  case ahEncStart | ahDecStart =>
    obtain ⟨hl, hi, h⟩ := h
    obtain ⟨hlc, -⟩ := legal_of hl
    obtain ⟨v, hv, hok, -⟩ := treeInit_ok (t := s.tree) (c := s.ctl.cfg) hlc.k_min (by rw [hb.tables.pairs_length]; exact hlc.k_max) (by rw [hb.tables.loc_length]; exact hlc.k_max)
    rw [hi] at hv; cases hv
    rw [h]; intro _; exact hok
  case ahEncSym a =>
    obtain ⟨hm, ha, hs, ⟨v, h1, h2⟩, bits, hc, h3⟩ := h
    have hv := hb.tree_open (.inl hm)
    have hk := huffOk_of hb ht hv
    obtain ⟨p1, p2, p3⟩ := emit_placed hk ha h1
    have := after_tree hk hb ha hv p1 (by rw [p2]) p3 h2
    rw [h3]; intro _; exact this
  case ahDecSym =>
    obtain ⟨hm, hs, ⟨a, v, h1, h2⟩, -, h3⟩ := h
    have hv := hb.tree_open (.inr hm)
    have hk := huffOk_of hb ht hv
    obtain ⟨ha, p1⟩ := treeWalk_ok hk h1
    obtain ⟨-, hf⟩ := treeWalk_frame h1
    have := after_tree hk hb ha hv p1 (by rw [hf]) (by rw [hf]) h2
    rw [h3]; intro _; exact this
  case ahUpdate a =>
    obtain ⟨hm, hv, ha, hl, h1, h2⟩ := h
    obtain ⟨tr, g1, -, rfl⟩ := updateTree_ok h1
    have hk := huffOk_of hb ht hv
    have hw : s.tree.rootW < Config.countMax := by
      have g1 := g1
      rw [treeUpdate] at g1
      split at g1
      · cases g1
      · have := hk.tree.weight_max; omega
    obtain ⟨w, hw1, hw2, -⟩ := treeUpdate_ok hk.tree hk.size hl hw
    rw [g1] at hw1; cases hw1
    intro _; exact hw2
  case ahDecay =>
    obtain ⟨hm, hv, h1, h2⟩ := h
    have hk := huffOk_of hb ht hv
    obtain ⟨w, hw1, hw2, -⟩ := decayTree_run hk hb.acfg (hb.tree_conf hv)
    rw [h1] at hw1; cases hw1
    intro _; exact hw2.tree

end Sys2Proof.Machine
end

