-- ==== Sys2Proof/Laws/Fine.lean ====
section
/-! SUPPORT. In a state that meets the invariants no rule gets stuck and no defect check fails (41 R91, R93, 42 R108, R110). -/

namespace Sys2Proof.Machine

/-- The procedure neither gets stuck nor finds a violated invariant. -/
def Fine {α : Type} (x : Except Stop α) : Prop := ∀ e, x = .error e → ∃ f w, e = .raised f w ∧ f ≠ .invariantViolation

theorem Fine.ok {α} {a : α} : Fine (.ok a : Except Stop α) := nofun
theorem Fine.raise {α} {f : FaultCode} {n : Nat} (h : f ≠ .invariantViolation) : Fine (raise f n : Except Stop α) := by
  intro e he; cases he; exact ⟨_, _, rfl, h⟩
theorem Fine.bind {α β} {x : Except Stop α} {f : α → Except Stop β} (hx : Fine x) (hf : ∀ a, x = .ok a → Fine (f a)) : Fine (x >>= f) := by
  intro e h
  rcases bind_eq_error h with h | ⟨a, ha, h⟩
  · exact hx e h
  · exact hf a ha e h
theorem Fine.ite {α} {c : Prop} [Decidable c] {x y : Except Stop α} (hx : c → Fine x) (hy : ¬ c → Fine y) : Fine (if c then x else y) := by
  split
  · exact hx ‹_›
  · exact hy ‹_›

theorem fine_ret {u : State} : Fine (returnNothing u) := nofun
theorem fine_word {u : State} {w} : Fine (returnWord w u) := nofun
theorem fine_nat {u : State} {w} : Fine (returnNat w u) := nofun
theorem fine_emit (b s) : Fine (emit b s) := .ite (fun _ => .raise nofun) fun _ => .ok
theorem fine_emitBits (bs s) : Fine (emitBits bs s) := by
  induction bs generalizing s with
  | nil => exact .ok
  | cons b bs ih => exact .bind (fine_emit _ _) fun _ _ => ih _
theorem fine_nextBit (s) : Fine (nextBit s) := by
  unfold nextBit; split
  · exact .ok
  · exact .raise nofun
theorem fine_nextBitPadded (s) : Fine (nextBitPadded s) := by
  unfold nextBitPadded; split
  · exact .ok
  · exact .ite (fun _ => .ok) fun _ => .raise nofun
theorem fine_gatherBits (n v s) : Fine (gatherBits n v s) := by
  induction n generalizing v s with
  | zero => exact .ok
  | succ n ih => exact .bind (fine_nextBit _) fun _ _ => ih _ _
theorem fine_gatherBitsPadded (n v s) : Fine (gatherBitsPadded n v s) := by
  induction n generalizing v s with
  | zero => exact .ok
  | succ n ih => exact .bind (fine_nextBitPadded _) fun _ _ => ih _ _
theorem fine_gammaZeros (left k s) : Fine (gammaZeros left k s) := by
  induction left generalizing k s with
  | zero =>
    unfold gammaZeros
    split
    · rename_i e h; intro w hw; cases hw; exact fine_nextBit s _ h
    · exact .ok
    · exact .raise nofun
  | succ n ih =>
    unfold gammaZeros
    split
    · rename_i e h; intro w hw; cases hw; exact fine_nextBit s _ h
    · exact .ok
    · exact ih _ _
theorem fine_latch (k s) : Fine (latch k s) := by
  unfold latch; split
  · exact .raise nofun
  · exact .ok
theorem fine_count (s) : Fine (countSymbol s) := .ite (fun _ => .raise nofun) fun _ => .ok
theorem fine_modelUpdate (a s) : Fine (modelUpdate a s) := .ite (fun _ => .raise nofun) fun _ => .ok
theorem fine_reqMode (m s) : Fine (requireMode m s) := .ite (fun _ => .raise nofun) fun _ => .ok
theorem fine_reqSym (m s) : Fine (requireSymbol m s) := .ite (fun _ => .raise nofun) fun _ => .ok
theorem fine_reqIdleTree (s) : Fine (requireIdleTree s) := .ite (fun _ => .raise nofun) fun _ => .ok
theorem fine_reqTree (s) : Fine (requireTree s) := .ite (fun _ => .raise nofun) fun _ => .ok
theorem fine_reqModel (s) : Fine (requireModel s) := .ite (fun _ => .raise nofun) fun _ => .ok
theorem fine_reqIdleModel (s) : Fine (requireIdleModel s) := .ite (fun _ => .raise nofun) fun _ => .ite (fun _ => .raise nofun) fun _ => .ok

/-- Renormalization ends, so a symbol step faults by its own rules only (41 R91). -/
theorem fine_acSymbol {dec : Bool} {a : Nat} {s : State} (hb : BlockInv s) (ha : a < s.alphabet) (hm : s.ctl.mode = if dec then .acDec else .acEnc)
    (hv : dec = true → InRegion s a) : Fine (acSymbol dec a s) := by
  have hp : 2 ≤ s.par.p := by have := hb.build.p_min; omega
  have hm' : s.ctl.mode = .acEnc ∨ s.ctl.mode = .acDec := by cases dec <;> simp_all
  have hiv := hb.interval hm'
  have hw : s.coder.lo ≤ s.coder.hi := by have := hiv.lo_low; have := hiv.hi_high; omega
  rw [acSymbol_eq]
  refine .bind (.ite (fun _ => .raise nofun) fun _ => .ite (fun _ => .raise nofun) fun _ => .ok) fun u hu => .bind ?_ fun v _ => .bind (fine_modelUpdate _ _) fun _ _ => .bind (fine_count _) fun _ _ => .ok
  obtain ⟨hc, rfl⟩ := narrow_ok hu
  have hbd := narrowed_bounds ha hc hw
  have hr := renorm_spec dec (narrowed a s) hp hbd.1 (Nat.le_trans hbd.2 hiv.hi_max)
    (fun hd => ⟨(hv hd).1, by have := (hv hd).2; show s.coder.value ≤ s.regionEnd a - 1; omega⟩)
  intro e he
  rw [show renorm dec (narrowed a s) = .error e from he] at hr
  rcases hr with ⟨-, rfl, -⟩ | ⟨-, rfl, -⟩ | ⟨-, rfl, -⟩ <;> exact ⟨_, _, rfl, nofun⟩

/-- The search finds a symbol (41 R93). -/
theorem fine_search {s : State} (hb : BlockInv s) (hm : s.ctl.mode = .acDec) : Fine (search s) := by
  unfold search
  refine .ite (fun _ => .raise nofun) fun h => ?_
  obtain ⟨a, ha, hr⟩ := exists_inRegion (by omega) (hb.window hm)
  have := search_eq (by omega) (hb.window hm).1 ha hr
  unfold search at this
  rw [if_neg h] at this
  rw [this]; exact .ok

theorem fine_updateTree {s : State} {a : Nat} (h : s.tree.rootW < Config.countMax → ∃ v, treeUpdate (.sym a) s.tree = .ok v ∧ HuffOk s v) (hmax : s.tree.rootW ≤ Config.countMax) :
    Fine (updateTree a s) := by
  by_cases hw : s.tree.rootW < Config.countMax
  · obtain ⟨v, h1, h2⟩ := h hw
    rw [updateTree_run h1 h2]; exact .ok
  · have : s.tree.rootW = Config.countMax := by omega
    rw [updateTree, treeUpdate, if_pos this]
    exact .raise nofun

/-- The end of a coded symbol finds a legal tree (43 R115). -/
theorem fine_after {s v : State} {a : Nat} (hk : HuffOk s s.tree) (hb : BlockInv s) (ha : a < s.alphabet) (hv : s.tree.valid = true) (hpl : Placed s.tree a v.tree)
    (hvc : v.ctl.acfg = s.ctl.acfg) (hvp : v.par = s.par) : Fine (ahAfterSymbol a v) := by
  obtain ⟨u, hpl', hur, hup⟩ := hk.place ha
  have hu : u = v.tree := by
    rcases hpl with ⟨e1, e2⟩ | ⟨e1, -, e2⟩ <;> rcases hpl' with ⟨f1, f2⟩ | ⟨f1, -, f2⟩
    · rw [e2, f2]
    · exact absurd f1 e1
    · exact absurd e1 f1
    · rw [e2] at f2; cases f2; rfl
  subst hu
  have hmax := hk.tree.weight_max
  have hal : v.alphabet = s.alphabet := by unfold State.alphabet; rw [hvc]
  have conv : ∀ w, HuffOk s w → HuffOk v w := fun w h => ⟨by rw [hal, hvc]; exact h.tree, by rw [hal]; exact h.pairs, by rw [hal]; exact h.locs⟩
  by_cases hw : s.tree.rootW < Config.countMax
  · obtain ⟨w, hw1, hw2, -⟩ := hup hw
    have := ahAfterSymbol_run (s := v) hw1 (conv w hw2) (by rw [hvc, hvp]; exact hb.acfg) (by rw [hvc]; exact hb.tree_conf hv)
    by_cases hs : v.ctl.symCount < Config.wordMax
    · obtain ⟨x, -, -, -, x4⟩ := this.1 hs
      rw [x4 v rfl rfl rfl]; exact .ok
    · rw [this.2 hs]; exact .raise nofun
  · refine .bind (fine_updateTree (fun h => absurd h (by omega)) (by omega)) fun u hu => ?_
    obtain ⟨tr, htr, -⟩ := updateTree_ok hu
    rw [treeUpdate, if_pos (by omega)] at htr
    cases htr

/-- No rule gets stuck or finds a defect in a state that meets the invariants. -/
theorem fine_rule (i : Instr) {s : State} (hb : BlockInv s) (ht : TreeInv s) : Fine (rule i s) := by
  cases i <;> simp only [rule]
  case acEncSym a =>
    exact .bind (fine_reqMode _ _) fun _ h1 => .bind (fine_reqSym _ _) fun _ h2 => .bind (fine_acSymbol hb (requireSymbol_ok h2) (by simpa using requireMode_ok h1) nofun) fun _ _ => fine_ret
  case acDecSym =>
    refine .bind (fine_reqMode _ _) fun _ h1 => .bind (fine_search hb (requireMode_ok h1)) fun a h2 => ?_
    obtain ⟨g1, g2, g3⟩ := search_ok h2
    have hm := requireMode_ok h1
    exact .bind (fine_acSymbol hb g2 (by simpa using hm) (fun _ => (valueIn_iff g1 (hb.window hm).1).1 g3)) fun _ _ => fine_nat
  case ahEncSym a =>
    refine .bind (fine_reqMode _ _) fun _ h1 => .bind (fine_reqSym _ _) fun _ h2 => ?_
    have hm := requireMode_ok h1
    have ha := requireSymbol_ok h2
    have hv := hb.tree_open (.inl hm)
    have hk := huffOk_of hb ht hv
    obtain ⟨code, hc, -⟩ := hk.codeword ha
    obtain ⟨u, hpl, -⟩ := hk.place ha
    refine .bind (by rw [ahEmitSymbol_run hc hpl]; exact .bind (fine_emitBits _ _) fun _ _ => .ok) fun v h3 => ?_
    obtain ⟨p1, p2, p3⟩ := emit_placed hk ha h3
    exact .bind (fine_after hk hb ha hv p1 (by rw [p2]) p3) fun _ _ => fine_ret
  case ahDecSym =>
    refine .bind (fine_reqMode _ _) fun _ h1 => ?_
    have hm := requireMode_ok h1
    have hv := hb.tree_open (.inr hm)
    have hk := huffOk_of hb ht hv
    refine .bind ?_ fun ⟨a, v⟩ h3 => ?_
    · unfold treeWalk
      split
      · exact .raise nofun
      · exact .ok
      · refine .bind (fine_gatherBits _ _ _) fun ⟨a, v⟩ h2 => ?_
        obtain ⟨bits, rest, -, -, -, rfl⟩ := gatherBits_eq_ok h2
        refine .bind (fine_reqSym _ _) fun _ h3 => .ite (fun _ => .raise nofun) fun hl => .bind ?_ fun _ _ => .ok
        obtain ⟨u, hpl, -⟩ := hk.place (requireSymbol_ok h3)
        have hl' : s.tree.locOf (.sym a) = .absent := by simpa [State.withBuf] using hl
        rcases hpl with ⟨e, -⟩ | ⟨-, -, e⟩
        · exact absurd hl' e
        · show Fine (treeSplit a s.tree)
          rw [e]; exact .ok
    · obtain ⟨ha, p1⟩ := treeWalk_ok hk h3
      obtain ⟨-, hf⟩ := treeWalk_frame h3
      exact .bind (fine_after hk hb ha hv p1 (by rw [hf]) (by rw [hf])) fun _ _ => fine_nat
  case ahUpdate a =>
    refine .bind (fine_reqIdleTree _) fun _ h1 => .bind (fine_reqSym _ _) fun _ h2 => .ite (fun _ => .raise nofun) fun hl => ?_
    have hv := (requireIdleTree_ok h1).2
    have hk := huffOk_of hb ht hv
    refine .bind (fine_updateTree (fun hw => ?_) hk.tree.weight_max) fun _ _ => fine_ret
    obtain ⟨w, hw1, hw2, -⟩ := treeUpdate_ok hk.tree hk.size hl hw
    exact ⟨w, hw1, hk.of_sizes hw2 (treeUpdate_sizes hw1)⟩
  case ahDecay =>
    refine .bind (fine_reqIdleTree _) fun _ h1 => ?_
    have hv := (requireIdleTree_ok h1).2
    have hk := huffOk_of hb ht hv
    obtain ⟨w, hw1, hw2, -⟩ := decayTree_run hk hb.acfg (hb.tree_conf hv)
    rw [hw1]; exact .ok
  case ahEncStart | ahDecStart =>
    refine .bind (.bind (fine_latch _ _) fun u hu => ?_) fun _ _ => fine_ret
    obtain ⟨hl, rfl⟩ := latch_ok hu
    obtain ⟨hlc, -⟩ := legal_of hl
    obtain ⟨v, hv, hok, -⟩ := treeInit_ok (t := s.tree) (c := s.ctl.cfg) hlc.k_min (by rw [hb.tables.pairs_length]; exact hlc.k_max) (by rw [hb.tables.loc_length]; exact hlc.k_max)
    refine .bind ?_ fun _ _ => .ok
    show Fine (treeInit s.ctl.cfg s.tree)
    rw [hv]; exact .ok
  case nop => exact .ok
  case abort => exact .ok
  case dbgRead sel =>
    refine .bind ?_ fun _ _ => .ok
    unfold debugValue
    split <;> first | exact .ok | exact .ite (fun _ => .ok) (fun _ => .raise nofun) | exact .raise nofun
  case bsClearOut => exact .ok
  case bsClearIn => exact .ok
  case bsPutBit b => exact .bind (fine_emit _ _) fun _ _ => .ok
  case bsGetBit => exact .bind (fine_nextBit _) fun _ _ => .ok
  case bsGammaPut n => exact .bind (fine_emitBits _ _) fun _ _ => .ok
  case bsGammaGet => exact .bind (fine_gammaZeros _ _ _) fun _ _ => .bind (fine_gatherBits _ _ _) fun _ _ => .ok
  case bsPack => exact .ite (fun _ => .raise nofun) fun _ => .ok
  case bsUnpack => exact .ite (fun _ => .raise nofun) fun _ => (.ite (fun _ => .raise nofun) fun _ => (.ite (fun _ => .raise nofun) fun _ => .ok))
  case bsInBit b => exact .ite (fun _ => .raise nofun) fun _ => .ok
  case bsLoopback => exact .ite (fun _ => .raise nofun) fun _ => .ok
  case bsPeekOut k =>
    simp only [ruleBsPeekOut]
    split
    · exact .ok
    · exact .raise nofun
  case modelInit => exact .ite (fun _ => .raise nofun) fun _ => (.bind (fine_latch _ _) fun _ _ => .ok)
  case modelUpdate a => exact .bind (fine_reqIdleModel _) fun _ _ => .bind (fine_reqSym _ _) fun _ _ => .bind (fine_modelUpdate _ _) fun _ _ => .ok
  case modelDecay => exact .bind (fine_reqIdleModel _) fun _ _ => .ok
  case modelCount a => exact .bind (fine_reqModel _) fun _ _ => .bind (fine_reqSym _ _) fun _ _ => .ok
  case modelCum a => exact .bind (fine_reqModel _) fun _ _ => .bind (fine_reqSym _ _) fun _ _ => .ok
  case modelTotal => exact .bind (fine_reqModel _) fun _ _ => .ok
  case acEncStart => exact .bind (.bind (fine_latch _ _) fun _ _ => .ok) fun _ _ => .ok
  case acDecStart => exact .bind (.bind (fine_latch _ _) fun _ _ => .ok) fun _ _ => .bind (fine_gatherBitsPadded _ _ _) fun _ _ => .ok
  case acEncFinish =>
    exact .bind (fine_reqMode _ _) fun _ _ => .bind (.bind (.ite (fun _ => .raise nofun) fun _ => .ok) fun _ _ =>
      .bind (fine_emit _ _) fun _ _ => .bind (fine_emitBits _ _) fun _ _ => .ok) fun _ _ => .ok
  case ahReadW q => exact .bind (fine_reqTree _) fun _ _ => .ite (fun _ => .raise nofun) fun _ => .ok
  case ahReadC q => exact .bind (fine_reqTree _) fun _ _ => .ite (fun _ => .raise nofun) fun _ => .ok
  case ahReadParent k => exact .bind (fine_reqTree _) fun _ _ => .ite (fun _ => .raise nofun) fun _ => .ok
  case ahReadLoc a => exact .bind (fine_reqTree _) fun _ _ => .ite (fun _ => .ok) fun _ => (.bind (fine_reqSym _ _) fun _ _ => .ok)

end Sys2Proof.Machine
end

