-- ==== Sys2Proof/Laws/PerInstr.lean ====
section
/-! SUPPORT. Laws stated per command: the encoded word holds the command's two fields (30 R67, R69). -/

namespace Sys2Proof.Laws.EncodedFields

/-- `c[31:24]` of the encoded command is its opcode and `c[23:0]` its operand. -/
def Statement (i : Instr) : Prop := WellFormed i → opcodeOf (encode i) = i.opcode ∧ immOf (encode i) = i.operand

theorem nop : Statement .nop := encode_fields
theorem abort : Statement .abort := encode_fields
theorem dbgRead (sel : Nat) : Statement (.dbgRead sel) := encode_fields
theorem bsClearOut : Statement .bsClearOut := encode_fields
theorem bsClearIn : Statement .bsClearIn := encode_fields
theorem bsPutBit (b : Bool) : Statement (.bsPutBit b) := encode_fields
theorem bsGetBit : Statement .bsGetBit := encode_fields
theorem bsGammaPut (n : Nat) : Statement (.bsGammaPut n) := encode_fields
theorem bsGammaGet : Statement .bsGammaGet := encode_fields
theorem bsPack : Statement .bsPack := encode_fields
theorem bsUnpack : Statement .bsUnpack := encode_fields
theorem bsInBit (b : Bool) : Statement (.bsInBit b) := encode_fields
theorem bsLoopback : Statement .bsLoopback := encode_fields
theorem bsPeekOut (i : Nat) : Statement (.bsPeekOut i) := encode_fields
theorem modelInit : Statement .modelInit := encode_fields
theorem modelUpdate (a : Nat) : Statement (.modelUpdate a) := encode_fields
theorem modelDecay : Statement .modelDecay := encode_fields
theorem modelCount (a : Nat) : Statement (.modelCount a) := encode_fields
theorem modelCum (a : Nat) : Statement (.modelCum a) := encode_fields
theorem modelTotal : Statement .modelTotal := encode_fields
theorem acEncStart : Statement .acEncStart := encode_fields
theorem acEncSym (a : Nat) : Statement (.acEncSym a) := encode_fields
theorem acEncFinish : Statement .acEncFinish := encode_fields
theorem acDecStart : Statement .acDecStart := encode_fields
theorem acDecSym : Statement .acDecSym := encode_fields
theorem ahEncStart : Statement .ahEncStart := encode_fields
theorem ahEncSym (a : Nat) : Statement (.ahEncSym a) := encode_fields
theorem ahDecStart : Statement .ahDecStart := encode_fields
theorem ahDecSym : Statement .ahDecSym := encode_fields
theorem ahUpdate (a : Nat) : Statement (.ahUpdate a) := encode_fields
theorem ahDecay : Statement .ahDecay := encode_fields
theorem ahReadW (q : Nat) : Statement (.ahReadW q) := encode_fields
theorem ahReadC (q : Nat) : Statement (.ahReadC q) := encode_fields
theorem ahReadParent (k : Nat) : Statement (.ahReadParent k) := encode_fields
theorem ahReadLoc (a : Nat) : Statement (.ahReadLoc a) := encode_fields

end Sys2Proof.Laws.EncodedFields
end

