-- ==== Sys2Proof/Laws/Renorm.lean ====
section
/-! SUPPORT. Renormalization as the list of its passes: what it does to the interval, which bits it emits or reads, and how it fails
(41 R90, R91). -/

namespace Sys2Proof.Machine

/-! ### The passes of an interval -/

theorem passes_step (p fuel lo hi : Nat) : passes p (fuel + 1) lo hi =
    if hi < half p then .low :: passes p fuel (2 * lo) (2 * hi + 1)
    else if half p ≤ lo then .high :: passes p fuel (2 * (lo - half p)) (2 * (hi - half p) + 1)
    else if quarter p ≤ lo ∧ hi < threeQuarters p then .middle :: passes p fuel (2 * (lo - quarter p)) (2 * (hi - quarter p) + 1)
    else [] := rfl

/-- The case a pass takes, with what it subtracts; or the loop exits and the interval is wide (41 R90). -/
theorem passes_succ {p fuel lo hi : Nat} (hp : 2 ≤ p) (hw : lo < hi) (hm : hi ≤ one p) :
    (∃ d : Pass, passes p (fuel + 1) lo hi = d :: passes p fuel (2 * (lo - d.offset p)) (2 * (hi - d.offset p) + 1) ∧
      d.offset p ≤ lo ∧ 2 * (hi - d.offset p) + 1 ≤ one p ∧
      (d = .low ∧ hi < half p ∨ d = .high ∧ ¬ hi < half p ∧ half p ≤ lo ∨
        d = .middle ∧ ¬ hi < half p ∧ ¬ half p ≤ lo ∧ quarter p ≤ lo ∧ hi < threeQuarters p)) ∨
    (passes p (fuel + 1) lo hi = [] ∧ ¬ hi < half p ∧ ¬ half p ≤ lo ∧ ¬ (quarter p ≤ lo ∧ hi < threeQuarters p) ∧
      (lo < quarter p ∨ threeQuarters p ≤ hi)) := by
  obtain ⟨hq, h1, -⟩ := quarter_spec hp
  have hhalf : half p = 2 * quarter p := rfl
  have htq : threeQuarters p = 3 * quarter p := rfl
  rw [passes_step]
  by_cases c1 : hi < half p
  · rw [if_pos c1]
    exact .inl ⟨.low, rfl, Nat.zero_le _, by simp [Pass.offset]; omega, .inl ⟨rfl, c1⟩⟩
  rw [if_neg c1]
  by_cases c2 : half p ≤ lo
  · rw [if_pos c2]
    exact .inl ⟨.high, rfl, c2, by simp [Pass.offset]; omega, .inr (.inl ⟨rfl, c1, c2⟩)⟩
  rw [if_neg c2]
  by_cases c3 : quarter p ≤ lo ∧ hi < threeQuarters p
  · rw [if_pos c3]
    exact .inl ⟨.middle, rfl, c3.1, by simp [Pass.offset]; omega, .inr (.inr ⟨rfl, c1, c2, c3.1, c3.2⟩)⟩
  · rw [if_neg c3]
    exact .inr ⟨rfl, c1, c2, c3, by omega⟩

/-- The end of an interval's point `x` after passes. -/
def passEnd (p : Nat) (z : List Pass) (x : Nat) : Nat := 2 ^ z.length * x - passOffset p z

theorem passEnd_nil (p x : Nat) : passEnd p [] x = x := by simp [passEnd, passOffset]

theorem passEnd_cons (p x : Nat) (d : Pass) (z : List Pass) : passEnd p (d :: z) x = passEnd p z (2 * (x - d.offset p)) := by
  simp only [passEnd, passOffset, List.length_cons, Nat.pow_succ]
  rw [← Nat.sub_sub, show 2 ^ z.length * 2 * x = 2 ^ z.length * 2 * x from rfl, ← Nat.mul_sub, Nat.mul_assoc]

/-- What the passes of an interval do to it: at most `n` of them, none subtracts too much, and the interval is wide at the end (41 R91, R95). -/
structure PassesOk (p n lo hi : Nat) (z : List Pass) : Prop where
  count : z.length ≤ n
  fits : passOffset p z ≤ 2 ^ z.length * lo
  lo_low : passEnd p z lo < half p
  hi_high : half p ≤ passEnd p z (hi + 1) - 1
  hi_max : passEnd p z (hi + 1) - 1 ≤ one p
  wide : passEnd p z lo < quarter p ∨ threeQuarters p ≤ passEnd p z (hi + 1) - 1

theorem passes_ok {p : Nat} (hp : 2 ≤ p) : ∀ n lo hi fuel, lo < hi → hi ≤ one p → 2 ^ p < (hi + 1 - lo) * 2 ^ (n + 1) → n < fuel →
    PassesOk p n lo hi (passes p fuel lo hi) := by
  have hq := quarter_spec hp
  intro n
  induction n with
  | zero =>
    intro lo hi fuel hw hm hn hf
    obtain ⟨fuel, rfl⟩ : ∃ f, fuel = f + 1 := ⟨fuel - 1, by omega⟩
    rcases passes_succ (fuel := fuel) hp hw hm with ⟨d, -, h1, h2, -⟩ | ⟨h0, h1, h2, -, h3⟩
    · omega
    · rw [h0]
      exact ⟨Nat.le_refl _, Nat.zero_le _, by rw [passEnd_nil]; omega, by rw [passEnd_nil]; omega, by rw [passEnd_nil]; omega,
        by rw [passEnd_nil, passEnd_nil]; omega⟩
  | succ n ih =>
    intro lo hi fuel hw hm hn hf
    obtain ⟨fuel, rfl⟩ : ∃ f, fuel = f + 1 := ⟨fuel - 1, by omega⟩
    rcases passes_succ (fuel := fuel) hp hw hm with ⟨d, h0, h1, h2, -⟩ | ⟨h0, h1, h2, -, h3⟩
    · have h := ih (2 * (lo - d.offset p)) (2 * (hi - d.offset p) + 1) fuel (by omega) h2 (by
        rw [show 2 * (hi - d.offset p) + 1 + 1 - 2 * (lo - d.offset p) = 2 * (hi + 1 - lo) by omega]
        rw [Nat.pow_succ] at hn; linarith) (by omega)
      have e : 2 * (hi - d.offset p) + 1 + 1 = 2 * (hi + 1 - d.offset p) := by omega
      rw [h0]
      generalize passes p fuel (2 * (lo - d.offset p)) (2 * (hi - d.offset p) + 1) = z at h
      refine ⟨by have := h.count; simp; omega, ?_, ?_, ?_, ?_, ?_⟩
      · have h3 := h.fits
        simp only [passOffset, List.length_cons]
        rw [← Nat.mul_assoc, ← Nat.pow_succ, Nat.mul_sub, Nat.succ_eq_add_one] at h3
        have := Nat.mul_le_mul_left (2 ^ (z.length + 1)) h1
        omega
      · rw [passEnd_cons]; exact h.lo_low
      · rw [passEnd_cons, ← e]; exact h.hi_high
      · rw [passEnd_cons, ← e]; exact h.hi_max
      · rw [passEnd_cons, passEnd_cons, ← e]; exact h.wide
    · rw [h0]
      exact ⟨Nat.zero_le _, Nat.zero_le _, by rw [passEnd_nil]; omega, by rw [passEnd_nil]; omega, by rw [passEnd_nil]; omega,
        by rw [passEnd_nil, passEnd_nil]; omega⟩

/-! ### The bits of the encoder -/

theorem firstStraddles_le (z : List Pass) : firstStraddles z ≤ z.length := by
  induction z with
  | nil => exact Nat.zero_le _
  | cons d z ih => cases d <;> simp [firstStraddles]; omega

/-- Each pass contributes one bit, at once or pending (41 R96). -/
theorem passBits_length (k : Nat) (z : List Pass) : (passBits k z).length + passStraddle k z = k + z.length := by
  induction z generalizing k with
  | nil => simp [passBits, passStraddle]
  | cons d z ih =>
    cases d with
    | low => have := ih 0; simp [passBits, passStraddle]; omega
    | high => have := ih 0; simp [passBits, passStraddle]; omega
    | middle => have := ih (k + 1); simp [passBits, passStraddle]; omega

theorem bitsFrom_ones (k v : Nat) : bitsFrom v (List.replicate k true) + 1 = (v + 1) * 2 ^ k := by
  induction k generalizing v with
  | zero => simp
  | succ k ih =>
    rw [List.replicate_succ, bitsFrom_cons, ih, Nat.pow_succ]
    simp only [Bool.toNat_true]; ring

theorem bitsFrom_zeros (k v : Nat) : bitsFrom v (List.replicate k false) = v * 2 ^ k := by
  induction k generalizing v with
  | zero => simp
  | succ k ih =>
    rw [List.replicate_succ, bitsFrom_cons, ih, Nat.pow_succ]
    simp only [Bool.toNat_false]; ring

/-- The emitted bits and the pending ones stand for what the passes have subtracted, and for the bits that were pending before: `k` pending
bits stand for `2^k − 1` halves. -/
theorem passBits_value {p : Nat} (k : Nat) (z : List Pass) :
    (bitsValue (passBits k z) * 2 ^ (passStraddle k z + 1) + (2 ^ passStraddle k z - 1)) * half p =
      passOffset p z + 2 ^ z.length * ((2 ^ k - 1) * half p) := by
  simp only [bitsValue_eq]
  have hhalf : half p = 2 * quarter p := rfl
  induction z generalizing k with
  | nil => simp [passBits, passStraddle, passOffset]
  | cons d z ih =>
    have hk := Nat.one_le_two_pow (n := k)
    have hlen := passBits_length 0 z
    cases d with
    | low =>
      have h := ih 0
      have hs := Nat.one_le_two_pow (n := passStraddle 0 z)
      have e1 := bitsFrom_ones k 0
      have e2 : bitsFrom 0 (passBits k (.low :: z)) = (2 ^ k - 1) * 2 ^ (passBits 0 z).length + bitsFrom 0 (passBits 0 z) := by
        show bitsFrom (2 * 0 + 0) (List.replicate k true ++ passBits 0 z) = _
        rw [bitsFrom_append, bitsFrom_eq, show bitsFrom (2 * 0 + 0) (List.replicate k true) = 2 ^ k - 1 by
          have : bitsFrom (2 * 0 + 0) (List.replicate k true) = bitsFrom 0 (List.replicate k true) := rfl
          omega]
      have e3 : 2 ^ (passBits 0 z).length * 2 ^ (passStraddle 0 z + 1) = 2 ^ z.length * 2 := by
        rw [← Nat.pow_add, ← Nat.pow_succ]; congr 1; omega
      rw [e2]
      show (_ * 2 ^ (passStraddle 0 z + 1) + (2 ^ passStraddle 0 z - 1)) * half p = 2 ^ (z.length + 1) * 0 + passOffset p z + 2 ^ (z.length + 1) * _
      have e4 : ((2 ^ k - 1) * 2 ^ (passBits 0 z).length + bitsFrom 0 (passBits 0 z)) * 2 ^ (passStraddle 0 z + 1) =
          (2 ^ k - 1) * (2 ^ z.length * 2) + bitsFrom 0 (passBits 0 z) * 2 ^ (passStraddle 0 z + 1) := by rw [← e3]; ring
      rw [e4, Nat.add_assoc, Nat.add_mul, h, Nat.pow_succ]
      simp only [Nat.pow_zero, Nat.sub_self, Nat.zero_mul, Nat.mul_zero, Nat.add_zero]
      ring
    | high =>
      have h := ih 0
      have e2 : bitsFrom 0 (passBits k (.high :: z)) = 2 ^ k * 2 ^ (passBits 0 z).length + bitsFrom 0 (passBits 0 z) := by
        show bitsFrom (2 * 0 + 1) (List.replicate k false ++ passBits 0 z) = _
        rw [bitsFrom_append, bitsFrom_eq, bitsFrom_zeros]; simp
      have e3 : 2 ^ (passBits 0 z).length * 2 ^ (passStraddle 0 z + 1) = 2 ^ z.length * 2 := by
        rw [← Nat.pow_add, ← Nat.pow_succ]; congr 1; omega
      rw [e2]
      show (_ * 2 ^ (passStraddle 0 z + 1) + (2 ^ passStraddle 0 z - 1)) * half p = 2 ^ (z.length + 1) * half p + passOffset p z + 2 ^ (z.length + 1) * _
      have e4 : (2 ^ k * 2 ^ (passBits 0 z).length + bitsFrom 0 (passBits 0 z)) * 2 ^ (passStraddle 0 z + 1) =
          2 ^ k * (2 ^ z.length * 2) + bitsFrom 0 (passBits 0 z) * 2 ^ (passStraddle 0 z + 1) := by rw [← e3]; ring
      rw [e4, Nat.add_assoc, Nat.add_mul, h, Nat.pow_succ]
      simp only [Nat.pow_zero, Nat.sub_self, Nat.zero_mul, Nat.mul_zero, Nat.add_zero]
      obtain ⟨j, hj⟩ : ∃ j, 2 ^ k = j + 1 := ⟨2 ^ k - 1, by omega⟩
      rw [hj, Nat.add_sub_cancel]
      ring
    | middle =>
      have h := ih (k + 1)
      show (bitsFrom 0 (passBits (k + 1) z) * 2 ^ (passStraddle (k + 1) z + 1) + (2 ^ passStraddle (k + 1) z - 1)) * half p =
        2 ^ (z.length + 1) * quarter p + passOffset p z + 2 ^ (z.length + 1) * _
      rw [h, Nat.pow_succ, Nat.pow_succ, hhalf]
      obtain ⟨j, hj⟩ : ∃ j, 2 ^ k = j + 1 := ⟨2 ^ k - 1, by omega⟩
      rw [hj, Nat.add_sub_cancel, show (j + 1) * 2 - 1 = 2 * j + 1 by omega]
      ring

/-! ### The loop in the encoder -/

/-- The encoder's loop, outcome for outcome: `STRADDLE` full, the sink full, or the bits of the passes (41 R90). -/
structure EncLoop (fuel : Nat) (s : State) : Prop where
  straddleFull : Config.countMax < s.coder.straddle + firstStraddles (passes s.par.p fuel s.coder.lo s.coder.hi) →
    renormLoop false fuel s = raise .capacityExceeded 2
  sinkFull : s.coder.straddle + firstStraddles (passes s.par.p fuel s.coder.lo s.coder.hi) ≤ Config.countMax →
    s.par.outCap < s.buf.outBits.length + (passBits s.coder.straddle (passes s.par.p fuel s.coder.lo s.coder.hi)).length →
    renormLoop false fuel s = raise .capacityExceeded 3
  done : s.coder.straddle + firstStraddles (passes s.par.p fuel s.coder.lo s.coder.hi) ≤ Config.countMax →
    s.buf.outBits.length + (passBits s.coder.straddle (passes s.par.p fuel s.coder.lo s.coder.hi)).length ≤ s.par.outCap →
    renormLoop false fuel s = .ok { s with
      coder := { s.coder with
        lo := passEnd s.par.p (passes s.par.p fuel s.coder.lo s.coder.hi) s.coder.lo
        hi := passEnd s.par.p (passes s.par.p fuel s.coder.lo s.coder.hi) (s.coder.hi + 1) - 1
        straddle := passStraddle s.coder.straddle (passes s.par.p fuel s.coder.lo s.coder.hi) }
      buf := { s.buf with outBits := s.buf.outBits ++ passBits s.coder.straddle (passes s.par.p fuel s.coder.lo s.coder.hi) } }

theorem renormLoop_enc : ∀ n (s : State) fuel, 2 ≤ s.par.p → s.coder.lo < s.coder.hi → s.coder.hi ≤ one s.par.p →
    2 ^ s.par.p < (s.coder.hi + 1 - s.coder.lo) * 2 ^ (n + 1) → n < fuel → n ≤ Config.countMax →
    s.coder.straddle ≤ Config.countMax → s.buf.outBits.length ≤ s.par.outCap → EncLoop fuel s := by
  have exits : ∀ (s : State) fuel, passes s.par.p (fuel + 1) s.coder.lo s.coder.hi = [] → ¬ s.coder.hi < half s.par.p →
      ¬ half s.par.p ≤ s.coder.lo → ¬ (quarter s.par.p ≤ s.coder.lo ∧ s.coder.hi < threeQuarters s.par.p) →
      s.coder.straddle ≤ Config.countMax → s.buf.outBits.length ≤ s.par.outCap → EncLoop (fuel + 1) s := by
    intro s fuel h0 h1 h2 h3 hs ho
    refine ⟨fun h => ?_, fun _ h => ?_, fun _ _ => ?_⟩
    · rw [h0] at h; simp only [firstStraddles] at h; omega
    · rw [h0] at h; simp only [passBits, List.length_nil] at h; omega
    · rw [h0, renormLoop, renormPass, if_neg h1, if_neg h2, if_neg h3]
      simp [passBits, passStraddle, passEnd_nil]
  intro n
  induction n with
  | zero =>
    intro s fuel hp hw hm hn hf hmax hs ho
    obtain ⟨fuel, rfl⟩ : ∃ f, fuel = f + 1 := ⟨fuel - 1, by omega⟩
    have hq := quarter_spec hp
    rcases passes_succ (fuel := fuel) hp hw hm with ⟨d, -, h1, h2, -⟩ | ⟨h0, h1, h2, h3, -⟩
    · omega
    · exact exits s fuel h0 h1 h2 h3 hs ho
  | succ n ih =>
    intro s fuel hp hw hm hn hf hmax hs ho
    obtain ⟨fuel, rfl⟩ : ∃ f, fuel = f + 1 := ⟨fuel - 1, by omega⟩
    rcases passes_succ (fuel := fuel) hp hw hm with ⟨d, h0, h1, h2, hd⟩ | ⟨h0, h1, h2, h3, -⟩
    · have hwide : 2 ^ s.par.p < (2 * (s.coder.hi - d.offset s.par.p) + 1 + 1 - 2 * (s.coder.lo - d.offset s.par.p)) * 2 ^ (n + 1) := by
        rw [show 2 * (s.coder.hi - d.offset s.par.p) + 1 + 1 - 2 * (s.coder.lo - d.offset s.par.p) =
          2 * (s.coder.hi + 1 - s.coder.lo) by omega]
        rw [Nat.pow_succ] at hn; linarith
      have hcount := (passes_ok hp n _ _ fuel (by omega) h2 hwide (by omega)).count
      have hlead := firstStraddles_le (passes s.par.p fuel (2 * (s.coder.lo - d.offset s.par.p)) (2 * (s.coder.hi - d.offset s.par.p) + 1))
      have e : 2 * (s.coder.hi + 1 - d.offset s.par.p) = 2 * (s.coder.hi - d.offset s.par.p) + 1 + 1 := by omega
      -- the state after the pass, and what the loop makes of it
      have next : ∀ (bits : List Bool) (k : Nat), k ≤ Config.countMax → s.buf.outBits.length + bits.length ≤ s.par.outCap →
          EncLoop fuel { s with
            coder := ⟨2 * (s.coder.lo - d.offset s.par.p), 2 * (s.coder.hi - d.offset s.par.p) + 1, s.coder.value, k, s.coder.padUsed⟩
            buf := { s.buf with outBits := s.buf.outBits ++ bits } } := fun bits k hk hb =>
        ih _ fuel hp (by show 2 * _ < 2 * _ + 1; omega) h2 hwide (by omega) (by omega) hk (by simpa using hb)
      generalize hz : passes s.par.p fuel (2 * (s.coder.lo - d.offset s.par.p)) (2 * (s.coder.hi - d.offset s.par.p) + 1) = z at *
      -- a pass that emits
      have emits : ∀ b : Bool, passBits s.coder.straddle (d :: z) = b :: List.replicate s.coder.straddle (!b) ++ passBits 0 z →
          passStraddle s.coder.straddle (d :: z) = passStraddle 0 z → firstStraddles (d :: z) = 0 →
          renormLoop false (fuel + 1) s = (drainStraddle b s >>= fun t => renormLoop false fuel (t.withCoder { t.coder with
            lo := 2 * (t.coder.lo - d.offset s.par.p), hi := 2 * (t.coder.hi - d.offset s.par.p) + 1 })) → EncLoop (fuel + 1) s := by
        intro b eb es ef er
        have hlen : (passBits s.coder.straddle (d :: z)).length = s.coder.straddle + 1 + (passBits 0 z).length := by
          rw [eb]; simp; omega
        refine ⟨fun h => ?_, fun _ h => ?_, fun _ h => ?_⟩
        · rw [h0, ef] at h; omega
        · rw [h0, hlen] at h
          rw [er]
          rcases drainStraddle_spec b s with ⟨hc, hr⟩ | ⟨hc, hr⟩
          · rw [hr, ok_bind]
            refine (next (b :: List.replicate s.coder.straddle (!b)) 0 (Nat.zero_le _) (by simpa using hc)).sinkFull ?_ ?_
            · simp only [hz]; omega
            · simp only [hz, List.length_append, List.length_cons, List.length_replicate]; omega
          · rw [hr]; rfl
        · rw [h0, hlen] at h
          rw [er, h0, eb, es, passEnd_cons, passEnd_cons, e]
          rcases drainStraddle_spec b s with ⟨hc, hr⟩ | ⟨hc, hr⟩
          · rw [hr, ok_bind]
            refine ((next (b :: List.replicate s.coder.straddle (!b)) 0 (Nat.zero_le _) (by simpa using hc)).done ?_ ?_).trans ?_
            · simp only [hz]; omega
            · simp only [hz, List.length_append, List.length_cons, List.length_replicate]; omega
            · simp only [hz, List.append_assoc]
          · omega
      rcases hd with ⟨rfl, c1⟩ | ⟨rfl, c1, c2⟩ | ⟨rfl, c1, c2, c3, c4⟩
      · refine emits false rfl rfl rfl ?_
        simp only [renormLoop, renormPass, if_pos c1, Bool.false_eq_true, if_false, doubleInterval, pure_eq_ok]
        cases drainStraddle false s <;> rfl
      · refine emits true rfl rfl rfl ?_
        simp only [renormLoop, renormPass, if_neg c1, if_pos c2, Bool.false_eq_true, if_false, subtractOffset, doubleInterval, pure_eq_ok]
        cases drainStraddle true s <;> rfl
      · have er : renormLoop false (fuel + 1) s = (pendStraddle s >>= fun t => renormLoop false fuel (t.withCoder { t.coder with
            lo := 2 * (t.coder.lo - quarter s.par.p), hi := 2 * (t.coder.hi - quarter s.par.p) + 1 })) := by
          simp only [renormLoop, renormPass, if_neg c1, if_neg c2, if_pos (And.intro c3 c4), Bool.false_eq_true, if_false, subtractOffset,
            doubleInterval, pure_eq_ok, pendStraddle]
          split <;> rfl
        have ef : firstStraddles (.middle :: z) = firstStraddles z + 1 := rfl
        have eb : passBits s.coder.straddle (.middle :: z) = passBits (s.coder.straddle + 1) z := rfl
        have es : passStraddle s.coder.straddle (.middle :: z) = passStraddle (s.coder.straddle + 1) z := rfl
        have step : s.coder.straddle ≠ Config.countMax → pendStraddle s = .ok (s.withCoder { s.coder with straddle := s.coder.straddle + 1 }) :=
          fun h => by rw [pendStraddle, if_neg h]
        refine ⟨fun h => ?_, fun h h' => ?_, fun h h' => ?_⟩
        · rw [h0, ef] at h
          rw [er]
          by_cases hfull : s.coder.straddle = Config.countMax
          · rw [pendStraddle, if_pos hfull]; rfl
          · rw [step hfull, ok_bind]
            refine Eq.trans ?_ ((next [] (s.coder.straddle + 1) (by omega) (by simpa using ho)).straddleFull ?_)
            · simp [State.withCoder, Pass.offset]
            · simp only [hz]; omega
        · rw [h0, ef] at h
          rw [h0, eb] at h'
          rw [er, step (by omega), ok_bind]
          refine Eq.trans ?_ ((next [] (s.coder.straddle + 1) (by omega) (by simpa using ho)).sinkFull ?_ ?_)
          · simp [State.withCoder, Pass.offset]
          · simp only [hz]; omega
          · simpa [hz] using h'
        · rw [h0, ef] at h
          rw [h0, eb] at h'
          rw [er, step (by omega), ok_bind, h0, eb, es, passEnd_cons, passEnd_cons, e]
          refine Eq.trans ?_ (((next [] (s.coder.straddle + 1) (by omega) (by simpa using ho)).done ?_ ?_).trans ?_)
          · simp [State.withCoder, Pass.offset]
          · simp only [hz]; omega
          · simpa [hz] using h'
          · simp only [hz, List.append_nil]
    · exact exits s fuel h0 h1 h2 h3 hs ho

/-! ### The loop in the decoder -/

/-- The window's value behind `m` more bits, when `d` has been subtracted from it first. -/
theorem bitsFrom_sub {v d : Nat} (hd : d ≤ v) (b : Bool) (bits : List Bool) :
    bitsFrom (2 * (v - d) + b.toNat) bits = bitsFrom v (b :: bits) - 2 ^ (bits.length + 1) * d := by
  rw [bitsFrom_cons, bitsFrom_eq, bitsFrom_eq (2 * v + b.toNat), Nat.pow_succ]
  obtain ⟨e, rfl⟩ : ∃ e, v = d + e := ⟨v - d, by omega⟩
  rw [show d + e - d = e by omega, show (2 * (d + e) + b.toNat) * 2 ^ bits.length = 2 ^ bits.length * 2 * d + (2 * e + b.toNat) * 2 ^ bits.length by ring]
  omega

/-- The decoder's loop, outcome for outcome: the padding runs out, or the passes' bits are shifted into `VALUE` (41 R90). -/
structure DecLoop (fuel : Nat) (s : State) (z : List Pass) (taken : List Bool) (zeros : Nat) : Prop where
  short : s.par.padLimit < s.coder.padUsed + zeros → renormLoop true fuel s = raise .truncatedStream 0
  done : s.coder.padUsed + zeros ≤ s.par.padLimit → renormLoop true fuel s = .ok { s with
    coder := { s.coder with
      lo := passEnd s.par.p z s.coder.lo
      hi := passEnd s.par.p z (s.coder.hi + 1) - 1
      value := bitsFrom s.coder.value (taken ++ List.replicate zeros false) - passOffset s.par.p z
      padUsed := s.coder.padUsed + zeros }
    buf := { s.buf with inPos := s.buf.inPos + taken.length } }

/-- A pass of the decoder is the subtraction and the doubling (41 R90). -/
theorem renormLoop_dec_pass {fuel : Nat} {s : State} {d : Pass} (hv : d.offset s.par.p ≤ s.coder.value)
    (hd : d = .low ∧ s.coder.hi < half s.par.p ∨ d = .high ∧ ¬ s.coder.hi < half s.par.p ∧ half s.par.p ≤ s.coder.lo ∨
      d = .middle ∧ ¬ s.coder.hi < half s.par.p ∧ ¬ half s.par.p ≤ s.coder.lo ∧ quarter s.par.p ≤ s.coder.lo ∧
        s.coder.hi < threeQuarters s.par.p) :
    renormLoop true (fuel + 1) s = (doubleInterval true (s.withCoder { s.coder with
      lo := s.coder.lo - d.offset s.par.p, hi := s.coder.hi - d.offset s.par.p, value := s.coder.value - d.offset s.par.p }) >>=
        renormLoop true fuel) := by
  rcases hd with ⟨rfl, c1⟩ | ⟨rfl, c1, c2⟩ | ⟨rfl, c1, c2, c3, c4⟩
  · simp only [renormLoop, renormPass, if_pos c1, if_true, ok_bind, Pass.offset, Nat.sub_zero, pure_eq_ok]
    rw [show s.withCoder { s.coder with lo := s.coder.lo, hi := s.coder.hi, value := s.coder.value } = s from rfl]
    cases doubleInterval true s <;> rfl
  · simp only [renormLoop, renormPass, if_neg c1, if_pos c2, if_true, ok_bind, subtractOffset, Pass.offset, pure_eq_ok]
    rw [if_neg (by simpa [Pass.offset] using hv)]
    simp only [ok_bind]
    generalize doubleInterval true _ = r
    cases r <;> rfl
  · simp only [renormLoop, renormPass, if_neg c1, if_neg c2, if_pos (And.intro c3 c4), if_true, ok_bind, subtractOffset, Pass.offset, pure_eq_ok]
    rw [if_neg (by simpa [Pass.offset] using hv)]
    simp only [ok_bind]
    generalize doubleInterval true _ = r
    cases r <;> rfl

theorem renormLoop_dec : ∀ n (s : State) fuel, 2 ≤ s.par.p → s.coder.lo < s.coder.hi → s.coder.hi ≤ one s.par.p →
    2 ^ s.par.p < (s.coder.hi + 1 - s.coder.lo) * 2 ^ (n + 1) → n < fuel → ValueOk s.coder → s.coder.padUsed ≤ s.par.padLimit →
    ∀ z taken, z = passes s.par.p fuel s.coder.lo s.coder.hi → taken = (s.buf.inBits.drop s.buf.inPos).take z.length →
    DecLoop fuel s z taken (z.length - taken.length) := by
  have exits : ∀ (s : State) fuel, ¬ s.coder.hi < half s.par.p →
      ¬ half s.par.p ≤ s.coder.lo → ¬ (quarter s.par.p ≤ s.coder.lo ∧ s.coder.hi < threeQuarters s.par.p) →
      s.coder.padUsed ≤ s.par.padLimit → DecLoop (fuel + 1) s [] [] 0 := by
    intro s fuel h1 h2 h3 hp
    refine ⟨fun h => by omega, fun _ => ?_⟩
    rw [renormLoop, renormPass, if_neg h1, if_neg h2, if_neg h3]
    simp [passEnd_nil, passOffset]
  intro n
  induction n with
  | zero =>
    intro s fuel hp hw hm hn hf hv hpad z taken hz ht
    obtain ⟨fuel, rfl⟩ : ∃ f, fuel = f + 1 := ⟨fuel - 1, by omega⟩
    have hq := quarter_spec hp
    rcases passes_succ (fuel := fuel) hp hw hm with ⟨d, -, h1, h2, -⟩ | ⟨h0, h1, h2, h3, -⟩
    · omega
    · obtain rfl := hz.trans h0
      obtain rfl : taken = [] := by simpa using ht
      exact exits s fuel h1 h2 h3 hpad
  | succ n ih =>
    intro s fuel hp hw hm hn hf hv hpad z taken hz ht
    obtain ⟨fuel, rfl⟩ : ∃ f, fuel = f + 1 := ⟨fuel - 1, by omega⟩
    rcases passes_succ (fuel := fuel) hp hw hm with ⟨d, h0, h1, h2, hd⟩ | ⟨h0, h1, h2, h3, -⟩
    · obtain ⟨hv1, hv2⟩ := hv
      have hdv : d.offset s.par.p ≤ s.coder.value := by omega
      have e : 2 * (s.coder.hi + 1 - d.offset s.par.p) = 2 * (s.coder.hi - d.offset s.par.p) + 1 + 1 := by omega
      have hwide : 2 ^ s.par.p < (2 * (s.coder.hi - d.offset s.par.p) + 1 + 1 - 2 * (s.coder.lo - d.offset s.par.p)) * 2 ^ (n + 1) := by
        rw [show 2 * (s.coder.hi - d.offset s.par.p) + 1 + 1 - 2 * (s.coder.lo - d.offset s.par.p) =
          2 * (s.coder.hi + 1 - s.coder.lo) by omega]
        rw [Nat.pow_succ] at hn; linarith
      rw [h0] at hz
      generalize hy : passes s.par.p fuel (2 * (s.coder.lo - d.offset s.par.p)) (2 * (s.coder.hi - d.offset s.par.p) + 1) = y at hz
      subst hz
      -- the state after a pass that read `b`, and what the loop makes of it
      have next : ∀ (b : Bool) (pos pad : Nat), pad ≤ s.par.padLimit → ∀ rest, rest = (s.buf.inBits.drop pos).take y.length →
          DecLoop fuel { s with
            coder := ⟨2 * (s.coder.lo - d.offset s.par.p), 2 * (s.coder.hi - d.offset s.par.p) + 1,
              2 * (s.coder.value - d.offset s.par.p) + b.toNat, s.coder.straddle, pad⟩
            buf := { s.buf with inPos := pos } } y rest (y.length - rest.length) := fun b pos pad hk rest hr =>
        ih { s with
            coder := ⟨2 * (s.coder.lo - d.offset s.par.p), 2 * (s.coder.hi - d.offset s.par.p) + 1,
              2 * (s.coder.value - d.offset s.par.p) + b.toNat, s.coder.straddle, pad⟩
            buf := { s.buf with inPos := pos } } fuel hp (by show 2 * _ < 2 * _ + 1; omega) h2 hwide (by omega)
          (by have hb : b.toNat ≤ 1 := by cases b <;> decide
              constructor <;> simp only <;> omega) hk y rest hy.symm hr
      have hpass := renormLoop_dec_pass (fuel := fuel) hdv hd
      have heq : ∀ (b : Bool) bits, bits.length = y.length →
          bitsFrom (2 * (s.coder.value - d.offset s.par.p) + b.toNat) bits - passOffset s.par.p y =
            bitsFrom s.coder.value (b :: bits) - passOffset s.par.p (d :: y) := by
        intro b bits hl
        rw [bitsFrom_sub hdv, hl, Nat.sub_sub]; rfl
      cases hb : s.buf.inBits[s.buf.inPos]? with
      | some b =>
        obtain ⟨hlt, hbe⟩ := List.getElem?_eq_some_iff.1 hb
        have hdr : s.buf.inBits.drop s.buf.inPos = b :: s.buf.inBits.drop (s.buf.inPos + 1) := by
          rw [List.drop_eq_getElem_cons hlt, hbe]
        have hds : doubleInterval true (s.withCoder { s.coder with
            lo := s.coder.lo - d.offset s.par.p, hi := s.coder.hi - d.offset s.par.p, value := s.coder.value - d.offset s.par.p }) =
            .ok { s with
              coder := ⟨2 * (s.coder.lo - d.offset s.par.p), 2 * (s.coder.hi - d.offset s.par.p) + 1,
                2 * (s.coder.value - d.offset s.par.p) + b.toNat, s.coder.straddle, s.coder.padUsed⟩
              buf := { s.buf with inPos := s.buf.inPos + 1 } } := by
          simp [doubleInterval, nextBitPadded, hb, State.withBuf, State.withCoder]
        obtain ⟨rest, hrest⟩ : ∃ rest, rest = (s.buf.inBits.drop (s.buf.inPos + 1)).take y.length := ⟨_, rfl⟩
        have htk : taken = b :: rest := by rw [ht, hdr, hrest]; rfl
        have hlr : rest.length ≤ y.length := by rw [hrest, List.length_take]; omega
        have hn := next b (s.buf.inPos + 1) s.coder.padUsed hpad rest hrest
        have hzz : (d :: y).length - taken.length = y.length - rest.length := by rw [htk]; simp
        rw [hzz]
        refine ⟨fun h => ?_, fun h => ?_⟩
        · rw [hpass, hds, ok_bind]
          exact hn.short h
        · rw [hpass, hds, ok_bind, hn.done h, htk]
          simp only [List.cons_append, passEnd_cons, e]
          rw [heq b _ (by simp; omega)]
          simp [Nat.add_assoc, Nat.add_comm 1]
      | none =>
        have hdr : s.buf.inBits.drop s.buf.inPos = [] := List.drop_eq_nil_of_le (List.getElem?_eq_none_iff.1 hb)
        obtain rfl : taken = [] := by rw [ht, hdr]; rfl
        by_cases hk : s.coder.padUsed < s.par.padLimit
        · have hds : doubleInterval true (s.withCoder { s.coder with
              lo := s.coder.lo - d.offset s.par.p, hi := s.coder.hi - d.offset s.par.p, value := s.coder.value - d.offset s.par.p }) =
              .ok { s with
                coder := ⟨2 * (s.coder.lo - d.offset s.par.p), 2 * (s.coder.hi - d.offset s.par.p) + 1,
                  2 * (s.coder.value - d.offset s.par.p) + false.toNat, s.coder.straddle, s.coder.padUsed + 1⟩
                buf := { s.buf with inPos := s.buf.inPos } } := by
            simp [doubleInterval, nextBitPadded, hb, hk, State.withCoder]
          have hn := next false s.buf.inPos (s.coder.padUsed + 1) hk [] (by rw [hdr]; simp)
          refine ⟨fun h => ?_, fun h => ?_⟩
          · rw [hpass, hds, ok_bind]
            exact hn.short (by simp at h ⊢; omega)
          · rw [hpass, hds, ok_bind, hn.done (by simp at h ⊢; omega)]
            simp only [List.nil_append, passEnd_cons, e]
            rw [heq false _ (by simp)]
            simp [List.replicate_succ, Nat.add_assoc, Nat.add_comm 1]
        · have hds : doubleInterval true (s.withCoder { s.coder with
              lo := s.coder.lo - d.offset s.par.p, hi := s.coder.hi - d.offset s.par.p, value := s.coder.value - d.offset s.par.p }) =
              raise .truncatedStream 0 := by
            simp [doubleInterval, nextBitPadded, hb, hk]
          refine ⟨fun h => ?_, fun h => ?_⟩
          · rw [hpass, hds]; rfl
          · simp at h; omega
    · obtain rfl := hz.trans h0
      obtain rfl : taken = [] := by simpa using ht
      exact exits s fuel h1 h2 h3 hpad

/-! ### One coded symbol -/

theorem mul_pow_wide {p w : Nat} (hp : 2 ≤ p) (hw : 2 ≤ w) : 2 ^ p < w * 2 ^ (p - 1 + 1) := by
  rw [show p - 1 + 1 = p by omega]
  have := Nat.two_pow_pos p
  nlinarith

/-- The passes that coding a symbol makes: at most `P − 1` (41 R91). -/
theorem symbolPasses_ok {s : State} {a : Nat} (hp : 2 ≤ s.par.p) (ha : a < s.alphabet) (hc : CodesInterval s a) (hw : s.coder.lo ≤ s.coder.hi)
    (hm : s.coder.hi ≤ one s.par.p) : PassesOk s.par.p (s.par.p - 1) (s.regionLo a) (s.regionEnd a - 1) (s.symbolPasses a) := by
  have hb := narrowed_bounds ha hc hw
  exact passes_ok hp _ _ _ _ hb.1 (by omega) (mul_pow_wide hp (by omega)) (by omega)

/-- Renormalization in the encoder, after narrowing. -/
theorem renorm_enc {s : State} {a : Nat} (hp : 2 ≤ s.par.p) (hp2 : s.par.p ≤ 32) (ha : a < s.alphabet) (hc : CodesInterval s a)
    (hw : s.coder.lo ≤ s.coder.hi) (hm : s.coder.hi ≤ one s.par.p) (hs : s.coder.straddle ≤ Config.countMax)
    (ho : s.buf.outBits.length ≤ s.par.outCap) : EncLoop s.par.p (narrowed a s) := by
  have hb := narrowed_bounds ha hc hw
  exact renormLoop_enc (s.par.p - 1) (narrowed a s) _ hp hb.1 (Nat.le_trans hb.2 hm)
    (mul_pow_wide hp (by show 2 ≤ s.regionEnd a - 1 + 1 - s.regionLo a; omega)) (by omega) (by simp only [countMax_eq]; omega) hs ho

/-- Renormalization in the decoder, after narrowing to the symbol whose region holds `VALUE`. -/
theorem renorm_dec {s : State} {a : Nat} (hp : 2 ≤ s.par.p) (ha : a < s.alphabet) (hc : CodesInterval s a)
    (hw : s.coder.lo ≤ s.coder.hi) (hm : s.coder.hi ≤ one s.par.p) (hr : InRegion s a) (hpad : s.coder.padUsed ≤ s.par.padLimit) :
    DecLoop s.par.p (narrowed a s) (s.symbolPasses a) ((s.buf.inBits.drop s.buf.inPos).take (s.symbolPasses a).length)
      ((s.symbolPasses a).length - ((s.buf.inBits.drop s.buf.inPos).take (s.symbolPasses a).length).length) := by
  have hb := narrowed_bounds ha hc hw
  exact renormLoop_dec (s.par.p - 1) (narrowed a s) _ hp hb.1 (Nat.le_trans hb.2 hm)
    (mul_pow_wide hp (by show 2 ≤ s.regionEnd a - 1 + 1 - s.regionLo a; omega)) (by omega)
    ⟨hr.1, by have := hr.2; show s.coder.value ≤ s.regionEnd a - 1; omega⟩ hpad _ _ rfl rfl

/-- The model step where the total is full (40 R77), or the symbol index (40 R80). -/
theorem modelStep_full {a : Nat} {s : State} (c : Coder) (b : Buffers) :
    (s.total = Config.countMax → (modelUpdate a { s with coder := c, buf := b } >>= countAndDecayModel) = raise .capacityExceeded 1) ∧
    (s.total < Config.countMax → s.ctl.symCount = Config.wordMax →
      (modelUpdate a { s with coder := c, buf := b } >>= countAndDecayModel) = raise .capacityExceeded 7) := by
  have h1 : State.total { s with coder := c, buf := b } = s.total := rfl
  refine ⟨fun h => ?_, fun h hs => ?_⟩
  · rw [modelUpdate, if_pos (by rw [h1]; omega)]; rfl
  · rw [modelUpdate_room (by omega), ok_bind, countAndDecayModel, countSymbol, if_pos (by show _ < s.ctl.symCount + 1; omega)]; rfl

/-- A symbol step after its renormalization. -/
theorem acSymbol_renormed {dec : Bool} {a : Nat} {s : State} {c : Coder} {b : Buffers} (hc : CodesInterval s a)
    (hu : renormLoop dec s.par.p (narrowed a s) = .ok { s with coder := c, buf := b }) :
    acSymbol dec a s = (modelUpdate a { s with coder := c, buf := b } >>= countAndDecayModel) := by
  rw [acSymbol_eq, narrow_codes hc]
  simp only [ok_bind]
  rw [show renorm dec (s.withCoder { s.coder with lo := s.regionLo a, hi := s.regionEnd a - 1 }) = _ from hu]
  rfl

/-- A symbol step whose renormalization fails. -/
theorem acSymbol_fails {dec : Bool} {a : Nat} {s : State} {e : Stop} (hc : CodesInterval s a)
    (hu : renormLoop dec s.par.p (narrowed a s) = .error e) : acSymbol dec a s = .error e := by
  rw [acSymbol_eq, narrow_codes hc]
  simp only [ok_bind]
  rw [show renorm dec (s.withCoder { s.coder with lo := s.regionLo a, hi := s.regionEnd a - 1 }) = _ from hu]
  rfl

end Sys2Proof.Machine
end

