-- ==== Sys2Proof/Tests/Slice0.lean ====
section
/-! SUPPORT. Tests of single words and single commands. Expected values are from spec/ (the vector or rule each comment names), never from the model. -/

namespace Sys2Proof.Tests
open Sys2Proof.Machine

/-! ### Well-formedness: one ill-formed term for each check -/

theorem test_wf_dbgRead : ¬ WellFormed (.dbgRead 0x1000000) := by decide
theorem test_wf_bsGammaPut : ¬ WellFormed (.bsGammaPut 0x1000000) := by decide
theorem test_wf_bsPeekOut : ¬ WellFormed (.bsPeekOut 0x1000000) := by decide
theorem test_wf_modelUpdate : ¬ WellFormed (.modelUpdate 0x1000000) := by decide
theorem test_wf_modelCount : ¬ WellFormed (.modelCount 0x1000000) := by decide
theorem test_wf_modelCum : ¬ WellFormed (.modelCum 0x1000000) := by decide
theorem test_wf_acEncSym : ¬ WellFormed (.acEncSym 0x1000000) := by decide
theorem test_wf_ahEncSym : ¬ WellFormed (.ahEncSym 0x1000000) := by decide
theorem test_wf_ahUpdate : ¬ WellFormed (.ahUpdate 0x1000000) := by decide
theorem test_wf_ahReadW : ¬ WellFormed (.ahReadW 0x1000000) := by decide
theorem test_wf_ahReadC : ¬ WellFormed (.ahReadC 0x1000000) := by decide
theorem test_wf_ahReadParent : ¬ WellFormed (.ahReadParent 0x1000000) := by decide
theorem test_wf_ahReadLoc : ¬ WellFormed (.ahReadLoc 0x1000000) := by decide
theorem test_wf_largest : WellFormed (.ahReadLoc 0xFFFFFF) := by decide

/-! ### Decoding: one word a command, written out from 30 R69 (the examples of the command's rule where it has one) -/

theorem test_decode_nop : decodeTableWord 32 0x00000000 = some .nop := by decide
theorem test_decode_abort : decodeTableWord 32 0x01000000 = some .abort := by decide
theorem test_decode_dbgRead : decodeTableWord 32 0x0200000B = some (.dbgRead 11) := by decide
theorem test_decode_bsClearOut : decodeTableWord 32 0x10000000 = some .bsClearOut := by decide
theorem test_decode_bsClearIn : decodeTableWord 32 0x11000000 = some .bsClearIn := by decide
theorem test_decode_bsPutBit : decodeTableWord 32 0x12000001 = some (.bsPutBit true) := by decide
theorem test_decode_bsGetBit : decodeTableWord 32 0x13000000 = some .bsGetBit := by decide
theorem test_decode_bsGammaPut : decodeTableWord 32 0x14FFFFFF = some (.bsGammaPut 0xFFFFFF) := by decide
theorem test_decode_bsGammaGet : decodeTableWord 32 0x15000000 = some .bsGammaGet := by decide
theorem test_decode_bsPack : decodeTableWord 32 0x16000000 = some .bsPack := by decide
theorem test_decode_bsUnpack : decodeTableWord 32 0x17000000 = some .bsUnpack := by decide
theorem test_decode_bsInBit : decodeTableWord 32 0x18000000 = some (.bsInBit false) := by decide
theorem test_decode_bsLoopback : decodeTableWord 32 0x19000000 = some .bsLoopback := by decide
theorem test_decode_bsPeekOut : decodeTableWord 32 0x1A000003 = some (.bsPeekOut 3) := by decide
theorem test_decode_modelInit : decodeTableWord 32 0x20000000 = some .modelInit := by decide
theorem test_decode_modelUpdate : decodeTableWord 32 0x21000002 = some (.modelUpdate 2) := by decide
theorem test_decode_modelDecay : decodeTableWord 32 0x22000000 = some .modelDecay := by decide
theorem test_decode_modelCount : decodeTableWord 32 0x23000001 = some (.modelCount 1) := by decide
theorem test_decode_modelCum : decodeTableWord 32 0x24000003 = some (.modelCum 3) := by decide
theorem test_decode_modelTotal : decodeTableWord 32 0x25000000 = some .modelTotal := by decide
theorem test_decode_acEncStart : decodeTableWord 32 0x30000000 = some .acEncStart := by decide
theorem test_decode_acEncSym : decodeTableWord 32 0x31000057 = some (.acEncSym 87) := by decide
theorem test_decode_acEncFinish : decodeTableWord 32 0x32000000 = some .acEncFinish := by decide
theorem test_decode_acDecStart : decodeTableWord 32 0x33000000 = some .acDecStart := by decide
theorem test_decode_acDecSym : decodeTableWord 32 0x34000000 = some .acDecSym := by decide
theorem test_decode_ahEncStart : decodeTableWord 32 0x40000000 = some .ahEncStart := by decide
theorem test_decode_ahEncSym : decodeTableWord 32 0x41000057 = some (.ahEncSym 87) := by decide
theorem test_decode_ahDecStart : decodeTableWord 32 0x42000000 = some .ahDecStart := by decide
theorem test_decode_ahDecSym : decodeTableWord 32 0x43000000 = some .ahDecSym := by decide
theorem test_decode_ahUpdate : decodeTableWord 32 0x44000003 = some (.ahUpdate 3) := by decide
theorem test_decode_ahDecay : decodeTableWord 32 0x45000000 = some .ahDecay := by decide
theorem test_decode_ahReadW : decodeTableWord 32 0x48000006 = some (.ahReadW 6) := by decide
theorem test_decode_ahReadC : decodeTableWord 32 0x49000005 = some (.ahReadC 5) := by decide
theorem test_decode_ahReadParent : decodeTableWord 32 0x4A000002 = some (.ahReadParent 2) := by decide
theorem test_decode_ahReadLoc : decodeTableWord 32 0x4BFFFFFF = some (.ahReadLoc 0xFFFFFF) := by decide
/-- 30 R70: 0x3F is illegal. -/
theorem test_decode_illegal : decode 0x3F000000#32 = .error (.illegalOpcode 0x3F) := by rfl
/-- 95 S3: a reserved bit of form B. -/
theorem test_decode_reservedB : decode 0x12000002#32 = .error (.reservedBits 0x12) := by rfl
/-- 95 C8: a reserved bit of form Z. -/
theorem test_decode_reservedZ : decode 0x00000005#32 = .error (.reservedBits 0) := by rfl

/-! ### Small states -/

/-- P = 8, KMAX = 4, small buffers. -/
def small : Params := { p := 8, kmax := 4, outCap := 64, inCap := 64, byteCap := 4, padLimit := 8, base := 64 }

/-- The reset state of that build. -/
def s0 : State := State.resetWith small

/-- Bits from digits. -/
def bits (l : List Nat) : List Bool := l.map (· == 1)

/-- `s0` with buffers. -/
def withBits (out inp : List Nat) : State := { s0 with buf := { s0.buf with outBits := bits out, inBits := bits inp } }

/-- A model over K = 4 with these counts, in a mode, with these coder registers. -/
def coding (m : Mode) (count : List Nat) (lo hi straddle value : Nat) : State :=
  { s0 with
    model := { count := count, valid := true }
    coder := { lo := lo, hi := hi, value := value, straddle := straddle, padUsed := 0 }
    ctl := { s0.ctl with mode := m } }

/-- The static tree over K = 4 of 95 T1. -/
def tree4 : Tree :=
  { pairs := [⟨1, 1, .leaf 0, .leaf 1, some (2, false)⟩, ⟨1, 1, .leaf 2, .leaf 3, some (2, true)⟩, ⟨2, 2, .node 0, .node 1, none⟩, Pair.reset]
    m := 3, root := .node 2, rootW := 4
    locSym := [.atSlot 0 false, .atSlot 0 true, .atSlot 1 false, .atSlot 1 true], locNyt := .absent, valid := true }

/-- The static tree, with no stream open. -/
def staticTree : State := { s0 with tree := tree4, ctl := { s0.ctl with acfg := { s0.ctl.acfg with growth := false } } }

/-- A growth tree over K = 4 that holds the NYT alone (95 H2). -/
def growthTree : State := { s0 with tree := { s0.tree with locNyt := .atRoot, valid := true } }

/-- The outcome is a next state with property `p`. -/
def nextHas (o : Host.Outcome State Fault Refusal) (p : State → Bool) : Bool :=
  match o with
  | .next t => p t
  | .fault _ => false
  | .refused _ => false

/-- `s` in a mode. -/
def inMode (m : Mode) (s : State) : State := { s with ctl := { s.ctl with mode := m } }

/-! ### Commands -/

/-- 95 C7. -/
theorem test_nop_keeps_result :
    nextHas (exec .nop { s0 with ctl := { s0.ctl with result := 256#32, resultValid := true } })
      (fun t => t.ctl.result == 256#32 && !t.ctl.resultValid) = true := by decide

/-- 95 C14. -/
theorem test_abort_status :
    nextHas (exec .abort ((coding .acDec [1, 1, 1, 1] 0 255 0 0).enterFault .truncatedStream 0#32 0x34000000#32))
      (fun t => t.statusWord == 0x80#32) = true := by decide

/-- 95 C9. -/
theorem test_dbgRead_hi :
    nextHas (exec (.dbgRead 1) (coding .acEnc [1, 1, 1, 1] 0 255 0 0)) (fun t => t.ctl.result == 255#32) = true := by decide

/-- 95 C12. -/
theorem test_dbgRead_range :
    nextHas (exec (.dbgRead 18) s0) (fun t => t.ctl.faultInfo == 0x12#32 && t.statusWord == 0x000A0002#32) = true := by decide

/-- 95 S2. -/
theorem test_bsClearOut : nextHas (exec .bsClearOut (withBits [1] [])) (fun t => t.buf.outBits == []) = true := by decide

/-- 44 R127. -/
theorem test_bsClearIn : nextHas (exec .bsClearIn (withBits [] [1])) (fun t => t.buf.inBits == [] && t.buf.inPos == 0) = true := by decide

/-- 95 S1. -/
theorem test_bsPutBit : nextHas (exec (.bsPutBit false) (withBits [1] [])) (fun t => t.buf.outBits == bits [1, 0]) = true := by decide

/-- 95 S4. -/
theorem test_bsGetBit_ends :
    nextHas (exec .bsGetBit { s0 with buf := { s0.buf with inBits := bits [1, 0], inPos := 2 } })
      (fun t => t.ctl.faultCode == .truncatedStream && t.buf.inPos == 2) = true := by decide

/-- 95 S6. -/
theorem test_bsGammaPut : nextHas (exec (.bsGammaPut 43) s0)
    (fun t => t.buf.outBits == bits [0, 0, 0, 0, 0, 1, 0, 1, 1, 0, 0]) = true := by decide +kernel

/-- 95 S8. -/
theorem test_bsGammaGet : nextHas (exec .bsGammaGet (withBits [] [0, 0, 1, 0, 0, 1, 0, 0, 1]))
    (fun t => t.ctl.result == 3#32 && t.buf.inPos == 5) = true := by decide

/-- 95 S10. -/
theorem test_bsGammaGet_32_zeros :
    nextHas (exec .bsGammaGet (withBits [] (List.replicate 32 0 ++ [1]))) (fun t =>
      t.ctl.faultCode == .capacityExceeded && t.ctl.faultInfo == 6#32 && t.buf.inPos == 0) = true := by decide

/-- 95 S12. -/
theorem test_bsPack : nextHas (exec .bsPack (withBits [1, 0, 0, 1] []))
    (fun t => t.buf.outBytes == [0x32#8] && t.buf.outBits == []) = true := by decide

/-- 95 S13. -/
theorem test_bsPack_empty : nextHas (exec .bsPack s0) (fun t => t.buf.outBytes == [0xA0#8]) = true := by decide

/-- 95 S18. -/
theorem test_bsUnpack : nextHas (exec .bsUnpack { s0 with buf := { s0.buf with inBytes := [0x3F#8] } })
    (fun t => t.buf.inBits == bits [1, 1, 1, 1] && t.buf.inBytes == []) = true := by decide

/-- 95 S16. -/
theorem test_bsUnpack_pad : nextHas (exec .bsUnpack { s0 with buf := { s0.buf with inBytes := [0xF0#8] } })
    (fun t => t.ctl.faultCode == .truncatedStream && t.ctl.faultInfo == 2#32) = true := by decide

/-- 95 S19. -/
theorem test_bsInBit : nextHas (exec (.bsInBit true) (withBits [] [1, 0, 0]))
    (fun t => t.buf.inBits == bits [1, 0, 0, 1] && t.buf.inPos == 0) = true := by decide

/-- 95 S20. -/
theorem test_bsLoopback : nextHas (exec .bsLoopback (withBits [0, 1, 0, 1, 0, 0, 1] []))
    (fun t => t.buf.inBits == bits [0, 1, 0, 1, 0, 0, 1] && t.buf.outBits == t.buf.inBits) = true := by decide

/-- 95 S21. -/
theorem test_bsPeekOut : nextHas (exec (.bsPeekOut 3) (withBits [1, 0, 0, 1] [])) (fun t => t.ctl.result == 1#32) = true := by decide

/-- 95 S22. -/
theorem test_bsPeekOut_range : nextHas (exec (.bsPeekOut 4) (withBits [1, 0, 0, 1] []))
    (fun t => t.statusWord == 0x000A0002#32 && t.ctl.faultInfo == 4#32) = true := by decide

/-- 95 M1. -/
theorem test_modelInit : nextHas (exec .modelInit s0)
    (fun t => t.model.count == [1, 1, 1, 1] && t.statusWord == 0x80#32) = true := by decide

/-- 95 M15. -/
theorem test_modelInit_config : nextHas (exec .modelInit
      { s0 with ctl := { s0.ctl with cfg := { s0.ctl.cfg with decayEn := true, alpha := 32768#17 } } })
    (fun t => t.ctl.faultCode == .configInvalid && t.ctl.faultInfo == 2#32) = true := by decide

/-- 95 M2. -/
theorem test_modelUpdate : nextHas (exec (.modelUpdate 2) (coding .idle [1, 1, 1, 1] 0 0 0 0))
    (fun t => t.model.count == [1, 1, 2, 1]) = true := by decide

/-- 95 M10: counts [6, 2, 1, 1] under ALPHA = 21846 and ceiling rounding. -/
theorem test_modelDecay_ceil : nextHas (exec .modelDecay
      (let s := coding .idle [6, 2, 1, 1] 0 0 0 0; { s with ctl := { s.ctl with acfg := { s.ctl.acfg with alpha := 21846#17 } } }))
    (fun t => t.model.count == [3, 1, 1, 1]) = true := by decide

/-- 95 M11: the same under floor rounding. -/
theorem test_modelDecay_floor : nextHas (exec .modelDecay
      (let s := coding .idle [6, 2, 1, 1] 0 0 0 0
       { s with ctl := { s.ctl with acfg := { s.ctl.acfg with alpha := 21846#17, remove := true } } }))
    (fun t => t.model.count == [2, 0, 0, 0]) = true := by decide

/-- 95 M3. -/
theorem test_modelCount : nextHas (exec (.modelCount 2) (coding .idle [1, 1, 2, 1] 0 0 0 0)) (fun t => t.ctl.result == 2#32) = true := by decide

/-- 95 M4. -/
theorem test_modelCum : nextHas (exec (.modelCum 3) (coding .idle [1, 1, 2, 1] 0 0 0 0)) (fun t => t.ctl.result == 4#32) = true := by decide

/-- 95 M5. -/
theorem test_modelTotal : nextHas (exec .modelTotal (coding .idle [1, 1, 2, 1] 0 0 0 0)) (fun t => t.ctl.result == 5#32) = true := by decide

/-- 95 F6: allowed in the fault state, and it clears the record. -/
theorem test_acEncStart : nextHas (exec .acEncStart (s0.enterFault .illegalCommand 3#32 0x03000000#32))
    (fun t => t.statusWord == 0x90#32 && t.coder.hi == 255 && t.model.count == [1, 1, 1, 1]) = true := by decide

/-- 95 A1, step 2. -/
theorem test_acEncSym : nextHas (exec (.acEncSym 2) (coding .acEnc [1, 1, 1, 1] 0 255 0 0))
    (fun t => t.buf.outBits == bits [1, 0] && t.coder.lo == 0 && t.coder.hi == 255 && t.model.count == [1, 1, 2, 1]) = true := by
  decide +kernel

/-- 95 A4: a straddle of 2 resolved by a later symbol. -/
theorem test_acEncSym_straddle : nextHas (exec (.acEncSym 3) (coding .acEnc [2, 2, 1, 1] 28 231 2 0))
    (fun t => t.buf.outBits == bits [1, 0, 0, 1] && t.coder.lo == 24 && t.coder.hi == 159 && t.coder.straddle == 0) = true := by
  decide +kernel

/-- 95 A3, step 3. -/
theorem test_acEncFinish : nextHas (exec .acEncFinish (coding .acEnc [2, 2, 1, 1] 28 231 2 0))
    (fun t => t.buf.outBits == bits [0, 1, 1, 1] && t.ctl.mode == .idle && t.coder.straddle == 0) = true := by decide +kernel

/-- 95 A2, step 2. -/
theorem test_acDecStart : nextHas (exec .acDecStart (withBits [] [1, 0, 0, 1]))
    (fun t => t.coder.value == 144 && t.coder.padUsed == 4 && t.buf.inPos == 4) = true := by decide +kernel

/-- 95 A2, step 3. -/
theorem test_acDecSym : nextHas (exec .acDecSym
      (let s := coding .acDec [1, 1, 1, 1] 0 255 0 144
       { s with coder := { s.coder with padUsed := 4 }, buf := { s.buf with inBits := bits [1, 0, 0, 1], inPos := 4 } }))
    (fun t => t.ctl.result == 2#32 && t.coder.value == 64 && t.coder.padUsed == 6) = true := by decide +kernel

/-- 95 A8.5: the ninth padding bit is refused, and the command is rolled back. -/
theorem test_acDecSym_truncated : nextHas (exec .acDecSym
      (let s := coding .acDec [1, 1, 1, 1] 0 255 0 0; { s with coder := { s.coder with padUsed := 8 } }))
    (fun t => t.ctl.faultCode == .truncatedStream && t.coder.hi == 255 && t.coder.padUsed == 8) = true := by decide +kernel

/-- 95 T1. -/
theorem test_ahEncStart_static : nextHas (exec .ahEncStart { s0 with ctl := { s0.ctl with cfg := { s0.ctl.cfg with growth := false } } })
    (fun t => t.tree == tree4) = true := by decide +kernel

/-- 95 H8. -/
theorem test_ahEncStart_config : nextHas (exec .ahEncStart
      { s0 with ctl := { s0.ctl with cfg := { s0.ctl.cfg with growth := false, remove := true } } })
    (fun t => t.statusWord == 0x00030002#32 && t.ctl.faultInfo == 4#32) = true := by decide +kernel

/-- 95 T4, last row, third symbol: {0, 1} seen, then 2. -/
theorem test_ahEncSym_new : nextHas (exec (.ahEncSym 2)
      { s0 with
        tree :=
          { pairs := [⟨0, 1, .nyt, .leaf 1, some (1, false)⟩, ⟨1, 1, .node 0, .leaf 0, none⟩, Pair.reset, Pair.reset]
            m := 2, root := .node 1, rootW := 2
            locSym := [.atSlot 1 true, .atSlot 0 true, .absent, .absent], locNyt := .atSlot 0 false, valid := true }
        ctl := { s0.ctl with mode := .ahEnc } })
    (fun t => t.buf.outBits == bits [0, 0, 1, 0] && t.tree.rootW == 3 && t.tree.m == 3) = true := by decide +kernel

/-- 95 H2 and 43 R118. -/
theorem test_ahDecStart : nextHas (exec .ahDecStart s0)
    (fun t => t.tree.locNyt == .atRoot && t.tree.m == 0 && t.ctl.mode == .ahDec && t.tree.valid) = true := by decide +kernel

/-- 95 H4, first symbol of its stream. -/
theorem test_ahDecSym : nextHas (exec .ahDecSym
      { inMode .ahDec growthTree with buf := { s0.buf with inBits := bits [0, 0, 0, 0, 0] } })
    (fun t => t.ctl.result == 0#32 && t.buf.inPos == 2 && t.ctl.resultValid) = true := by decide +kernel

/-- 95 H6: the raw gather runs out; `INPOS` is restored. -/
theorem test_ahDecSym_truncated : nextHas (exec .ahDecSym
      { inMode .ahDec growthTree with buf := { s0.buf with inBits := bits [0] } })
    (fun t => t.ctl.faultCode == .truncatedStream && t.buf.inPos == 0) = true := by decide +kernel

/-- 95 T2, step 2: the leaf and Node(0) change places. -/
theorem test_ahUpdate_swap : nextHas (exec (.ahUpdate 3)
      { staticTree with tree :=
        { tree4 with
          pairs := [⟨1, 1, .leaf 0, .leaf 1, some (2, false)⟩, ⟨1, 2, .leaf 2, .leaf 3, some (2, true)⟩, ⟨2, 3, .node 0, .node 1, none⟩, Pair.reset]
          rootW := 5 } })
    (fun t => t.tree.pairs.take 3 ==
        [⟨1, 1, .leaf 0, .leaf 1, some (1, true)⟩, ⟨1, 2, .leaf 2, .node 0, some (2, true)⟩, ⟨3, 3, .leaf 3, .node 1, none⟩]
      && t.tree.rootW == 6) = true := by decide +kernel

/-- 95 H7. -/
theorem test_ahUpdate_absent : nextHas (exec (.ahUpdate 2) growthTree)
    (fun t => t.ctl.faultCode == .streamInconsistent && t.ctl.faultInfo == 2#32) = true := by decide +kernel

/-- 95 T5: {Nyt:0, L0:1, L1:3} under alpha = 0.5 with eviction. -/
theorem test_ahDecay : nextHas (exec .ahDecay
      { s0 with
        tree :=
          { pairs := [⟨0, 1, .nyt, .leaf 0, some (1, false)⟩, ⟨1, 3, .node 0, .leaf 1, none⟩, Pair.reset, Pair.reset]
            m := 2, root := .node 1, rootW := 4
            locSym := [.atSlot 0 true, .atSlot 1 true, .absent, .absent], locNyt := .atSlot 0 false, valid := true }
        ctl := { s0.ctl with acfg := { s0.ctl.acfg with alpha := 32768#17, remove := true } } })
    (fun t => t.tree.m == 1 && t.tree.pairAt 0 == ⟨0, 1, .nyt, .leaf 1, none⟩ && t.tree.locOf (.sym 0) == .absent) = true := by
  decide +kernel

/-- 95 T1, the reads of the static tree. -/
theorem test_ahReadW : nextHas (exec (.ahReadW 5) staticTree) (fun t => t.ctl.result == 2#32) = true := by decide
theorem test_ahReadC : nextHas (exec (.ahReadC 5) staticTree) (fun t => t.ctl.result == 0xC0000001#32) = true := by decide
theorem test_ahReadParent : nextHas (exec (.ahReadParent 1) staticTree) (fun t => t.ctl.result == 0x80000005#32) = true := by decide
theorem test_ahReadLoc : nextHas (exec (.ahReadLoc 3) staticTree) (fun t => t.ctl.result == 0x80000003#32) = true := by decide
/-- 95 H2. -/
theorem test_ahReadLoc_nyt : nextHas (exec (.ahReadLoc 0xFFFFFF) growthTree) (fun t => t.ctl.result == 0x40000000#32) = true := by
  decide +kernel
/-- 95 T1, the last row. -/
theorem test_ahReadW_range : nextHas (exec (.ahReadW 6) staticTree) (fun t => t.ctl.faultCode == .operandRange) = true := by decide

/-! ### Steps and host registers -/

/-- 95 C1 to C4: the registers of the default build at reset. -/
theorem test_reset_registers : [Register.id, .status, .param, .cfgK, .cfgAlpha, .cfgFlags, .cfgN].map (fun r => (readRegister r State.reset).1)
    = [0x435A4143#32, 0#32, 0x01000020#32, 0x100#32, 0x10000#32, 2#32, 0#32] := by decide +kernel

/-- 95 F1: an illegal opcode, from reset. -/
theorem test_step_illegal : nextHas (step (State.reset.withFetchWord 32 0x03000000))
    (fun t => t.statusWord == 0x00010002#32 && t.ctl.faultInfo == 3#32 && t.ctl.faultCmd == 0x03000000#32) = true := by decide +kernel

/-- 95 F2: a command dropped in the fault state. -/
theorem test_step_dropped :
    nextHas (step ((State.reset.enterFault .illegalCommand 3#32 0x03000000#32).withFetchWord 32 0x12000001))
      (fun t => t.statusWord == 0x0001000A#32 && t.buf.outBits == []) = true := by decide +kernel

/-- 95 C8. -/
theorem test_step_reserved : nextHas (step (State.reset.withFetchWord 32 5))
    (fun t => t.statusWord == 0x00010002#32 && t.ctl.faultInfo == 0x100#32 && t.ctl.faultCmd == 5#32) = true := by decide +kernel

/-- 95 C6: a 1-byte write to `CMD` is ignored. -/
theorem test_narrow_write : nextHas (applyAccess (.write 0x0C#6 .byte 0x03000000#32) s0) (fun t => t == s0) = true := by decide

/-- 95 S12: `OUT_BYTE` reads 0x132, then 0. -/
theorem test_outByte : (popOutByte { s0 with buf := { s0.buf with outBytes := [0x32#8] } }).1 = 0x132#32 := by decide

/-- 95 C16 and 70 R165: `IRQ_EN` ends 0. -/
theorem test_softReset : nextHas (applyAccess (.write 0x04#6 .word 0x80000001#32) (coding .acEnc [1, 2, 1, 1] 3 200 0 0))
    (fun t => t == s0) = true := by decide +kernel

/-- 95 P4: STATUS with the interrupt. -/
theorem test_status_irq :
    (let s := coding .acEnc [1, 1, 1, 1] 0 255 0 0
     ({ s with ctl := { s.ctl with irqEn := true } }.enterFault .symbolNotInAlphabet 5#32 0x31000005#32).statusWord)
      = 0x00050292#32 := by decide

/-- 30 R74: the words of `AC_ENCODE 2`. -/
theorem test_pseudo : (acEncodeLines [2]).map HostLine.access =
    [.write 0x0C#6 .word 0x14000001#32, .write 0x0C#6 .word 0x30000000#32, .write 0x0C#6 .word 0x31000002#32,
     .write 0x0C#6 .word 0x32000000#32] := by decide

/-- 20 R50: address BASE + 0x0C is `CMD`; one past the window is not the block's. -/
theorem test_window : memRead small 0x4C .word = some (.read 0x0C#6 .word) ∧ memRead small 0x80 .word = none := by decide

/-! ### Witnesses: for each statement with hypotheses, concrete states and operands that meet them -/

/-- The invariants of the block as one test. -/
def blockOk (s : State) : Bool :=
  decide (s.par = small) && decide (s.model.count.length = 4) && decide (s.tree.pairs.length = 4) && decide (s.tree.locSym.length = 4) &&
  decide (s.coder.lo < 128) && decide (128 ≤ s.coder.hi ∨ s.ctl.mode = .idle ∨ s.ctl.mode = .ahEnc ∨ s.ctl.mode = .ahDec) &&
  decide (s.coder.hi ≤ 255) && decide (s.coder.lo < 64 ∨ 192 ≤ s.coder.hi) &&
  decide (s.coder.value ≤ 255) && decide (s.coder.straddle ≤ 2 ^ 32 - 1) && decide (s.coder.padUsed ≤ 8) &&
  decide (s.ctl.symCount ≤ 2 ^ 32 - 1) && decide (s.total ≤ 2 ^ 32 - 1) &&
  decide (s.buf.outBits.length ≤ 64) && decide (s.buf.inBits.length ≤ 64) && decide (s.buf.inPos ≤ s.buf.inBits.length) &&
  decide (s.buf.outBytes.length ≤ 4) && decide (s.buf.inBytes.length ≤ 4) &&
  decide (1 ≤ s.ctl.acfg.k.toNat) && decide (s.ctl.acfg.k.toNat ≤ 4) && decide (1 ≤ s.ctl.acfg.alpha.toNat) &&
  decide (s.ctl.acfg.alpha.toNat ≤ 65536) && decide (s.ctl.acfg.decayEn = false ∨ s.ctl.acfg.n.toNat ≠ 0) &&
  decide (s.coder.lo ≤ s.coder.value ∧ s.coder.value ≤ s.coder.hi ∨ s.ctl.mode ≠ .acDec) &&
  !(s.model.valid && s.tree.valid) && decide (s.model.valid = true ∨ s.ctl.mode ≠ .acEnc ∧ s.ctl.mode ≠ .acDec) &&
  decide (s.tree.valid = true ∨ s.ctl.mode ≠ .ahEnc ∧ s.ctl.mode ≠ .ahDec) &&
  decide (s.ctl.acfg.remove = false ∨ s.ctl.acfg.growth = true)

theorem small_legal : LegalBuild small := by constructor <;> decide

theorem blockInv_of {s : State} (h : blockOk s = true) : BlockInv s := by
  simp only [blockOk, Bool.and_eq_true, decide_eq_true_eq, Bool.not_eq_true', Bool.and_eq_false_iff] at h
  obtain ⟨⟨⟨⟨⟨⟨⟨⟨⟨⟨⟨⟨⟨⟨⟨⟨⟨⟨⟨⟨⟨⟨⟨⟨⟨⟨⟨hp, h1⟩, h2⟩, h3⟩, h4⟩, h5⟩, h6⟩, h7⟩, h8⟩, h9⟩, h10⟩, h11⟩, h12⟩, h13⟩, h14⟩, h15⟩, h16⟩, h17⟩, h18⟩, h19⟩, h20⟩, h21⟩, h22⟩, h23⟩, h24⟩, h25⟩, h26⟩, h27⟩ := h
  have ho : one s.par.p = 255 := by rw [hp]; rfl
  have hh : half s.par.p = 128 := by rw [hp]; rfl
  have hq : quarter s.par.p = 64 := by rw [hp]; rfl
  have ht : threeQuarters s.par.p = 192 := by rw [hp]; rfl
  have hk : s.par.kmax = 4 := by rw [hp]; rfl
  have e1 : s.par.outCap = 64 := by rw [hp]; rfl
  have e2 : s.par.inCap = 64 := by rw [hp]; rfl
  have e3 : s.par.byteCap = 4 := by rw [hp]; rfl
  have e4 : s.par.padLimit = 8 := by rw [hp]; rfl
  refine ⟨hp ▸ small_legal, ⟨by omega, by omega, by omega⟩, ⟨by omega, by omega, by omega, ?_, by omega, ?_, fun _ => ?_, by omega, by omega, by omega, by omega, by omega⟩, ⟨h18, by omega, h20, ?_, ?_⟩, fun h => ⟨by omega, ?_, by omega, by omega⟩, fun h => ?_, ?_, fun h => ?_, fun h => ?_, fun _ h => ?_⟩
  · exact h9
  · exact h11
  · exact h12
  · exact h21
  · intro h _; simpa [h] using h22
  · rw [hh]; rcases h5 with h5 | h5 | h5 | h5
    · exact h5
    all_goals simp [h5] at h
  · rcases h23 with h23 | h23
    · exact h23
    · exact absurd h h23
  · simp; rcases h24 with h | h <;> simp [h]
  · rcases h25 with h25 | h25
    · exact h25
    · exact absurd h (by simp [h25])
  · rcases h26 with h26 | h26
    · exact h26
    · exact absurd h (by simp [h26])
  · simpa [h] using h27

/-- The invariants of a tree over four symbols as one test. -/
def treeOk (growth : Bool) (t : Tree) : Bool :=
  decide (t.locSym.length = 4) && decide (t.m ≤ 4) && decide (t.rootW ≤ 2 ^ 32 - 1) &&
  (List.range (2 * t.m)).all (fun q => decide (2 * t.m ≤ q + 1 ∨ t.wt q ≤ t.wt (q + 1)) &&
    (match t.ch q with
     | .node i => decide (i + 1 < t.m) && decide ((t.pairAt i).parent = some (q / 2, slotOf q)) && decide (t.wt q = (t.pairAt i).sum)
     | .leaf a => decide (1 ≤ t.wt q) && decide (a < 4) && decide (t.locOf (.sym a) = .atSlot (q / 2) (slotOf q))
     | .nyt => decide (t.wt q = 0) && decide (t.locNyt = .atSlot (q / 2) (slotOf q)))) &&
  (List.range t.m).all (fun i => decide (t.m ≤ i + 1) ||
    (match (t.pairAt i).parent with
     | some (j, b) => decide (i < j) && decide (j < t.m) && decide ((t.pairAt j).child b = .node i)
     | none => false)) &&
  [.nyt, .sym 0, .sym 1, .sym 2, .sym 3].all (fun x =>
    match t.locOf x with
    | .atSlot j b => decide (j < t.m) && decide (((t.pairAt j).child b).key? = some x)
    | .atRoot => decide (t.root.key? = some x)
    | .absent => decide (growth = true) && decide (x ≠ .nyt) || decide (growth = false) && decide (x = .nyt)) &&
  (if t.m = 0 then
    (match t.root with
     | .node _ => false
     | .nyt => decide (t.rootW = 0) && decide (t.locNyt = .atRoot)
     | .leaf a => decide (1 ≤ t.rootW) && decide (a < 4) && decide (t.locOf (.sym a) = .atRoot))
   else decide (t.root = .node (t.m - 1)) && decide ((t.pairAt (t.m - 1)).parent = none) &&
    decide (t.rootW = (t.pairAt (t.m - 1)).sum)) && (growth || decide (t.locNyt = .absent))

theorem treeOk_of {g : Bool} {t : Tree} (h : treeOk g t = true) : TreeOk 4 g t := by
  unfold treeOk at h
  simp only [Bool.and_eq_true, decide_eq_true_eq, List.all_eq_true, List.mem_range] at h
  obtain ⟨⟨⟨⟨⟨⟨⟨hl, hm⟩, hw⟩, hs⟩, hp⟩, hx⟩, hr⟩, hg⟩ := h
  have habs : ∀ a, 4 ≤ a → t.locOf (.sym a) = .absent := by
    intro a ha; simp [Tree.locOf, List.getElem?_eq_none (by omega : t.locSym.length ≤ a)]
  have hkey : ∀ x, t.locOf x ≠ .absent → x ∈ [Key.nyt, .sym 0, .sym 1, .sym 2, .sym 3] := by
    intro x hx'
    cases x with
    | nyt => simp
    | sym a =>
      by_cases ha : 4 ≤ a
      · exact absurd (habs a ha) hx'
      · have : a = 0 ∨ a = 1 ∨ a = 2 ∨ a = 3 := by omega
        rcases this with rfl | rfl | rfl | rfl <;> simp
  have hpos : ∀ j b, j < t.m → t.ch (2 * j + Bool.toNat b) = (t.pairAt j).child b ∧ 2 * j + b.toNat < 2 * t.m ∧ (2 * j + b.toNat) / 2 = j ∧ slotOf (2 * j + b.toNat) = b := by
    intro j b hj
    cases b <;> simp [Tree.ch, slotOf] <;> (try omega) 
    · have : (2 * j + 1) / 2 = j := by omega
      have : (2 * j + 1) % 2 = 1 := by omega
      simp [*]; omega
  constructor
  · intro q hq; have := (hs q (by omega)).1; omega
  · intro h0; rw [if_neg (by omega)] at hr; simp only [Bool.and_eq_true, decide_eq_true_eq] at hr; exact hr.1
  · intro h0; rw [if_pos h0] at hr; split at hr <;> simp_all [Child.key?]
  · intro i hi
    have := hp i (by omega)
    rw [Bool.or_eq_true, decide_eq_true_eq] at this
    rcases this with h | h
    · omega
    · split at h
      · rename_i j b he; simp only [Bool.and_eq_true, decide_eq_true_eq] at h; exact ⟨j, b, he, h.1.1, h.1.2, h.2⟩
      · exact absurd h (by simp)
  · intro q i hq hc
    have := (hs q hq).2; rw [hc] at this
    simp only [Bool.and_eq_true, decide_eq_true_eq] at this; exact ⟨this.1.1, this.1.2⟩
  · intro q i hq hc
    have := (hs q hq).2; rw [hc] at this
    simp only [Bool.and_eq_true, decide_eq_true_eq] at this; exact this.2
  · intro h0; rw [if_neg (by omega)] at hr; simp only [Bool.and_eq_true, decide_eq_true_eq] at hr; exact hr.2
  · intro x j b
    constructor
    · intro h
      have := hx x (hkey x (by simp [h]))
      rw [h] at this; simpa using this
    · rintro ⟨hj, hk⟩
      obtain ⟨h1, h2, h3, h4⟩ := hpos j b hj
      have := (hs _ h2).2
      rw [h1, h3, h4] at this
      cases hc : (t.pairAt j).child b with
      | node i => simp [hc, Child.key?] at hk
      | leaf a =>
        simp [hc, Child.key?] at hk; subst hk
        rw [hc] at this; simp only [Bool.and_eq_true, decide_eq_true_eq] at this; exact this.2
      | nyt =>
        simp [hc, Child.key?] at hk; subst hk
        rw [hc] at this; simp only [Bool.and_eq_true, decide_eq_true_eq] at this; exact this.2
  · intro x
    constructor
    · intro h
      have := hx x (hkey x (by simp [h]))
      rw [h] at this; simpa using this
    · intro h
      by_cases h0 : t.m = 0
      · rw [if_pos h0] at hr
        cases hc : t.root with
        | node i => simp [hc, Child.key?] at h
        | leaf a =>
          simp [hc, Child.key?] at h; subst h
          rw [hc] at hr; simp only [Bool.and_eq_true, decide_eq_true_eq] at hr; exact hr.2
        | nyt =>
          simp [hc, Child.key?] at h; subst h
          rw [hc] at hr; simp only [Bool.and_eq_true, decide_eq_true_eq] at hr; exact hr.2
      · rw [if_neg h0] at hr; simp only [Bool.and_eq_true, decide_eq_true_eq] at hr
        rw [hr.1.1] at h; simp [Child.key?] at h
  · intro a h
    by_contra h4; exact h (habs a (by omega))
  · intro hgt h
    have := hx .nyt (by simp)
    simp [Tree.locOf, h, hgt] at this
  · intro q hq hc
    have := (hs q hq).2; rw [hc] at this; simp only [Bool.and_eq_true, decide_eq_true_eq] at this; exact this.1
  · intro h
    by_cases h0 : t.m = 0
    · rw [if_pos h0, h] at hr; simp only [Bool.and_eq_true, decide_eq_true_eq] at hr; exact hr.1
    · rw [if_neg h0] at hr; simp only [Bool.and_eq_true, decide_eq_true_eq] at hr; rw [hr.1.1] at h; simp at h
  · intro hgt
    refine ⟨by simpa [hgt] using hg, fun a ha h => ?_⟩
    have := hx (.sym a) (by have : a = 0 ∨ a = 1 ∨ a = 2 ∨ a = 3 := by omega
                            rcases this with rfl | rfl | rfl | rfl <;> simp)
    rw [h] at this; simp [hgt] at this
  · intro q a hq hc
    have := (hs q hq).2; rw [hc] at this; simp only [Bool.and_eq_true, decide_eq_true_eq] at this; exact this.1.1
  · intro a h
    by_cases h0 : t.m = 0
    · rw [if_pos h0, h] at hr; simp only [Bool.and_eq_true, decide_eq_true_eq] at hr; exact hr.1.1
    · rw [if_neg h0] at hr; simp only [Bool.and_eq_true, decide_eq_true_eq] at hr; rw [hr.1.1] at h; simp at h
  · exact hm
  · exact hw

theorem treeInv_of {s : State} (hk : s.alphabet = 4) (h : (!s.tree.valid || treeOk s.ctl.acfg.growth s.tree) = true) : TreeInv s := by
  intro hv
  rw [hk]; exact treeOk_of (by simpa [hv] using h)


/-- The outcome is a next state with property `p`, as a witness. -/
theorem next_of {o : Host.Outcome State Fault Refusal} {p : State → Bool} (h : nextHas o p = true) : ∃ t, o = .next t ∧ p t = true := by
  cases o with
  | next t => exact ⟨t, rfl, h⟩
  | fault _ => exact absurd h (by simp [nextHas])
  | refused _ => exact absurd h (by simp [nextHas])

/-- 95 A1, an open encoding stream. -/
def encState : State := coding .acEnc [1, 1, 1, 1] 0 255 0 0

/-- 95 A2, an open decoding stream after its start. -/
def decState : State :=
  let s := coding .acDec [1, 1, 1, 1] 0 255 0 144
  { s with coder := { s.coder with padUsed := 4 }, buf := { s.buf with inBits := bits [1, 0, 0, 1], inPos := 4 } }

/-- 95 T4, last row, before the third symbol: 0 and 1 seen. -/
def grownTree : Tree :=
  { pairs := [⟨0, 1, .nyt, .leaf 1, some (1, false)⟩, ⟨1, 1, .node 0, .leaf 0, none⟩, Pair.reset, Pair.reset]
    m := 2, root := .node 1, rootW := 2
    locSym := [.atSlot 1 true, .atSlot 0 true, .absent, .absent], locNyt := .atSlot 0 false, valid := true }

/-- A state with that tree. -/
def grown (m : Mode) : State := inMode m { s0 with tree := grownTree }

/-- A state with a fault recorded. -/
def faulty (s : State) : State := s.enterFault .illegalCommand 3#32 0x03000000#32

/-- A state with input bits still to read. -/
def reading (s : State) (l : List Nat) : State := { s with buf := { s.buf with inBits := bits l, inPos := 0 } }

/-- A state in which the registers hold these values of `CFG`. -/
def withCfg (k n alpha : Nat) (decayEn growth remove : Bool) : State :=
  { s0 with ctl := { s0.ctl with cfg :=
    { k := BitVec.ofNat 16 k, n := BitVec.ofNat 32 n, alpha := BitVec.ofNat 17 alpha, decayEn := decayEn, growth := growth, remove := remove } } }

/-- A state with these host accesses to come. -/
def withPending (l : List HostAccess) (s : State) : State := { s with host := { s.host with pending := l } }

/-- The invariants hold in states of every mode, with and without a tree. -/
theorem witness_inv : BlockInv s0 ∧ TreeInv s0 ∧ BlockInv encState ∧ TreeInv encState ∧ BlockInv decState ∧ TreeInv decState ∧
    BlockInv growthTree ∧ TreeInv growthTree ∧ BlockInv staticTree ∧ TreeInv staticTree ∧
    BlockInv (grown .ahEnc) ∧ TreeInv (grown .ahEnc) ∧ BlockInv (grown .ahDec) ∧ TreeInv (grown .ahDec) ∧
    BlockInv (grown .idle) ∧ TreeInv (grown .idle) :=
  ⟨blockInv_of (by decide), treeInv_of rfl (by decide), blockInv_of (by decide), treeInv_of rfl (by decide), blockInv_of (by decide),
    treeInv_of rfl (by decide), blockInv_of (by decide), treeInv_of rfl (by decide +kernel), blockInv_of (by decide),
    treeInv_of rfl (by decide +kernel), blockInv_of (by decide), treeInv_of rfl (by decide +kernel), blockInv_of (by decide),
    treeInv_of rfl (by decide +kernel), blockInv_of (by decide), treeInv_of rfl (by decide +kernel)⟩

/-- DecodeOfEncodeIsIdentity, at the least and the greatest operand. -/
theorem witness_wellFormed : WellFormed (.dbgRead 0) ∧ WellFormed (.dbgRead 0xFFFFFF) ∧ WellFormed (.bsPutBit true) := by decide

/-- EncodeOfDecodeIsIdentity, a word of each form. -/
theorem witness_decode : decode 0x16000000#32 = .ok .bsPack ∧ decode 0x12000001#32 = .ok (.bsPutBit true) ∧
    decode 0x14FFFFFF#32 = .ok (.bsGammaPut 0xFFFFFF) ∧ decode 0x41000000#32 = .ok (.ahEncSym 0) := ⟨rfl, rfl, rfl, rfl⟩

/-- IllegalAndReservedWordsFault: the opcodes at the edges of the illegal ranges, and the least and greatest reserved bits. -/
theorem witness_illegal :
    opcodeOf 0x03000000#32 ∉ legalOpcodes ∧ opcodeOf 0x46000000#32 ∉ legalOpcodes ∧ opcodeOf 0xFFFFFFFF#32 ∉ legalOpcodes ∧
    ReservedBitSet 0x00000001#32 ∧ ReservedBitSet 0x45800000#32 ∧ ReservedBitSet 0x12000002#32 ∧ ReservedBitSet 0x18FFFFFF#32 ∧
    s0.ctl.faultCode = .none ∧ (faulty s0).ctl.faultCode ≠ .none ∧
    opcodeOf 0x00000001#32 ∈ faultStateOpcodes ∧ opcodeOf 0x45800000#32 ∉ faultStateOpcodes := by
  unfold ReservedBitSet; decide

/-- StepRunsDecodedCommand: no access, a command, an illegal word, a reserved bit, a read that pops, and a narrow write. -/
theorem witness_step :
    s0.host.pending = [] ∧
    (withPending [.write 0x0C#6 .word 0x31000002#32] encState).host.pending = .write 0x0C#6 .word 0x31000002#32 :: [] ∧
    decode 0x31000002#32 = .ok (.acEncSym 2) ∧ decode 0x3F000000#32 = .error (.illegalOpcode 0x3F) ∧
    decode 0x12000002#32 = .error (.reservedBits 0x12) ∧
    (withPending [.read 0x30#6 .word, .write 0x0C#6 .byte 0#32] s0).host.pending = .read 0x30#6 .word :: [.write 0x0C#6 .byte 0#32] :=
  ⟨rfl, rfl, rfl, rfl, rfl, rfl⟩

/-- OnlyNamedAccessesHaveEffects: a narrow access, a misaligned one, the two reserved offsets, and a read-only register. -/
theorem witness_access : (Width.byte ≠ .word) ∧ (0x0D#6).toNat % 4 ≠ 0 ∧ (0x3F#6).toNat % 4 ≠ 0 ∧ (0x08#6 : BitVec 6) ≠ 0x30#6 ∧
    (0x38#6 : BitVec 6) ∉ [0x04#6, 0x0C#6, 0x1C#6, 0x20#6, 0x24#6, 0x28#6, 0x2C#6] ∧
    (0x00#6 : BitVec 6) ∉ [0x04#6, 0x0C#6, 0x1C#6, 0x20#6, 0x24#6, 0x28#6, 0x2C#6] := by decide

/-- RegistersReadTheirState, ResetLeavesTheTable, ResetMeetsTheInvariants: the least and the greatest build. -/
theorem witness_build : LegalBuild small ∧ LegalBuild Params.default ∧
    LegalBuild { p := 4, kmax := 1, outCap := 0, inCap := 0, byteCap := 0, padLimit := 0, base := 0 } ∧
    LegalBuild { p := 32, kmax := 65535, outCap := 2 ^ 32 - 1, inCap := 2 ^ 32 - 1, byteCap := 2 ^ 32 - 1, padLimit := 2 ^ 32 - 1, base := 64 } :=
  ⟨small_legal, by constructor <;> decide, by constructor <;> decide, by constructor <;> decide⟩

/-- BytePortsPushAndPop: a byte to pop, and none. -/
theorem witness_outBytes : ({ s0 with buf := { s0.buf with outBytes := [0x32#8] } } : State).buf.outBytes = 0x32#8 :: [] ∧
    s0.buf.outBytes = [] := ⟨rfl, rfl⟩

/-- CtrlWriteEnablesOrResets. -/
theorem witness_ctrl : (0x7FFFFFFF#32).getLsbD 31 = false ∧ (0x80000000#32).getLsbD 31 = true := by decide

/-- StepKeepsBlockInvariant, StepKeepsTreeInvariant, StepAlwaysEnds: a step of a command, and of one that changes the tree. -/
theorem witness_keeps :
    (let s := withPending [.write 0x0C#6 .word 0x31000002#32] encState
     BlockInv s ∧ TreeInv s ∧ ∃ t, step s = .next t ∧ (t.model.count == [1, 1, 2, 1]) = true) ∧
    (let s := withPending [.write 0x0C#6 .word 0x41000002#32] (grown .ahEnc)
     BlockInv s ∧ TreeInv s ∧ ∃ t, step s = .next t ∧ (t.tree.m == 3) = true) :=
  ⟨⟨blockInv_of (by decide), treeInv_of rfl (by decide), next_of (by decide +kernel)⟩,
   ⟨blockInv_of (by decide), treeInv_of rfl (by decide +kernel), next_of (by decide +kernel)⟩⟩

/-- InvariantViolationIsUnreachable. -/
theorem witness_noViolation : BlockInv (grown .ahEnc) ∧ TreeInv (grown .ahEnc) ∧ (grown .ahEnc).ctl.faultCode ≠ .invariantViolation ∧
    ∃ t, exec (.ahEncSym 1) (grown .ahEnc) = .next t ∧ (t.ctl.faultCode == .none) = true :=
  ⟨witness_inv.2.2.2.2.2.2.2.2.2.2.1, witness_inv.2.2.2.2.2.2.2.2.2.2.2.1, by decide, next_of (by decide +kernel)⟩

/-- The statements about every command that gives a next state (the rollback, the clearing, the mode, the configuration, the result, and the
frames of the commands named): commands that complete, fault, are dropped, and clear a fault. -/
theorem witness_next :
    (∃ t, exec (.bsPutBit true) s0 = .next t ∧ (t.ctl.faultCode == .none) = true) ∧
    (∃ t, exec .bsGetBit s0 = .next t ∧ (t.ctl.faultCode == .truncatedStream) = true) ∧
    (∃ t, exec .bsPack (faulty s0) = .next t ∧ t.ctl.dropped = true) ∧
    (∃ t, exec .abort (faulty s0) = .next t ∧ (t.ctl.faultCode == .none && (faulty s0).ctl.faultCode != .none) = true) ∧
    (∃ t, exec .acEncStart (faulty s0) = .next t ∧ (t.ctl.faultCode == .none && t.ctl.mode == .acEnc) = true) ∧
    (∃ t, exec .acEncFinish encState = .next t ∧ (t.ctl.mode == .idle) = true) ∧
    (∃ t, exec .modelTotal encState = .next t ∧ t.ctl.resultValid = true) ∧
    opensMode .ahDecStart = some .ahDec ∧ returnsValue .ahDecSym = true ∧ isSerializer .bsUnpack = true :=
  ⟨next_of (by decide +kernel), next_of (by decide +kernel), next_of (by decide +kernel), next_of (by decide +kernel),
    next_of (by decide +kernel), next_of (by decide +kernel), next_of (by decide +kernel), rfl, rfl, rfl⟩

/-- FaultStateDropsCommands: an opcode on each side of the list's edges. -/
theorem witness_dropped : (faulty s0).ctl.faultCode ≠ .none ∧ opcodeOf 0x12000001#32 ∉ faultStateOpcodes ∧
    opcodeOf 0x11000000#32 ∈ faultStateOpcodes ∧ opcodeOf 0x4B000000#32 ∈ faultStateOpcodes ∧ opcodeOf 0x4C000000#32 ∉ faultStateOpcodes ∧
    ∃ t, deliverCommand 0x11000000#32 (faulty s0) = .next t ∧ (t.ctl.dropped == false) = true :=
  ⟨by decide, by decide, by decide, by decide, by decide, next_of (by decide)⟩

/-- LatchChecksInOrder: each check, at the value next to a legal one. -/
theorem witness_latch :
    (s0.ctl.mode = .idle ∧ s0.ctl.faultCode = .none ∧ opensMode .ahEncStart ≠ none) ∧
    ((withCfg 0 0 65536 false true false).ctl.cfg.k.toNat < 1) ∧ (small.kmax < (withCfg 5 0 65536 false true false).ctl.cfg.k.toNat) ∧
    ((withCfg 1 0 0 false true false).ctl.cfg.alpha.toNat < 1 ∧ (withCfg 1 0 0 false true false).ctl.cfg.k.toNat = 1) ∧
    (65536 < (withCfg 4 0 65537 false true false).ctl.cfg.alpha.toNat ∧ (withCfg 4 0 65537 false true false).ctl.cfg.k.toNat = 4) ∧
    (let c := (withCfg 4 0 65535 true true false).ctl.cfg
     c.k.toNat = 4 ∧ c.decayEn = true ∧ c.alpha.toNat = 65535 ∧ c.n.toNat = 0) ∧
    (let c := (withCfg 4 0 65536 true false true).ctl.cfg
     c.k.toNat = 4 ∧ c.alpha.toNat = 65536 ∧ c.remove = true ∧ c.growth = false) := by decide

/-- WrongModeIsSequenceError: each condition. -/
theorem witness_wrongMode : s0.ctl.faultCode = .none ∧ encState.ctl.mode ≠ .idle ∧ s0.model.valid = false ∧ s0.ctl.mode ≠ .acEnc ∧
    encState.ctl.mode ≠ .acDec ∧ decState.ctl.mode ≠ .ahEnc ∧ (grown .ahEnc).ctl.mode ≠ .ahDec ∧ s0.tree.valid = false ∧
    encState.ctl.faultCode = .none ∧ decState.ctl.faultCode = .none ∧ (grown .ahEnc).ctl.faultCode = .none := by decide

/-- SymbolOutsideAlphabetFaults: the first number outside the alphabet, in each state that takes a symbol. -/
theorem witness_symbol :
    ((coding .idle [1, 1, 1, 1] 0 0 0 0).alphabet = 4 ∧ (coding .idle [1, 1, 1, 1] 0 0 0 0).ctl.mode = .idle ∧
      (coding .idle [1, 1, 1, 1] 0 0 0 0).model.valid = true ∧ (coding .idle [1, 1, 1, 1] 0 0 0 0).ctl.faultCode = .none) ∧
    (encState.alphabet = 4 ∧ encState.ctl.mode = .acEnc ∧ encState.ctl.faultCode = .none) ∧
    ((grown .ahEnc).alphabet = 4 ∧ (grown .ahEnc).ctl.mode = .ahEnc ∧ (grown .ahEnc).ctl.faultCode = .none) ∧
    (staticTree.alphabet = 4 ∧ staticTree.ctl.mode = .idle ∧ staticTree.tree.valid = true ∧ staticTree.ctl.faultCode = .none) ∧
    (4 : Nat) ≠ 0xFFFFFF := by decide

/-- NopOnlyClearsResultValid, AbortClosesStreamAndClearsFault, ClearAndLoopbackSetTheBuffers, BitAppendsOrCapacityFault: reserved bits. -/
theorem witness_reserved : (opcodeOf 0x00000001#32 = 0 ∧ immOf 0x00000001#32 ≠ 0) ∧ (opcodeOf 0x01800000#32 = 1 ∧ immOf 0x01800000#32 ≠ 0) ∧
    (opcodeOf 0x10000001#32 = 0x10 ∧ immOf 0x10000001#32 ≠ 0) ∧ (opcodeOf 0x11000001#32 = 0x11 ∧ immOf 0x11000001#32 ≠ 0) ∧
    (opcodeOf 0x19000001#32 = 0x19 ∧ immOf 0x19000001#32 ≠ 0) ∧ (opcodeOf 0x12000002#32 = 0x12 ∧ immOf 0x12000002#32 / 2 ≠ 0) ∧
    (opcodeOf 0x18800000#32 = 0x18 ∧ immOf 0x18800000#32 / 2 ≠ 0) := by decide

/-- DebugReadReturnsSelectedState: a tree and none; the first selector out of range. -/
theorem witness_debug : staticTree.tree.valid = true ∧ s0.tree.valid = false ∧ (18 : Nat) ≤ 18 := by decide

/-- TreeReadsReturnTheTree: the last position and the first beyond it, a leaf, the NYT and a node, a parent and none, and each location. -/
theorem witness_treeReads :
    s0.tree.valid = false ∧ (grown .idle).tree.valid = true ∧ 3 < 2 * grownTree.m ∧ 2 * grownTree.m ≤ 4 ∧
    grownTree.ch 3 = .leaf 0 ∧ grownTree.ch 0 = .nyt ∧ grownTree.ch 2 = .node 0 ∧
    (grownTree.pairAt 0).parent = some (1, false) ∧ (grownTree.pairAt 1).parent = none ∧ 1 < grownTree.m ∧ grownTree.m ≤ 2 ∧
    (grown .idle).alphabet ≤ 4 ∧ 3 < (grown .idle).alphabet ∧
    grownTree.locOf (.sym 3) = .absent ∧ grownTree.locOf (.sym 0) = .atSlot 1 true ∧ grownTree.locOf .nyt = .atSlot 0 false ∧
    growthTree.tree.locOf .nyt = .atRoot ∧ growthTree.tree.valid = true := by decide

/-- ClearAndLoopbackSetTheBuffers, BitAppendsOrCapacityFault, BitReadsOrRangeFault: a full buffer and one with room for one bit. -/
theorem witness_full :
    (withBits (List.replicate 64 1) []).par.outCap ≤ (withBits (List.replicate 64 1) []).buf.outBits.length ∧
    (withBits (List.replicate 63 1) []).buf.outBits.length < (withBits (List.replicate 63 1) []).par.outCap ∧
    (withBits [] (List.replicate 64 1)).par.inCap ≤ (withBits [] (List.replicate 64 1)).buf.inBits.length ∧
    (withBits [] (List.replicate 63 1)).buf.inBits.length < (withBits [] (List.replicate 63 1)).par.inCap ∧
    (withBits (List.replicate 64 1) []).buf.outBits.length ≤ (withBits (List.replicate 64 1) []).par.inCap ∧
    (withBits (List.replicate 65 1) []).par.inCap < (withBits (List.replicate 65 1) []).buf.outBits.length ∧
    (withBits [] [1]).buf.inPos < (withBits [] [1]).buf.inBits.length ∧ s0.buf.inBits.length ≤ s0.buf.inPos ∧
    0 < (withBits [1] []).buf.outBits.length ∧ (withBits [1] []).buf.outBits.length ≤ 1 ∧ (withBits [1] []).ctl.faultCode = .none := by decide

/-- GammaPutAppendsTheCode: 0 and the greatest operand, with just enough room and one bit too few. -/
theorem witness_gammaPut :
    (2 ^ 0 ≤ 0 + 1 ∧ 0 + 1 < 2 ^ (0 + 1)) ∧ (2 ^ 24 ≤ 0xFFFFFF + 1 ∧ 0xFFFFFF + 1 < 2 ^ (24 + 1)) ∧
    (withBits (List.replicate 15 1) []).buf.outBits.length + (2 * 24 + 1) ≤ (withBits (List.replicate 15 1) []).par.outCap ∧
    (withBits (List.replicate 16 1) []).par.outCap < (withBits (List.replicate 16 1) []).buf.outBits.length + (2 * 24 + 1) ∧
    (withBits (List.replicate 16 1) []).ctl.faultCode = .none := by decide

/-- GammaGetReadsTheCode: no zero, 31 zeros, a code cut in its digits, one cut in its zeros, and 32 zeros. -/
theorem witness_gammaGet :
    (withBits [] [1]).buf.inBits.drop 0 = List.replicate 0 false ++ true :: [] ++ [] ∧
    (withBits [] (List.replicate 31 0 ++ 1 :: List.replicate 31 1)).buf.inBits.drop 0
      = List.replicate 31 false ++ true :: List.replicate 31 true ++ [] ∧
    (withBits [] [0, 0, 1, 1]).buf.inBits.drop 0 = List.replicate 2 false ++ true :: [true] ∧
    (withBits [] [0, 0]).buf.inBits.drop 0 = List.replicate 2 false ∧
    (withBits [] (List.replicate 32 0)).buf.inBits.drop 0 = List.replicate 32 false ++ [] := by decide

/-- PackGroupsBitsIntoBytes, UnpackStripsCountAndPadding, UnpackInvertsPack. -/
theorem witness_pack :
    (padCount 4 = 1 ∧ packBytes (bitsMSB 1 3 ++ bits [1, 0, 0, 1] ++ [false]) = [0x32#8]) ∧
    ([0x32#8] : List Byte).flatMap
      (fun v => [v.getLsbD 7, v.getLsbD 6, v.getLsbD 5, v.getLsbD 4, v.getLsbD 3, v.getLsbD 2, v.getLsbD 1, v.getLsbD 0])
        = [Nat.testBit 1 2, Nat.testBit 1 1, Nat.testBit 1 0] ++ bits [1, 0, 0, 1] ++ [false] ∧
    ([0xC0#8] : List Byte).flatMap
      (fun v => [v.getLsbD 7, v.getLsbD 6, v.getLsbD 5, v.getLsbD 4, v.getLsbD 3, v.getLsbD 2, v.getLsbD 1, v.getLsbD 0])
        = [Nat.testBit 6 2, Nat.testBit 6 1, Nat.testBit 6 0] ++ [] ++ List.replicate 5 false ∧
    (withBits [1, 0, 0, 1] []).buf.outBytes = [] ∧
    ∃ t, exec .bsPack (withBits [1, 0, 0, 1] []) = .next t ∧ (t.ctl.faultCode == .none) = true :=
  ⟨by decide, by decide, by decide, rfl, next_of (by decide)⟩

/-- ModelInitSeedsCountsOfOne, the starts: the least and the greatest legal configuration. -/
theorem witness_conf : LegalConf small.kmax (withCfg 1 1 1 true true true).ctl.cfg ∧ LegalConf small.kmax (withCfg 4 0 65536 true false false).ctl.cfg ∧
    LegalConf s0.par.kmax s0.ctl.cfg ∧ TablesOk s0 :=
  ⟨by constructor <;> decide, by constructor <;> decide, by constructor <;> decide, by constructor <;> decide⟩

/-- ModelUpdateCountsTheSymbol, ModelDecayScalesTheCounts, ModelReadsReturnCounts: room for one more, and a full total. -/
theorem witness_model :
    (let s := coding .idle [1, 1, 1, 2 ^ 32 - 5] 0 0 0 0
     s.ctl.faultCode = .none ∧ s.ctl.mode = .idle ∧ s.model.valid = true ∧ 3 < s.alphabet ∧ s.total + 1 ≤ 2 ^ 32 - 1) ∧
    (let s := coding .idle [1, 1, 1, 2 ^ 32 - 4] 0 0 0 0
     s.ctl.faultCode = .none ∧ s.ctl.mode = .idle ∧ s.model.valid = true ∧ 0 < s.alphabet ∧ 2 ^ 32 - 1 < s.total + 1) := by decide

/-- AcDecStartLoadsTheWindow: four bits and four padding zeros; and no input, with one padding zero too few. -/
theorem witness_window :
    (let s := withBits [] [1, 0, 0, 1]
     LegalConf s.par.kmax s.ctl.cfg ∧ s.par.p - ((s.buf.inBits.drop s.buf.inPos).take s.par.p).length ≤ s.par.padLimit) ∧
    (let s := { s0 with par := { small with padLimit := 7 } }
     LegalConf s.par.kmax s.ctl.cfg ∧ s.par.padLimit < s.par.p - ((s.buf.inBits.drop s.buf.inPos).take s.par.p).length) :=
  ⟨⟨by constructor <;> decide, by decide⟩, by constructor <;> decide, by decide⟩

/-- SearchFindsTheOneSymbol: 95 A2. -/
theorem witness_search : BlockInv decState ∧ decState.ctl.mode = .acDec ∧ 0 < decState.total :=
  ⟨witness_inv.2.2.2.2.1, rfl, by decide⟩

/-- AcDecSymReturnsTheSymbol: a total of 0, a region of one integer, padding that just suffices (95 A2) and that runs out, a full total, and a full
symbol counter. -/
theorem witness_acDec :
    (let s := coding .acDec [0, 0, 0, 0] 0 255 0 0
     s.ctl.faultCode = .none ∧ s.ctl.mode = .acDec ∧ s.total = 0) ∧
    (let s := coding .acDec [1, 1000, 0, 0] 0 255 0 0
     BlockInv s ∧ 0 < s.alphabet ∧ InRegion s 0 ∧ ¬ CodesInterval s 0) ∧
    (let s := { decState with coder := { decState.coder with padUsed := 6 } }
     BlockInv s ∧ s.ctl.faultCode = .none ∧ s.ctl.mode = .acDec ∧ 2 < s.alphabet ∧ InRegion s 2 ∧ CodesInterval s 2 ∧
     s.coder.padUsed + ((s.symbolPasses 2).length - ((s.buf.inBits.drop s.buf.inPos).take (s.symbolPasses 2).length).length) ≤ s.par.padLimit ∧
     s.total < 2 ^ 32 - 1 ∧ s.ctl.symCount < 2 ^ 32 - 1) ∧
    (let s := { decState with coder := { decState.coder with padUsed := 7 } }
     BlockInv s ∧ InRegion s 2 ∧ CodesInterval s 2 ∧
     s.par.padLimit <
       s.coder.padUsed + ((s.symbolPasses 2).length - ((s.buf.inBits.drop s.buf.inPos).take (s.symbolPasses 2).length).length)) ∧
    (let s := coding .acDec [1, 1, 1, 2 ^ 32 - 4] 0 255 0 200
     BlockInv s ∧ 3 < s.alphabet ∧ InRegion s 3 ∧ CodesInterval s 3 ∧
     s.coder.padUsed + ((s.symbolPasses 3).length - ((s.buf.inBits.drop s.buf.inPos).take (s.symbolPasses 3).length).length) ≤ s.par.padLimit ∧
     s.total = 2 ^ 32 - 1) ∧
    (let s := { decState with ctl := { decState.ctl with symCount := 2 ^ 32 - 1 } }
     BlockInv s ∧ InRegion s 2 ∧ CodesInterval s 2 ∧ s.total < 2 ^ 32 - 1 ∧ s.ctl.symCount = 2 ^ 32 - 1) := by
  refine ⟨by decide, ⟨blockInv_of (by decide), ?_⟩, ⟨blockInv_of (by decide), ?_⟩, ⟨blockInv_of (by decide), ?_⟩, ⟨blockInv_of (by decide), ?_⟩,
    blockInv_of (by decide), ?_⟩ <;> unfold InRegion CodesInterval <;> decide

/-- AcEncSymCodesTheSymbol: a count of 0 and a total of 0; a bit held back at a full straddle counter, and just below it; a full sink, a full total,
and a full symbol counter; and room for all. -/
theorem witness_acEnc :
    ¬ CodesInterval (coding .acEnc [1, 0, 1, 1] 0 255 0 0) 1 ∧ ¬ CodesInterval (coding .acEnc [0, 0, 0, 0] 0 255 0 0) 0 ∧
    (let s := coding .acEnc [1, 2, 1, 0] 0 255 (2 ^ 32 - 1) 0
     BlockInv s ∧ 1 < s.alphabet ∧ CodesInterval s 1 ∧ 2 ^ 32 - 1 < s.coder.straddle + firstStraddles (s.symbolPasses 1)) ∧
    (let s := coding .acEnc [1, 2, 1, 0] 0 255 (2 ^ 32 - 2) 0
     BlockInv s ∧ CodesInterval s 1 ∧ s.coder.straddle + firstStraddles (s.symbolPasses 1) ≤ 2 ^ 32 - 1 ∧
     s.buf.outBits.length + (passBits s.coder.straddle (s.symbolPasses 1)).length ≤ s.par.outCap ∧
     s.total < 2 ^ 32 - 1 ∧ s.ctl.symCount < 2 ^ 32 - 1) ∧
    (let s := { encState with buf := { s0.buf with outBits := List.replicate 63 true } }
     BlockInv s ∧ 3 < s.alphabet ∧ CodesInterval s 3 ∧ s.coder.straddle + firstStraddles (s.symbolPasses 3) ≤ 2 ^ 32 - 1 ∧
     s.par.outCap < s.buf.outBits.length + (passBits s.coder.straddle (s.symbolPasses 3)).length) ∧
    (let s := coding .acEnc [1, 1, 1, 2 ^ 32 - 4] 0 255 0 0
     BlockInv s ∧ CodesInterval s 3 ∧ s.coder.straddle + firstStraddles (s.symbolPasses 3) ≤ 2 ^ 32 - 1 ∧
     s.buf.outBits.length + (passBits s.coder.straddle (s.symbolPasses 3)).length ≤ s.par.outCap ∧ s.total = 2 ^ 32 - 1) ∧
    (let s := { encState with ctl := { encState.ctl with symCount := 2 ^ 32 - 1 } }
     BlockInv s ∧ CodesInterval s 3 ∧ s.buf.outBits.length + (passBits s.coder.straddle (s.symbolPasses 3)).length ≤ s.par.outCap ∧
     s.total < 2 ^ 32 - 1 ∧ s.ctl.symCount = 2 ^ 32 - 1) ∧
    (BlockInv encState ∧ encState.ctl.faultCode = .none ∧ encState.ctl.mode = .acEnc ∧ 3 < encState.alphabet ∧ CodesInterval encState 3 ∧
      encState.coder.straddle + firstStraddles (encState.symbolPasses 3) ≤ 2 ^ 32 - 1 ∧
      encState.buf.outBits.length + (passBits encState.coder.straddle (encState.symbolPasses 3)).length ≤ encState.par.outCap ∧
      encState.total < 2 ^ 32 - 1 ∧ encState.ctl.symCount < 2 ^ 32 - 1) := by
  refine ⟨?_, ?_, ⟨blockInv_of (by decide), ?_⟩, ⟨blockInv_of (by decide), ?_⟩, ⟨blockInv_of (by decide), ?_⟩, ⟨blockInv_of (by decide), ?_⟩,
    ⟨blockInv_of (by decide), ?_⟩, witness_inv.2.2.1, ?_⟩ <;> unfold CodesInterval <;> decide

/-- 95 A1: symbol 2 of four equal ones, in `[128, 191]`, emits 1 and 0; the region `[64, 191]` holds one bit back. -/
theorem test_symbolPasses :
    encState.symbolPasses 2 = [.high, .low] ∧ passBits 0 [.high, .low] = bits [1, 0] ∧ passOffset 8 [.high, .low] = 512 ∧
    (coding .acEnc [1, 2, 1, 0] 0 255 0 0).symbolPasses 1 = [.middle] ∧ passBits 0 [.middle, .high] = bits [1, 0] := by decide

/-- AcEncFinishFlushesAndCloses: just enough room, one bit too few, and a full straddle counter. -/
theorem witness_finish :
    (let s := { coding .acEnc [1, 1, 1, 1] 0 255 2 0 with buf := { s0.buf with outBits := List.replicate 60 true } }
     s.ctl.mode = .acEnc ∧ s.coder.straddle ≠ 2 ^ 32 - 1 ∧ s.buf.outBits.length + (s.coder.straddle + 2) ≤ s.par.outCap) ∧
    (let s := { coding .acEnc [1, 1, 1, 1] 0 255 2 0 with buf := { s0.buf with outBits := List.replicate 61 true } }
     s.ctl.mode = .acEnc ∧ s.coder.straddle ≠ 2 ^ 32 - 1 ∧ s.par.outCap < s.buf.outBits.length + (s.coder.straddle + 2)) ∧
    (coding .acEnc [1, 1, 1, 1] 0 255 (2 ^ 32 - 1) 0).coder.straddle = 2 ^ 32 - 1 := by decide

/-- ArithmeticCodersStayInLockstep: 95 A1 and A2, the same symbol coded and decoded. -/
theorem witness_acLockstep :
    encState.par = decState.par ∧ encState.coder.lo = decState.coder.lo ∧ encState.coder.hi = decState.coder.hi ∧
    encState.model = decState.model ∧ encState.ctl.acfg = decState.ctl.acfg ∧ encState.ctl.symCount = decState.ctl.symCount ∧
    encState.ctl.faultCode = .none ∧ decState.ctl.faultCode = .none ∧
    (∃ te, exec (.acEncSym 2) encState = .next te ∧ (te.ctl.faultCode == .none) = true) ∧
    (∃ td, exec .acDecSym decState = .next td ∧ (td.ctl.faultCode == .none && td.ctl.result == BitVec.ofNat 32 2) = true) :=
  ⟨rfl, rfl, rfl, rfl, rfl, rfl, rfl, rfl, next_of (by decide +kernel), next_of (by decide +kernel)⟩

/-- A legal tree whose root weight is full. -/
def fullTree : Tree :=
  { grownTree with
    pairs := [⟨0, 1, .nyt, .leaf 1, some (1, false)⟩, ⟨1, 2 ^ 32 - 2, .node 0, .leaf 0, none⟩, Pair.reset, Pair.reset]
    rootW := 2 ^ 32 - 1 }

/-- AhEncSymCodesTheSymbol: a symbol of the tree and a new one, with just enough room and one bit too few; a full root and a full symbol counter; a
decay that follows, one that is not due, and one that is inactive. -/
theorem witness_ahEnc :
    BlockInv (grown .ahEnc) ∧ TreeInv (grown .ahEnc) ∧ (grown .ahEnc).ctl.faultCode = .none ∧ (grown .ahEnc).ctl.mode = .ahEnc ∧
    (3 < (grown .ahEnc).alphabet ∧ grownTree.rootW < 2 ^ 32 - 1 ∧ (grown .ahEnc).ctl.symCount < 2 ^ 32 - 1) ∧
    Codeword (grown .ahEnc) 1 (bits [0, 1]) ∧ Codeword (grown .ahEnc) 3 (bits [0, 0, 1, 1]) ∧
    (List.replicate 60 true).length + (bits [0, 0, 1, 1]).length ≤ small.outCap ∧
    (let s := { grown .ahEnc with buf := { s0.buf with outBits := List.replicate 61 true } }
     BlockInv s ∧ TreeInv s ∧ Codeword s 3 (bits [0, 0, 1, 1]) ∧ s.par.outCap < s.buf.outBits.length + (bits [0, 0, 1, 1]).length) ∧
    (let s := { grown .ahEnc with tree := fullTree }
     BlockInv s ∧ TreeInv s ∧ Codeword s 1 (bits [0, 1]) ∧ s.tree.rootW = 2 ^ 32 - 1) ∧
    (let s := { grown .ahEnc with ctl := { (grown .ahEnc).ctl with symCount := 2 ^ 32 - 1 } }
     BlockInv s ∧ TreeInv s ∧ s.ctl.symCount = 2 ^ 32 - 1) ∧
    (let decaying := fun n alpha : Nat => { grown .ahEnc with ctl := { (grown .ahEnc).ctl with acfg :=
      { s0.ctl.acfg with n := BitVec.ofNat 32 n, alpha := BitVec.ofNat 17 alpha, decayEn := true } } }
     BlockInv (decaying 1 32768) ∧ TreeInv (decaying 1 32768) ∧ DecayFollows (decaying 1 32768) ∧
     BlockInv (decaying 2 32768) ∧ ¬ DecayFollows (decaying 2 32768) ∧ BlockInv (decaying 1 65536) ∧ ¬ DecayFollows (decaying 1 65536)) := by
  refine ⟨witness_inv.2.2.2.2.2.2.2.2.2.2.1, witness_inv.2.2.2.2.2.2.2.2.2.2.2.1, rfl, rfl, by decide, .inl ⟨by decide, rfl⟩,
    .inr ⟨by decide, bits [0, 0], rfl, rfl⟩, by decide,
    ⟨blockInv_of (by decide), treeInv_of rfl (by decide +kernel), .inr ⟨by decide, bits [0, 0], rfl, rfl⟩, by decide⟩,
    ⟨blockInv_of (by decide), treeInv_of rfl (by decide +kernel), .inl ⟨by decide, rfl⟩, rfl⟩,
    ⟨blockInv_of (by decide), treeInv_of rfl (by decide +kernel), rfl⟩,
    blockInv_of (by decide), treeInv_of rfl (by decide +kernel), ?_, blockInv_of (by decide), ?_, blockInv_of (by decide), ?_⟩ <;>
  unfold DecayFollows <;> decide

/-- A tree over four symbols that lacks symbol 3 is one over three. -/
theorem treeOk_three {t : Tree} (h : TreeOk 4 true t) (h3 : t.locOf (.sym 3) = .absent) (hm : t.m ≤ 3) : TreeOk 3 true t :=
  { h with
    in_alphabet := fun a ha => by
      have := h.in_alphabet a ha
      have : a ≠ 3 := by rintro rfl; exact ha h3
      omega
    all_present := nofun
    size := hm }

/-- AhDecSymReturnsTheSymbol: 95 T4 decoded, an old symbol and a new one; a full root and a full symbol counter; an input that ends inside the NYT's
path and inside the raw code; the raw code of a symbol of the tree; and raw code 3 over an alphabet of three. -/
theorem witness_ahDec :
    (let s := reading (grown .ahDec) [0, 0, 1, 0, 1]
     BlockInv s ∧ TreeInv s ∧ s.ctl.faultCode = .none ∧ s.ctl.mode = .ahDec ∧ 2 < s.alphabet ∧ s.tree.rootW < 2 ^ 32 - 1 ∧
     s.ctl.symCount < 2 ^ 32 - 1 ∧ Codeword s 2 (bits [0, 0, 1, 0]) ∧ s.buf.inBits.drop s.buf.inPos = bits [0, 0, 1, 0] ++ bits [1]) ∧
    (let s := reading (grown .ahDec) [1]
     BlockInv s ∧ TreeInv s ∧ Codeword s 0 (bits [1]) ∧ s.buf.inBits.drop s.buf.inPos = bits [1] ++ []) ∧
    (let s := reading { grown .ahDec with tree := fullTree } [1]
     BlockInv s ∧ TreeInv s ∧ Codeword s 0 (bits [1]) ∧ s.buf.inBits.drop s.buf.inPos = bits [1] ++ [] ∧ s.tree.rootW = 2 ^ 32 - 1) ∧
    (let s := reading { grown .ahDec with ctl := { (grown .ahDec).ctl with symCount := 2 ^ 32 - 1 } } [1]
     BlockInv s ∧ TreeInv s ∧ Codeword s 0 (bits [1]) ∧ s.ctl.symCount = 2 ^ 32 - 1) ∧
    (let s := reading (grown .ahDec) [0]
     BlockInv s ∧ TreeInv s ∧ s.tree.locOf .nyt ≠ .absent ∧ s.tree.pathBits .nyt = .ok (bits [0, 0]) ∧
     bits [0, 0] = s.buf.inBits.drop s.buf.inPos ++ bits [0] ∧ bits [0] ≠ []) ∧
    (let s := reading (grown .ahDec) [0, 0, 1]
     BlockInv s ∧ TreeInv s ∧ s.tree.locNyt ≠ .absent ∧ s.buf.inBits.drop s.buf.inPos = bits [0, 0] ++ bits [1] ∧
     (bits [1]).length < rawWidth s.alphabet) ∧
    (let s := reading (grown .ahDec) [0, 0, 0, 1]
     BlockInv s ∧ TreeInv s ∧ s.buf.inBits.drop s.buf.inPos = bits [0, 0] ++ bits [0, 1] ++ [] ∧
     (bits [0, 1]).length = rawWidth s.alphabet ∧ bitsValue (bits [0, 1]) < s.alphabet ∧ s.tree.locOf (.sym (bitsValue (bits [0, 1]))) ≠ .absent) ∧
    (let s := reading { grown .ahDec with ctl := { (grown .ahDec).ctl with acfg := { s0.ctl.acfg with k := 3#16 } } } [0, 0, 1, 1]
     BlockInv s ∧ TreeInv s ∧ s.buf.inBits.drop s.buf.inPos = bits [0, 0] ++ bits [1, 1] ++ [] ∧
     (bits [1, 1]).length = rawWidth s.alphabet ∧ s.alphabet ≤ bitsValue (bits [1, 1])) :=
  ⟨⟨blockInv_of (by decide), treeInv_of rfl (by decide +kernel), rfl, rfl, by decide, by decide, by decide,
    .inr ⟨by decide, bits [0, 0], rfl, rfl⟩, by decide⟩,
   ⟨blockInv_of (by decide), treeInv_of rfl (by decide +kernel), .inl ⟨by decide, rfl⟩, by decide⟩,
   ⟨blockInv_of (by decide), treeInv_of rfl (by decide +kernel), .inl ⟨by decide, rfl⟩, by decide, rfl⟩,
   ⟨blockInv_of (by decide), treeInv_of rfl (by decide +kernel), .inl ⟨by decide, rfl⟩, rfl⟩,
   ⟨blockInv_of (by decide), treeInv_of rfl (by decide +kernel), by decide, rfl, by decide, by decide⟩,
   ⟨blockInv_of (by decide), treeInv_of rfl (by decide +kernel), by decide, by decide, by decide⟩,
   ⟨blockInv_of (by decide), treeInv_of rfl (by decide +kernel), by decide, by decide, by decide, by decide⟩,
   ⟨blockInv_of (by decide), fun _ => treeOk_three (witness_inv.2.2.2.2.2.2.2.2.2.2.2.2.2.1 rfl) rfl (by decide), by decide, by decide, by decide⟩⟩

/-- 42 R111, 95 T1: the nodes of the static tree stand in the rebuild's order; exchanging the first two breaks it. -/
theorem test_rebuildOrder : RebuildOrder tree4 ∧
    ¬ RebuildOrder { tree4 with pairs := [⟨1, 1, .leaf 1, .leaf 0, some (2, false)⟩, ⟨1, 1, .leaf 2, .leaf 3, some (2, true)⟩,
      ⟨2, 2, .node 0, .node 1, none⟩, Pair.reset] } := by
  unfold RebuildOrder Before
  refine ⟨fun p q hpq hq => ?_, fun h => absurd (h 0 1 (by decide) (by decide)) (by decide)⟩
  have : ∀ q, q < 6 → ∀ p, p < q → tree4.wt p < tree4.wt q ∨ (tree4.wt p = tree4.wt q ∧ ((tree4.ch p).rank.1 < (tree4.ch q).rank.1 ∨
    ((tree4.ch p).rank.1 = (tree4.ch q).rank.1 ∧ (tree4.ch p).rank.2 < (tree4.ch q).rank.2))) := by decide
  exact this q hq p hpq

/-- 42 R107, 95 T4: the leader of symbol 1 is the root pair's second slot; its ancestor, the first slot, is none. -/
theorem test_leader : IsLeader grownTree 1 3 ∧ ¬ IsLeader grownTree 1 2 := by
  have h : ∀ p, p < 4 → ¬ Above grownTree 1 p ∨ p = 2 := by
    intro p hp
    by_cases e : p = 2
    · exact .inr e
    · refine .inl fun ha => ?_
      cases ha with
      | parent h1 =>
        have : p = 0 ∨ p = 1 ∨ p = 3 := by omega
        rcases this with rfl | rfl | rfl <;> exact absurd h1 (by decide)
      | @up _ r _ h1 h2 =>
        have h3 : r / 2 = 1 := by have : some (1, false) = some (r / 2, slotOf r) := h1; simp at this; exact this.1.symm
        cases h2 with
        | parent h4 => rw [h3] at h4; exact absurd h4 (by simp [grownTree, Tree.pairAt])
        | up h4 _ => rw [h3] at h4; exact absurd h4 (by simp [grownTree, Tree.pairAt])
  refine ⟨⟨by decide, by decide, ?_, fun p hp _ _ => ?_⟩, fun hl => hl.2.2.1 (.parent (by decide))⟩
  · rcases h 3 (by decide) with h | h
    · exact h
    · exact absurd h (by decide)
  · have : p < 4 := hp
    omega

/-- HuffmanCodersStayInLockstep: an encoder and a decoder that hold the same tree. -/
theorem witness_ahLockstep :
    (let e := grown .ahEnc
     let d := reading (grown .ahDec) [0, 0, 1, 0, 1]
     BlockInv e ∧ TreeInv e ∧ e.par = d.par ∧ e.tree = d.tree ∧ e.ctl.acfg = d.ctl.acfg ∧ e.ctl.symCount = d.ctl.symCount ∧
     e.ctl.faultCode = .none ∧ d.ctl.faultCode = .none ∧ d.ctl.mode = .ahDec ∧
     (∃ te, exec (.ahEncSym 2) e = .next te ∧
       (te.ctl.faultCode == .none && te.buf.outBits == e.buf.outBits ++ bits [0, 0, 1, 0]) = true) ∧
     d.buf.inBits.drop d.buf.inPos = bits [0, 0, 1, 0] ++ bits [1]) :=
  ⟨witness_inv.2.2.2.2.2.2.2.2.2.2.1, witness_inv.2.2.2.2.2.2.2.2.2.2.2.1, rfl, rfl, rfl, rfl, rfl, rfl, rfl,
    next_of (by decide +kernel), by decide⟩

/-- AhStartsBuildTheInitialTree: growth, static, and the smallest static alphabet. -/
theorem witness_ahStart : LegalBuild s0.par ∧ TablesOk s0 ∧ LegalConf s0.par.kmax s0.ctl.cfg ∧ s0.ctl.cfg.growth = true ∧
    (let s := withCfg 1 0 65536 false false false
     TablesOk s ∧ LegalConf s.par.kmax s.ctl.cfg ∧ s.ctl.cfg.growth = false ∧ s.ctl.cfg.remove = false ∧ 0 < s.ctl.cfg.k.toNat) :=
  ⟨small_legal, by constructor <;> decide, by constructor <;> decide, rfl, by constructor <;> decide, by constructor <;> decide, rfl, rfl,
    by decide⟩

/-- AhUpdateCountsTheLeaf: a symbol of the tree, one that is not, and a full root. -/
theorem witness_ahUpdate :
    BlockInv (grown .idle) ∧ TreeInv (grown .idle) ∧ (grown .idle).ctl.faultCode = .none ∧ (grown .idle).ctl.mode = .idle ∧
    (grown .idle).tree.valid = true ∧ 3 < (grown .idle).alphabet ∧ grownTree.locOf (.sym 3) = .absent ∧
    leafWeight grownTree (.sym 0) = some 1 ∧ grownTree.rootW < 2 ^ 32 - 1 ∧
    (let s := { grown .idle with tree := fullTree }
     BlockInv s ∧ TreeInv s ∧ s.tree.locOf (.sym 0) ≠ .absent ∧ s.tree.rootW = 2 ^ 32 - 1) :=
  ⟨witness_inv.2.2.2.2.2.2.2.2.2.2.2.2.2.2.1, witness_inv.2.2.2.2.2.2.2.2.2.2.2.2.2.2.2, rfl, rfl, rfl, by decide, by decide, by decide,
    by decide, blockInv_of (by decide), treeInv_of rfl (by decide +kernel), by decide, by decide⟩

/-- AhDecayScalesTheLeaves: with and without eviction. -/
theorem witness_ahDecay :
    (let s := grown .idle
     BlockInv s ∧ TreeInv s ∧ s.ctl.faultCode = .none ∧ s.ctl.mode = .idle ∧ s.tree.valid = true ∧ s.ctl.acfg.remove = false) ∧
    (let s := grown .idle
     let s := { s with ctl := { s.ctl with acfg := { s.ctl.acfg with alpha := 32768#17, remove := true } } }
     BlockInv s ∧ TreeInv s ∧ s.ctl.acfg.remove = true) :=
  ⟨⟨witness_inv.2.2.2.2.2.2.2.2.2.2.2.2.2.2.1, witness_inv.2.2.2.2.2.2.2.2.2.2.2.2.2.2.2, rfl, rfl, rfl, rfl⟩,
    blockInv_of (by decide), treeInv_of rfl (by decide +kernel), rfl⟩

end Sys2Proof.Tests
end

section
/-! PROOFS. Every step keeps the block invariant: one lemma for each kind of host access, from what a completed command writes
(`writes_inv`), and the statement from them. -/

namespace Sys2Proof.Machine

/-- The invariant reads of the control state the mode, the latched configuration and the symbol counter only, and nothing of the host's part. -/
theorem BlockInv.of_control {s t : State} (h : BlockInv s) (ht : t = { s with ctl := t.ctl, host := t.host })
    (hmode : t.ctl.mode = s.ctl.mode) (hacfg : t.ctl.acfg = s.ctl.acfg) (hsym : t.ctl.symCount = s.ctl.symCount) : BlockInv t := by
  rw [ht]
  exact SameCore.inv_same (s := s) ⟨rfl, rfl, rfl, rfl, rfl, rfl, rfl, hmode, hacfg, hsym⟩ h rfl rfl

/-- The host's part is not the block's (log entry 3). -/
theorem BlockInv.withHost {s : State} (h : BlockInv s) (x : HostPort) : BlockInv (s.withHost x) := h.of_control rfl rfl rfl rfl

/-- The reset configuration passes the latch in every legal build (45 R137, 70 R164). -/
theorem legalConf_reset {par : Params} (h : LegalBuild par) : LegalConf par.kmax (Conf.reset par.kmax) := by
  have hk : (Conf.reset par.kmax).k.toNat = par.kmax := by
    have := h.kmax_max
    simp only [Conf.reset, BitVec.toNat_ofNat]
    omega
  have halpha : (Conf.reset par.kmax).alpha.toNat = Config.alphaOne := rfl
  exact ⟨h.kmax_min.trans_eq hk.symm, hk.le, halpha ▸ by decide, halpha.le, nofun⟩

/-- Reset of a legal build meets the block invariant (70 R164). -/
theorem blockInv_resetWith {par : Params} (h : LegalBuild par) : BlockInv (State.resetWith par) where
  build := h
  tables := ⟨List.length_replicate, List.length_replicate, List.length_replicate⟩
  widths := ⟨Nat.zero_le _, Nat.zero_le _, Nat.zero_le _, Nat.zero_le _, Nat.zero_le _, Nat.zero_le _, nofun, Nat.zero_le _, Nat.zero_le _,
    Nat.zero_le _, Nat.zero_le _, Nat.zero_le _⟩
  acfg := legalConf_reset h
  interval := nofun
  window := nofun
  one_valid := nofun
  model_open := nofun
  tree_open := nofun
  tree_conf := nofun

/-! ### Commands -/

/-- A command that is dropped, completes or faults keeps the invariant (60 R149, R150, R152). -/
theorem exec_inv {i : Instr} {s t : State} (h : BlockInv s) (he : exec i s = .next t) : BlockInv t := by
  rcases exec_outcomes he with rfl | ⟨v, u, hw, -, rfl⟩ | ⟨f, info, -, rfl⟩
  case inl => exact h.of_control rfl rfl rfl rfl
  case inr.inl => exact complete_inv (writes_inv h hw) v
  case inr.inr => exact h.of_control rfl rfl rfl rfl

/-- A word that is no command is dropped or faults (30 R70, R72). -/
theorem rejectCommand_inv {s : State} (h : BlockInv s) (e : DecodeError) (c : Word) : BlockInv (rejectCommand e c s) := by
  unfold rejectCommand
  split
  · exact h.of_control rfl rfl rfl rfl
  · exact h.of_control rfl rfl rfl rfl

theorem deliverCommand_inv {c : Word} {s t : State} (h : BlockInv s) (hd : deliverCommand c s = .next t) : BlockInv t := by
  unfold deliverCommand at hd
  split at hd
  · exact exec_inv h hd
  · cases hd
    exact rejectCommand_inv h _ _

/-! ### The register window -/

/-- A read of `OUT_BYTE` leaves the FIFO shorter, or as it is (20 R56). -/
theorem popOutByte_inv {s : State} (h : BlockInv s) : BlockInv (popOutByte s).2 := by
  unfold popOutByte
  split
  case h_1 b rest hout =>
    have hw := h.widths
    have hlen : rest.length ≤ s.par.byteCap := by
      have := hw.outBytes_max
      rw [hout, List.length_cons] at this
      omega
    exact h.buffers hw.pad_max hw.outBits_max hw.inBits_max hw.inPos_max hlen hw.inBytes_max
  case h_2 => exact h

/-- Every read but that of `OUT_BYTE` leaves the block as it is (20 R57). -/
theorem readRegister_inv {s : State} (h : BlockInv s) (r : Register) : BlockInv (readRegister r s).2 := by
  cases r
  case outByte => exact popOutByte_inv h
  all_goals exact h

theorem hostRead_inv {s : State} (h : BlockInv s) (off : BitVec 6) (w : Width) : BlockInv (hostRead off w s).2 := by
  unfold hostRead
  split
  · exact readRegister_inv h _
  · exact h

/-- A write of `IN_BYTE` fills the FIFO up to its capacity, then sets `DROPPED` (20 R55). -/
theorem pushInByte_inv {s : State} (h : BlockInv s) (v : Word) : BlockInv (pushInByte v s) := by
  unfold pushInByte
  split
  case isTrue hroom =>
    have hw := h.widths
    exact h.buffers hw.pad_max hw.outBits_max hw.inBits_max hw.inPos_max hw.outBytes_max (by simpa using hroom)
  case isFalse => exact h.of_control rfl rfl rfl rfl

/-- A write of `CTRL` sets `IRQ_EN`, and resets the block where bit 31 is set (10 R43, 70 R165). -/
theorem writeCtrl_inv {s : State} (h : BlockInv s) (v : Word) : BlockInv (writeCtrl v s) := by
  unfold writeCtrl
  split
  · exact (blockInv_resetWith h.build).withHost _
  · exact h.of_control rfl rfl rfl rfl

theorem writeRegister_inv {s : State} (h : BlockInv s) (r : Register) (v : Word) : BlockInv (writeRegister r v s) := by
  cases r
  case ctrl => exact writeCtrl_inv h v
  case inByte => exact pushInByte_inv h v
  case cfgK | cfgN | cfgAlpha | cfgFlags => exact h.of_control rfl rfl rfl rfl
  case id | status | cmd | result | faultInfo | faultCmd | outByte | param => exact h

/-! ### The step -/

theorem applyAccess_inv {a : HostAccess} {s t : State} (h : BlockInv s) (ha : applyAccess a s = .next t) : BlockInv t := by
  cases a with
  | read off w =>
    cases ha
    exact (hostRead_inv h off w).withHost _
  | write off w v =>
    simp only [applyAccess] at ha
    split at ha
    · cases ha
      exact h
    · exact deliverCommand_inv h ha
    · cases ha
      exact writeRegister_inv h _ v

theorem step_inv {s t : State} (h : BlockInv s) (hs : step s = .next t) : BlockInv t := by
  unfold step nextAccess at hs
  split at hs
  · cases hs
    exact h
  · exact applyAccess_inv (h.withHost _) hs

/-- Settles O14: the next pending access is a read, a register write or a command, and each keeps the invariant; for a command
the argument is `writes_inv`, on what it writes when it completes. -/
theorem stepKeepsBlockInvariant : Obligations.StepKeepsBlockInvariant := fun _ _ h hs => step_inv h hs

end Sys2Proof.Machine
end

section
/-! PROOFS. The state seen and written by the host, and what a command may write of the control state: `STATUS` field by field, the `CFG_*` and
`CTRL` writes, and MODE, the configuration and the result after a command, from `exec_outcomes` and `writes_ctl`. -/

namespace Sys2Proof.Machine

/-! ### The register window -/

/-- A 32-bit write at the offset of a register other than `CMD` is the write of that register (20 R49, R51). -/
theorem applyAccess_write_register {off : BitVec 6} {r : Register} (hoff : registerAt off = some r) (hr : r ≠ .cmd) (s : State) (v : Word) :
    applyAccess (.write off .word v) s = .next (writeRegister r v s) := by
  simp only [applyAccess, registerOf, if_true, hoff]

theorem faulted_eq_decide (s : State) : s.faulted = decide (s.ctl.faultCode ≠ .none) := by
  unfold State.faulted
  cases s.ctl.faultCode <;> rfl

/-- The flags of `STATUS` (10 R44). -/
theorem statusWord_flags (s : State) :
    s.statusWord.getLsbD 1 = s.faulted ∧ s.statusWord.getLsbD 2 = s.ctl.resultValid ∧ s.statusWord.getLsbD 3 = s.ctl.dropped ∧
    s.statusWord.getLsbD 7 = s.model.valid ∧ s.statusWord.getLsbD 8 = s.tree.valid ∧ s.statusWord.getLsbD 9 = s.irq := by
  simp [State.statusWord, BitVec.getLsbD_append, -BitVec.getLsbD_eq_getElem, -Nat.reduceAdd]

/-- The fields `MODE` and `FAULT_CODE` of `STATUS` (10 R44). -/
theorem statusWord_codes (s : State) :
    s.statusWord.extractLsb' 4 3 = s.ctl.mode.code ∧ s.statusWord.extractLsb' 16 4 = s.ctl.faultCode.code := by
  simp [State.statusWord, BitVec.extractLsb'_append_eq_ite, -Nat.reduceAdd]

/-- `BUSY` and the reserved fields of `STATUS` (10 R44, 70 R172). -/
theorem statusWord_zeros (s : State) :
    s.statusWord.extractLsb' 0 1 = 0#1 ∧ s.statusWord.extractLsb' 10 6 = 0#6 ∧ s.statusWord.extractLsb' 20 12 = 0#12 := by
  simp [State.statusWord, BitVec.extractLsb'_append_eq_ite, -Nat.reduceAdd]

/-- Settles O8: the status word is its fields side by side, so each is read back at its own offset. -/
theorem statusShowsItsFields : Obligations.StatusShowsItsFields := by
  intro s
  obtain ⟨hfault, hvalid, hdropped, hmodel, htree, hirq⟩ := statusWord_flags s
  obtain ⟨hmode, hcode⟩ := statusWord_codes s
  obtain ⟨hbusy, hlow, hhigh⟩ := statusWord_zeros s
  have hlevel : s.irq = (decide (s.ctl.faultCode ≠ .none) && s.ctl.irqEn) := by rw [State.irq, faulted_eq_decide]
  exact ⟨rfl, applyAccess_write_register (r := .status) rfl nofun s, hbusy, hfault.trans (faulted_eq_decide s), hvalid, hdropped, hmode, hmodel, htree,
    hirq.trans hlevel, hirq.symm, hlow, hcode, hhigh⟩

/-- Settles O10: each `CFG_*` write is its register's write, which stores the low bits of the word. -/
theorem configWritesStoreFields : Obligations.ConfigWritesStoreFields := by
  intro s v
  rw [applyAccess_write_register (r := .cfgK) rfl nofun, applyAccess_write_register (r := .cfgN) rfl nofun,
    applyAccess_write_register (r := .cfgAlpha) rfl nofun, applyAccess_write_register (r := .cfgFlags) rfl nofun,
    ← BitVec.setWidth_eq_extractLsb' (by decide : 16 ≤ 32), ← BitVec.setWidth_eq_extractLsb' (by decide : 17 ≤ 32)]
  exact ⟨rfl, rfl, rfl, rfl⟩

/-- A write of `CTRL` resets the block or sets `IRQ_EN`: what it wrote before a reset is reset with the rest (10 R43, 70 R165). -/
theorem writeCtrl_eq (v : Word) (s : State) :
    writeCtrl v s = if v.getLsbD 31 then softReset s else s.withCtl { s.ctl with irqEn := v.getLsbD 0 } := rfl

/-- Settles O11: the two cases of bit 31. -/
theorem ctrlWriteEnablesOrResets : Obligations.CtrlWriteEnablesOrResets := by
  intro s v
  rw [applyAccess_write_register (r := .ctrl) rfl nofun, writeRegister, writeCtrl_eq]
  constructor
  · intro hclear
    rw [hclear]
    rfl
  · intro hset
    rw [hset]
    rfl

/-! ### Commands -/

/-- Settles O21: a dropped or faulting command keeps MODE, and `writes_ctl` has the table for one that completes. -/
theorem modeChangesOnlyByStartAbortFinish : Obligations.ModeChangesOnlyByStartAbortFinish := by
  intro i s t h
  rcases exec_outcomes h with rfl | ⟨v, u, hw, -, rfl⟩ | ⟨f, info, -, rfl⟩
  case inl => exact .inl rfl
  case inr.inl =>
    obtain ⟨-, -, -, -, -, -, hmode, -⟩ := writes_ctl hw
    rwa [complete_ctl_mode]
  case inr.inr => exact .inl rfl

/-- Settles O22: a command that completes changes `ACFG` only by a latch, and what a latch accepts is legal (`legal_of`). -/
theorem commandsKeepTheConfiguration : Obligations.CommandsKeepTheConfiguration := by
  intro i s t h
  rcases exec_outcomes h with rfl | ⟨v, u, hw, -, rfl⟩ | ⟨f, info, -, rfl⟩
  case inl => exact ⟨rfl, rfl, rfl, rfl, .inl rfl⟩
  case inr.inl =>
    obtain ⟨hpar, hhost, hcfg, hirq, -, -, -, hacfg⟩ := writes_ctl hw
    simp only [complete_ctl_cfg, complete_ctl_irqEn, complete_par, complete_host, complete_ctl_acfg]
    exact ⟨hcfg, hirq, hpar, hhost, hacfg.imp_right fun ⟨hi, heq, _, hlatch⟩ => ⟨hi, heq, (legal_of hlatch).1⟩⟩
  case inr.inr => exact ⟨rfl, rfl, rfl, rfl, .inl rfl⟩

/-- Settles O23: a command that completes ends with a value exactly if it is one that returns a value, and `complete` writes `RESULT` only
with a value. -/
theorem resultValidMarksReturnedValues : Obligations.ResultValidMarksReturnedValues := by
  intro i s t h
  rcases exec_outcomes h with rfl | ⟨v, u, hw, hv, rfl⟩ | ⟨f, info, -, rfl⟩
  case inl => exact ⟨.inl ⟨rfl, rfl⟩, fun _ => .inr (.inl rfl)⟩
  case inr.inl =>
    cases v with
    | none =>
      obtain ⟨-, -, -, -, hresult, -⟩ := writes_ctl hw
      exact ⟨.inl ⟨rfl, hresult⟩, fun hr => absurd (hv.trans hr) Bool.false_ne_true⟩
    | some w => exact ⟨.inr ⟨rfl, hv.symm⟩, fun _ => .inl rfl⟩
  case inr.inr => exact ⟨.inl ⟨rfl, rfl⟩, fun _ => .inr (.inr ⟨f, info, rfl⟩)⟩

end Sys2Proof.Machine
end

section
/-! PROOFS. The register window: which register an access reaches, what a read and a write of it do, and the step that applies the
host's next access. -/

namespace Sys2Proof.Machine

/-! ### The register an access reaches -/

/-- An offset is a register's only if it is the one of 20 R49. -/
theorem offset_of_registerAt {off : BitVec 6} {r : Register} (h : registerAt off = some r) : off = r.offset := by
  unfold registerAt at h
  split at h <;> cases h <;> exact BitVec.eq_of_toNat_eq ‹_›

/-- Only a 32-bit access at a register's own offset reaches it (20 R51). -/
theorem registerOf_some {off : BitVec 6} {w : Width} {r : Register} (h : registerOf off w = some r) : w = .word ∧ off = r.offset := by
  unfold registerOf at h
  split at h
  case isTrue hw => exact ⟨hw, offset_of_registerAt h⟩
  case isFalse => cases h

/-- Every register's offset is aligned, and none is at a reserved offset (20 R49, R58). -/
theorem Register.offset_aligned (r : Register) : r.offset.toNat % 4 = 0 ∧ r.offset ≠ 0x38#6 ∧ r.offset ≠ 0x3C#6 := by
  cases r <;> decide

/-- A narrow or misaligned access, or one at a reserved offset, reaches no register (20 R51, R58). -/
theorem registerOf_ignored {off : BitVec 6} {w : Width} (h : w ≠ .word ∨ off.toNat % 4 ≠ 0 ∨ off = 0x38#6 ∨ off = 0x3C#6) :
    registerOf off w = none := by
  cases hreg : registerOf off w with
  | none => rfl
  | some r =>
    obtain ⟨hword, rfl⟩ := registerOf_some hreg
    obtain ⟨haligned, h38, h3C⟩ := r.offset_aligned
    rcases h with hw | hmis | hres | hres
    · exact absurd hword hw
    · exact absurd haligned hmis
    · exact absurd hres h38
    · exact absurd hres h3C

/-! ### Reads -/

theorem hostRead_none {off : BitVec 6} {w : Width} (h : registerOf off w = none) (s : State) : hostRead off w s = (0#32, s) := by
  simp only [hostRead, h]

theorem hostRead_some {off : BitVec 6} {w : Width} {r : Register} (h : registerOf off w = some r) (s : State) :
    hostRead off w s = readRegister r s := by
  simp only [hostRead, h]

/-- A read of any register but `OUT_BYTE` changes no state (20 R57). -/
theorem readRegister_state {r : Register} (hr : r ≠ .outByte) (s : State) : (readRegister r s).2 = s := by
  cases r
  case outByte => exact absurd rfl hr
  all_goals rfl

theorem popOutByte_nil {s : State} (h : s.buf.outBytes = []) : popOutByte s = (0#32, s) := by
  simp only [popOutByte, h]

/-- `OUT_BYTE` reads as bit 8 set over the oldest byte (20 R56). -/
theorem popOutByte_cons {s : State} {b : BitVec 8} {rest : List (BitVec 8)} (h : s.buf.outBytes = b :: rest) :
    popOutByte s = (BitVec.ofNat 32 (0x100 + b.toNat), s.withBuf { s.buf with outBytes := rest }) := by
  have hor : 2 ^ 8 + b.toNat = 2 ^ 8 ||| b.toNat := Nat.two_pow_add_eq_or_of_lt b.isLt 1
  have hword : 0x100#32 ||| b.setWidth 32 = BitVec.ofNat 32 (0x100 + b.toNat) := by
    rw [← BitVec.ofNat_toNat, ← BitVec.ofNat_or]
    exact congrArg (BitVec.ofNat 32) hor.symm
  simp only [popOutByte, h, hword]

/-- A read takes nothing from the host's lists. -/
theorem hostRead_host (off : BitVec 6) (w : Width) (s : State) : (hostRead off w s).2.host = s.host := by
  cases hreg : registerOf off w with
  | none => rw [hostRead_none hreg]
  | some r =>
    rw [hostRead_some hreg]
    by_cases hr : r = .outByte
    case neg => rw [readRegister_state hr]
    case pos =>
      subst hr
      show (popOutByte s).2.host = s.host
      cases hout : s.buf.outBytes with
      | nil => rw [popOutByte_nil hout]
      | cons b rest => rw [popOutByte_cons hout, State.withBuf_host]

/-! ### Writes -/

theorem applyAccess_write_none {off : BitVec 6} {w : Width} (h : registerOf off w = none) (s : State) (v : Word) :
    applyAccess (.write off w v) s = .next s := by
  simp only [applyAccess, h]

/-- The registers whose write may change state: `CTRL`, `CMD`, `CFG_*` and `IN_BYTE` (20 R57). -/
def writableRegisters : List Register := [.ctrl, .cmd, .cfgK, .cfgN, .cfgAlpha, .cfgFlags, .inByte]

/-- The read-only registers ignore a write (20 R49, R57). -/
theorem writeRegister_readOnly {r : Register} (hr : r ∉ writableRegisters) (s : State) (v : Word) :
    writeRegister r v s = s := by
  cases r
  case ctrl | cmd | cfgK | cfgN | cfgAlpha | cfgFlags | inByte => exact absurd (by decide) hr
  all_goals rfl

/-- Settles O6: an access that reaches no register does nothing, and one that reaches a register is at its offset, so what the offset
is not says which register it is not. -/
theorem onlyNamedAccessesHaveEffects : Obligations.OnlyNamedAccessesHaveEffects := by
  intro s off w v
  refine ⟨fun hign => ?_, fun hout => ?_, fun hoff => ?_⟩
  · have hreg := registerOf_ignored hign
    have hread : applyAccess (.read off w) s = .next (s.observe 0#32) := by rw [applyAccess, hostRead_none hreg]
    exact ⟨hread, applyAccess_write_none hreg s v⟩
  · cases hreg : registerOf off w with
    | none => rw [hostRead_none hreg]
    | some r =>
      obtain ⟨-, rfl⟩ := registerOf_some hreg
      rw [hostRead_some hreg]
      exact readRegister_state (fun hr => hout (congrArg Register.offset hr)) s
  · cases hreg : registerOf off w with
    | none => exact applyAccess_write_none hreg s v
    | some r =>
      obtain ⟨rfl, rfl⟩ := registerOf_some hreg
      have hro : r ∉ writableRegisters :=
        fun hmem => hoff (List.mem_map_of_mem (f := Register.offset) hmem)
      have hcmd : r ≠ .cmd := by
        rintro rfl
        exact hro (by decide)
      rw [applyAccess_write_register hreg hcmd, writeRegister_readOnly hro]

/-- Settles O9: the write is `IN_BYTE`'s, and the read is `popOutByte` on a FIFO that holds a byte, or none. -/
theorem bytePortsPushAndPop : Obligations.BytePortsPushAndPop := by
  intro s v
  have hread : hostRead 0x30#6 .word s = popOutByte s := hostRead_some (r := .outByte) rfl s
  refine ⟨?_, fun b rest hout => hread.trans (popOutByte_cons hout), fun hout => hread.trans (popOutByte_nil hout)⟩
  rw [applyAccess_write_register (r := .inByte) rfl nofun, writeRegister, pushInByte, apply_ite Host.Outcome.next]
  rfl

/-! ### The words of the registers -/

/-- `CTRL` reads `IRQ_EN` in bit 0 (10 R43). -/
theorem ctrlWord_eq (s : State) : s.ctrlWord = BitVec.ofNat 32 s.ctl.irqEn.toNat := by
  unfold State.ctrlWord
  cases s.ctl.irqEn <;> rfl

/-- Two fields side by side are the sum of the one above and the one below. -/
theorem toNat_append_eq_add {m n : Nat} (x : BitVec m) (y : BitVec n) : (x ++ y).toNat = x.toNat * 2 ^ n + y.toNat := by
  rw [BitVec.toNat_append, ← Nat.shiftLeft_add_eq_or_of_lt y.isLt, Nat.shiftLeft_eq]

/-- `PARAM` of a legal build: P is less than `2^6` and KMAX less than `2^16`, so neither is cut (10 R45). -/
theorem paramWord_eq {s : State} (h : LegalBuild s.par) : s.paramWord = BitVec.ofNat 32 (s.par.kmax * 2 ^ 16 + s.par.p) := by
  have hp := h.p_max
  have hk := h.kmax_max
  apply BitVec.eq_of_toNat_eq
  simp only [State.paramWord, toNat_append_eq_add, BitVec.toNat_ofNat]
  omega

/-- Settles O7: a 32-bit read at a register's offset is that register's read. -/
theorem registersReadTheirState : Obligations.RegistersReadTheirState := by
  intro s
  refine ⟨rfl, ?_, rfl, rfl, rfl, rfl, ?_, rfl, ?_, ?_, rfl, fun hbuild => ?_⟩
  · rw [hostRead_some (r := .ctrl) rfl, readRegister, ctrlWord_eq]
  · rw [hostRead_some (r := .cfgK) rfl, readRegister, BitVec.ofNat_toNat]
  · rw [hostRead_some (r := .cfgAlpha) rfl, readRegister, BitVec.ofNat_toNat]
  · rw [hostRead_some (r := .cfgFlags) rfl, readRegister, Conf.flags, Nat.mul_comm 4, Nat.mul_comm 2]
  · rw [hostRead_some (r := .param) rfl, readRegister, paramWord_eq hbuild]

/-! ### The step -/

theorem step_no_pending {s : State} (h : s.host.pending = []) : step s = .next s := by
  simp only [step, nextAccess, h]

theorem step_pending {s : State} {a : HostAccess} {rest : List HostAccess} (h : s.host.pending = a :: rest) :
    step s = applyAccess a (s.withHost { s.host with pending := rest }) := by
  simp only [step, nextAccess, h]

theorem deliverCommand_ok {c : Word} {i : Instr} (h : decode c = .ok i) (s : State) : deliverCommand c s = exec i s := by
  simp only [deliverCommand, h]

theorem deliverCommand_error {c : Word} {e : DecodeError} (h : decode c = .error e) (s : State) :
    deliverCommand c s = .next (rejectCommand e c s) := by
  simp only [deliverCommand, h]

/-- Settles O5: the step applies the first pending access, a 32-bit write at 0x0C is the delivery of its word, and a read keeps the
host's lists, so that its value is added to what the host had observed. -/
theorem stepRunsDecodedCommand : Obligations.StepRunsDecodedCommand := by
  intro s rest after
  refine ⟨step_no_pending, fun a => step_pending, fun c hpend => ?_, fun off w hpend => ?_⟩
  · have hdeliver : step s = deliverCommand c after := step_pending hpend
    exact ⟨hdeliver, fun i hi => hdeliver.trans (deliverCommand_ok hi after), fun e he => hdeliver.trans (deliverCommand_error he after)⟩
  · have hhost : (hostRead off w after).2.host = { s.host with pending := rest } := hostRead_host off w after
    have hread : step s = .next ((hostRead off w after).2.observe (hostRead off w after).1) := step_pending hpend
    rw [hread, State.observe, hhost]
    rfl

end Sys2Proof.Machine
end

section
/-! PROOFS. The encoding: the decoder and the encoder are inverse to each other, and a word that is no command is rejected by name. -/

namespace Sys2Proof.Machine

/-! ### The three operand forms -/

/-- Form Z holds no operand (30 R68). -/
theorem formZ_eq_ok {op imm : Nat} {i j : Instr} : formZ op imm i = .ok j ↔ imm = 0 ∧ i = j := by
  unfold formZ
  split <;> simp [*]

/-- Form B holds one bit (30 R68). -/
theorem formB_eq_ok {op imm : Nat} {mk : Bool → Instr} {j : Instr} :
    formB op imm mk = .ok j ↔ ∃ b : Bool, imm = b.toNat ∧ mk b = j := by
  constructor
  · intro h
    unfold formB at h
    split at h
    · have hlt : imm < 2 := by omega
      interval_cases imm
      · exact ⟨false, rfl, Except.ok.inj h⟩
      · exact ⟨true, rfl, Except.ok.inj h⟩
    · cases h
  · rintro ⟨b, rfl, rfl⟩
    cases b <;> rfl

theorem formZ_reserved {op imm : Nat} (h : imm ≠ 0) (i : Instr) : formZ op imm i = .error (.reservedBits op) := if_neg h

theorem formB_reserved {op imm : Nat} (h : imm / 2 ≠ 0) (mk : Bool → Instr) : formB op imm mk = .error (.reservedBits op) := if_neg h

/-! ### The decoder and the encoder -/

/-- A command's two fields decode to it. -/
theorem decodeFields_opcode_operand (i : Instr) : decodeFields i.opcode i.operand = .ok i := by
  cases i
  case bsPutBit b => exact formB_eq_ok.2 ⟨b, rfl, rfl⟩
  case bsInBit b => exact formB_eq_ok.2 ⟨b, rfl, rfl⟩
  all_goals rfl

/-- Fields that decode are the fields of the command they decode to. -/
theorem fields_of_decodeFields_ok {op imm : Nat} {i : Instr} (h : decodeFields op imm = .ok i) : op = i.opcode ∧ imm = i.operand := by
  unfold decodeFields at h
  split at h
  case h_36 => cases h
  case h_6 | h_12 =>
    obtain ⟨b, rfl, rfl⟩ := formB_eq_ok.1 h
    exact ⟨rfl, rfl⟩
  case h_3 | h_8 | h_14 | h_16 | h_18 | h_19 | h_22 | h_27 | h_30 | h_32 | h_33 | h_34 | h_35 =>
    cases h
    exact ⟨rfl, rfl⟩
  all_goals
    obtain ⟨rfl, rfl⟩ := formZ_eq_ok.1 h
    exact ⟨rfl, rfl⟩

theorem decode_encode {i : Instr} (h : WellFormed i) : decode (encode i) = .ok i := by
  obtain ⟨hop, himm⟩ := encode_fields h
  rw [decode, hop, himm, decodeFields_opcode_operand]

theorem fields_of_decode_ok {c : Word} {i : Instr} (h : decode c = .ok i) : opcodeOf c = i.opcode ∧ immOf c = i.operand :=
  fields_of_decodeFields_ok h

theorem encode_of_decode_ok {c : Word} {i : Instr} (h : decode c = .ok i) : encode i = c := by
  obtain ⟨hop, himm⟩ := fields_of_decode_ok h
  rw [encode, ← hop, ← himm, word_of_fields]

theorem wellFormed_of_operand_lt {i : Instr} (h : i.operand < 2 ^ 24) : WellFormed i := by
  cases i <;> simp only [WellFormed]
  all_goals exact h

theorem wellFormed_of_decode_ok {c : Word} {i : Instr} (h : decode c = .ok i) : WellFormed i := by
  obtain ⟨-, himm⟩ := fields_of_decode_ok h
  exact wellFormed_of_operand_lt (himm ▸ Nat.mod_lt _ (by decide))

/-- Settles O1: the word holds the command's two fields, and the decoder reads the command from them. -/
theorem decodeOfEncodeIsIdentity : Obligations.DecodeOfEncodeIsIdentity := fun _ => decode_encode

/-- Settles O2: the word's two fields are the command's, and a word is its two fields. -/
theorem encodeOfDecodeIsIdentity : Obligations.EncodeOfDecodeIsIdentity := fun _ _ h => ⟨encode_of_decode_ok h, wellFormed_of_decode_ok h⟩

/-- Settles O4: each word is computed. -/
theorem specWordsDecode : Obligations.SpecWordsDecode := ⟨rfl, rfl, rfl, rfl, rfl, rfl⟩

/-! ### Words that are no command -/

/-- The map of 30 R69 leaves 221 of the 256 opcodes illegal (30 R70). -/
theorem countP_illegal_opcodes : (List.range 256).countP (fun op => !legalOpcodes.contains op) = 221 := by
  decide +kernel

theorem decodeFields_illegal {op : Nat} (h : op ∉ legalOpcodes) (imm : Nat) : decodeFields op imm = .error (.illegalOpcode op) := by
  unfold decodeFields
  split
  case h_36 => rfl
  all_goals exact absurd (by decide) h

/-- The opcodes of form Z, all decoded by `formZ` (30 R69). -/
theorem decodeFields_formZ {op : Nat} (h : op ∈ formZOpcodes) (imm : Nat) : ∃ i, decodeFields op imm = formZ op imm i := by
  unfold formZOpcodes at h
  fin_cases h <;> exact ⟨_, rfl⟩

/-- The opcodes of form B, both decoded by `formB` (30 R69). -/
theorem decodeFields_formB {op : Nat} (h : op ∈ formBOpcodes) (imm : Nat) : ∃ mk, decodeFields op imm = formB op imm mk := by
  unfold formBOpcodes at h
  fin_cases h <;> exact ⟨_, rfl⟩

theorem decode_illegal {c : Word} (h : opcodeOf c ∉ legalOpcodes) : decode c = .error (.illegalOpcode (opcodeOf c)) :=
  decodeFields_illegal h _

theorem decode_reserved {c : Word} (h : ReservedBitSet c) : decode c = .error (.reservedBits (opcodeOf c)) := by
  rcases h with ⟨hop, himm⟩ | ⟨hop, himm⟩
  · obtain ⟨i, hi⟩ := decodeFields_formZ hop (immOf c)
    exact hi.trans (formZ_reserved himm i)
  · obtain ⟨mk, hmk⟩ := decodeFields_formB hop (immOf c)
    exact hmk.trans (formB_reserved himm mk)

/-! ### The rejection of a word -/

theorem allowedInFault_iff {op : Nat} : allowedInFault op = true ↔ op ∈ faultStateOpcodes := List.contains_iff_mem

theorem allowedInFault_eq_false {op : Nat} (h : op ∉ faultStateOpcodes) : allowedInFault op = false :=
  Bool.eq_false_iff.2 (mt allowedInFault_iff.1 h)

theorem faultStateOpcodes_subset_legalOpcodes : faultStateOpcodes ⊆ legalOpcodes := by decide

theorem faulted_eq_true {s : State} (h : s.ctl.faultCode ≠ .none) : s.faulted = true := by rw [faulted_eq_decide, decide_eq_true h]

/-- Without a fault recorded, or with an opcode allowed in the fault state, the word faults (30 R70). -/
theorem rejectCommand_faults {c : Word} {s : State} (h : s.ctl.faultCode = .none ∨ opcodeOf c ∈ faultStateOpcodes) (e : DecodeError) :
    rejectCommand e c s = faultRecorded s .illegalCommand (illegalInfo e) c := by
  have hcarried : (!allowedInFault (opcodeOf c) && s.faulted) = false := by
    rcases h with hnone | hop
    · rw [faulted_eq_false hnone, Bool.and_false]
    · rw [allowedInFault_iff.2 hop, Bool.not_true, Bool.false_and]
  rw [rejectCommand, hcarried]
  rfl

/-- In the fault state a word with any other opcode is dropped (30 R70, 60 R152). -/
theorem rejectCommand_drops {c : Word} {s : State} (hfault : s.ctl.faultCode ≠ .none) (hop : opcodeOf c ∉ faultStateOpcodes) (e : DecodeError) :
    rejectCommand e c s = dropRecorded s := by
  rw [rejectCommand, allowedInFault_eq_false hop, faulted_eq_true hfault]
  rfl

/-- Settles O3: the decoder rejects the word with the opcode or the reserved bits as the reason, and the rejection faults or is dropped. -/
theorem illegalAndReservedWordsFault : Obligations.IllegalAndReservedWordsFault := by
  refine ⟨countP_illegal_opcodes, fun c s => ⟨fun hill hnone => ?_, fun hill hfault => ?_, fun hres hcarried => ?_, fun hres hfault hop => ?_⟩⟩
  · rw [deliverCommand_error (decode_illegal hill), rejectCommand_faults (.inl hnone)]
    rfl
  · rw [deliverCommand_error (decode_illegal hill), rejectCommand_drops hfault fun hop => hill (faultStateOpcodes_subset_legalOpcodes hop)]
  · rw [deliverCommand_error (decode_reserved hres), rejectCommand_faults hcarried]
    rfl
  · rw [deliverCommand_error (decode_reserved hres), rejectCommand_drops hfault hop]

end Sys2Proof.Machine
end

section
/-! PROOFS. The symbol model's commands: the checks that open them pass, so each ends in the state its procedure gives. -/

namespace Sys2Proof.Machine

/-! ### The checks that open the commands, where they pass -/

/-- A legal configuration passes the model's latch (45 R137). -/
theorem latch_model_legal {s : State} (h : LegalConf s.par.kmax s.ctl.cfg) :
    latch .model s = .ok (s.withCtl { s.ctl with acfg := s.ctl.cfg }) := by
  rw [latch, latchError_legal ⟨h.k_min, h.k_max, h.alpha_min, h.alpha_max⟩ h.decay .model nofun]

theorem requireIdleModel_pass {s : State} (hmode : s.ctl.mode = .idle) (hvalid : s.model.valid = true) : requireIdleModel s = .ok () := by
  simp [requireIdleModel, hmode, hvalid]

theorem requireModel_pass {s : State} (hvalid : s.model.valid = true) : requireModel s = .ok () := by simp [requireModel, hvalid]

theorem requireSymbol_pass {s : State} {a : Nat} (h : a < s.alphabet) : requireSymbol a s = .ok () := if_neg (by omega)

/-! ### What the procedures give -/

/-- `modelUpdate` raises `CapacityExceeded(1)` where the total has no room (40 R77). -/
theorem modelUpdate_full {a : Nat} {s : State} (h : ¬ s.total < Config.countMax) : modelUpdate a s = raise .capacityExceeded 1 :=
  if_pos (by omega)

theorem modelDecay_eq (s : State) :
    modelDecay s = s.withModel { s.model with count := decayedCounts s.alphabet s.ctl.acfg s.model.count } :=
  congrArg (fun l => s.withModel { s.model with count := l }) (modelDecay_count s)

/-! ### The rules where the checks pass -/

theorem rule_modelInit {s : State} (hmode : s.ctl.mode = .idle) (h : LegalConf s.par.kmax s.ctl.cfg) :
    rule .modelInit s = .ok (none, (modelInit (s.withCtl { s.ctl with acfg := s.ctl.cfg })).withTreeValid false) := by
  simp [rule, ruleModelInit, hmode, latch_model_legal h, returnNothing]

theorem rule_modelUpdate {s : State} {a : Nat} (hmode : s.ctl.mode = .idle) (hvalid : s.model.valid = true) (ha : a < s.alphabet) :
    rule (.modelUpdate a) s = (modelUpdate a s >>= returnNothing) := by
  simp only [rule, ruleModelUpdate, requireIdleModel_pass hmode hvalid, requireSymbol_pass ha, ok_bind]

theorem rule_modelDecay {s : State} (hmode : s.ctl.mode = .idle) (hvalid : s.model.valid = true) :
    rule .modelDecay s = .ok (none, modelDecay s) := by
  simp only [rule, ruleModelDecay, requireIdleModel_pass hmode hvalid, ok_bind, returnNothing]

theorem rule_modelCount {s : State} {a : Nat} (hvalid : s.model.valid = true) (ha : a < s.alphabet) :
    rule (.modelCount a) s = returnNat (s.countOf a) s := by
  simp only [rule, ruleModelCount, requireModel_pass hvalid, requireSymbol_pass ha, ok_bind]

theorem rule_modelCum {s : State} {a : Nat} (hvalid : s.model.valid = true) (ha : a < s.alphabet) :
    rule (.modelCum a) s = returnNat (s.cumulative a) s := by
  simp only [rule, ruleModelCum, requireModel_pass hvalid, requireSymbol_pass ha, ok_bind]

theorem rule_modelTotal {s : State} (hvalid : s.model.valid = true) : rule .modelTotal s = returnNat s.total s := by
  simp only [rule, ruleModelTotal, requireModel_pass hvalid, ok_bind]

/-! ### The statements -/

/-- Settles O39: the configuration passes the latch, and the model is then initialized for the alphabet just latched. -/
theorem modelInitSeedsCountsOfOne : Obligations.ModelInitSeedsCountsOfOne := fun _ hfault hmode hconf =>
  exec_completes (carriedOut_of_no_fault hfault) (rule_modelInit hmode hconf) rfl

/-- Settles O40: with the checks passed, `modelUpdate` counts the symbol or finds the total full. -/
theorem modelUpdateCountsTheSymbol : Obligations.ModelUpdateCountsTheSymbol := by
  intro s a hfault hmode hvalid ha
  have hrule := rule_modelUpdate hmode hvalid ha
  refine ⟨fun hroom => ?_, fun hfull => ?_⟩
  · have hlt : s.total < Config.countMax := by rw [countMax_eq]; omega
    rw [modelUpdate_room hlt, ok_bind] at hrule
    exact exec_completes (carriedOut_of_no_fault hfault) hrule rfl
  · have hge : ¬ s.total < Config.countMax := by rw [countMax_eq]; omega
    rw [modelUpdate_full hge, raise_bind] at hrule
    exact faultsWith_of_rule (carriedOut_of_no_fault hfault) hrule

/-- Settles O41: `scale` is the statement's rounding, so `modelDecay` is the pass over the counts that the statement writes out. -/
theorem modelDecayScalesTheCounts : Obligations.ModelDecayScalesTheCounts := by
  intro s hfault hmode hvalid
  have hrule := rule_modelDecay hmode hvalid
  rw [modelDecay_eq] at hrule
  exact exec_completes (carriedOut_of_no_fault hfault) hrule rfl

/-- Settles O42: the three reads are carried out in the fault state too (60 R152), and check nothing of the mode. -/
theorem modelReadsReturnCounts : Obligations.ModelReadsReturnCounts := by
  intro s hvalid
  refine ⟨fun a ha => ⟨?_, ?_⟩, ?_⟩
  · exact returns_of_rule (.inl rfl) (rule_modelCount hvalid ha)
  · exact returns_of_rule (.inl rfl) (rule_modelCum hvalid ha)
  · exact returns_of_rule (.inl rfl) (rule_modelTotal hvalid)

end Sys2Proof.Machine
end

section
/-! PROOFS. `AH_DECAY` in a state that meets the invariants: its checks pass, and `decayTree_run` says what the rebuild gives. -/

namespace Sys2Proof.Machine

theorem requireIdleTree_pass {s : State} (hmode : s.ctl.mode = .idle) (hvalid : s.tree.valid = true) : requireIdleTree s = .ok () := by
  simp [requireIdleTree, hmode, hvalid]

/-- Settles O55: the tree is the one of `decayTree_run`; the NYT weighs 0 before and after, and a symbol's decayed weight is
`decayedLeaf`'s. -/
theorem ahDecayScalesTheLeaves : Obligations.AhDecayScalesTheLeaves := by
  intro s hb ht hfault hmode hvalid
  have hhuff := huffOk_of hb ht hvalid
  obtain ⟨tree, hrun, hok, hv, horder, hleaf⟩ := decayTree_run hhuff hb.acfg (hb.tree_conf hvalid)
  have hrule : rule .ahDecay s = .ok (none, s.withTree tree) := by
    simp only [rule, ruleAhDecay, requireIdleTree_pass hmode hvalid, hrun, ok_bind, returnNothing]
  have hnyt : leafWeight tree .nyt = leafWeight s.tree .nyt := by
    rw [hleaf]
    cases hw : leafWeight s.tree .nyt with
    | none => rfl
    | some w => rw [hhuff.tree.nyt_leaf hhuff.size hw]; rfl
  refine ⟨tree, exec_completes (carriedOut_of_no_fault hfault) hrule rfl, hv.trans hvalid, hok.tree, horder, hnyt, fun a => ?_⟩
  rw [hleaf]
  cases leafWeight s.tree (.sym a) <;> rfl

end Sys2Proof.Machine
end

section
/-! PROOFS. What the model's and the arithmetic coder's commands leave unchanged: a dropped or faulting command changes nothing that a frame
speaks of, and `Writes` says what a completing one writes. -/

namespace Sys2Proof.Machine

/-- `u` and `t` agree in all that the frames of the commands speak of: they differ in the fault record and the result at most. -/
structure SameBlock (u t : State) : Prop where
  coder : t.coder = u.coder
  model : t.model = u.model
  tree : t.tree = u.tree
  buf : t.buf = u.buf
  mode : t.ctl.mode = u.ctl.mode
  symCount : t.ctl.symCount = u.ctl.symCount
  acfg : t.ctl.acfg = u.ctl.acfg

/-- Fault record and result apart, a command changes nothing, or completes and writes what `Writes` says (60 R149, R150, R152). -/
theorem exec_effect {i : Instr} {s t : State} (h : exec i s = .next t) : ∃ u, (u = s ∨ Writes i s u) ∧ SameBlock u t := by
  rcases exec_outcomes h with rfl | ⟨v, u, hw, -, rfl⟩ | ⟨f, info, -, rfl⟩
  case inl => exact ⟨s, .inl rfl, rfl, rfl, rfl, rfl, rfl, rfl, rfl⟩
  case inr.inl =>
    exact ⟨u, .inr hw, complete_coder u v, complete_model u v, complete_tree u v, complete_buf u v, complete_ctl_mode u v,
      complete_ctl_symCount u v, complete_ctl_acfg u v⟩
  case inr.inr => exact ⟨s, .inl rfl, rfl, rfl, rfl, rfl, rfl, rfl, rfl⟩

/-! ### The commands that write the model -/

/-- 40 R81 to R83. -/
theorem writes_model_frame {i : Instr} {s u : State} (h : Writes i s u) (hi : i = .modelInit ∨ (∃ a, i = .modelUpdate a) ∨ i = .modelDecay) :
    u.coder = s.coder ∧ u.buf = s.buf ∧ u.ctl.mode = s.ctl.mode ∧ u.ctl.symCount = s.ctl.symCount ∧
    { u.tree with valid := false } = { s.tree with valid := false } ∧
    (i ≠ .modelInit → u.tree = s.tree ∧ u.ctl.acfg = s.ctl.acfg) := by
  rcases hi with rfl | ⟨a, rfl⟩ | rfl
  · obtain ⟨-, -, rfl⟩ := h
    exact ⟨rfl, rfl, rfl, rfl, rfl, fun hi => absurd rfl hi⟩
  · obtain ⟨-, -, -, -, rfl⟩ := h
    exact ⟨rfl, rfl, rfl, rfl, rfl, fun _ => ⟨rfl, rfl⟩⟩
  · obtain ⟨-, -, rfl⟩ := h
    exact ⟨rfl, rfl, rfl, rfl, rfl, fun _ => ⟨rfl, rfl⟩⟩

/-! ### The arithmetic coder's commands -/

/-- What a coded symbol leaves unchanged, in the encoder and in the decoder (41 R94). -/
theorem CoderFrame.symbol_frame {dec : Bool} {s u : State} (h : CoderFrame dec s { s with coder := u.coder, buf := u.buf })
    (hu : u = { s with
      coder := u.coder, buf := u.buf, model := { s.model with count := u.model.count }
      ctl := { s.ctl with symCount := s.ctl.symCount + 1 } }) :
    u.tree = s.tree ∧ u.ctl.acfg = s.ctl.acfg ∧
    u.buf.inBits = s.buf.inBits ∧ u.buf.inBytes = s.buf.inBytes ∧ u.buf.outBytes = s.buf.outBytes := by
  have hbuf : u.buf = { s.buf with outBits := u.buf.outBits, inPos := u.buf.inPos } := congrArg State.buf h.same
  exact ⟨by rw [hu], by rw [hu], by rw [hbuf], by rw [hbuf], by rw [hbuf]⟩

/-- 41 R98, R99: what the encoder's commands in an open stream leave unchanged. -/
theorem writes_encoder_frame {i : Instr} {s u : State} (h : Writes i s u) (hi : (∃ a, i = .acEncSym a) ∨ i = .acEncFinish) :
    u.tree = s.tree ∧ u.buf.inPos = s.buf.inPos ∧ u.coder.value = s.coder.value ∧ u.coder.padUsed = s.coder.padUsed ∧
    u.ctl.acfg = s.ctl.acfg ∧ s.buf.outBits <+: u.buf.outBits := by
  rcases hi with ⟨a, rfl⟩ | rfl
  · obtain ⟨-, -, -, hframe, hu⟩ := h
    obtain ⟨htree, hacfg, -⟩ := hframe.symbol_frame hu
    obtain ⟨hvalue, hpad, hpos, hout⟩ := hframe.enc rfl
    exact ⟨htree, hpos, hvalue, hpad, hacfg, hout⟩
  · obtain ⟨bits, -, -, rfl⟩ := h
    exact ⟨rfl, rfl, rfl, rfl, rfl, ⟨bits, rfl⟩⟩

/-- 41 R101: what a decoded symbol leaves unchanged. -/
theorem writes_acDecSym_frame {s u : State} (h : Writes .acDecSym s u) :
    u.tree = s.tree ∧ u.coder.straddle = s.coder.straddle ∧ u.ctl.acfg = s.ctl.acfg ∧ u.buf.outBits = s.buf.outBits := by
  obtain ⟨-, a, -, -, -, hframe, hu⟩ := h
  obtain ⟨htree, hacfg, -⟩ := hframe.symbol_frame hu
  obtain ⟨hstraddle, hout, -⟩ := hframe.dec rfl
  exact ⟨htree, hstraddle, hacfg, hout⟩

/-- 41 R97 to R101: what every command of the arithmetic coder leaves unchanged. -/
theorem writes_ac_frame {i : Instr} {s u : State} (h : Writes i s u)
    (hi : (∃ a, i = .acEncSym a) ∨ i = .acEncFinish ∨ i = .acEncStart ∨ i = .acDecStart ∨ i = .acDecSym) :
    { u.tree with valid := false } = { s.tree with valid := false } ∧
    u.buf.inBits = s.buf.inBits ∧ u.buf.inBytes = s.buf.inBytes ∧ u.buf.outBytes = s.buf.outBytes := by
  rcases hi with ⟨a, rfl⟩ | rfl | rfl | rfl | rfl
  · obtain ⟨-, -, -, hframe, hu⟩ := h
    obtain ⟨htree, -, hbuf⟩ := hframe.symbol_frame hu
    exact ⟨by rw [htree], hbuf⟩
  · obtain ⟨bits, -, -, rfl⟩ := h
    exact ⟨rfl, rfl, rfl, rfl⟩
  · obtain ⟨-, rfl⟩ := h
    exact ⟨rfl, rfl, rfl, rfl⟩
  · obtain ⟨-, -, -, -, -, hu⟩ := h
    rw [hu]
    exact ⟨rfl, rfl, rfl, rfl⟩
  · obtain ⟨-, a, -, -, -, hframe, hu⟩ := h
    obtain ⟨htree, -, hbuf⟩ := hframe.symbol_frame hu
    exact ⟨by rw [htree], hbuf⟩

/-- 41 R99: what the end of the stream leaves unchanged beside. -/
theorem writes_acEncFinish_frame {s u : State} (h : Writes .acEncFinish s u) :
    u.model = s.model ∧ u.ctl.symCount = s.ctl.symCount ∧ u.coder.lo = s.coder.lo ∧ u.coder.hi = s.coder.hi := by
  obtain ⟨bits, -, -, rfl⟩ := h
  exact ⟨rfl, rfl, rfl, rfl⟩

/-- 41 R97. -/
theorem writes_acEncStart_buf {s u : State} (h : Writes .acEncStart s u) : u.buf = s.buf := by
  obtain ⟨-, rfl⟩ := h
  rfl

/-- 41 R100. -/
theorem writes_acDecStart_outBits {s u : State} (h : Writes .acDecStart s u) : u.buf.outBits = s.buf.outBits := by
  obtain ⟨-, -, -, -, -, hu⟩ := h
  rw [hu]

/-- Settles O57: each clause is the frame of what its commands write, and holds of itself where nothing is written. -/
theorem modelAndCoderFrame : Obligations.ModelAndCoderFrame := by
  intro i s t h
  obtain ⟨u, hu, hsame⟩ := exec_effect h
  rw [hsame.coder, hsame.model, hsame.tree, hsame.buf, hsame.mode, hsame.symCount, hsame.acfg]
  rcases hu with rfl | hw
  · exact ⟨fun _ => ⟨rfl, rfl, rfl, rfl, rfl, fun _ => ⟨rfl, rfl⟩⟩, fun _ => ⟨rfl, rfl, rfl, rfl⟩,
      fun _ => ⟨rfl, rfl, rfl, rfl, rfl, ⟨[], List.append_nil _⟩⟩, fun _ => ⟨rfl, rfl, rfl, rfl⟩, fun _ => rfl, fun _ => rfl,
      fun _ => ⟨rfl, rfl, rfl⟩⟩
  · refine ⟨writes_model_frame hw, writes_ac_frame hw, writes_encoder_frame hw, ?_, ?_, ?_, ?_⟩
    · rintro rfl
      exact writes_acEncFinish_frame hw
    · rintro rfl
      exact writes_acEncStart_buf hw
    · rintro (rfl | rfl)
      · exact writes_acDecStart_outBits hw
      · obtain ⟨-, -, -, hout⟩ := writes_acDecSym_frame hw
        exact hout
    · rintro rfl
      obtain ⟨htree, hstraddle, hacfg, -⟩ := writes_acDecSym_frame hw
      exact ⟨htree, hstraddle, hacfg⟩

end Sys2Proof.Machine
end

section
/-! PROOFS. The arithmetic coder's commands: the checks that open them pass, `Laws/Renorm.lean` says what the passes of R90 do, and the model
step ends each symbol. -/

namespace Sys2Proof.Machine

/-! ### The starts -/

/-- The stream state that both arithmetic starts set up (41 R97, R100). -/
def acOpened (s : State) : State :=
  { s with
    model := { count := List.replicate s.ctl.cfg.k.toNat 1 ++ s.model.count.drop s.ctl.cfg.k.toNat, valid := true }
    coder := { lo := 0, hi := one s.par.p, value := 0, straddle := 0, padUsed := 0 }
    tree := { s.tree with valid := false }
    ctl := { s.ctl with acfg := s.ctl.cfg, symCount := 0 } }

theorem acStart_legal {s : State} (h : LegalConf s.par.kmax s.ctl.cfg) : acStart s = .ok (acOpened s) := by
  rw [acStart, latch_model_legal h]
  rfl

theorem rule_acEncStart {s : State} (h : LegalConf s.par.kmax s.ctl.cfg) :
    rule .acEncStart s = .ok (none, ((acOpened s).withMode .acEnc).clearFault) := by
  simp only [rule, ruleAcEncStart, acStart_legal h, ok_bind, returnNothing]

theorem rule_acDecStart {s : State} (h : LegalConf s.par.kmax s.ctl.cfg) :
    rule .acDecStart s = (gatherBitsPadded s.par.p 0 (acOpened s) >>= fun r =>
      returnNothing ((r.2.withCoder { r.2.coder with value := r.1 }).withMode .acDec).clearFault) := by
  simp only [rule, ruleAcDecStart, acStart_legal h, ok_bind]
  rfl

/-- Settles O43: the start is carried out in every mode and fault state (60 R152), and a legal configuration passes its latch. -/
theorem acEncStartOpensTheStream : Obligations.AcEncStartOpensTheStream := fun _ h => exec_completes (.inl rfl) (rule_acEncStart h) rfl

/-- Settles O44: after the start's setup the window is a padded read of `P` bits, which succeeds or runs out of padding. -/
theorem acDecStartLoadsTheWindow : Obligations.AcDecStartLoadsTheWindow := by
  intro s h taken zeros
  have hrule := rule_acDecStart h
  have hzeros : zeros = s.par.p - (s.buf.inBits.drop s.buf.inPos).length := by
    simp only [zeros, taken, List.length_take]
    omega
  refine ⟨fun hfits => ?_, fun hshort => ?_⟩
  · have hread := gatherBitsPadded_ok (n := s.par.p) (v := 0) (s := acOpened s) (hzeros ▸ hfits)
    rw [hread, ok_bind] at hrule
    refine exec_completes (.inl rfl) hrule ?_
    simp only [acOpened, Nat.zero_add]
    rfl
  · have hread := gatherBitsPadded_short (n := s.par.p) (v := 0) (s := acOpened s) (hzeros ▸ hshort)
      (Nat.lt_of_sub_pos (hzeros ▸ Nat.zero_lt_of_lt hshort))
    rw [hread, raise_bind] at hrule
    exact faultsWith_of_rule (.inl rfl) hrule

/-! ### The search -/

/-- The region of a symbol with a count of 0 is empty (41 R88). -/
theorem countOf_pos_of_inRegion {s : State} {a : Nat} (h : InRegion s a) : 0 < s.countOf a := by
  obtain ⟨hlo, hend⟩ := h
  refine Nat.pos_of_ne_zero fun hzero => ?_
  rw [State.regionEnd, hzero, Nat.add_zero] at hend
  exact absurd (hlo.trans_lt hend) (Nat.lt_irrefl _)

/-- Settles O45: the regions partition the interval (`exists_inRegion`, `inRegion_unique`), and the window is in it. -/
theorem searchFindsTheOneSymbol : Obligations.SearchFindsTheOneSymbol := by
  intro s hinv hmode htotal
  have hwindow := hinv.window hmode
  obtain ⟨a, ha, hregion⟩ := exists_inRegion htotal hwindow
  exact ⟨a, ha, countOf_pos_of_inRegion hregion, hregion, search_eq htotal hwindow.1 ha hregion, fun _ _ hb => inRegion_unique hb hregion⟩

/-! ### The rules in an open stream -/

theorem requireMode_pass {m : Mode} {s : State} (h : s.ctl.mode = m) : requireMode m s = .ok () := if_neg (not_not_intro h)

theorem rule_acEncSym {s : State} {a : Nat} (hmode : s.ctl.mode = .acEnc) (ha : a < s.alphabet) :
    rule (.acEncSym a) s = (acSymbol false a s >>= returnNothing) := by
  simp only [rule, ruleAcEncSym, requireMode_pass hmode, requireSymbol_pass ha, ok_bind]

theorem rule_acEncFinish {s : State} (hmode : s.ctl.mode = .acEnc) :
    rule .acEncFinish s = (flush s >>= fun t => returnNothing (t.withMode .idle)) := by
  simp only [rule, ruleAcEncFinish, requireMode_pass hmode, ok_bind]

theorem rule_acDecSym {s : State} (hmode : s.ctl.mode = .acDec) :
    rule .acDecSym s = (search s >>= fun a => acSymbol true a s >>= returnNat a) := by
  simp only [rule, ruleAcDecSym, requireMode_pass hmode, ok_bind]

/-! ### The flush -/

/-- A full straddle counter can not take the flush's own bit (41 R92). -/
theorem flush_straddle_full {s : State} (h : s.coder.straddle = Config.countMax) : flush s = raise .capacityExceeded 2 := by
  rw [flush, pendStraddle, if_pos h, raise_bind]

/-- The flush holds one more bit back, and then decides them all (41 R92). -/
theorem flush_eq_drainStraddle {s : State} (h : s.coder.straddle ≠ Config.countMax) :
    flush s = drainStraddle (decide (quarter s.par.p ≤ s.coder.lo)) (s.withCoder { s.coder with straddle := s.coder.straddle + 1 }) := by
  rw [flush, pendStraddle, if_neg h, ok_bind]
  rfl

/-- A decided bit and the pending ones are emitted where the sink has room for all (41 R90). -/
theorem drainStraddle_room {b : Bool} {s : State} (h : s.buf.outBits.length + (s.coder.straddle + 1) ≤ s.par.outCap) :
    drainStraddle b s = .ok ((s.withBuf { s.buf with outBits := s.buf.outBits ++ b :: List.replicate s.coder.straddle (!b) }).withCoder
      { s.coder with straddle := 0 }) :=
  ((drainStraddle_spec b s).resolve_right fun hfull => by omega).2

theorem drainStraddle_full {b : Bool} {s : State} (h : s.par.outCap < s.buf.outBits.length + (s.coder.straddle + 1)) :
    drainStraddle b s = raise .capacityExceeded 3 :=
  ((drainStraddle_spec b s).resolve_left fun hroom => by omega).2

/-- Settles O47: `flush` fails at the straddle counter, or it is the output of a decided bit, which fits the sink or does not. -/
theorem acEncFinishFlushesAndCloses : Obligations.AcEncFinishFlushesAndCloses := by
  intro s hfault hmode
  have hcarried : CarriedOut .acEncFinish s := carriedOut_of_no_fault hfault
  have hrule := rule_acEncFinish hmode
  refine ⟨fun hstraddle hroom => ?_, fun hstraddle => ?_, fun hstraddle hfull => ?_⟩
  · rw [flush_eq_drainStraddle hstraddle, drainStraddle_room hroom, ok_bind] at hrule
    refine exec_completes hcarried hrule ?_
    by_cases hlow : s.coder.lo < quarter s.par.p
    · rw [if_pos hlow, decide_eq_false (Nat.not_le.2 hlow)]
      rfl
    · rw [if_neg hlow, decide_eq_true (Nat.not_lt.1 hlow)]
      rfl
  · rw [flush_straddle_full hstraddle, raise_bind] at hrule
    exact faultsWith_of_rule hcarried hrule
  · rw [flush_eq_drainStraddle hstraddle, drainStraddle_full hfull, raise_bind] at hrule
    exact faultsWith_of_rule hcarried hrule

/-! ### One coded symbol -/

/-- The interval of an open stream (41 R95). -/
theorem BlockInv.open_interval {s : State} (h : BlockInv s) (hmode : s.ctl.mode = .acEnc ∨ s.ctl.mode = .acDec) :
    2 ≤ s.par.p ∧ s.coder.lo ≤ s.coder.hi ∧ s.coder.hi ≤ one s.par.p := by
  have hp := h.build.p_min
  have hi := h.interval hmode
  exact ⟨by omega, (hi.lo_low.trans_le hi.hi_high).le, hi.hi_max⟩

/-- A region of at most one integer can not be coded (41 R89). -/
theorem acSymbol_zeroInterval {s : State} {a : Nat} (dec : Bool) (h : ¬ CodesInterval s a) : acSymbol dec a s = raise .zeroInterval 0 := by
  rw [acSymbol_eq, narrow_zero h, raise_bind]

/-- How a symbol step ends once its renormalization has: the total is full, the symbol counter is full, or the symbol is counted (41 R94). -/
theorem acSymbol_after_renorm {dec : Bool} {a : Nat} {s : State} {c : Coder} {b : Buffers} (hc : CodesInterval s a)
    (hrenorm : renormLoop dec s.par.p (narrowed a s) = .ok { s with coder := c, buf := b }) :
    (s.total = 2 ^ 32 - 1 → acSymbol dec a s = raise .capacityExceeded 1) ∧
    (s.total < 2 ^ 32 - 1 → s.ctl.symCount = 2 ^ 32 - 1 → acSymbol dec a s = raise .capacityExceeded 7) ∧
    (s.total < 2 ^ 32 - 1 → s.ctl.symCount < 2 ^ 32 - 1 → acSymbol dec a s = .ok { s with
      coder := c
      buf := b
      model := { s.model with count := countsAfter s a }
      ctl := { s.ctl with symCount := s.ctl.symCount + 1 } }) := by
  rw [acSymbol_renormed hc hrenorm]
  exact ⟨(modelStep_full c b).1, (modelStep_full c b).2, modelStep_room c b⟩

/-- The interval after the passes of a symbol is sound (41 R95). -/
theorem PassesOk.intervalOk {p n lo hi : Nat} {z : List Pass} (h : PassesOk p n lo hi z) {c : Coder} (hlo : c.lo = passEnd p z lo)
    (hhi : c.hi = passEnd p z (hi + 1) - 1) : IntervalOk p c where
  lo_low := hlo ▸ h.lo_low
  hi_high := hhi ▸ h.hi_high
  hi_max := hhi ▸ h.hi_max
  wide := by rw [hlo, hhi]; exact h.wide

theorem CodesInterval.regionEnd_pred {s : State} {a : Nat} (h : CodesInterval s a) : s.regionEnd a - 1 + 1 = s.regionEnd a := by
  obtain ⟨-, hwide⟩ := h
  omega

/-- Settles O46: `renorm_enc` has the outcomes of the renormalization, `acSymbol_after_renorm` those of the model step, and the passes
are tied to numbers by `symbolPasses_ok`, `passBits_length` and `passBits_value`. -/
theorem acEncSymCodesTheSymbol : Obligations.AcEncSymCodesTheSymbol := by
  refine ⟨fun s a hfault hmode ha hzero => ?_, fun s a hinv hfault hmode ha hcodes => ?_⟩
  · have hrule := rule_acEncSym hmode ha
    rw [acSymbol_zeroInterval false hzero, raise_bind] at hrule
    exact faultsWith_of_rule (carriedOut_of_no_fault hfault) hrule
  intro z n off bits pend coder peak filled
  have hcarried : CarriedOut (.acEncSym a) s := carriedOut_of_no_fault hfault
  obtain ⟨hp, hwide, hmax⟩ := hinv.open_interval (.inl hmode)
  have hpasses := symbolPasses_ok hp ha hcodes hwide hmax
  have hloop := renorm_enc hp hinv.build.p_max ha hcodes hwide hmax hinv.widths.straddle_max hinv.widths.outBits_max
  have hrule := rule_acEncSym hmode ha
  have hfails : ∀ {info : Nat}, acSymbol false a s = raise .capacityExceeded info →
      FaultsWith (.acEncSym a) s .capacityExceeded info := fun h =>
    faultsWith_of_rule hcarried (by rw [hrule, h, raise_bind])
  have hcoder : coder = { s.coder with
      lo := passEnd s.par.p z (s.regionLo a), hi := passEnd s.par.p z (s.regionEnd a - 1 + 1) - 1, straddle := pend } := by
    rw [hcodes.regionEnd_pred]
    rfl
  have hrenorm : peak ≤ 2 ^ 32 - 1 → filled ≤ s.par.outCap → renormLoop false s.par.p (narrowed a s) =
      .ok { s with coder := coder, buf := { s.buf with outBits := s.buf.outBits ++ bits } } := by
    intro hpeak hroom
    rw [hcoder]
    exact hloop.done hpeak hroom
  refine ⟨fun hpeak => hfails (acSymbol_fails hcodes (hloop.straddleFull hpeak)),
    fun hpeak hfull => hfails (acSymbol_fails hcodes (hloop.sinkFull hpeak hfull)),
    fun hpeak hroom htotal => ?_, fun hpeak hroom htotal hcount => ?_, fun hpeak hroom htotal hcount => ?_, ?_, hpasses.fits, ?_,
    passBits_length _ _, passBits_value _ _⟩
  · obtain ⟨hfull, -, -⟩ := acSymbol_after_renorm hcodes (hrenorm hpeak hroom)
    exact hfails (hfull htotal)
  · obtain ⟨-, hfull, -⟩ := acSymbol_after_renorm hcodes (hrenorm hpeak hroom)
    exact hfails (hfull htotal hcount)
  · obtain ⟨-, -, hcoded⟩ := acSymbol_after_renorm hcodes (hrenorm hpeak hroom)
    rw [hcoded htotal hcount, ok_bind] at hrule
    exact exec_completes hcarried hrule rfl
  · have hcount : n ≤ s.par.p - 1 := hpasses.count
    omega
  · exact hcoder ▸ hpasses.intervalOk rfl rfl

/-! ### One decoded symbol -/

/-- The window behind `n` more bits (41 R90). -/
theorem bitsFrom_window {n v : Nat} {bits : List Bool} (h : bits.length = n) : bitsFrom v bits = 2 ^ n * v + bitsValue bits := by
  rw [bitsFrom_eq, h, Nat.mul_comm, bitsValue_eq]

/-- A decoded symbol leaves `VALUE` in the interval (41 R95). -/
theorem acSymbol_valueOk {a : Nat} {s t : State} (h : acSymbol true a s = .ok t) (hp : 2 ≤ s.par.p) (ha : a < s.alphabet)
    (hwide : s.coder.lo ≤ s.coder.hi) (hmax : s.coder.hi ≤ one s.par.p) (hregion : InRegion s a) : ValueOk t.coder := by
  obtain ⟨-, -, -, u, -, hrenormed, rfl⟩ := acSymbol_ok h hp ha hwide hmax fun _ => hregion
  exact (hrenormed.dec rfl).1

/-- With no count at all there is nothing to search (41 R93). -/
theorem acDecSym_emptyTotal {s : State} (hfault : s.ctl.faultCode = .none) (hmode : s.ctl.mode = .acDec) (htotal : s.total = 0) :
    FaultsWith .acDecSym s .zeroInterval 0 := by
  have hrule := rule_acDecSym hmode
  rw [search, if_pos htotal, raise_bind] at hrule
  exact faultsWith_of_rule (carriedOut_of_no_fault hfault) hrule

/-- The search goes on to the symbol whose region holds `VALUE` (41 R93, R101). -/
theorem rule_acDecSym_inRegion {s : State} {a : Nat} (hinv : BlockInv s) (hmode : s.ctl.mode = .acDec) (ha : a < s.alphabet)
    (hregion : InRegion s a) (htotal : 0 < s.total) : rule .acDecSym s = (acSymbol true a s >>= returnNat a) := by
  rw [rule_acDecSym hmode, search_eq htotal (hinv.window hmode).1 ha hregion, ok_bind]

/-- Settles O48: the search finds the symbol of the region, `renorm_dec` has the outcomes of the renormalization and `acSymbol_after_renorm`
those of the model step. -/
theorem acDecSymReturnsTheSymbol : Obligations.AcDecSymReturnsTheSymbol := by
  refine ⟨fun _ => acDecSym_emptyTotal, fun s a hinv hfault hmode ha hregion hzero => ?_, fun s a hinv hfault hmode ha hregion hcodes => ?_⟩
  · rcases Nat.eq_zero_or_pos s.total with htotal | htotal
    · exact acDecSym_emptyTotal hfault hmode htotal
    · have hrule := rule_acDecSym_inRegion hinv hmode ha hregion htotal
      rw [acSymbol_zeroInterval true hzero, raise_bind] at hrule
      exact faultsWith_of_rule (carriedOut_of_no_fault hfault) hrule
  intro z n off taken zeros coder
  have hcarried : CarriedOut .acDecSym s := carriedOut_of_no_fault hfault
  obtain ⟨hp, hwide, hmax⟩ := hinv.open_interval (.inr hmode)
  have hpasses := symbolPasses_ok hp ha hcodes hwide hmax
  have hloop := renorm_dec hp ha hcodes hwide hmax hregion hinv.widths.pad_max
  have hrule := rule_acDecSym_inRegion hinv hmode ha hregion hcodes.1
  have hfails : ∀ {f : FaultCode} {info : Nat}, acSymbol true a s = raise f info → FaultsWith .acDecSym s f info := fun h =>
    faultsWith_of_rule hcarried (by rw [hrule, h, raise_bind])
  have hread : (taken ++ List.replicate zeros false).length = n := by
    have : taken.length ≤ n := List.length_take_le _ _
    rw [List.length_append, List.length_replicate]
    omega
  have hcoder : coder = { s.coder with
      lo := passEnd s.par.p z (s.regionLo a)
      hi := passEnd s.par.p z (s.regionEnd a - 1 + 1) - 1
      value := bitsFrom s.coder.value (taken ++ List.replicate zeros false) - off
      padUsed := s.coder.padUsed + zeros } := by
    rw [hcodes.regionEnd_pred, bitsFrom_window hread]
    rfl
  have hrenorm : s.coder.padUsed + zeros ≤ s.par.padLimit → renormLoop true s.par.p (narrowed a s) =
      .ok { s with coder := coder, buf := { s.buf with inPos := s.buf.inPos + taken.length } } := by
    intro hpad
    rw [hcoder]
    exact hloop.done hpad
  refine ⟨fun hshort => hfails (acSymbol_fails hcodes (hloop.short hshort)), fun hpad htotal => ?_, fun hpad htotal hcount => ?_,
    fun hpad htotal hcount => ?_, ?_, hpasses.fits⟩
  · obtain ⟨hfull, -, -⟩ := acSymbol_after_renorm hcodes (hrenorm hpad)
    exact hfails (hfull htotal)
  · obtain ⟨-, hfull, -⟩ := acSymbol_after_renorm hcodes (hrenorm hpad)
    exact hfails (hfull htotal hcount)
  · obtain ⟨-, -, hcoded⟩ := acSymbol_after_renorm hcodes (hrenorm hpad)
    have hsymbol := hcoded htotal hcount
    rw [hsymbol, ok_bind] at hrule
    exact ⟨exec_completes hcarried hrule rfl, hcoder ▸ hpasses.intervalOk rfl rfl,
      acSymbol_valueOk hsymbol hp ha hwide hmax hregion⟩
  · have hcount : n ≤ s.par.p - 1 := hpasses.count
    omega

/-! ### Lockstep -/

/-- What a coded symbol writes, from any state (41 R94). -/
theorem acSymbol_writes {dec : Bool} {a : Nat} {s t : State} (h : acSymbol dec a s = .ok t) :
    ∃ u, renormLoop dec s.par.p (narrowed a s) = .ok u ∧
      t = { s with
        coder := u.coder
        buf := u.buf
        model := { s.model with count := countsAfter s a }
        ctl := { s.ctl with symCount := s.ctl.symCount + 1 } } := by
  rw [acSymbol_eq] at h
  obtain ⟨n, hnarrow, h⟩ := bind_eq_ok h
  obtain ⟨-, rfl⟩ := narrow_ok hnarrow
  obtain ⟨u, hrenorm, h⟩ := bind_eq_ok h
  rw [(renorm_frame hrenorm).same] at h
  obtain ⟨-, -, rfl⟩ := modelStep_ok (s := s) h
  exact ⟨u, hrenorm, by rw [(renorm_frame hrenorm).same]⟩

/-- A completed `AC_DEC_SYM` has returned the symbol it decoded (41 R101). -/
theorem rule_acDecSym_ok {s u : State} {v : Option Word} (h : rule .acDecSym s = .ok (v, u)) :
    ∃ a, a < s.alphabet ∧ v = some (BitVec.ofNat 32 a) ∧ acSymbol true a s = .ok u := by
  obtain ⟨_, -, h⟩ := bind_eq_ok h
  obtain ⟨a, hsearch, h⟩ := bind_eq_ok h
  obtain ⟨t, hsymbol, h⟩ := bind_eq_ok h
  obtain ⟨-, ha, -⟩ := search_ok hsearch
  cases h
  exact ⟨a, ha, rfl, hsymbol⟩

/-- What an encoder and a decoder in lockstep agree in. -/
structure InLockstep (e d : State) : Prop where
  par : e.par = d.par
  lo : e.coder.lo = d.coder.lo
  hi : e.coder.hi = d.coder.hi
  model : e.model = d.model
  acfg : e.ctl.acfg = d.ctl.acfg
  symCount : e.ctl.symCount = d.ctl.symCount

/-- The symbol step keeps the lockstep: the region, the passes and the model step depend on nothing else (41 R94). -/
theorem InLockstep.acSymbol {e d te td : State} {a : Nat} (h : InLockstep e d) (he : acSymbol false a e = .ok te)
    (hd : acSymbol true a d = .ok td) : InLockstep te td := by
  obtain ⟨ue, hre, rfl⟩ := acSymbol_writes he
  obtain ⟨ud, hrd, rfl⟩ := acSymbol_writes hd
  obtain ⟨hpar, hlo, hhi, hmodel, hacfg, hsym⟩ := h
  have hregion : e.regionLo a = d.regionLo a ∧ e.regionEnd a - 1 = d.regionEnd a - 1 := by
    simp only [State.regionLo, State.regionEnd, State.range, State.cumulative, State.total, State.countOf, State.alphabet, hlo, hhi, hmodel,
      hacfg, and_self]
  obtain ⟨hlo', hhi'⟩ := renormLoop_lockstep _ (narrowed a e) (narrowed a d) _ _ hpar hregion.1 hregion.2 hre (hpar ▸ hrd)
  have hcounts : countsAfter e a = countsAfter d a := by
    simp only [countsAfter, State.countOf, State.alphabet, hmodel, hacfg, hsym]
  exact ⟨hpar, hlo', hhi', by simp only [hmodel, hcounts], hacfg, congrArg (· + 1) hsym⟩

/-- Settles O49: both commands completed, with the same symbol, so each made its own symbol step for it. -/
theorem arithmeticCodersStayInLockstep : Obligations.ArithmeticCodersStayInLockstep := by
  intro e d te td a hpar hlo hhi hmodel hacfg hsym hefault hdfault ha hee htefault hed htdfault hresult
  obtain ⟨v, u, hrule, rfl⟩ := exec_completed hefault hee htefault
  obtain ⟨-, -, hesymbol, -⟩ := (rule_writes hrule).1
  obtain ⟨w, x, hrule', rfl⟩ := exec_completed hdfault hed htdfault
  obtain ⟨b, hb, rfl, hdsymbol⟩ := rule_acDecSym_ok hrule'
  have hk : d.alphabet < 2 ^ 16 := d.ctl.acfg.k.isLt
  have hba : b = a := by
    have := congrArg BitVec.toNat hresult
    simp only [State.complete_some_ctl, BitVec.toNat_ofNat] at this
    omega
  have hstep := InLockstep.acSymbol ⟨hpar, hlo, hhi, hmodel, hacfg, hsym⟩ hesymbol (hba ▸ hdsymbol)
  simp only [complete_coder, complete_model, complete_ctl_symCount]
  exact ⟨hstep.lo, hstep.hi, hstep.model, hstep.symCount⟩

end Sys2Proof.Machine
end

section
/-! PROOFS. Every step keeps the tree invariants, and no defect check fails: what a command does is in `writes_tree` and `fine_rule`, and
what the register window does of its own leaves the tree alone, or resets it. -/

namespace Sys2Proof.Machine

/-! ### Commands -/

/-- A command that is dropped, completes or faults keeps the tree invariants (60 R149, R150, R152). -/
theorem exec_tree {i : Instr} {s t : State} (hb : BlockInv s) (ht : TreeInv s) (he : exec i s = .next t) : TreeInv t := by
  rcases exec_outcomes he with rfl | ⟨v, u, hw, -, rfl⟩ | ⟨f, info, -, rfl⟩
  case inl => exact tree_same ht rfl rfl
  case inr.inl => exact tree_same (writes_tree hb ht hw) (complete_tree u v) (complete_ctl_acfg u v)
  case inr.inr => exact tree_same ht rfl rfl

/-- A word that is no command is dropped or faults (30 R70, R72). -/
theorem rejectCommand_tree {s : State} (ht : TreeInv s) (e : DecodeError) (c : Word) : TreeInv (rejectCommand e c s) := by
  unfold rejectCommand
  split
  · exact tree_same ht rfl rfl
  · exact tree_same ht rfl rfl

theorem deliverCommand_tree {c : Word} {s t : State} (hb : BlockInv s) (ht : TreeInv s) (hd : deliverCommand c s = .next t) : TreeInv t := by
  cases hdec : decode c with
  | ok i =>
    rw [deliverCommand_ok hdec] at hd
    exact exec_tree hb ht hd
  | error e =>
    rw [deliverCommand_error hdec] at hd
    cases hd
    exact rejectCommand_tree ht e c

/-! ### The register window -/

theorem popOutByte_tree {s : State} (ht : TreeInv s) : TreeInv (popOutByte s).2 := by
  unfold popOutByte
  split
  · exact tree_same ht rfl rfl
  · exact ht

/-- No read changes the tree (20 R57). -/
theorem hostRead_tree {s : State} (ht : TreeInv s) (off : BitVec 6) (w : Width) : TreeInv (hostRead off w s).2 := by
  cases hreg : registerOf off w with
  | none => rwa [hostRead_none hreg]
  | some r =>
    rw [hostRead_some hreg]
    by_cases hr : r = .outByte
    case neg => rwa [readRegister_state hr]
    case pos =>
      subst hr
      exact popOutByte_tree ht

/-- The tree after a reset is not valid (70 R164). -/
theorem treeInv_resetWith (par : Params) : TreeInv (State.resetWith par) := nofun

/-- A write of `CTRL` resets the tree with the block, or leaves it alone (10 R43, 70 R165). -/
theorem writeCtrl_tree {s : State} (ht : TreeInv s) (v : Word) : TreeInv (writeCtrl v s) := by
  rw [writeCtrl_eq]
  split
  · exact tree_same (treeInv_resetWith s.par) rfl rfl
  · exact tree_same ht rfl rfl

theorem pushInByte_tree {s : State} (ht : TreeInv s) (v : Word) : TreeInv (pushInByte v s) := by
  unfold pushInByte
  split
  · exact tree_same ht rfl rfl
  · exact tree_same ht rfl rfl

theorem writeRegister_tree {s : State} (ht : TreeInv s) (r : Register) (v : Word) : TreeInv (writeRegister r v s) := by
  cases r
  case ctrl => exact writeCtrl_tree ht v
  case inByte => exact pushInByte_tree ht v
  case cfgK | cfgN | cfgAlpha | cfgFlags => exact tree_same ht rfl rfl
  case id | status | cmd | result | faultInfo | faultCmd | outByte | param => exact ht

/-! ### The step -/

theorem applyAccess_tree {a : HostAccess} {s t : State} (hb : BlockInv s) (ht : TreeInv s) (ha : applyAccess a s = .next t) : TreeInv t := by
  cases a with
  | read off w =>
    cases ha
    exact tree_same (hostRead_tree ht off w) rfl rfl
  | write off w v =>
    simp only [applyAccess] at ha
    split at ha
    · cases ha
      exact ht
    · exact deliverCommand_tree hb ht ha
    · cases ha
      exact writeRegister_tree ht _ v

theorem step_tree {s t : State} (hb : BlockInv s) (ht : TreeInv s) (hs : step s = .next t) : TreeInv t := by
  cases hpend : s.host.pending with
  | nil =>
    rw [step_no_pending hpend] at hs
    cases hs
    exact ht
  | cons a rest =>
    rw [step_pending hpend] at hs
    refine applyAccess_tree (hb.withHost _) ?_ hs
    exact tree_same ht rfl rfl

/-- Settles O15: the next pending access is a read, a register write or a command, and each keeps the invariants; for a command
the argument is `writes_tree`, on what it writes when it completes. -/
theorem stepKeepsTreeInvariant : Obligations.StepKeepsTreeInvariant := fun _ _ => step_tree

/-! ### The defect checks -/

/-- A command that completes keeps the fault code or clears it (60 R153). -/
theorem writes_faultCode {i : Instr} {s u : State} (h : Writes i s u) : u.ctl.faultCode = s.ctl.faultCode ∨ u.ctl.faultCode = .none := by
  obtain ⟨-, -, -, -, -, hrecord, -⟩ := writes_ctl h
  exact hrecord.imp (fun ⟨_, _, hcode, _⟩ => hcode) fun ⟨_, hcode, _⟩ => hcode

/-- Settles O17: a command that records a fault has a rule that raised it, and in a state that meets the invariants no rule raises
`InvariantViolation` (`fine_rule`). -/
theorem invariantViolationIsUnreachable : Obligations.InvariantViolationIsUnreachable := by
  intro i s t hb ht hcode he
  rcases exec_next he with ⟨-, -, rfl⟩ | ⟨-, v, u, hrule, rfl⟩ | ⟨-, f, info, hrule, rfl⟩
  case inl => exact hcode
  case inr.inl =>
    rw [complete_ctl_faultCode]
    rcases writes_faultCode (rule_writes hrule).1 with hkept | hcleared
    · rwa [hkept]
    · rw [hcleared]
      nofun
  case inr.inr =>
    obtain ⟨f', info', hraised, hne⟩ := fine_rule i hb ht _ hrule
    cases hraised
    exact hne

end Sys2Proof.Machine
end

section
/-! PROOFS. The Huffman commands: the checks that open them pass, and `Laws/Huffman.lean` says what the tree's procedures do in a state that
meets the invariants. -/

namespace Sys2Proof.Machine

/-! ### The starts -/

/-- A legal configuration passes the tree's latch, unless it has REMOVE without GROWTH (45 R137). -/
theorem latch_tree_legal {s : State} (h : LegalConf s.par.kmax s.ctl.cfg) (hgrowth : s.ctl.cfg.remove = true → s.ctl.cfg.growth = true) :
    latch .tree s = .ok (s.withCtl { s.ctl with acfg := s.ctl.cfg }) := by
  rw [latch, latchError_legal ⟨h.k_min, h.k_max, h.alpha_min, h.alpha_max⟩ h.decay .tree fun _ => hgrowth]

/-- The stream state that both Huffman starts set up, with the initial tree (43 R116, R118). -/
def ahOpened (m : Mode) (tree : Tree) (s : State) : State :=
  { s with
    tree := tree
    model := { s.model with valid := false }
    coder := { lo := 0, hi := 0, value := 0, straddle := 0, padUsed := 0 }
    ctl := { s.ctl.cleared with acfg := s.ctl.cfg, mode := m, symCount := 0 } }

theorem ahStart_legal {s : State} {tree : Tree} (h : LegalConf s.par.kmax s.ctl.cfg)
    (hgrowth : s.ctl.cfg.remove = true → s.ctl.cfg.growth = true) (htree : treeInit s.ctl.cfg s.tree = .ok tree) (m : Mode) :
    ahStart m s = .ok (ahOpened m tree s) := by
  simp only [ahStart, latch_tree_legal h hgrowth, ok_bind, State.withCtl_ctl, State.withCtl_tree, htree]
  rfl

/-- Settles O50: both starts are carried out in every mode and fault state (60 R152), the configuration passes the tree's latch, and
`treeInit_ok` says what the initial tree is. -/
theorem ahStartsBuildTheInitialTree : Obligations.AhStartsBuildTheInitialTree := by
  intro s i m hi _ htables hconf hgrowth
  obtain ⟨tree, htree, hok, horder, hvalid, -, -, hgrown, hstatic⟩ := treeInit_ok (t := s.tree) (c := s.ctl.cfg) hconf.k_min
    (htables.pairs_length ▸ hconf.k_max) (htables.loc_length ▸ hconf.k_max)
  have hstart := ahStart_legal hconf hgrowth htree m
  have hcarried : CarriedOut i s := by rcases hi with ⟨rfl, -⟩ | ⟨rfl, -⟩ <;> exact .inl rfl
  have hrule : rule i s = .ok (none, ahOpened m tree s) := by
    rcases hi with ⟨rfl, rfl⟩ | ⟨rfl, rfl⟩
    · simp only [rule, ruleAhEncStart, hstart, ok_bind, returnNothing]
    · simp only [rule, ruleAhDecStart, hstart, ok_bind, returnNothing]
  exact ⟨tree, exec_completes hcarried hrule rfl, hvalid, hok, horder, hgrown, hstatic⟩

/-! ### A coded symbol -/

/-- How a command ends that has placed its symbol in the tree and then counts it: the root's weight is full, the symbol counter is full, or
the command completes (43 R115). -/
theorem exec_counts_symbol {i : Instr} {s : State} {a : Nat} {u : Tree} {buf : Buffers} {v : Option Word} (hb : BlockInv s) (ht : TreeInv s)
    (hfault : s.ctl.faultCode = .none) (hvalid : s.tree.valid = true) (ha : a < s.alphabet) (hplaced : Placed s.tree a u)
    (hrule : rule i s = (ahAfterSymbol a { s with tree := u, buf := buf } >>= fun t => .ok (v, t))) :
    (s.tree.rootW = 2 ^ 32 - 1 → FaultsWith i s .capacityExceeded 1) ∧
    (s.tree.rootW < 2 ^ 32 - 1 → s.ctl.symCount = 2 ^ 32 - 1 → FaultsWith i s .capacityExceeded 7) ∧
    (s.tree.rootW < 2 ^ 32 - 1 → s.ctl.symCount < 2 ^ 32 - 1 → ∃ tree : Tree,
      exec i s = .next (State.complete
        { s with tree := tree, buf := buf, ctl := { s.ctl with symCount := s.ctl.symCount + 1 } } v) ∧ CodedTree s a tree) := by
  have hcarried : CarriedOut i s := carriedOut_of_no_fault hfault
  obtain ⟨hcoded, hrootFull, hcountFull⟩ := coded_run hb ht hvalid ha hplaced
  refine ⟨fun hroot => ?_, fun hroot hcount => ?_, fun hroot hcount => ?_⟩
  · have hafter := hrootFull hroot { s with tree := u, buf := buf } rfl
    rw [hafter, raise_bind] at hrule
    exact faultsWith_of_rule hcarried hrule
  · have hafter := hcountFull hroot hcount { s with tree := u, buf := buf } rfl rfl rfl rfl
    rw [hafter, raise_bind] at hrule
    exact faultsWith_of_rule hcarried hrule
  · obtain ⟨tree, htree, hafter⟩ := hcoded hroot hcount
    rw [hafter { s with tree := u, buf := buf } rfl rfl rfl, ok_bind] at hrule
    exact ⟨tree, exec_completes hcarried hrule rfl, htree⟩

/-! ### The encoder -/

theorem rule_ahEncSym {s : State} {a : Nat} {code : List Bool} {u : Tree} (hmode : s.ctl.mode = .ahEnc) (ha : a < s.alphabet)
    (hcode : Codeword s a code) (hplaced : Placed s.tree a u) :
    rule (.ahEncSym a) s = (emitBits code s >>= fun t => ahAfterSymbol a (t.withTree u) >>= returnNothing) := by
  simp only [rule, ruleAhEncSym, requireMode_pass hmode, requireSymbol_pass ha, ahEmitSymbol_run hcode hplaced, ok_bind]
  cases emitBits code s <;> rfl

/-- Bits that do not fit a sink within its capacity are some bits, so the first that does not fit faults (44 R122). -/
theorem emitBits_overflow {s : State} {bits : List Bool} (hmax : s.buf.outBits.length ≤ s.par.outCap)
    (hfull : s.par.outCap < s.buf.outBits.length + bits.length) : emitBits bits s = raise .capacityExceeded 3 := by
  refine emitBits_full (fun hnil => ?_) hfull
  rw [hnil, List.length_nil] at hfull
  omega

/-- Settles O51: the symbol has a codeword and a place in the tree; the codeword overflows the sink, or it is emitted and
`exec_counts_symbol` has the outcomes. -/
theorem ahEncSymCodesTheSymbol : Obligations.AhEncSymCodesTheSymbol := by
  intro s a hb ht hfault hmode ha
  have hvalid := hb.tree_open (.inl hmode)
  have hhuff := huffOk_of hb ht hvalid
  obtain ⟨code, hcode, -⟩ := hhuff.codeword ha
  obtain ⟨u, hplaced, -⟩ := hhuff.place ha
  have hrule := rule_ahEncSym hmode ha hcode hplaced
  have hoverflow : s.par.outCap < s.buf.outBits.length + code.length → FaultsWith (.ahEncSym a) s .capacityExceeded 3 := by
    intro hfull
    rw [emitBits_overflow hb.widths.outBits_max hfull, raise_bind] at hrule
    exact faultsWith_of_rule (carriedOut_of_no_fault hfault) hrule
  have hemitted := fun hroom : s.buf.outBits.length + code.length ≤ s.par.outCap =>
    exec_counts_symbol (v := none) hb ht hfault hvalid ha hplaced (by rw [hrule, emitBits_fits hroom, ok_bind]; rfl)
  refine ⟨code, hcode, hoverflow, fun hroom => ?_, fun hroom => ?_, fun hroom => ?_⟩
  · obtain ⟨hrootFull, -, -⟩ := hemitted hroom
    exact hrootFull
  · obtain ⟨-, hcountFull, -⟩ := hemitted hroom
    exact hcountFull
  · obtain ⟨-, -, hcoded⟩ := hemitted hroom
    exact hcoded

/-! ### The decoder -/

theorem rule_ahDecSym {s : State} (hmode : s.ctl.mode = .ahDec) :
    rule .ahDecSym s = (treeWalk s >>= fun r => ahAfterSymbol r.1 r.2 >>= returnNat r.1) := by
  simp only [rule, ruleAhDecSym, requireMode_pass hmode, ok_bind]

/-- A fault of the walk down is the command's (42 R114). -/
theorem ahDecSym_fails {s : State} {f : FaultCode} {info : Nat} (hfault : s.ctl.faultCode = .none) (hmode : s.ctl.mode = .ahDec)
    (hwalk : treeWalk s = raise f info) : FaultsWith .ahDecSym s f info := by
  have hrule := rule_ahDecSym hmode
  rw [hwalk, raise_bind] at hrule
  exact faultsWith_of_rule (carriedOut_of_no_fault hfault) hrule

/-- Settles O52: the walk down reads a codeword back (`treeWalk_run`), and `exec_counts_symbol` has the outcomes of counting the symbol; an
input that ends inside a codeword, or goes on with a raw code that is no new symbol's, stops the walk. -/
theorem ahDecSymReturnsTheSymbol : Obligations.AhDecSymReturnsTheSymbol := by
  intro s hb ht hfault hmode input
  have hvalid := hb.tree_open (.inr hmode)
  have hhuff := huffOk_of hb ht hvalid
  refine ⟨fun a code rest ha hcode hinput => ?_, fun x path tail hx hpath hcut htail => ?_, fun path raw more hnyt hpath => ?_⟩
  · obtain ⟨u, hplaced, -⟩ := hhuff.place ha
    have hwalk := treeWalk_run hhuff ha hcode hplaced rfl rfl hinput
    exact exec_counts_symbol (v := some (BitVec.ofNat 32 a)) hb ht hfault hvalid ha hplaced
      (by rw [rule_ahDecSym hmode, hwalk, ok_bind]; rfl)
  · exact ahDecSym_fails hfault hmode (treeWalk_short hhuff.shape hx hpath hcut htail)
  · obtain ⟨hshort, hwhole⟩ := treeWalk_raw (raw := raw) hhuff.shape hnyt hpath
    refine ⟨fun hinput hlength => ahDecSym_fails hfault hmode (hshort hinput hlength), fun hinput hlength => ?_⟩
    obtain ⟨houtside, hpresent⟩ := hwhole more hinput hlength
    exact ⟨fun hvalue => ahDecSym_fails hfault hmode (houtside hvalue),
      fun hvalue hloc => ahDecSym_fails hfault hmode (hpresent hvalue hloc)⟩

/-! ### The update outside a stream -/

theorem rule_ahUpdate {s : State} {a : Nat} (hmode : s.ctl.mode = .idle) (hvalid : s.tree.valid = true) (ha : a < s.alphabet) :
    rule (.ahUpdate a) s = if s.tree.locOf (.sym a) = .absent then raise .streamInconsistent a else updateTree a s >>= returnNothing := by
  simp only [rule, ruleAhUpdate, requireIdleTree_pass hmode hvalid, requireSymbol_pass ha, ok_bind]

/-- A leaf that has a weight has a location (10 R31). -/
theorem loc_of_leafWeight {t : Tree} {x : Key} {w : Nat} (h : leafWeight t x = some w) : t.locOf x ≠ .absent := by
  intro habsent
  rw [leafWeight_absent habsent] at h
  cases h

theorem updateTree_full {s : State} {a : Nat} (h : s.tree.rootW = Config.countMax) : updateTree a s = raise .capacityExceeded 1 := by
  rw [updateTree, treeUpdate, if_pos h, raise_bind]

/-- Settles O54: a symbol of the tree has its walk (`treeUpdate_climbed`), and `treeUpdate_ok` says what the walk leaves. -/
theorem ahUpdateCountsTheLeaf : Obligations.AhUpdateCountsTheLeaf := by
  intro s a hb ht hfault hmode hvalid ha
  have hhuff := huffOk_of hb ht hvalid
  have hcarried : CarriedOut (.ahUpdate a) s := carriedOut_of_no_fault hfault
  have hrule := rule_ahUpdate hmode hvalid ha
  refine ⟨fun habsent => ?_, fun hloc hroot => ?_, fun w hw hroot => ?_⟩
  · rw [if_pos habsent] at hrule
    exact faultsWith_of_rule hcarried hrule
  · rw [if_neg hloc, updateTree_full hroot, raise_bind] at hrule
    exact faultsWith_of_rule hcarried hrule
  · have hloc := loc_of_leafWeight hw
    obtain ⟨tree, hupdate, hok, hgrown⟩ := treeUpdate_ok hhuff.tree hhuff.size hloc hroot
    rw [if_neg hloc, updateTree_run hupdate (hhuff.of_sizes hok (treeUpdate_sizes hupdate)), ok_bind] at hrule
    refine ⟨tree, exec_completes hcarried hrule rfl, hgrown.valid.trans hvalid, hok, treeUpdate_climbed hhuff.tree hhuff.size hloc hupdate,
      hgrown.m, hgrown.rootW, ?_, fun x hx => ?_⟩
    · rw [hgrown.weight, if_pos rfl, hw, Option.map_some]
    · rw [hgrown.weight, if_neg fun heq => hx (Option.some.inj heq).symm]

end Sys2Proof.Machine
end

section
/-! PROOFS. What the Huffman commands leave unchanged: `Writes` says what a completing one writes, and the tree's procedures keep
`TREE_VALID`. -/

namespace Sys2Proof.Machine

/-- 43 R116, R118: what the starts leave unchanged. -/
theorem writes_ahStart_frame {i : Instr} {s u : State} (h : Writes i s u) (hi : i = .ahEncStart ∨ i = .ahDecStart) :
    u.buf = s.buf ∧ u.model.count = s.model.count := by
  rcases hi with rfl | rfl
  all_goals
    obtain ⟨-, -, hu⟩ := h
    rw [hu]
    exact ⟨rfl, rfl⟩

/-- 43 R117, R119 to R121: the commands on a tree keep it valid, or not. -/
theorem writes_huffman_valid {i : Instr} {s u : State} (h : Writes i s u)
    (hi : (∃ a, i = .ahEncSym a) ∨ i = .ahDecSym ∨ (∃ a, i = .ahUpdate a) ∨ i = .ahDecay) : u.tree.valid = s.tree.valid := by
  rcases hi with ⟨a, rfl⟩ | rfl | ⟨a, rfl⟩ | rfl
  · obtain ⟨-, -, -, ⟨v, hemit, hafter⟩, -⟩ := h
    exact ((ahEmitSymbol_sizes hemit).trans (ahAfterSymbol_sizes hafter)).valid
  · obtain ⟨-, -, ⟨a, v, hwalk, hafter⟩, -⟩ := h
    exact ((treeWalk_sizes hwalk).trans (ahAfterSymbol_sizes hafter)).valid
  · obtain ⟨-, -, -, -, hupdate, -⟩ := h
    obtain ⟨tree, htree, -, rfl⟩ := updateTree_ok hupdate
    exact (treeUpdate_sizes htree).valid
  · obtain ⟨-, -, hdecay, -⟩ := h
    obtain ⟨tree, htree, -, rfl⟩ := decayTree_ok hdecay
    exact (treeDecay_sizes htree).valid

/-- 43 R117: what the encoder leaves unchanged of the buffers. -/
theorem writes_ahEncSym_buf {a : Nat} {s u : State} (h : Writes (.ahEncSym a) s u) :
    u.buf = { s.buf with outBits := u.buf.outBits } ∧ s.buf.outBits <+: u.buf.outBits := by
  obtain ⟨-, -, -, -, bits, -, hu⟩ := h
  rw [hu]
  exact ⟨rfl, bits, rfl⟩

/-- 43 R119: what the decoder leaves unchanged of the buffers. -/
theorem writes_ahDecSym_buf {s u : State} (h : Writes .ahDecSym s u) :
    u.buf = { s.buf with inPos := u.buf.inPos } ∧ s.buf.inPos ≤ u.buf.inPos := by
  obtain ⟨-, -, -, hpos, hu⟩ := h
  exact ⟨congrArg State.buf hu, hpos⟩

/-- 43 R120, R121: the commands on a tree outside a stream write nothing but the tree. -/
theorem writes_treeCommand {i : Instr} {s u : State} (h : Writes i s u) (hi : (∃ a, i = .ahUpdate a) ∨ i = .ahDecay) :
    u = { s with tree := u.tree } := by
  rcases hi with ⟨a, rfl⟩ | rfl
  · obtain ⟨-, -, -, -, -, hu⟩ := h
    exact hu
  · obtain ⟨-, -, -, hu⟩ := h
    exact hu

/-- 43 R117, R119 to R121: what all commands on a tree leave unchanged. -/
theorem writes_huffman_frame {i : Instr} {s u : State} (h : Writes i s u)
    (hi : (∃ a, i = .ahEncSym a) ∨ i = .ahDecSym ∨ (∃ a, i = .ahUpdate a) ∨ i = .ahDecay) :
    u.model = s.model ∧ u.coder = s.coder ∧ u.ctl.mode = s.ctl.mode ∧ u.ctl.acfg = s.ctl.acfg ∧ u.tree.valid = s.tree.valid ∧
    u.buf.inBits = s.buf.inBits ∧ u.buf.inBytes = s.buf.inBytes ∧ u.buf.outBytes = s.buf.outBytes := by
  rw [writes_huffman_valid h hi]
  rcases hi with ⟨a, rfl⟩ | rfl | hi
  · obtain ⟨-, -, -, -, bits, -, hu⟩ := h
    rw [hu]
    exact ⟨rfl, rfl, rfl, rfl, rfl, rfl, rfl, rfl⟩
  · obtain ⟨-, -, -, -, hu⟩ := h
    rw [hu]
    exact ⟨rfl, rfl, rfl, rfl, rfl, rfl, rfl, rfl⟩
  · rw [writes_treeCommand h hi]
    exact ⟨rfl, rfl, rfl, rfl, rfl, rfl, rfl, rfl⟩

/-- Settles O58: each clause is the frame of what its commands write, and holds of itself where nothing is written. -/
theorem huffmanFrame : Obligations.HuffmanFrame := by
  intro i s t h
  obtain ⟨u, hu, hsame⟩ := exec_effect h
  rw [hsame.coder, hsame.model, hsame.tree, hsame.buf, hsame.mode, hsame.symCount, hsame.acfg]
  rcases hu with rfl | hw
  · exact ⟨fun _ => ⟨rfl, rfl⟩, fun _ => ⟨rfl, rfl, rfl, rfl, rfl, rfl, rfl, rfl⟩, fun _ => ⟨rfl, List.prefix_refl _⟩,
      fun _ => ⟨rfl, le_rfl⟩, fun _ => ⟨rfl, rfl⟩⟩
  · refine ⟨writes_ahStart_frame hw, writes_huffman_frame hw, ?_, ?_, fun hi => ?_⟩
    · rintro ⟨a, rfl⟩
      obtain ⟨hbuf, hout⟩ := writes_ahEncSym_buf hw
      exact ⟨by rw [hbuf], hout⟩
    · rintro rfl
      obtain ⟨hbuf, hpos⟩ := writes_ahDecSym_buf hw
      exact ⟨by rw [hbuf], hpos⟩
    · rw [writes_treeCommand hw hi]
      exact ⟨rfl, rfl⟩

end Sys2Proof.Machine
end

section
/-! PROOFS. The Huffman coders in lockstep: the encoder emits the symbol's codeword, the decoder reads it back (`treeWalk_run`), and both
count the symbol in the same tree (`coded_run`). -/

namespace Sys2Proof.Machine

/-- Counting a placed symbol depends on the tree, the configuration and the symbol counter alone: where it completes in one state, it
completes with the same tree in every state that agrees in them (43 R115). -/
theorem ahAfterSymbol_agrees {s x t : State} {a : Nat} {placed : Tree} (hb : BlockInv s) (ht : TreeInv s) (hvalid : s.tree.valid = true)
    (ha : a < s.alphabet) (hplaced : Placed s.tree a placed) (h : ahAfterSymbol a x = .ok t)
    (hxtree : x.tree = placed) (hxacfg : x.ctl.acfg = s.ctl.acfg) (hxcount : x.ctl.symCount = s.ctl.symCount) :
    ∀ d : State, d.tree = placed → d.ctl.acfg = s.ctl.acfg → d.ctl.symCount = s.ctl.symCount →
      ahAfterSymbol a d = .ok { d with tree := t.tree, ctl := { d.ctl with symCount := d.ctl.symCount + 1 } } := by
  obtain ⟨hcoded, hrootFull, -⟩ := coded_run hb ht hvalid ha hplaced
  have hcount : s.ctl.symCount < Config.wordMax := hxcount ▸ (ahAfterSymbol_frame h).1
  have hroot : s.tree.rootW < Config.countMax := by
    refine lt_of_le_of_ne (ht hvalid).weight_max fun hfull => ?_
    rw [hrootFull hfull x hxtree] at h
    cases h
  obtain ⟨tree, -, hafter⟩ := hcoded hroot hcount
  rw [hafter x hxtree hxacfg hxcount] at h
  cases h
  exact hafter

/-- What a completed `AH_ENC_SYM` has done: it emitted the codeword of a symbol of the alphabet, placed the symbol, and counted it
(43 R117). -/
theorem rule_ahEncSym_ok {s u : State} {a : Nat} {v : Option Word} (hb : BlockInv s) (ht : TreeInv s)
    (h : rule (.ahEncSym a) s = .ok (v, u)) :
    s.tree.valid = true ∧ a < s.alphabet ∧ ∃ code placed, Codeword s a code ∧ Placed s.tree a placed ∧
      ahAfterSymbol a { s with tree := placed, buf := { s.buf with outBits := s.buf.outBits ++ code } } = .ok u := by
  obtain ⟨hmode, ha, -⟩ := (rule_writes h).1
  have hvalid := hb.tree_open (.inl hmode)
  have hhuff := huffOk_of hb ht hvalid
  obtain ⟨code, hcode, -⟩ := hhuff.codeword ha
  obtain ⟨placed, hplaced, -⟩ := hhuff.place ha
  rw [rule_ahEncSym hmode ha hcode hplaced] at h
  obtain ⟨x, hemit, h⟩ := bind_eq_ok h
  obtain ⟨-, rfl⟩ := emitBits_ok hemit
  obtain ⟨w, hafter, h⟩ := bind_eq_ok h
  cases h
  exact ⟨hvalid, ha, code, placed, hcode, hplaced, hafter⟩

/-- Settles O53: the bits emitted are the symbol's codeword, so the decoder's walk returns the symbol and the tree it is placed in; counting
it then gives the encoder's tree. -/
theorem huffmanCodersStayInLockstep : Obligations.HuffmanCodersStayInLockstep := by
  intro e d te a bits rest hb ht _ htree hacfg hsym hefault hdfault hmode hexec htefault hout hinput
  obtain ⟨v, u, hrule, rfl⟩ := exec_completed hefault hexec htefault
  obtain ⟨hvalid, ha, code, placed, hcode, hplaced, hafter⟩ := rule_ahEncSym_ok hb ht hrule
  obtain ⟨-, hu⟩ := ahAfterSymbol_frame hafter
  have hemitted : (u.complete v).buf.outBits = e.buf.outBits ++ code := by rw [complete_buf, hu]
  have hcount : (u.complete v).ctl.symCount = d.ctl.symCount + 1 := by rw [complete_ctl_symCount, hu, hsym]
  obtain rfl : code = bits := List.append_cancel_left (hemitted.symm.trans hout)
  have hwalk := treeWalk_run (huffOk_of hb ht hvalid) ha hcode hplaced htree.symm hacfg.symm hinput
  have hcounted := ahAfterSymbol_agrees hb ht hvalid ha hplaced hafter rfl rfl rfl
    { d with tree := placed, buf := { d.buf with inPos := d.buf.inPos + code.length } } rfl hacfg.symm hsym.symm
  have hrule' := rule_ahDecSym hmode
  rw [hwalk, ok_bind, hcounted, ok_bind] at hrule'
  exact ⟨_, exec_completes (carriedOut_of_no_fault hdfault) hrule' rfl, hdfault, rfl, rfl, (complete_tree u v).symm, hcount.symm, rfl⟩

end Sys2Proof.Machine
end

section
/-! PROOFS. The bit-serializer's commands on single bits and whole buffers (44 R126 to R129, R134 to R136): each rule has one check, and a word
with a reserved operand bit is rejected by the decoder. -/

namespace Sys2Proof.Machine

/-! ### Reserved operand bits -/

/-- A word with a reserved operand bit set faults where its opcode is carried out (30 R70, 60 R152). -/
theorem deliverCommand_reserved {c : Word} {s : State} {op : Nat} (hop : opcodeOf c = op) (hres : ReservedBitSet c)
    (hcarried : s.ctl.faultCode = .none ∨ op ∈ faultStateOpcodes) :
    deliverCommand c s = .next (faultRecorded s .illegalCommand (BitVec.ofNat 32 (0x100 + op)) c) := by
  subst hop
  rw [deliverCommand_error (decode_reserved hres), rejectCommand_faults hcarried]
  rfl

/-! ### Whole buffers -/

theorem rule_bsLoopback_fits {s : State} (h : s.buf.outBits.length ≤ s.par.inCap) :
    rule .bsLoopback s = .ok (none, (s.withBuf { s.buf with inBits := s.buf.outBits, inPos := 0 }).withCoder { s.coder with padUsed := 0 }) :=
  if_neg (by omega)

theorem rule_bsLoopback_full {s : State} (h : s.par.inCap < s.buf.outBits.length) : rule .bsLoopback s = raise .capacityExceeded 4 :=
  if_pos h

/-- Settles O31: the two clears check nothing and are carried out in the fault state too (60 R152); the loopback checks the source's
capacity. -/
theorem clearAndLoopbackSetTheBuffers : Obligations.ClearAndLoopbackSetTheBuffers := by
  intro s
  refine ⟨exec_completes (.inl rfl) rfl rfl, exec_completes (.inl rfl) rfl rfl, fun hfault hfits => ?_, fun hfault hfull => ?_,
    fun c himm => ⟨fun hop => ?_, fun hop => ?_, fun hop hfault => ?_⟩⟩
  · exact exec_completes (carriedOut_of_no_fault hfault) (rule_bsLoopback_fits hfits) rfl
  · exact faultsWith_of_rule (carriedOut_of_no_fault hfault) (rule_bsLoopback_full hfull)
  · exact deliverCommand_reserved hop (.inl ⟨by rw [hop]; decide, himm⟩) (.inr (by decide))
  · exact deliverCommand_reserved hop (.inl ⟨by rw [hop]; decide, himm⟩) (.inr (by decide))
  · exact deliverCommand_reserved hop (.inl ⟨by rw [hop]; decide, himm⟩) (.inl hfault)

/-! ### Appending a bit -/

theorem emit_room {b : Bool} {s : State} (h : s.buf.outBits.length < s.par.outCap) :
    emit b s = .ok (s.withBuf { s.buf with outBits := s.buf.outBits ++ [b] }) := if_neg (by omega)

theorem emit_full {b : Bool} {s : State} (h : s.par.outCap ≤ s.buf.outBits.length) : emit b s = raise .capacityExceeded 3 := if_pos h

theorem rule_bsPutBit (b : Bool) (s : State) : rule (.bsPutBit b) s = (emit b s >>= returnNothing) := rfl

theorem rule_bsInBit_room {b : Bool} {s : State} (h : s.buf.inBits.length < s.par.inCap) :
    rule (.bsInBit b) s = .ok (none, s.withBuf { s.buf with inBits := s.buf.inBits ++ [b] }) := if_neg (by omega)

theorem rule_bsInBit_full {b : Bool} {s : State} (h : s.par.inCap ≤ s.buf.inBits.length) : rule (.bsInBit b) s = raise .capacityExceeded 4 :=
  if_pos h

/-- Settles O32: the sink's check is `emit`'s, the source's is `BS_IN_BIT`'s own. -/
theorem bitAppendsOrCapacityFault : Obligations.BitAppendsOrCapacityFault := by
  intro s b hfault
  have hput := rule_bsPutBit b s
  refine ⟨fun hroom => ?_, fun hfull => ?_, fun hroom => ?_, fun hfull => ?_, fun c himm => ⟨fun hop => ?_, fun hop => ?_⟩⟩
  · rw [emit_room hroom, ok_bind] at hput
    exact exec_completes (carriedOut_of_no_fault hfault) hput rfl
  · rw [emit_full hfull, raise_bind] at hput
    exact faultsWith_of_rule (carriedOut_of_no_fault hfault) hput
  · exact exec_completes (carriedOut_of_no_fault hfault) (rule_bsInBit_room hroom) rfl
  · exact faultsWith_of_rule (carriedOut_of_no_fault hfault) (rule_bsInBit_full hfull)
  · exact deliverCommand_reserved hop (.inr ⟨by rw [hop]; decide, himm⟩) (.inl hfault)
  · exact deliverCommand_reserved hop (.inr ⟨by rw [hop]; decide, himm⟩) (.inl hfault)

/-! ### Reading a bit -/

theorem rule_bsGetBit (s : State) : rule .bsGetBit s = (nextBit s >>= fun r => returnNat r.1.toNat r.2) := rfl

theorem rule_bsPeekOut_some {i : Nat} {b : Bool} {s : State} (h : s.buf.outBits[i]? = some b) :
    rule (.bsPeekOut i) s = returnNat b.toNat s := by
  simp only [rule, ruleBsPeekOut, h]

theorem rule_bsPeekOut_none {i : Nat} {s : State} (h : s.buf.outBits[i]? = none) : rule (.bsPeekOut i) s = raise .operandRange i := by
  simp only [rule, ruleBsPeekOut, h]

/-- Settles O33: both reads look a position up in a buffer, which holds a bit there or ends before it. -/
theorem bitReadsOrRangeFault : Obligations.BitReadsOrRangeFault := by
  intro s hfault
  have hget := rule_bsGetBit s
  refine ⟨fun hin => ?_, fun hend => ?_, fun i hin => ?_, fun i hend => ?_⟩
  · rw [nextBit_some (List.getElem?_eq_getElem hin), ok_bind] at hget
    exact exec_completes (carriedOut_of_no_fault hfault) hget rfl
  · rw [nextBit_none (List.getElem?_eq_none hend), raise_bind] at hget
    exact faultsWith_of_rule (carriedOut_of_no_fault hfault) hget
  · exact returns_of_rule (carriedOut_of_no_fault hfault) (rule_bsPeekOut_some (List.getElem?_eq_getElem hin))
  · exact faultsWith_of_rule (carriedOut_of_no_fault hfault) (rule_bsPeekOut_none (List.getElem?_eq_none hend))

end Sys2Proof.Machine
end

section
/-! PROOFS. The Elias-gamma commands (44 R130, R131): the number of leading zeros is the exponent of `n + 1`, and the digits behind them stand
for it. -/

namespace Sys2Proof.Machine

/-! ### The code -/

/-- The code of `n`, with `k` the exponent of `n + 1` (44 R125). -/
theorem gammaCode_eq {n k : Nat} (hlow : 2 ^ k ≤ n + 1) (hhigh : n + 1 < 2 ^ (k + 1)) :
    gammaCode n = List.replicate k false ++ bitsMSB (n + 1) (k + 1) := by
  have hlog : Nat.log2 (n + 1) = k := (Nat.log2_eq_iff (Nat.succ_ne_zero n)).2 ⟨hlow, hhigh⟩
  rw [gammaCode, hlog]

theorem rule_bsGammaPut (n : Nat) (s : State) : rule (.bsGammaPut n) s = (emitBits (gammaCode n) s >>= returnNothing) := rfl

/-- Settles O34: the digits are those of `n + 1` modulo `2^(k+1)`, which is `n + 1`; the code is emitted whole or not at all. -/
theorem gammaPutAppendsTheCode : Obligations.GammaPutAppendsTheCode := by
  intro s n k hfault hlow hhigh
  have hcode := gammaCode_eq hlow hhigh
  have hlength : (gammaCode n).length = 2 * k + 1 := by
    rw [hcode, List.length_append, List.length_replicate, bitsMSB_length]
    omega
  have hrule := rule_bsGammaPut n s
  refine ⟨fun hroom => ⟨bitsMSB (n + 1) (k + 1), bitsMSB_length _ _, ?_, ?_⟩, fun hfull => ?_⟩
  · rw [bitsValue_eq, bitsFrom_bitsMSB, Nat.mod_eq_of_lt hhigh]
  · rw [emitBits_fits (by omega), ok_bind, hcode, ← List.append_assoc] at hrule
    exact exec_completes (carriedOut_of_no_fault hfault) hrule rfl
  · have hne : gammaCode n ≠ [] := List.ne_nil_of_length_pos (by omega)
    rw [emitBits_full hne (by omega), raise_bind] at hrule
    exact faultsWith_of_rule (carriedOut_of_no_fault hfault) hrule

/-! ### The leading zeros -/

theorem nextBit_of_drop {b : Bool} {rest : List Bool} {s : State} (h : s.buf.inBits.drop s.buf.inPos = b :: rest) :
    nextBit s = .ok (b, s.withBuf { s.buf with inPos := s.buf.inPos + 1 }) :=
  nextBit_some (by rw [← List.head?_drop, h, List.head?_cons])

theorem nextBit_of_drop_nil {s : State} (h : s.buf.inBits.drop s.buf.inPos = []) : nextBit s = raise .truncatedStream 0 :=
  nextBit_none (List.getElem?_eq_none (List.drop_eq_nil_iff.1 h))

theorem gammaZeros_of_error {left k : Nat} {s : State} {e : Stop} (h : nextBit s = .error e) : gammaZeros left k s = .error e := by
  simp only [gammaZeros.eq_def left, h]

theorem gammaZeros_of_true {left k : Nat} {s t : State} (h : nextBit s = .ok (true, t)) : gammaZeros left k s = .ok (k, t) := by
  simp only [gammaZeros.eq_def left, h]

theorem gammaZeros_zero_of_false {k : Nat} {s t : State} (h : nextBit s = .ok (false, t)) : gammaZeros 0 k s = raise .capacityExceeded 6 := by
  simp only [gammaZeros.eq_def 0, h]

theorem gammaZeros_succ_of_false {left k : Nat} {s t : State} (h : nextBit s = .ok (false, t)) :
    gammaZeros (left + 1) k s = gammaZeros left (k + 1) t := by
  simp only [gammaZeros.eq_def (left + 1), h]

/-- Zeros within the limit are counted and left behind: as many fewer may follow them. -/
theorem gammaZeros_replicate {z left k : Nat} {rest : List Bool} {s : State}
    (h : s.buf.inBits.drop s.buf.inPos = List.replicate z false ++ rest) :
    gammaZeros (z + left) k s = gammaZeros left (k + z) (s.withBuf { s.buf with inPos := s.buf.inPos + z }) := by
  induction z generalizing k s with
  | zero =>
    rw [Nat.zero_add]
    rfl
  | succ z ih =>
    rw [List.replicate_succ, List.cons_append] at h
    have hrest : s.buf.inBits.drop (s.buf.inPos + 1) = List.replicate z false ++ rest := by
      rw [← List.tail_drop, h, List.tail_cons]
    rw [Nat.succ_add, gammaZeros_succ_of_false (nextBit_of_drop h), ih hrest, Nat.add_assoc k, Nat.add_comm 1 z]
    simp only [State.withBuf, Nat.add_assoc, Nat.add_comm 1 z]

/-- What follows `z` zeros, for the state that has read them. -/
theorem drop_past_replicate {z : Nat} {bits rest : List Bool} {p : Nat} (h : bits.drop p = List.replicate z false ++ rest) :
    bits.drop (p + z) = rest := by
  rw [← List.drop_drop, h, List.drop_left' List.length_replicate]

/-- The leading zeros of a code, and its leading 1. -/
theorem gammaZeros_code {z : Nat} {rest : List Bool} {s : State} (hz : z ≤ 31)
    (h : s.buf.inBits.drop s.buf.inPos = List.replicate z false ++ true :: rest) :
    gammaZeros 31 0 s = .ok (z, s.withBuf { s.buf with inPos := s.buf.inPos + z + 1 }) := by
  obtain ⟨left, hleft⟩ := Nat.exists_eq_add_of_le hz
  rw [hleft, gammaZeros_replicate h, Nat.zero_add]
  exact gammaZeros_of_true (nextBit_of_drop (drop_past_replicate h))

/-- The input ends inside the leading zeros. -/
theorem gammaZeros_ends {z : Nat} {s : State} (hz : z ≤ 31) (h : s.buf.inBits.drop s.buf.inPos = List.replicate z false) :
    gammaZeros 31 0 s = raise .truncatedStream 0 := by
  obtain ⟨left, hleft⟩ := Nat.exists_eq_add_of_le hz
  rw [← List.append_nil (List.replicate z false)] at h
  rw [hleft, gammaZeros_replicate h]
  exact gammaZeros_of_error (nextBit_of_drop_nil (drop_past_replicate h))

/-- 32 leading zeros are too many. -/
theorem gammaZeros_full {rest : List Bool} {s : State} (h : s.buf.inBits.drop s.buf.inPos = List.replicate 32 false ++ rest) :
    gammaZeros 31 0 s = raise .capacityExceeded 6 := by
  rw [List.replicate_succ', List.append_assoc] at h
  rw [gammaZeros_replicate (z := 31) (left := 0) h]
  exact gammaZeros_zero_of_false (nextBit_of_drop (drop_past_replicate h))

/-! ### The command -/

theorem rule_bsGammaGet (s : State) :
    rule .bsGammaGet s = (gammaZeros 31 0 s >>= fun r => gatherBits r.1 1 r.2 >>= fun q => returnNat (q.1 - 1) q.2) := rfl

/-- Settles O35: the zeros before the first 1 tell how many digits `gatherBits` reads behind it. -/
theorem gammaGetReadsTheCode : Obligations.GammaGetReadsTheCode := by
  intro s k digits rest hfault
  have hrule := rule_bsGammaGet s
  refine ⟨fun hk hdigits hin => ?_, fun hk hdigits hin => ?_, fun hk hin => ?_, fun hin => ?_⟩
  · rw [List.append_assoc, List.cons_append] at hin
    have hbehind : s.buf.inBits.drop (s.buf.inPos + k + 1) = digits ++ rest := by
      rw [← List.tail_drop, drop_past_replicate hin, List.tail_cons]
    subst hdigits
    rw [gammaZeros_code hk hin, ok_bind, gatherBits_ok hbehind, ok_bind] at hrule
    refine exec_completes (carriedOut_of_no_fault hfault) hrule ?_
    have hpos : s.buf.inPos + (2 * digits.length + 1) = s.buf.inPos + digits.length + 1 + digits.length := by omega
    rw [hpos]
    rfl
  · have hbehind : s.buf.inBits.drop (s.buf.inPos + k + 1) = digits := by
      rw [← List.tail_drop, drop_past_replicate hin, List.tail_cons]
    have hshort : (s.buf.inBits.drop (s.buf.inPos + k + 1)).length < k := hbehind ▸ hdigits
    rw [gammaZeros_code hk hin, ok_bind, gatherBits_short hshort, raise_bind] at hrule
    exact faultsWith_of_rule (carriedOut_of_no_fault hfault) hrule
  · rw [gammaZeros_ends hk hin, raise_bind] at hrule
    exact faultsWith_of_rule (carriedOut_of_no_fault hfault) hrule
  · rw [gammaZeros_full hin, raise_bind] at hrule
    exact faultsWith_of_rule (carriedOut_of_no_fault hfault) hrule

end Sys2Proof.Machine
end

section
/-! PROOFS. `BS_PACK` and `BS_UNPACK` (44 R132, R133): bytes and whole groups of eight bits stand for each other, and the 3-bit count in front is
read back. -/

namespace Sys2Proof.Machine

/-! ### Digits -/

/-- The digits of the number that bits stand for are the bits, whatever stands before them. -/
theorem bitsMSB_bitsFrom (v : Nat) (bits : List Bool) : bitsMSB (bitsFrom v bits) bits.length = bits := by
  induction bits generalizing v with
  | nil => rfl
  | cons b bs ih =>
    have hdigit : (bitsFrom (2 * v + b.toNat) bs).testBit bs.length = b := by
      rw [bitsFrom_eq, Nat.mul_comm, Nat.testBit_two_pow_mul_add _ (bitsFrom_lt bs), if_neg (lt_irrefl _), Nat.sub_self]
      cases b <;> simp
    rw [bitsFrom_cons, List.length_cons, bitsMSB, hdigit, ih]

/-! ### Bytes -/

theorem byteOfBits_toNat (b7 b6 b5 b4 b3 b2 b1 b0 : Bool) :
    (byteOfBits b7 b6 b5 b4 b3 b2 b1 b0).toNat = bitsFrom 0 [b7, b6, b5, b4, b3, b2, b1, b0] := by
  have hvalue : bitsFrom 0 [b7, b6, b5, b4, b3, b2, b1, b0]
      = 128 * b7.toNat + 64 * b6.toNat + 32 * b5.toNat + 16 * b4.toNat + 8 * b3.toNat + 4 * b2.toNat + 2 * b1.toNat + b0.toNat := by
    simp only [bitsFrom_cons, bitsFrom_nil]
    omega
  rw [byteOfBits, BitVec.toNat_ofNat, ← hvalue]
  exact Nat.mod_eq_of_lt (bitsFrom_lt _)

theorem unpackBytes_cons (v : Byte) (bytes : List Byte) : unpackBytes (v :: bytes) = bitsMSB v.toNat 8 ++ unpackBytes bytes := rfl

/-- The bits of a byte written out, as the statements do. -/
theorem unpackBytes_eq (bytes : List Byte) : unpackBytes bytes =
    bytes.flatMap fun v => [v.getLsbD 7, v.getLsbD 6, v.getLsbD 5, v.getLsbD 4, v.getLsbD 3, v.getLsbD 2, v.getLsbD 1, v.getLsbD 0] := rfl

theorem unpackBytes_length (bytes : List Byte) : (unpackBytes bytes).length = 8 * bytes.length := by
  induction bytes with
  | nil => rfl
  | cons v bytes ih =>
    rw [unpackBytes_cons, List.length_append, bitsMSB_length, ih, List.length_cons]
    omega

/-- Whole groups of eight bits are the bits of the bytes they are grouped into. -/
theorem unpackBytes_packBytes (bits : List Bool) (h : 8 ∣ bits.length) : unpackBytes (packBytes bits) = bits := by
  fun_induction packBytes bits with
  | case1 b7 b6 b5 b4 b3 b2 b1 b0 rest ih =>
    have hrest : 8 ∣ rest.length := by
      simp only [List.length_cons] at h
      omega
    have hdigits : bitsMSB (byteOfBits b7 b6 b5 b4 b3 b2 b1 b0).toNat 8 = [b7, b6, b5, b4, b3, b2, b1, b0] := by
      rw [byteOfBits_toNat]
      exact bitsMSB_bitsFrom 0 [b7, b6, b5, b4, b3, b2, b1, b0]
    rw [unpackBytes_cons, hdigits, ih hrest]
    rfl
  | case2 bits hshort =>
    have hlength := packBytes_length bits
    rw [packBytes.eq_2 bits hshort, List.length_nil] at hlength
    exact (List.length_eq_zero_iff.1 (by omega)).symm

/-! ### Packing -/

theorem padCount_lt (n : Nat) : padCount n < 8 := Nat.mod_lt _ (by decide)

theorem packedBits_length (bits : List Bool) : (packedBits bits).length = 3 + bits.length + padCount bits.length := by
  rw [packedBits, List.length_append, List.length_append, bitsMSB_length, List.length_replicate]

/-- The padding makes whole bytes (44 R132). -/
theorem eight_dvd_packedBits_length (bits : List Bool) : 8 ∣ (packedBits bits).length := by
  rw [packedBits_length, padCount]
  omega

theorem rule_bsPack_fits {s : State} (h : s.buf.outBytes.length + (packBytes (packedBits s.buf.outBits)).length ≤ s.par.byteCap) :
    rule .bsPack s =
      .ok (none, s.withBuf { s.buf with outBits := [], outBytes := s.buf.outBytes ++ packBytes (packedBits s.buf.outBits) }) := by
  rw [packBytes_length] at h
  exact if_neg (by omega)

theorem rule_bsPack_full {s : State} (h : s.par.byteCap < s.buf.outBytes.length + (packBytes (packedBits s.buf.outBits)).length) :
    rule .bsPack s = raise .capacityExceeded 5 := by
  rw [packBytes_length] at h
  exact if_pos h

/-- Settles O36: the count, the bits and the padding are whole bytes, so the bytes' bits are those bits (`unpackBytes_packBytes`). -/
theorem packGroupsBitsIntoBytes : Obligations.PackGroupsBitsIntoBytes := by
  intro s hfault
  have hwhole := eight_dvd_packedBits_length s.buf.outBits
  refine ⟨padCount s.buf.outBits.length, packBytes (packedBits s.buf.outBits), padCount_lt _, ?_, ?_, fun hfits => ?_, fun hfull => ?_⟩
  · rw [packBytes_length, Nat.mul_div_cancel' hwhole, packedBits_length]
  · exact unpackBytes_packBytes _ hwhole
  · exact exec_completes (carriedOut_of_no_fault hfault) (rule_bsPack_fits hfits) rfl
  · exact faultsWith_of_rule (carriedOut_of_no_fault hfault) (rule_bsPack_full hfull)

/-! ### Unpacking -/

/-- The count in front is read back (44 R133). -/
theorem padPrefix_count {pad : Nat} (h : pad < 8) (rest : List Bool) :
    padPrefix ([pad.testBit 2, pad.testBit 1, pad.testBit 0] ++ rest) = pad := by
  have hfront : padPrefix ([pad.testBit 2, pad.testBit 1, pad.testBit 0] ++ rest)
      = 4 * (pad.testBit 2).toNat + 2 * (pad.testBit 1).toNat + (pad.testBit 0).toNat := rfl
  rw [hfront, Nat.toNat_testBit, Nat.toNat_testBit, Nat.toNat_testBit]
  omega

/-- Count and padding are stripped (44 R133). -/
theorem payloadBits_count {pad : Nat} (h : pad < 8) {payload padding : List Bool} (hpadding : padding.length = pad) :
    payloadBits ([pad.testBit 2, pad.testBit 1, pad.testBit 0] ++ payload ++ padding) = payload := by
  have hcount : padPrefix ([pad.testBit 2, pad.testBit 1, pad.testBit 0] ++ payload ++ padding) = pad := by
    rw [List.append_assoc]
    exact padPrefix_count h _
  have hlength : ([pad.testBit 2, pad.testBit 1, pad.testBit 0] ++ payload ++ padding).length - pad - 3 = payload.length := by
    simp only [List.length_append, List.length_cons, List.length_nil]
    omega
  rw [payloadBits, hcount, hlength]
  exact List.take_left

theorem rule_bsUnpack_empty {s : State} (h : s.buf.inBytes = []) : rule .bsUnpack s = raise .truncatedStream 1 :=
  if_pos (List.length_eq_zero_iff.2 h)

/-- With at least one byte, the rest of the rule of `BS_UNPACK` is about the bytes' bits. -/
theorem rule_bsUnpack_bits {s : State} {bits : List Bool} (hbits : unpackBytes s.buf.inBytes = bits) (hpos : 0 < bits.length) :
    rule .bsUnpack s =
      if bits.length < 3 + padPrefix bits then raise .truncatedStream 2
      else if s.par.inCap < (payloadBits bits).length then raise .capacityExceeded 4
      else .ok (none, (s.withBuf { s.buf with inBits := payloadBits bits, inPos := 0, inBytes := [] }).withCoder { s.coder with padUsed := 0 }) := by
  subst hbits
  rw [unpackBytes_length] at hpos ⊢
  exact if_neg (by omega)

/-- Settles O37: the bits are the count, the payload and the padding, so what `padPrefix` and `payloadBits` take from them is the count and
the payload. -/
theorem unpackStripsCountAndPadding : Obligations.UnpackStripsCountAndPadding := by
  intro s pad payload padding hfault hpad
  refine ⟨fun hempty => faultsWith_of_rule (carriedOut_of_no_fault hfault) (rule_bsUnpack_empty hempty), fun hbits => ?_⟩
  rw [← unpackBytes_eq] at hbits
  have hcount := padPrefix_count hpad (payload ++ padding)
  rw [← List.append_assoc] at hcount
  have hlength : ([pad.testBit 2, pad.testBit 1, pad.testBit 0] ++ payload ++ padding).length = 3 + payload.length + padding.length := by
    rw [List.length_append, List.length_append]
    rfl
  have hrule := rule_bsUnpack_bits hbits (by omega)
  rw [hcount, hlength] at hrule
  refine ⟨fun hpadding hfits => ?_, fun hpadding hfull => ?_, fun hpayload hshort => ?_⟩
  · rw [payloadBits_count hpad hpadding, if_neg (by omega), if_neg (by omega)] at hrule
    exact exec_completes (carriedOut_of_no_fault hfault) hrule rfl
  · rw [payloadBits_count hpad hpadding, if_neg (by omega), if_pos hfull] at hrule
    exact faultsWith_of_rule (carriedOut_of_no_fault hfault) hrule
  · rw [hpayload, List.length_nil, if_pos (by omega)] at hrule
    exact faultsWith_of_rule (carriedOut_of_no_fault hfault) hrule

/-! ### Both -/

/-- Settles O38: `BS_PACK` completed, so its bytes fitted and their bits are the count, `OUTBITS` and the padding; `BS_UNPACK` strips the
first and the last. -/
theorem unpackInvertsPack : Obligations.UnpackInvertsPack := by
  intro s t hfault hempty hcap hexec htfault
  obtain ⟨pad, bytes, hpad, -, hbits, hfits, hfull⟩ := packGroupsBitsIntoBytes s hfault
  rcases le_or_gt (s.buf.outBytes.length + bytes.length) s.par.byteCap with hroom | hnone
  case inr =>
    cases (hfull hnone).symm.trans hexec
    cases htfault
  case inl =>
    have ht := Host.Outcome.next.inj ((hfits hroom).symm.trans hexec)
    have hout : bytes = t.buf.outBytes := by rw [← ht, hempty, List.nil_append]
    have hpar : t.par = s.par := by rw [← ht]
    obtain ⟨-, hunpack⟩ := unpackStripsCountAndPadding { t with buf := { t.buf with inBytes := t.buf.outBytes } } pad s.buf.outBits
      (List.replicate pad false) htfault hpad
    obtain ⟨hdone, -, -⟩ := hunpack (hout ▸ hbits)
    exact ⟨_, hdone List.length_replicate (hpar ▸ hcap), htfault, rfl, rfl⟩

end Sys2Proof.Machine
end

section
/-! PROOFS. What the bit-serializer's commands and the reads leave unchanged: `Writes` says what a completing one writes. -/

namespace Sys2Proof.Machine

/-! ### The bit-serializer -/

/-- 44 R126 to R136: no command of the serializer writes beyond the buffers and `PAD_USED`, and which write that. -/
theorem writes_serializer_frame {i : Instr} {s u : State} (h : Writes i s u) (hi : isSerializer i = true) :
    u = { s with buf := u.buf, coder := u.coder } ∧
    (u.coder = s.coder ∨ (u.coder = { s.coder with padUsed := 0 } ∧ (i = .bsClearIn ∨ i = .bsUnpack ∨ i = .bsLoopback))) := by
  cases i with
  | bsClearOut => cases h; exact ⟨rfl, .inl rfl⟩
  | bsClearIn => cases h; exact ⟨rfl, .inr ⟨rfl, .inl rfl⟩⟩
  | bsPutBit b => obtain ⟨_, -, rfl⟩ := h; exact ⟨rfl, .inl rfl⟩
  | bsGetBit => obtain ⟨_, -, -, rfl⟩ := h; exact ⟨rfl, .inl rfl⟩
  | bsGammaPut n => obtain ⟨_, -, rfl⟩ := h; exact ⟨rfl, .inl rfl⟩
  | bsGammaGet => obtain ⟨_, -, -, rfl⟩ := h; exact ⟨rfl, .inl rfl⟩
  | bsPack => obtain ⟨_, -, rfl⟩ := h; exact ⟨rfl, .inl rfl⟩
  | bsUnpack => obtain ⟨_, -, rfl⟩ := h; exact ⟨rfl, .inr ⟨rfl, .inr (.inl rfl)⟩⟩
  | bsInBit b => obtain ⟨_, -, rfl⟩ := h; exact ⟨rfl, .inl rfl⟩
  | bsLoopback => obtain ⟨-, rfl⟩ := h; exact ⟨rfl, .inr ⟨rfl, .inr (.inr rfl)⟩⟩
  | bsPeekOut k => cases h; exact ⟨rfl, .inl rfl⟩
  | _ => cases hi

/-- 44 R128, R130: what puts bits into the sink writes nothing else of the buffers. -/
theorem writes_put_buf {i : Instr} {s u : State} (h : Writes i s u) (hi : (∃ b, i = .bsPutBit b) ∨ ∃ n, i = .bsGammaPut n) :
    u.buf = { s.buf with outBits := u.buf.outBits } := by
  rcases hi with ⟨b, rfl⟩ | ⟨n, rfl⟩
  all_goals
    obtain ⟨_, -, rfl⟩ := h
    rfl

/-- 44 R129, R131: what takes bits from the source moves its read position only. -/
theorem writes_get_buf {i : Instr} {s u : State} (h : Writes i s u) (hi : i = .bsGetBit ∨ i = .bsGammaGet) :
    u.buf = { s.buf with inPos := u.buf.inPos } := by
  rcases hi with rfl | rfl
  all_goals
    obtain ⟨_, -, -, rfl⟩ := h
    rfl

/-- 44 R134. -/
theorem writes_bsInBit_buf {b : Bool} {s u : State} (h : Writes (.bsInBit b) s u) : u.buf = { s.buf with inBits := u.buf.inBits } := by
  obtain ⟨_, -, rfl⟩ := h
  rfl

/-- 44 R135. -/
theorem writes_bsLoopback_buf {s u : State} (h : Writes .bsLoopback s u) : u.buf = { s.buf with inBits := s.buf.outBits, inPos := 0 } := by
  obtain ⟨-, rfl⟩ := h
  rfl

/-- 44 R126, R128, R130, R132: the commands of the output side keep the input side. -/
theorem writes_outputSide {i : Instr} {s u : State} (h : Writes i s u)
    (hi : (∃ b, i = .bsPutBit b) ∨ (∃ n, i = .bsGammaPut n) ∨ i = .bsClearOut ∨ i = .bsPack) :
    u.buf.inBits = s.buf.inBits ∧ u.buf.inPos = s.buf.inPos ∧ u.buf.inBytes = s.buf.inBytes := by
  rcases or_assoc.2 hi with hput | rfl | rfl
  · rw [writes_put_buf h hput]
    exact ⟨rfl, rfl, rfl⟩
  · cases h
    exact ⟨rfl, rfl, rfl⟩
  · obtain ⟨_, -, rfl⟩ := h
    exact ⟨rfl, rfl, rfl⟩

/-- 44 R127, R129, R131, R133 to R135: the commands of the input side keep the output side. -/
theorem writes_inputSide {i : Instr} {s u : State} (h : Writes i s u)
    (hi : i = .bsGetBit ∨ i = .bsGammaGet ∨ (∃ b, i = .bsInBit b) ∨ i = .bsUnpack ∨ i = .bsLoopback ∨ i = .bsClearIn) :
    u.buf.outBits = s.buf.outBits ∧ u.buf.outBytes = s.buf.outBytes := by
  rcases or_assoc.2 hi with hget | ⟨b, rfl⟩ | rfl | rfl | rfl
  · rw [writes_get_buf h hget]
    exact ⟨rfl, rfl⟩
  · rw [writes_bsInBit_buf h]
    exact ⟨rfl, rfl⟩
  · obtain ⟨_, -, rfl⟩ := h
    exact ⟨rfl, rfl⟩
  · rw [writes_bsLoopback_buf h]
    exact ⟨rfl, rfl⟩
  · cases h
    exact ⟨rfl, rfl⟩

/-- Settles O56: each clause is the frame of what its commands write, and holds of itself where nothing is written. -/
theorem serializerFrame : Obligations.SerializerFrame := by
  intro i s t hi h
  obtain ⟨u, hu, hsame⟩ := exec_effect h
  rw [hsame.coder, hsame.model, hsame.tree, hsame.buf, hsame.mode, hsame.symCount, hsame.acfg]
  rcases hu with rfl | hw
  · exact ⟨rfl, rfl, rfl, rfl, rfl, rfl, fun hpad => absurd rfl hpad, fun _ => ⟨rfl, rfl, rfl⟩, fun _ => rfl, fun _ => ⟨rfl, rfl⟩,
      fun _ => ⟨rfl, rfl⟩, fun _ => ⟨rfl, rfl⟩, fun _ => rfl, fun _ => rfl⟩
  · obtain ⟨hrest, hcoder⟩ := writes_serializer_frame hw hi
    refine ⟨by rw [hrest], by rw [hrest], by rw [hrest], by rw [hrest], by rw [hrest], ?_, fun hpad => ?_, writes_outputSide hw, fun hput => ?_,
      writes_inputSide hw, fun hget => ?_, ?_, ?_, ?_⟩
    · rcases hcoder with hcoder | ⟨hcoder, -⟩
      all_goals rw [hcoder]
    · rcases hcoder with hcoder | ⟨-, hzeroes⟩
      · exact absurd (congrArg Coder.padUsed hcoder) hpad
      · exact hzeroes
    · rw [writes_put_buf hw hput]
    · rw [writes_get_buf hw hget]
      exact ⟨rfl, rfl⟩
    · rintro ⟨b, rfl⟩
      rw [writes_bsInBit_buf hw]
      exact ⟨rfl, rfl⟩
    · rintro rfl
      rw [writes_bsLoopback_buf hw]
    · rintro ⟨k, rfl⟩
      cases hw
      rfl

/-! ### The reads -/

/-- Settles O59: a read that completes writes nothing beside its result; a fault or a drop writes its record only. -/
theorem readsChangeOnlyTheResult : Obligations.ReadsChangeOnlyTheResult := by
  intro i s t hi h
  have hkeeps : ∀ u, Writes i s u → u = s := by
    rcases hi with rfl | ⟨_, rfl⟩ | ⟨_, rfl⟩ | ⟨_, rfl⟩ | ⟨_, rfl⟩ | rfl | ⟨_, rfl⟩ | ⟨_, rfl⟩ | ⟨_, rfl⟩ | ⟨_, rfl⟩
    all_goals exact fun _ hw => hw
  rcases exec_outcomes h with rfl | ⟨v, u, hw, -, rfl⟩ | ⟨f, info, -, rfl⟩
  case inl => exact ⟨rfl, rfl, rfl, rfl, rfl, rfl, rfl, rfl, rfl, rfl, rfl⟩
  case inr.inl =>
    obtain rfl := hkeeps u hw
    simp
  case inr.inr => exact ⟨rfl, rfl, rfl, rfl, rfl, rfl, rfl, rfl, rfl, rfl, rfl⟩

end Sys2Proof.Machine
end

section
/-! PROOFS. The configuration latch (45 R137): the first check that fails decides the info value, and the latch is the first thing the
latching commands do. -/

namespace Sys2Proof.Machine

/-! ### The checks, each with the earlier ones passed -/

section Checks

variable {kind : LatchKind} {kmax : Nat} {c : Conf}

theorem latchError_alphabet (h : c.k.toNat < 1 ∨ kmax < c.k.toNat) : latchError kind kmax c = some 1 := if_pos h

theorem latchError_alpha (hk : ¬ (c.k.toNat < 1 ∨ kmax < c.k.toNat)) (h : c.alpha.toNat < 1 ∨ Config.alphaOne < c.alpha.toNat) :
    latchError kind kmax c = some 3 := by
  rw [latchError, if_neg hk, if_pos h]

theorem latchError_decay (hk : ¬ (c.k.toNat < 1 ∨ kmax < c.k.toNat)) (halpha : ¬ (c.alpha.toNat < 1 ∨ Config.alphaOne < c.alpha.toNat))
    (h : c.decayEn = true ∧ c.alpha.toNat < Config.alphaOne ∧ c.n.toNat = 0) : latchError kind kmax c = some 2 := by
  rw [latchError, if_neg hk, if_neg halpha, if_pos h]

theorem latchError_growth (hk : ¬ (c.k.toNat < 1 ∨ kmax < c.k.toNat)) (halpha : ¬ (c.alpha.toNat < 1 ∨ Config.alphaOne < c.alpha.toNat))
    (hn : ¬ (c.decayEn = true ∧ c.alpha.toNat < Config.alphaOne ∧ c.n.toNat = 0)) (hremove : c.remove = true) (hgrowth : c.growth = false) :
    latchError .tree kmax c = some 4 := by
  rw [latchError, if_neg hk, if_neg halpha, if_neg hn, if_pos ⟨rfl, hremove, hgrowth⟩]

end Checks

/-! ### The commands that latch -/

/-- The engine a latching command latches for (40 R81, 41 R97, R100, 43 R116, R118). -/
def latchKindOf : Instr → LatchKind
  | .ahEncStart => .tree
  | .ahDecStart => .tree
  | _ => .model

theorem latchKindOf_huffmanStart {i : Instr} (h : i = .ahEncStart ∨ i = .ahDecStart) : latchKindOf i = .tree := by
  rcases h with rfl | rfl <;> rfl

theorem opensMode_ne_none {i : Instr} (h : opensMode i ≠ none) : i = .acEncStart ∨ i = .acDecStart ∨ i = .ahEncStart ∨ i = .ahDecStart := by
  unfold opensMode at h
  split at h
  case h_1 => exact .inl rfl
  case h_2 => exact .inr (.inl rfl)
  case h_3 => exact .inr (.inr (.inl rfl))
  case h_4 => exact .inr (.inr (.inr rfl))
  case h_5 => exact absurd rfl h

theorem latch_raises {kind : LatchKind} {s : State} {info : Nat} (h : latchError kind s.par.kmax s.ctl.cfg = some info) :
    latch kind s = raise .configInvalid info := by rw [latch, h]

theorem rule_modelInit_raises {s : State} {info : Nat} (hmode : s.ctl.mode = .idle)
    (h : latchError .model s.par.kmax s.ctl.cfg = some info) : rule .modelInit s = raise .configInvalid info := by
  rw [rule, ruleModelInit, if_neg (not_not_intro hmode), latch_raises h, raise_bind]

theorem acStart_raises {s : State} {info : Nat} (h : latchError .model s.par.kmax s.ctl.cfg = some info) :
    acStart s = raise .configInvalid info := by rw [acStart, latch_raises h, raise_bind]

theorem ahStart_raises {s : State} {info : Nat} (h : latchError .tree s.par.kmax s.ctl.cfg = some info) (m : Mode) :
    ahStart m s = raise .configInvalid info := by rw [ahStart, latch_raises h, raise_bind]

/-- A latching command does so before anything else that can fail but the mode check of `MODEL_INIT`. -/
theorem faultsWith_of_latchError {i : Instr} {s : State} {info : Nat}
    (hi : (i = .modelInit ∧ s.ctl.mode = .idle ∧ s.ctl.faultCode = .none) ∨ opensMode i ≠ none)
    (h : latchError (latchKindOf i) s.par.kmax s.ctl.cfg = some info) : FaultsWith i s .configInvalid info := by
  rcases hi with ⟨rfl, hmode, hfault⟩ | hstart
  · exact faultsWith_of_rule (carriedOut_of_no_fault hfault) (rule_modelInit_raises hmode h)
  · rcases opensMode_ne_none hstart with rfl | rfl | rfl | rfl
    · exact faultsWith_of_rule (.inl rfl) (by rw [rule, ruleAcEncStart, acStart_raises h, raise_bind])
    · exact faultsWith_of_rule (.inl rfl) (by rw [rule, ruleAcDecStart, acStart_raises h, raise_bind])
    · exact faultsWith_of_rule (.inl rfl) (by rw [rule, ruleAhEncStart, ahStart_raises h, raise_bind])
    · exact faultsWith_of_rule (.inl rfl) (by rw [rule, ruleAhDecStart, ahStart_raises h, raise_bind])

/-- Settles O24: each clause is one check of the latch, with the earlier ones passed. -/
theorem latchChecksInOrder : Obligations.LatchChecksInOrder := by
  intro i s hi badK badAlpha badN
  refine ⟨fun hk => ?_, fun hk halpha => ?_, fun hk halpha hn => ?_, fun hk halpha hn hhuffman hremove hgrowth => ?_⟩
  · exact faultsWith_of_latchError hi (latchError_alphabet hk)
  · exact faultsWith_of_latchError hi (latchError_alpha hk halpha)
  · exact faultsWith_of_latchError hi (latchError_decay hk halpha hn)
  · have hcheck := latchError_growth hk halpha hn hremove hgrowth
    exact faultsWith_of_latchError hi (latchKindOf_huffmanStart hhuffman ▸ hcheck)

end Sys2Proof.Machine
end

section
/-! PROOFS. `NOP`, `ABORT` and `DBG_READ` (45 R138 to R140), carried out in every fault state (60 R152). -/

namespace Sys2Proof.Machine

/-- Settles O27: the rule writes nothing, and the operand field of form Z is reserved. -/
theorem nopOnlyClearsResultValid : Obligations.NopOnlyClearsResultValid := by
  refine fun s => ⟨exec_completes (.inl rfl) rfl rfl, fun c hop himm => ?_⟩
  exact deliverCommand_reserved hop (.inl ⟨by rw [hop]; decide, himm⟩) (.inr (by decide))

/-- Settles O28: the rule writes the mode and the fault record, and the operand field of form Z is reserved. -/
theorem abortClosesStreamAndClearsFault : Obligations.AbortClosesStreamAndClearsFault := by
  refine fun s => ⟨exec_completes (.inl rfl) rfl rfl, fun c hop himm => ?_⟩
  exact deliverCommand_reserved hop (.inl ⟨by rw [hop]; decide, himm⟩) (.inr (by decide))

/-! ### The debug read -/

theorem treeValue_valid {v : Word} {s : State} (h : s.tree.valid = true) : treeValue v s = .ok v := if_pos h

theorem treeValue_invalid {v : Word} {s : State} (h : s.tree.valid = false) : treeValue v s = raise .sequenceError 0 := by
  rw [treeValue, if_neg (Bool.eq_false_iff.1 h)]

theorem debugValue_outOfRange {sel : Nat} (h : 18 ≤ sel) (s : State) : debugValue sel s = raise .operandRange sel := by
  obtain ⟨n, rfl⟩ := Nat.exists_eq_add_of_le' h
  rfl

theorem Conf.flags_eq (c : Conf) : c.flags = BitVec.ofNat 32 (c.remove.toNat * 4 + c.growth.toNat * 2 + c.decayEn.toNat) := by
  rw [Conf.flags, Nat.mul_comm 4, Nat.mul_comm 2]

theorem returns_dbgRead {sel : Nat} {v : Word} {s : State} (h : debugValue sel s = .ok v) : Returns (.dbgRead sel) s v :=
  returns_of_rule (.inl rfl) (by rw [rule, ruleDbgRead, h]; rfl)

theorem faultsWith_dbgRead {sel info : Nat} {f : FaultCode} {s : State} (h : debugValue sel s = raise f info) :
    FaultsWith (.dbgRead sel) s f info :=
  faultsWith_of_rule (.inl rfl) (by rw [rule, ruleDbgRead, h]; rfl)

/-- Settles O29: what the command does is what `debugValue` gives, selector by selector. -/
theorem debugReadReturnsSelectedState : Obligations.DebugReadReturnsSelectedState := by
  intro s
  refine ⟨returns_dbgRead rfl, returns_dbgRead rfl, returns_dbgRead rfl, returns_dbgRead rfl, returns_dbgRead rfl, returns_dbgRead rfl,
    returns_dbgRead rfl, returns_dbgRead rfl, returns_dbgRead rfl, returns_dbgRead rfl, returns_dbgRead rfl, fun hvalid => ?_,
    fun hinvalid => ?_, ?_, returns_dbgRead rfl, ?_, ?_, fun sel hsel => ?_⟩
  · exact ⟨returns_dbgRead (treeValue_valid hvalid), returns_dbgRead (treeValue_valid hvalid), returns_dbgRead (treeValue_valid hvalid)⟩
  · exact ⟨faultsWith_dbgRead (treeValue_invalid hinvalid), faultsWith_dbgRead (treeValue_invalid hinvalid),
      faultsWith_dbgRead (treeValue_invalid hinvalid)⟩
  · rw [BitVec.ofNat_toNat]
    exact returns_dbgRead rfl
  · rw [BitVec.ofNat_toNat]
    exact returns_dbgRead rfl
  · rw [← Conf.flags_eq]
    exact returns_dbgRead rfl
  · exact faultsWith_dbgRead (debugValue_outOfRange hsel s)

end Sys2Proof.Machine
end

section
/-! PROOFS. The tree reads (45 R141 to R144): a valid tree, then the operand's range, then the code of what the tree holds there. -/

namespace Sys2Proof.Machine

theorem requireTree_pass {s : State} (h : s.tree.valid = true) : requireTree s = .ok () := by rw [requireTree, h]; rfl

theorem requireTree_raises {s : State} (h : s.tree.valid = false) : requireTree s = raise .sequenceError 0 := if_pos h

theorem requireSymbol_raises {s : State} {a : Nat} (h : s.alphabet ≤ a) : requireSymbol a s = raise .symbolNotInAlphabet a := if_pos h

/-! ### Without a valid tree -/

/-- The tree reads check for a valid tree first, whatever the operand. -/
theorem faultsWith_treeReads {s : State} (h : s.tree.valid = false) (n : Nat) :
    FaultsWith (.ahReadW n) s .sequenceError 0 ∧ FaultsWith (.ahReadC n) s .sequenceError 0 ∧
    FaultsWith (.ahReadParent n) s .sequenceError 0 ∧ FaultsWith (.ahReadLoc n) s .sequenceError 0 := by
  have htree := requireTree_raises h
  refine ⟨faultsWith_of_rule (.inl rfl) ?_, faultsWith_of_rule (.inl rfl) ?_, faultsWith_of_rule (.inl rfl) ?_,
    faultsWith_of_rule (.inl rfl) ?_⟩
  · rw [rule, ruleAhReadW, htree, raise_bind]
  · rw [rule, ruleAhReadC, htree, raise_bind]
  · rw [rule, ruleAhReadParent, htree, raise_bind]
  · rw [rule, ruleAhReadLoc, htree, raise_bind]

/-! ### With a valid tree -/

section ValidTree

variable {s : State} (hvalid : s.tree.valid = true)
include hvalid

theorem rule_ahReadW (q : Nat) :
    rule (.ahReadW q) s = if 2 * s.tree.m ≤ q then raise .operandRange q else returnNat (s.tree.wt q) s := by
  rw [rule, ruleAhReadW, requireTree_pass hvalid, ok_bind]

theorem rule_ahReadC (q : Nat) :
    rule (.ahReadC q) s = if 2 * s.tree.m ≤ q then raise .operandRange q else returnWord (childCode (s.tree.ch q)) s := by
  rw [rule, ruleAhReadC, requireTree_pass hvalid, ok_bind]

theorem rule_ahReadParent (k : Nat) :
    rule (.ahReadParent k) s = if s.tree.m ≤ k then raise .operandRange k else returnWord (parentCode (s.tree.pairAt k).parent) s := by
  rw [rule, ruleAhReadParent, requireTree_pass hvalid, ok_bind]

theorem rule_ahReadLoc_nyt : rule (.ahReadLoc nytOperand) s = returnWord (locCode (s.tree.locOf .nyt)) s := by
  rw [rule, ruleAhReadLoc, requireTree_pass hvalid, ok_bind, if_pos rfl]
  rfl

theorem rule_ahReadLoc_sym {a : Nat} (hnyt : a ≠ nytOperand) :
    rule (.ahReadLoc a) s = (requireSymbol a s >>= fun _ => returnWord (locCode (s.tree.locOf (.sym a))) s) := by
  rw [rule, ruleAhReadLoc, requireTree_pass hvalid, ok_bind, if_neg hnyt]

theorem returns_ahReadW {q : Nat} (hq : q < 2 * s.tree.m) : Returns (.ahReadW q) s (BitVec.ofNat 32 (s.tree.wt q)) :=
  returns_of_rule (.inl rfl) ((rule_ahReadW hvalid q).trans (if_neg (Nat.not_le.2 hq)))

theorem returns_ahReadC {q : Nat} (hq : q < 2 * s.tree.m) : Returns (.ahReadC q) s (childCode (s.tree.ch q)) :=
  returns_of_rule (.inl rfl) ((rule_ahReadC hvalid q).trans (if_neg (Nat.not_le.2 hq)))

theorem returns_ahReadParent {k : Nat} (hk : k < s.tree.m) : Returns (.ahReadParent k) s (parentCode (s.tree.pairAt k).parent) :=
  returns_of_rule (.inl rfl) ((rule_ahReadParent hvalid k).trans (if_neg (Nat.not_le.2 hk)))

theorem returns_ahReadLoc_sym {a : Nat} (hnyt : a ≠ nytOperand) (ha : a < s.alphabet) :
    Returns (.ahReadLoc a) s (locCode (s.tree.locOf (.sym a))) :=
  returns_of_rule (.inl rfl) (by rw [rule_ahReadLoc_sym hvalid hnyt, requireSymbol_pass ha, ok_bind, returnWord])

theorem faultsWith_ahReadW {q : Nat} (hq : 2 * s.tree.m ≤ q) : FaultsWith (.ahReadW q) s .operandRange q :=
  faultsWith_of_rule (.inl rfl) ((rule_ahReadW hvalid q).trans (if_pos hq))

theorem faultsWith_ahReadC {q : Nat} (hq : 2 * s.tree.m ≤ q) : FaultsWith (.ahReadC q) s .operandRange q :=
  faultsWith_of_rule (.inl rfl) ((rule_ahReadC hvalid q).trans (if_pos hq))

theorem faultsWith_ahReadParent {k : Nat} (hk : s.tree.m ≤ k) : FaultsWith (.ahReadParent k) s .operandRange k :=
  faultsWith_of_rule (.inl rfl) ((rule_ahReadParent hvalid k).trans (if_pos hk))

theorem faultsWith_ahReadLoc {a : Nat} (hnyt : a ≠ nytOperand) (ha : s.alphabet ≤ a) :
    FaultsWith (.ahReadLoc a) s .symbolNotInAlphabet a :=
  faultsWith_of_rule (.inl rfl) (by rw [rule_ahReadLoc_sym hvalid hnyt, requireSymbol_raises ha, raise_bind])

end ValidTree

/-- Settles O30: each read returns the code of what the tree holds, and the statement writes the code out for each form it can have. -/
theorem treeReadsReturnTheTree : Obligations.TreeReadsReturnTheTree := by
  intro s
  refine ⟨fun hinvalid n => faultsWith_treeReads hinvalid n, fun hvalid a hnyt ha => faultsWith_ahReadLoc hvalid hnyt ha, fun hvalid =>
    ⟨fun q hq => ?_, fun k hk => ?_, fun q hq => ⟨faultsWith_ahReadW hvalid hq, faultsWith_ahReadC hvalid hq⟩,
      fun k hk => faultsWith_ahReadParent hvalid hk, fun a x hkey => ?_⟩⟩
  · have hread := returns_ahReadC hvalid hq
    refine ⟨returns_ahReadW hvalid hq, fun a hleaf => ?_, fun hnyt => ?_, fun k hnode => ?_⟩
    · rwa [hleaf] at hread
    · rwa [hnyt] at hread
    · rwa [hnode] at hread
  · have hread := returns_ahReadParent hvalid hk
    refine ⟨fun hroot => ?_, fun j b hparent => ?_⟩
    · rwa [hroot] at hread
    · rwa [hparent] at hread
  · have hread : Returns (.ahReadLoc a) s (locCode (s.tree.locOf x)) := by
      rcases hkey with ⟨rfl, rfl⟩ | ⟨hnyt, ha, rfl⟩
      · exact returns_of_rule (.inl rfl) (rule_ahReadLoc_nyt hvalid)
      · exact returns_ahReadLoc_sym hvalid hnyt ha
    refine ⟨fun habsent => ?_, fun hroot => ?_, fun k b hslot => ?_⟩
    · rwa [habsent] at hread
    · rwa [hroot] at hread
    · rwa [hslot] at hread

end Sys2Proof.Machine
end

section
/-! PROOFS. Exceptions: what a command does to the fault record (60 R149 to R153), said once in `exec_record`, and the checks that open the
commands, where they fail (60 R147). -/

namespace Sys2Proof.Machine

/-! ### The fault record -/

/-- The fault record and `DROPPED` are the same before and after. -/
def KeepsRecord (s t : State) : Prop :=
  t.ctl.faultCode = s.ctl.faultCode ∧ t.ctl.faultInfo = s.ctl.faultInfo ∧ t.ctl.faultCmd = s.ctl.faultCmd ∧ t.ctl.dropped = s.ctl.dropped

/-- The fault record and `DROPPED` are clear (60 R153). -/
def RecordClear (t : State) : Prop :=
  t.ctl.faultCode = .none ∧ t.ctl.faultInfo = 0#32 ∧ t.ctl.faultCmd = 0#32 ∧ t.ctl.dropped = false

/-- The end of a command does not touch the fault record, so what `writes_ctl` says of it holds of the state after. -/
theorem writes_record {i : Instr} {s u : State} (h : Writes i s u) (v : Option Word) :
    (KeepsRecord s (u.complete v) ∧ i ≠ .abort ∧ opensMode i = none) ∨ (RecordClear (u.complete v) ∧ (i = .abort ∨ opensMode i ≠ none)) := by
  unfold KeepsRecord RecordClear
  rw [complete_ctl_faultCode, complete_ctl_faultInfo, complete_ctl_faultCmd, complete_ctl_dropped]
  obtain ⟨-, -, -, -, -, hrecord, -⟩ := writes_ctl h
  exact hrecord.imp (fun ⟨habort, hopens, hkept⟩ => ⟨hkept, habort, hopens⟩) fun ⟨hi, hclear⟩ => ⟨hclear, hi⟩

/-- All that a command can do to the fault record (60 R149, R150, R152, R153). -/
theorem exec_record {i : Instr} {s t : State} (h : exec i s = .next t) :
    (allowedInFault i.opcode = false ∧ t = dropRecorded s) ∨ (∃ f info, f ≠ .none ∧ t = faultRecorded s f info (encode i)) ∨
    (KeepsRecord s t ∧ i ≠ .abort ∧ opensMode i = none) ∨ (RecordClear t ∧ (i = .abort ∨ opensMode i ≠ none)) := by
  rcases exec_next h with ⟨hop, -, ht⟩ | ⟨-, v, u, hrule, rfl⟩ | ⟨-, f, info, hrule, rfl⟩
  case inl => exact .inl ⟨hop, ht⟩
  case inr.inl => exact .inr (.inr (writes_record (rule_writes hrule).1 v))
  case inr.inr =>
    have hf : f ≠ .none := by
      rintro rfl
      exact rule_raisesFaults i s info hrule
    exact .inr (.inl ⟨f, info, hf, rfl⟩)

/-- Settles O18: the outcomes are those of `exec_record`, which also says which commands can have each. -/
theorem faultsRollBackTheCommand : Obligations.FaultsRollBackTheCommand := by
  intro i s t h
  rcases exec_record h with ⟨-, hdrop⟩ | hfault | ⟨hkept, -⟩ | ⟨hclear, -⟩
  · exact .inl hdrop
  · exact .inr (.inl hfault)
  · exact .inr (.inr (.inl hkept))
  · exact .inr (.inr (.inr hclear))

/-- `ABORT` and the starts are carried out in the fault state (60 R152). -/
theorem allowedInFault_abort_or_start {i : Instr} (h : i = .abort ∨ opensMode i ≠ none) : allowedInFault i.opcode = true := by
  rcases h with rfl | hstart
  · rfl
  · rcases opensMode_ne_none hstart with rfl | rfl | rfl | rfl <;> rfl

/-- Settles O20: of the outcomes of `exec_record` only the last clears a recorded fault, and `ABORT` and the starts can have only that one and
the fault. -/
theorem onlyAbortAndStartsClearTheFault : Obligations.OnlyAbortAndStartsClearTheFault := by
  intro i s t h
  rcases exec_record h with ⟨hop, rfl⟩ | ⟨f, info, hf, rfl⟩ | ⟨⟨hcode, -⟩, habort, hopens⟩ | ⟨hclear, hi⟩
  · refine ⟨fun hs ht => absurd ht hs, fun hi => ?_⟩
    rw [allowedInFault_abort_or_start hi] at hop
    cases hop
  · exact ⟨fun _ ht => absurd ht hf, fun _ => .inl ⟨f, info, hf, rfl⟩⟩
  · exact ⟨fun hs ht => absurd (hcode.symm.trans ht) hs, fun hi => absurd hi (not_or.2 ⟨habort, not_not_intro hopens⟩)⟩
  · exact ⟨fun _ _ => hi, fun _ => .inr hclear⟩

/-! ### Commands in the fault state -/

/-- A command that is not carried out in the fault state is dropped there (60 R152). -/
theorem exec_drops {i : Instr} {s : State} (hfault : s.ctl.faultCode ≠ .none) (hop : i.opcode ∉ faultStateOpcodes) :
    exec i s = .next (dropRecorded s) := by
  rw [exec_eq]
  exact runCommand_dropped (allowedInFault_eq_false hop) (faulted_eq_true hfault)

/-- A command that is carried out in the fault state keeps `DROPPED`, or clears it with the fault (60 R152, R153). -/
theorem exec_dropped {i : Instr} {s t : State} (hop : i.opcode ∈ faultStateOpcodes) (h : exec i s = .next t) :
    t.ctl.dropped = s.ctl.dropped ∨ (t.ctl.dropped = false ∧ t.ctl.faultCode = .none) := by
  rcases exec_record h with ⟨hnot, -⟩ | ⟨f, info, -, rfl⟩ | ⟨⟨-, -, -, hkept⟩, -⟩ | ⟨⟨hcode, -, -, hclear⟩, -⟩
  · rw [allowedInFault_iff.2 hop] at hnot
    cases hnot
  · exact .inl rfl
  · exact .inl hkept
  · exact .inr ⟨hclear, hcode⟩

/-- Settles O19: the word decodes to a command with its opcode, or it is rejected by its opcode. -/
theorem faultStateDropsCommands : Obligations.FaultStateDropsCommands := by
  intro c s hfault
  cases hdec : decode c with
  | ok i =>
    obtain ⟨hop, -⟩ := fields_of_decode_ok hdec
    rw [deliverCommand_ok hdec, hop]
    exact ⟨exec_drops hfault, fun hin _ => exec_dropped hin⟩
  | error e =>
    rw [deliverCommand_error hdec]
    refine ⟨fun hout => congrArg _ (rejectCommand_drops hfault hout e), fun hin t ht => .inl ?_⟩
    rw [rejectCommand_faults (.inr hin)] at ht
    cases ht
    rfl

/-! ### The checks that open the commands, where they fail -/

theorem requireMode_raises {m : Mode} {s : State} (h : s.ctl.mode ≠ m) : requireMode m s = raise .sequenceError 0 := if_pos h

theorem requireModel_raises {s : State} (h : s.model.valid = false) : requireModel s = raise .sequenceError 0 := if_pos h

theorem requireIdleTree_raises {s : State} (h : s.ctl.mode ≠ .idle ∨ s.tree.valid = false) : requireIdleTree s = raise .sequenceError 0 :=
  if_pos h

theorem requireIdleModel_raises {s : State} (h : s.ctl.mode ≠ .idle ∨ s.model.valid = false) :
    requireIdleModel s = raise .sequenceError 0 := by
  unfold requireIdleModel
  split
  case isTrue => rfl
  case isFalse hidle => exact if_pos (h.resolve_left hidle)

/-- A command faults with what its first check raises. -/
theorem faultsWith_of_check {α : Type} {i : Instr} {s : State} {f : FaultCode} {info : Nat} {check : Except Stop α}
    {rest : α → Result} (hc : CarriedOut i s) (hcheck : check = raise f info) (hrule : rule i s = (check >>= rest)) :
    FaultsWith i s f info :=
  faultsWith_of_rule hc (by rw [hrule, hcheck, raise_bind])

/-- A command that passes its first check faults with `SymbolNotInAlphabet` where its symbol is not in the alphabet (30 R72). -/
theorem faultsWith_of_symbol {i : Instr} {s : State} {a : Nat} {check : Except Stop Unit} {rest : Unit → Result} (hc : CarriedOut i s)
    (ha : s.alphabet ≤ a) (hcheck : check = .ok ()) (hrule : rule i s = (check >>= fun _ => requireSymbol a s >>= rest)) :
    FaultsWith i s .symbolNotInAlphabet a :=
  faultsWith_of_check hc (requireSymbol_raises ha) (by rw [hrule, hcheck, ok_bind])

/-- Settles O25: mode and validity are the first check of each of the commands. -/
theorem wrongModeIsSequenceError : Obligations.WrongModeIsSequenceError := by
  refine fun s n => ⟨fun hfault => ⟨fun hmode => ?_, fun h => ?_, fun hmode => ?_, fun hmode => ?_, fun hmode => ?_, fun hmode => ?_,
    fun h => ?_⟩, fun hmodel => ?_, fun htree => ?_⟩
  · exact faultsWith_of_rule (carriedOut_of_no_fault hfault) (if_pos hmode)
  · have hcheck := requireIdleModel_raises h
    exact ⟨faultsWith_of_check (carriedOut_of_no_fault hfault) hcheck rfl, faultsWith_of_check (carriedOut_of_no_fault hfault) hcheck rfl⟩
  · have hcheck := requireMode_raises hmode
    exact ⟨faultsWith_of_check (carriedOut_of_no_fault hfault) hcheck rfl, faultsWith_of_check (carriedOut_of_no_fault hfault) hcheck rfl⟩
  · exact faultsWith_of_check (carriedOut_of_no_fault hfault) (requireMode_raises hmode) rfl
  · exact faultsWith_of_check (carriedOut_of_no_fault hfault) (requireMode_raises hmode) rfl
  · exact faultsWith_of_check (carriedOut_of_no_fault hfault) (requireMode_raises hmode) rfl
  · have hcheck := requireIdleTree_raises h
    exact ⟨faultsWith_of_check (carriedOut_of_no_fault hfault) hcheck rfl, faultsWith_of_check (carriedOut_of_no_fault hfault) hcheck rfl⟩
  · have hcheck := requireModel_raises hmodel
    exact ⟨faultsWith_of_check (.inl rfl) hcheck rfl, faultsWith_of_check (.inl rfl) hcheck rfl, faultsWith_of_check (.inl rfl) hcheck rfl⟩
  · exact ⟨faultsWith_dbgRead (treeValue_invalid htree), faultsWith_dbgRead (treeValue_invalid htree),
      faultsWith_dbgRead (treeValue_invalid htree), faultsWith_treeReads htree n⟩

/-- Settles O26: the symbol is the second check of each of the commands, after mode and validity (30 R72); of `AH_READ_LOC` it is the check
of an operand other than the NYT's. -/
theorem symbolOutsideAlphabetFaults : Obligations.SymbolOutsideAlphabetFaults := by
  refine fun s a ha => ⟨fun hfault => ⟨fun hmode hmodel => ?_, fun hmode => ?_, fun hmode => ?_, fun hmode htree => ?_⟩, fun hmodel => ?_,
    fun htree hnyt => faultsWith_ahReadLoc htree hnyt ha⟩
  · exact faultsWith_of_symbol (carriedOut_of_no_fault hfault) ha (requireIdleModel_pass hmode hmodel) rfl
  · exact faultsWith_of_symbol (carriedOut_of_no_fault hfault) ha (requireMode_pass hmode) rfl
  · exact faultsWith_of_symbol (carriedOut_of_no_fault hfault) ha (requireMode_pass hmode) rfl
  · exact faultsWith_of_symbol (carriedOut_of_no_fault hfault) ha (requireIdleTree_pass hmode htree) rfl
  · have hcheck := requireModel_pass hmodel
    exact ⟨faultsWith_of_symbol (.inl rfl) ha hcheck rfl, faultsWith_of_symbol (.inl rfl) ha hcheck rfl⟩

end Sys2Proof.Machine
end

section
/-! PROOFS. Progress of every step (70 R172, R173): a command can stop the machine only where its rule is stuck, which `fine_rule` excludes, and
every other access answers at once. -/

namespace Sys2Proof.Machine

/-- In a state that meets the invariants every command ends in a next state: its rule is not stuck (41 R91, 42 R108). -/
theorem exec_ends (i : Instr) {s : State} (hb : BlockInv s) (ht : TreeInv s) : ∃ t, exec i s = .next t := by
  cases he : exec i s with
  | next t => exact ⟨t, rfl⟩
  | fault f =>
    obtain ⟨_, _, hraised, -⟩ := fine_rule i hb ht _ (exec_fault he)
    cases hraised
  | refused r => exact absurd he (exec_ne_refused i s r)

/-- A delivered word is a command, or it is rejected (30 R70). -/
theorem deliverCommand_ends (c : Word) {s : State} (hb : BlockInv s) (ht : TreeInv s) : ∃ t, deliverCommand c s = .next t := by
  cases hdec : decode c with
  | ok i =>
    rw [deliverCommand_ok hdec]
    exact exec_ends i hb ht
  | error e => exact ⟨_, deliverCommand_error hdec s⟩

/-- A 32-bit write at the offset of `CMD` delivers its word (20 R54). -/
theorem applyAccess_write_cmd (s : State) (v : Word) : applyAccess (.write Register.cmd.offset .word v) s = deliverCommand v s := rfl

theorem applyAccess_ends (a : HostAccess) {s : State} (hb : BlockInv s) (ht : TreeInv s) : ∃ t, applyAccess a s = .next t := by
  cases a with
  | read off w => exact ⟨_, rfl⟩
  | write off w v =>
    cases hreg : registerOf off w with
    | none => exact ⟨_, applyAccess_write_none hreg s v⟩
    | some r =>
      obtain ⟨rfl, rfl⟩ := registerOf_some hreg
      by_cases hr : r = .cmd
      case pos =>
        rw [hr, applyAccess_write_cmd]
        exact deliverCommand_ends v hb ht
      case neg => exact ⟨_, applyAccess_write_register hreg hr s v⟩

/-- Settles O16: with no access pending the step keeps the state, and the next pending access ends (`applyAccess_ends`). -/
theorem stepAlwaysEnds : Obligations.StepAlwaysEnds := by
  intro s hb ht
  cases hpend : s.host.pending with
  | nil => exact ⟨s, step_no_pending hpend⟩
  | cons a rest =>
    rw [step_pending hpend]
    exact applyAccess_ends a (hb.withHost _) (tree_same ht rfl rfl)

end Sys2Proof.Machine
end

section
/-! PROOFS. Reset (70 R164): the table of every build, and the invariants of every legal build. -/

namespace Sys2Proof.Machine

/-- The default build is legal (00 R9). -/
theorem legalBuild_default : LegalBuild Params.default := by constructor <;> decide

/-- `CFG.K` of a legal build's reset is KMAX, which fits its 16 bits. -/
theorem conf_reset_k {par : Params} (h : LegalBuild par) : (Conf.reset par.kmax).k.toNat = par.kmax :=
  Nat.mod_eq_of_lt (Nat.lt_succ_of_le h.kmax_max)

/-- The location index is clear at reset. -/
theorem locOf_reset (kmax : Nat) (x : Key) : (Tree.reset kmax).locOf x = .absent := by
  have hclear : (Tree.reset kmax).clearLocs = Tree.reset kmax := by simp only [Tree.clearLocs, Tree.reset, List.length_replicate]
  rw [← hclear, locOf_clear]

/-- Every field of `STATUS` is 0 at reset. -/
theorem statusWord_reset (par : Params) : (State.resetWith par).statusWord = 0#32 := by
  have hfields : (State.resetWith par).statusWord = 0#12 ++ 0#4 ++ 0#6 ++ 0#1 ++ 0#1 ++ 0#1 ++ 0#3 ++ 0#1 ++ 0#1 ++ 0#1 ++ 0#1 := rfl
  rw [hfields]
  decide

/-- Settles O12: the rows are the fields of `State.resetWith`, all but `LOC`, `CFG.K`, `STATUS` and `PARAM`, which have a lemma each. -/
theorem resetLeavesTheTable : Obligations.ResetLeavesTheTable := fun par =>
  ⟨rfl, rfl, rfl, rfl, rfl, rfl, rfl, locOf_reset par.kmax, rfl, rfl, rfl, conf_reset_k, rfl, rfl, rfl, rfl, rfl, rfl, rfl, rfl, rfl, rfl,
    rfl, rfl, rfl, rfl, statusWord_reset par, rfl,
    fun hbuild => (hostRead_some (r := .param) rfl _).trans (congrArg (·, State.resetWith par) (paramWord_eq hbuild))⟩

/-- Settles O13, from the two invariants at reset, which the steps need for the soft reset too. -/
theorem resetMeetsTheInvariants : Obligations.ResetMeetsTheInvariants :=
  ⟨legalBuild_default, fun par hbuild => ⟨blockInv_resetWith hbuild, treeInv_resetWith par⟩⟩

end Sys2Proof.Machine
end
